-- ==== Sys2Proof/Word.lean ====
section
/-! DEFINITION. The word types of the hardware: RA8875 bytes, 16-bit pairs and pixels, 32-bit command
words and host registers, 10-bit raw touch coordinates (spec 00_scope.md, R6 and R10). -/

namespace Sys2Proof

/-- An RA8875 register address or value, and one SPI byte slot (R6). -/
abbrev Byte := BitVec 8

/-- A register pair, a pixel, a count or a millisecond value (R6). -/
abbrev Half := BitVec 16

/-- A command word or a host register (R6). -/
abbrev Word := BitVec 32

/-- A raw touch coordinate (R6). -/
abbrev Coord := BitVec 10

/-- `zext_32(v)` of R10, for any narrower field. -/
abbrev zext32 {n : Nat} (v : BitVec n) : Word := v.setWidth 32

/-- One flag as one bit of a register. -/
abbrev flagBit (b : Bool) : BitVec 1 := BitVec.ofBool b

end Sys2Proof
end

