-- ==== Sys2Proof/Config.lean ====
section
/-! DEFINITION. The parameters of spec 00_scope.md R6, the format and validity of `INIT_TABLE`
(43_system_commands.md R203, R208, R209), the value this hardware gives each parameter, and the free
values of the model: the OPEN parameters, the device's answers beyond those an input list supplies,
and the line buffer's contents after a block reset. -/

namespace Sys2Proof

/-- The order in which the bits of a byte go over MOSI and MISO (R6, `BIT_ORDER`). -/
inductive BitOrder where
  | msbFirst
  | lsbFirst
  deriving DecidableEq, Repr, Inhabited

/-- The seven phases of the initialisation sequence, in the order R203 requires. -/
inductive InitPhase where
  | pll
  | pixfmt
  | hsync
  | vsync
  | awin
  | clear
  | enable
  deriving DecidableEq, Repr, Inhabited

/-- The four kinds of an `INIT_TABLE` entry (R208). -/
inductive InitKind where
  | wr
  | wr16
  | wt
  | dl
  deriving DecidableEq, Repr, Inhabited

/-- One `INIT_TABLE` entry `(phase, kind, a, d)` (R208). `WR` and `WT` use the low byte of `d`; `DL` uses `d` alone. -/
structure InitEntry where
  phase : InitPhase
  kind  : InitKind
  a     : Byte
  d     : Half
  deriving DecidableEq, Repr, Inhabited

/-- The position of a phase in the required order (R203). -/
def InitPhase.order : InitPhase → Nat
  | .pll => 1
  | .pixfmt => 2
  | .hsync => 3
  | .vsync => 4
  | .awin => 5
  | .clear => 6
  | .enable => 7

/-- What R209 items 3 to 6 leave OPEN of one geometry's table: which entries select 16 bits per pixel, clear the frame
buffer, and turn on display output, backlight PWM and the TFT enable line; the addresses of the four active-window
entries; and the busy bit of a clear that starts an operation in the device. R209 ties none of them to the other
geometry's table, so each geometry has its own (DESIGN CHOICE, notes/assumptions/31.md). -/
structure InitContent where
  pixelFormat : List InitEntry
  /-- the addresses of the left X, top Y, right X and bottom Y entries (R209 item 4) -/
  awinLeft    : Byte
  awinTop     : Byte
  awinRight   : Byte
  awinBottom  : Byte
  clear       : List InitEntry
  /-- the status register and busy mask of a clear that the device goes on with, if it does -/
  clearBusy   : Option (Byte × Byte)
  display     : List InitEntry
  backlight   : List InitEntry
  tftEnable   : List InitEntry
  deriving DecidableEq, Repr, Inhabited

/-- The device facts that R209 leaves OPEN but that its fixed entries refer to. -/
structure PanelRegs where
  /-- the PLL divisor register, one for both geometries: R209 item 2 says "the same divisor register" as item 1 -/
  pllDivisor : Byte
  /-- what is OPEN in the tables of geometry 0 and of geometry 1 -/
  content0   : InitContent
  content1   : InitContent
  deriving DecidableEq, Repr, Inhabited

/-- What is OPEN in the table of geometry `g`. -/
def PanelRegs.content (r : PanelRegs) (g : Nat) : InitContent := if g = 0 then r.content0 else r.content1

/-- Width and height of geometry 0 and geometry 1 (R202); every other code is a CONFIG_ERROR. -/
def geometrySize : Nat → Option (Nat × Nat)
  | 0 => some (480, 272)
  | 1 => some (800, 480)
  | _ => none

/-- The phases of a table never go back (R203). -/
def phasesInOrder : List InitEntry → Bool
  | [] => true
  | [_] => true
  | e :: f :: r => decide (e.phase.order ≤ f.phase.order) && phasesInOrder (f :: r)

/-- The entries of one phase, in table order. -/
def entriesOf (p : InitPhase) (t : List InitEntry) : List InitEntry :=
  t.filter (fun e => e.phase == p)

/-- An entry that writes a register or a register pair (R208). -/
def InitEntry.writes (e : InitEntry) : Bool := e.kind == .wr || e.kind == .wr16

/-- The entries `part` stand in the phase `p` of a table: at least one, each a write, in any order among the table's
other entries of that phase (R203, R209). -/
def holdsPart (p : InitPhase) (part t : List InitEntry) : Bool :=
  !part.isEmpty && part.all fun e => e.writes && e.phase == p && t.contains e

/-- A write of `v` to register `a`: a `WR` there, or a `WR16` whose low byte goes there or whose high byte does (R208). -/
def InitEntry.writesReg (a v : Byte) (e : InitEntry) : Bool :=
  match e.kind with
  | .wr => e.a == a && e.d.setWidth 8 == v
  | .wr16 => (e.a == a && e.d.setWidth 8 == v) || (e.a + 1#8 == a && (e.d >>> 8).setWidth 8 == v)
  | .wt => false
  | .dl => false

/-- The PLL condition of R209 items 1 and 2. For geometry 0 the phase has a `WR` of 0x0a to the divisor register, and no
entry of the table writes 0x0b there (item 1's "not 0x0b"; 95_test_vectors.md S7). For geometry 1 the phase has a `WR` of
another value than 0x0a there, whatever its other entries. -/
def pllValid (r : PanelRegs) (g : Nat) (t : List InitEntry) : Bool :=
  let divisor := (entriesOf .pll t).filter fun e => e.kind == .wr && e.a == r.pllDivisor
  if g = 0 then
    divisor.any (fun e => e.d.setWidth 8 == 0x0a#8) && !t.any (InitEntry.writesReg r.pllDivisor 0x0b#8)
  else divisor.any fun e => e.d.setWidth 8 != 0x0a#8

/-- The active-window condition of R209 item 4: four `WR16` entries, so a table has as many of each as item 4 asks for.
The four addresses may coincide, and the table then has that entry twice (DESIGN CHOICE, notes/assumptions/31.md). -/
def awinValid (c : InitContent) (g : Nat) (t : List InitEntry) : Bool :=
  match geometrySize g with
  | none => false
  | some (w, h) =>
    let window := [(c.awinLeft, 0), (c.awinTop, 0), (c.awinRight, w - 1), (c.awinBottom, h - 1)].map fun p =>
      InitEntry.mk .awin .wr16 p.1 (BitVec.ofNat 16 p.2)
    window.all fun e => decide (window.count e ≤ t.count e)

/-- The clear condition of R209 item 5: the entries that clear the frame buffer, and a last `WT` entry on the busy bit
of a clear that the device goes on with. -/
def clearValid (c : InitContent) (t : List InitEntry) : Bool :=
  holdsPart .clear c.clear t &&
    match c.clearBusy with
    | none => true
    | some (a, m) =>
      (entriesOf .clear t).getLast?.any fun e => e.kind == .wt && e.a == a && e.d.setWidth 8 == m

/-- A table that is a valid configuration for geometry `g`: R208's three conditions, the third as R209 lists it
(notes/assumptions/23.md). -/
def tableValid (r : PanelRegs) (g : Nat) (t : List InitEntry) : Bool :=
  let c := r.content g
  phasesInOrder t &&
  t.all (fun e => e.kind != .wr16 || e.a != 0xff#8) &&
  pllValid r g t && holdsPart .pixfmt c.pixelFormat t &&
  (entriesOf .hsync t).any InitEntry.writes && (entriesOf .vsync t).any InitEntry.writes &&
  awinValid c g t && clearValid c t &&
  holdsPart .enable c.display t && holdsPart .enable c.backlight t && holdsPart .enable c.tftEnable t

/-- The implementation parameters of R6, with `RSQ_BASE` of 20_memory.md R70. -/
structure Params where
  cmdqDepth    : Nat
  linebufWords : Nat
  clkPerMs     : Nat
  sckDiv       : Nat
  spiMode      : Nat
  bitOrder     : BitOrder
  pixMsbFirst  : Bool
  readFill     : Byte
  mreadDummy   : Nat
  tCshMin      : Nat
  tRstLowMs    : Nat
  tRstWaitMs   : Nat
  hasBusErr    : Bool
  panel        : PanelRegs
  initTable0   : List InitEntry
  initTable1   : List InitEntry
  rsqBase      : Nat
  deriving DecidableEq, Repr

/-- `INIT_TABLE[g]` (R208); the list is empty for a code that is no geometry. -/
def Params.initTable (p : Params) : Nat → List InitEntry
  | 0 => p.initTable0
  | 1 => p.initTable1
  | _ => []

/-- The legal values of R6's table, and a valid `INIT_TABLE`. -/
def Params.legal (p : Params) : Bool :=
  decide (1 ≤ p.cmdqDepth ∧ p.cmdqDepth ≤ 255) &&
  decide (1 ≤ p.linebufWords ∧ p.linebufWords ≤ 1024) &&
  decide (1 ≤ p.clkPerMs) &&
  decide (2 ≤ p.sckDiv ∧ p.sckDiv % 2 = 0) &&
  decide (p.spiMode ≤ 3) &&
  decide (p.mreadDummy ≤ 2) &&
  decide (1 ≤ p.tCshMin) &&
  decide (2 ≤ p.tRstLowMs) &&
  decide (20 ≤ p.tRstWaitMs) &&
  tableValid p.panel 0 p.initTable0 &&
  tableValid p.panel 1 p.initTable1

/-- What R6 and R70 leave OPEN, as raw numbers and lists. -/
structure OpenParams where
  clk    : Nat
  sck    : Nat
  csh    : Nat
  dummy  : Nat
  base   : Nat
  panel  : PanelRegs
  table0 : List InitEntry
  table1 : List InitEntry
  deriving Inhabited

/-- The RA8875 entries and addresses of R209 items 3 to 6, from the spec's general-knowledge column; the values of display,
backlight and TFT enable are the RA8875's (PRESUMED, notes/assumptions/21.md). -/
def Config.ra8875Content : InitContent :=
  { pixelFormat := [⟨.pixfmt, .wr, 0x10#8, 0x0c#16⟩]
    awinLeft := 0x30#8
    awinTop := 0x32#8
    awinRight := 0x34#8
    awinBottom := 0x36#8
    clear := [⟨.clear, .wr, 0x8e#8, 0x80#16⟩]
    clearBusy := some (0x8e#8, 0x80#8)
    display := [⟨.enable, .wr, 0x01#8, 0x80#16⟩]
    backlight := [⟨.enable, .wr, 0x8a#8, 0x8a#16⟩, ⟨.enable, .wr, 0x8b#8, 0xff#16⟩]
    tftEnable := [⟨.enable, .wr, 0xc7#8, 0x01#16⟩] }

/-- The RA8875's registers, from the spec's general-knowledge column (PRESUMED, notes/assumptions/21.md). -/
def Config.ra8875Regs : PanelRegs :=
  { pllDivisor := 0x88#8, content0 := Config.ra8875Content, content1 := Config.ra8875Content }

/-- A valid table, used where the OPEN raw table is not a valid configuration, and by the tests
(PRESUMED, notes/assumptions/21.md). -/
def Config.exampleTable (g : Nat) : List InitEntry :=
  let size := (geometrySize g).getD (480, 272)
  let c := Config.ra8875Content
  [ ⟨.pll, .wr, 0x88#8, if g = 0 then 0x0a#16 else 0x0b#16⟩, ⟨.pll, .dl, 0x00#8, 1#16⟩ ] ++ c.pixelFormat ++
    [ ⟨.hsync, .wr, 0x14#8, 0x3b#16⟩, ⟨.vsync, .wr16, 0x19#8, 0x010f#16⟩,
      ⟨.awin, .wr16, 0x30#8, 0#16⟩, ⟨.awin, .wr16, 0x32#8, 0#16⟩,
      ⟨.awin, .wr16, 0x34#8, BitVec.ofNat 16 (size.1 - 1)⟩, ⟨.awin, .wr16, 0x36#8, BitVec.ofNat 16 (size.2 - 1)⟩ ] ++
    c.clear ++ [⟨.clear, .wt, 0x8e#8, 0x80#16⟩] ++ c.display ++ c.backlight ++ c.tftEnable

/-- The configuration builder of R203: it refuses a pair of tables that is not a valid configuration, and
puts the valid example pair with its registers in its place. -/
def OpenParams.tables (o : OpenParams) : PanelRegs × List InitEntry × List InitEntry :=
  if tableValid o.panel 0 o.table0 && tableValid o.panel 1 o.table1 then (o.panel, o.table0, o.table1)
  else (Config.ra8875Regs, Config.exampleTable 0, Config.exampleTable 1)

/-- The parameters of this hardware (R6): the fixed column as given, each OPEN one any legal value. -/
def OpenParams.params (o : OpenParams) : Params :=
  { cmdqDepth := 16, linebufWords := 1024, clkPerMs := o.clk + 1, sckDiv := 2 * (o.sck + 1), spiMode := 0,
    bitOrder := .msbFirst, pixMsbFirst := true, readFill := 0x00#8, mreadDummy := o.dummy % 3,
    tCshMin := o.csh + 1, tRstLowMs := 2, tRstWaitMs := 20, hasBusErr := false,
    panel := o.tables.1, initTable0 := o.tables.2.1, initTable1 := o.tables.2.2, rsqBase := o.base }

/-- FREE VALUE (notes/assumptions/1.md): the OPEN parameters of R6 and R70. -/
opaque Config.openParams : OpenParams

/-- FREE VALUE (notes/assumptions/3.md): the MISO byte of the n-th slot that no input list answers (R9). -/
opaque Config.freeMiso : Nat → Byte

/-- FREE VALUE (notes/assumptions/3.md): the n-th BUS_ERR sample that no input list answers (R130). -/
opaque Config.freeBusErr : Nat → Bool

/-- FREE VALUE (notes/assumptions/4.md): line-buffer entry i after the n-th block reset (70_reset_and_hazards.md R344). -/
opaque Config.freeLb : Nat → Nat → Half

/-- FREE VALUE (notes/assumptions/22.md): ERRAUX.STEP for a fault in cycle `now` at the entry with 1-based index
`step`, where the index does not fit the field (10_state.md R37). -/
opaque Config.freeStep (now step : Nat) : BitVec 15

/-- The parameters the machine has at `State.reset`. -/
def Config.params : Params := Config.openParams.params

end Sys2Proof
end

