-- ==== Sys2Proof/Syntax.lean ====
section
/-! DEFINITION. The abstract syntax of RSQ-1 (spec 30_encoding.md R100 to R106): one constructor per row of
spec/opcode_table.json. The first argument of each is the chain bit K (R102). -/

namespace Sys2Proof

/-- The commands of RSQ-1 (R106), with their operand fields as R103 and R104 give them. -/
inductive Instr where
  | nop (k : Bool)
  | wreg (k : Bool) (a v : Byte)
  | rreg (k : Bool) (a : Byte)
  | wreg16 (k : Bool) (a : Byte) (d : Half)
  | wait (k : Bool) (a m : Byte)
  | delay (k : Bool) (ms : Half)
  | mwrite (k : Bool) (a : Byte) (n : Half)
  | mread (k : Bool) (a : Byte) (n : Half)
  | reset (k : Bool)
  | init (k : Bool) (g : Half)
  | tpoll (k : Bool)
  deriving DecidableEq, Repr

/-- The chain bit of a command (R102). -/
def Instr.k : Instr → Bool
  | .nop k => k
  | .wreg k _ _ => k
  | .rreg k _ => k
  | .wreg16 k _ _ => k
  | .wait k _ _ => k
  | .delay k _ => k
  | .mwrite k _ _ => k
  | .mread k _ _ => k
  | .reset k => k
  | .init k _ => k
  | .tpoll k => k

end Sys2Proof
end

