-- ==== Sys2Proof/Decode.lean ====
section
/-! DEFINITION. Command decode and encode (spec 30_encoding.md R100 to R113): the fields of a word, the opcode
map with its masks and matches, decode in R107's order of checks, and the encoder. -/

namespace Sys2Proof

/-- OP, bits [31:28] (R100). -/
def opField (w : Word) : BitVec 4 := w.extractLsb' 28 4

/-- K, bit 27 (R102). -/
def kField (w : Word) : Bool := w.getLsbD 27

/-- RSV, bits [26:24] (R100). -/
def rsvField (w : Word) : BitVec 3 := w.extractLsb' 24 3

/-- A, bits [23:16] (R103). -/
def aField (w : Word) : Byte := w.extractLsb' 16 8

/-- D, bits [15:0] (R104). -/
def dField (w : Word) : Half := w.extractLsb' 0 16

/-- V or M, bits [7:0] (R100). -/
def vField (w : Word) : Byte := w.extractLsb' 0 8

/-- The mnemonics of the opcode map (R106). -/
inductive Mnemonic where
  | nop | wreg | rreg | wreg16 | wait | mwrite | mread | delay | reset | init | tpoll
  deriving DecidableEq, Repr

/-- One row of the opcode map: a word is this command's encoding exactly when `(w & mask) = pattern` (R106). -/
structure OpRow where
  mnemonic : Mnemonic
  op       : BitVec 4
  mask     : Word
  pattern  : Word
  deriving DecidableEq, Repr

/-- The opcode map (R106). -/
def opcodeTable : List OpRow :=
  [ ⟨.nop,    0x0#4, 0xF7FFFFFF#32, 0x00000000#32⟩,
    ⟨.wreg,   0x1#4, 0xF700FF00#32, 0x10000000#32⟩,
    ⟨.rreg,   0x2#4, 0xF700FFFF#32, 0x20000000#32⟩,
    ⟨.wreg16, 0x3#4, 0xF7000000#32, 0x30000000#32⟩,
    ⟨.wait,   0x4#4, 0xF700FF00#32, 0x40000000#32⟩,
    ⟨.mwrite, 0x5#4, 0xF7000000#32, 0x50000000#32⟩,
    ⟨.mread,  0x6#4, 0xF7000000#32, 0x60000000#32⟩,
    ⟨.delay,  0x7#4, 0xF7FF0000#32, 0x70000000#32⟩,
    ⟨.reset,  0x8#4, 0xF7FFFFFF#32, 0x80000000#32⟩,
    ⟨.init,   0x9#4, 0xF7FF0000#32, 0x90000000#32⟩,
    ⟨.tpoll,  0xA#4, 0xF7FFFFFF#32, 0xA0000000#32⟩ ]

/-- The row of a defined opcode; none for the reserved opcodes 0xB to 0xF (R108). -/
def rowOf (op : BitVec 4) : Option OpRow := opcodeTable.find? (fun r => r.op == op)

/-- The command of a row with the operands of a word (R105). -/
def operandsOf (m : Mnemonic) (w : Word) : Instr :=
  match m with
  | .nop => .nop (kField w)
  | .wreg => .wreg (kField w) (aField w) (vField w)
  | .rreg => .rreg (kField w) (aField w)
  | .wreg16 => .wreg16 (kField w) (aField w) (dField w)
  | .wait => .wait (kField w) (aField w) (vField w)
  | .mwrite => .mwrite (kField w) (aField w) (dField w)
  | .mread => .mread (kField w) (aField w) (dField w)
  | .delay => .delay (kField w) (dField w)
  | .reset => .reset (kField w)
  | .init => .init (kField w) (dField w)
  | .tpoll => .tpoll (kField w)

/-- The encoding grounds on which decode rejects a word; each is ILLEGAL_CMD (R107 to R109). -/
inductive DecodeError where
  | reservedOpcode
  | nonzeroReserved
  | nonzeroZeroField
  deriving DecidableEq, Repr

/-- The encoding checks of decode, in R107's order. R107's operand-value checks follow them, in `operandError`. -/
def decode (w : Word) : Except DecodeError Instr :=
  match rowOf (opField w) with
  | none => .error .reservedOpcode
  | some r =>
    if rsvField w != 0#3 then .error .nonzeroReserved
    else if w &&& r.mask != r.pattern then .error .nonzeroZeroField
    else .ok (operandsOf r.mnemonic w)

/-- The error codes of 60_exceptions.md R300. -/
inductive ErrCode where
  | none
  | illegalCmd
  | badOperand
  | hwFault
  | configError
  | busFault
  deriving DecidableEq, Repr

/-- The STATUS.ERR value of an error code (R300); 6 to 15 are never produced. -/
def ErrCode.toBits : ErrCode → BitVec 4
  | .none => 0#4
  | .illegalCmd => 1#4
  | .badOperand => 2#4
  | .hwFault => 3#4
  | .configError => 4#4
  | .busFault => 5#4

/-- The operand-value checks of R107, after the encoding checks and before any bus activity (R110). -/
def operandError (lbWords : Nat) : Instr → Option ErrCode
  | .wreg16 _ a _ => if a = 0xff#8 then some .badOperand else none
  | .mwrite _ _ n => if n = 0#16 ∨ lbWords < n.toNat then some .badOperand else none
  | .mread _ _ n => if n = 0#16 ∨ lbWords < n.toNat then some .badOperand else none
  | .init _ g => if g = 0#16 ∨ g = 1#16 then none else some .configError
  | _ => none

/-- A field in a 32-bit word, its lowest bit at bit `i`. -/
def place {n : Nat} (i : Nat) (v : BitVec n) : Word := v.setWidth 32 <<< i

/-- The encoding formula `w = (OP << 28) | (K << 27) | (A << 16) | D`, with RSV = 0 (R100). -/
def encodeFields (op : BitVec 4) (k : Bool) (a : Byte) (d : Half) : Word :=
  place 28 op ||| place 27 (flagBit k) ||| place 16 a ||| place 0 d

/-- The word of a command (R106, R113). -/
def encode : Instr → Word
  | .nop k => encodeFields 0x0#4 k 0#8 0#16
  | .wreg k a v => encodeFields 0x1#4 k a (v.setWidth 16)
  | .rreg k a => encodeFields 0x2#4 k a 0#16
  | .wreg16 k a d => encodeFields 0x3#4 k a d
  | .wait k a m => encodeFields 0x4#4 k a (m.setWidth 16)
  | .mwrite k a n => encodeFields 0x5#4 k a n
  | .mread k a n => encodeFields 0x6#4 k a n
  | .delay k ms => encodeFields 0x7#4 k 0#8 ms
  | .reset k => encodeFields 0x8#4 k 0#8 0#16
  | .init k g => encodeFields 0x9#4 k 0#8 g
  | .tpoll k => encodeFields 0xA#4 k 0#8 0#16

/-- The word of an instruction given as the opcode table numbers its bits; bits above `nbits` are 0. -/
def tableWord (nbits w : Nat) : Word := BitVec.ofNat 32 (w % 2 ^ nbits)

/-- What the decoder reads from an opcode-table word (the host's fixed name). -/
def decodeTableWord (nbits w : Nat) : Option Instr :=
  match decode (tableWord nbits w) with
  | .ok i => some i
  | .error _ => none

end Sys2Proof
end

