-- ==== Sys2Proof/Machine/State.lean ====
section
/-! DEFINITION. The state of RSQ (spec 10_state.md R20): host registers, command FIFO, line buffer, sequencer,
poller, touch sample, bus owner, pins and the local state of a running command or poll; beside it the parameters
(00_scope.md R6), elapsed time (R17), the inputs still to come (host accesses and device answers) and what has been
observed (the bus trace of 40_spi_framing.md R130 and the values the host has read). -/

namespace Sys2Proof.Machine

/-- Why the machine stops with a fault. RSQ's own error codes are no faults of this type: their entry is a next
state (60_exceptions.md R303). -/
inductive Fault where
  /-- Raised by the host port (`hostOp`) for an address outside the 8 KiB window of 20_memory.md R70, where the
  block has no register. Safe: the run stops. -/
  | hostOutsideWindow
  deriving DecidableEq, Repr

/-- Why the model gives a step no meaning. -/
inductive Refusal where
  /-- Raised by `exec` for an instruction whose meaning is not written yet. Safe: the run stops. -/
  | notModelled (mnemonic : String)
  /-- Raised by the host port (`hostOp`) for an access that is not a 32-bit access at an offset with bits [1:0] = 0
  (20_memory.md R73: "A model refuses any host access" of that kind). Safe: the run stops. -/
  | narrowHostAccess
  deriving DecidableEq, Repr

/-- `SEQ.state` (R46). -/
inductive SeqState where
  | idle
  | exec
  | fault
  deriving DecidableEq, Repr

/-- `POLL.state` (R47). -/
inductive PollState where
  | off
  | timing
  | pending
  | active
  deriving DecidableEq, Repr

/-- `BUS_OWNER` (R45). -/
inductive BusOwner where
  | none
  | seq
  | poll
  deriving DecidableEq, Repr

/-- The events of the bus trace (40_spi_framing.md R130). -/
inductive BusEvent where
  | csl
  | csh (e : Bool)
  | x (t r : Byte)
  | rstl
  | rsth
  deriving DecidableEq, Repr

/-- A bus event and the block cycle at which it happened. -/
structure TraceEntry where
  cycle : Nat
  event : BusEvent
  deriving DecidableEq, Repr

/-- What the outside world can do at the host port and the RESET_N pin: `MemRead` and `MemWrite` of R11 at a full
address with a size in bytes, and holding RESET_N at 0 for `low` block cycles (70_reset_and_hazards.md R340). -/
inductive HostOp where
  | read (addr size : Nat)
  | write (addr size : Nat) (v : Word)
  | blockReset (low : Nat)
  deriving DecidableEq, Repr

/-- A host action and the number of cycles the host port lies idle before it, after the action before it has ended. -/
structure HostReq where
  gap : Nat
  op  : HostOp
  deriving DecidableEq, Repr

/-- The value a host read returned. -/
structure HostRead where
  cycle : Nat
  addr  : Nat
  value : Word
  deriving DecidableEq, Repr

/-- Time, the inputs still to come and what has been observed. `TIME` is state of R20; every other field is the
model's own (notes/assumptions/2.md, 3.md and 5.md). -/
structure Env where
  /-- elapsed block cycles (R17) -/
  now       : Nat
  /-- host actions still to come, first one first -/
  host      : List HostReq
  /-- the first cycle in which the host port is free again -/
  portFree  : Nat
  /-- values returned to the host, newest first -/
  reads     : List HostRead
  /-- MISO bytes of the coming byte slots; a slot beyond the list takes `Config.freeMiso` -/
  miso      : List Byte
  /-- BUS_ERR samples of the coming CS deassertions; one beyond the list takes `Config.freeBusErr` -/
  busErr    : List Bool
  /-- how many free values have been drawn -/
  freeDraws : Nat
  /-- how many block resets have happened; selects the free line-buffer contents -/
  resets    : Nat
  /-- the bus trace, newest event first (40_spi_framing.md R130) -/
  trace     : List TraceEntry
  deriving DecidableEq, Repr

/-- The host registers that hold state (R21): CTRL's fields (R23), STATUS's stored flags (R27), RDATA (R36), the
fault record (R37), the timing registers (R39) and the touch configuration (R40). STATUS.READY, TOUCHED and TOVR
are in `Sample`; STATUS's other fields, ID, CMD, TOUCH, LBSIZE and QDEPTH are computed. -/
structure Csr where
  touchEn      : Bool
  ieReady      : Bool
  ieFault      : Bool
  ieIdle       : Bool
  tpollAct     : Bool
  cmdovf       : Bool
  lberr        : Bool
  initDone     : Bool
  err          : ErrCode
  rdata        : Word
  errcmd       : Word
  erraux       : Word
  pollPeriod   : Half
  waitLimit    : Half
  waitInterval : Half
  tcfg0        : Word
  tcfg1        : Word
  deriving DecidableEq, Repr

/-- The sequencer (R46), and the first cycle in which it may pop again after a fault return (60_exceptions.md R309). -/
structure Seq where
  state  : SeqState
  cur    : Word
  chain  : Bool
  /-- the model's own (notes/assumptions/30.md) -/
  resume : Nat
  deriving DecidableEq, Repr

/-- The poller (R47), with the poll interval it read on its last entry to TIMING (44_touch_sampler.md R232) and
whether TOUCH_EN fell while its poll was ACTIVE (R234). -/
structure Poll where
  state  : PollState
  timer  : Nat
  relcnt : Byte
  tphase : Bool
  period : Half
  stop   : Bool
  deriving DecidableEq, Repr

/-- The touch sample and its flags (R48). -/
structure Sample where
  x       : Coord
  y       : Coord
  ready   : Bool
  touched : Bool
  tovr    : Bool
  deriving DecidableEq, Repr

/-- The output pins (R49) but for IRQ, which is computed (60_exceptions.md R313), and the first cycle in which
CS_N may fall again (40_spi_framing.md R134). -/
structure Pins where
  csN   : Bool
  sck   : Bool
  mosi  : Bool
  rstN  : Bool
  cslOk : Nat
  deriving DecidableEq, Repr

/-- The local state of the running command or poll (R20): its phase count (40_spi_framing.md R143), INIT's 1-based
entry index (0 outside INIT), a WAIT's poll count and the cycle in which a wait in progress ends. All are 0 when
none runs. A command is one step, so its position in its pseudocode is never between two steps
(notes/assumptions/2.md). -/
structure Local where
  phase   : Nat
  step    : Nat
  polls   : Nat
  waitEnd : Nat
  deriving DecidableEq, Repr

/-- No command or poll in progress. -/
def Local.none : Local := { phase := 0, step := 0, polls := 0, waitEnd := 0 }

/-- The state of RSQ (R20). -/
structure State where
  /-- the parameters of R6; no step changes them -/
  par    : Params
  env    : Env
  csr    : Csr
  /-- the command FIFO `Q`, head first (R41) -/
  q      : List Word
  /-- the line buffer `LB` (R43) -/
  lb     : List Half
  seq    : Seq
  poll   : Poll
  sample : Sample
  owner  : BusOwner
  pins   : Pins
  loc    : Local
  deriving DecidableEq, Repr

/-- CTRL, STATUS and the other registers after block reset (R52). -/
def Csr.reset : Csr :=
  { touchEn := false, ieReady := false, ieFault := false, ieIdle := false, tpollAct := false, cmdovf := false,
    lberr := false, initDone := false, err := .none, rdata := 0#32, errcmd := 0#32, erraux := 0#32,
    pollPeriod := 30#16, waitLimit := 1000#16, waitInterval := 1#16, tcfg0 := 0x737204F1#32,
    tcfg1 := 0x00012074#32 }

/-- The line buffer after the `n`-th block reset: each entry any value, fixed until written (R344). -/
def lbAtReset (words n : Nat) : List Half := (List.range words).map (Config.freeLb n)

/-- The idle level of SCK: 0 for modes 0 and 1, 1 for modes 2 and 3 (R49). -/
def sckIdle (mode : Nat) : Bool := decide (2 ≤ mode)

/-- The state of R52 with parameters `p`, in the surroundings `e`: every field a block reset sets. -/
def State.afterReset (p : Params) (e : Env) (cslOk : Nat) : State :=
  { par := p
    env := e
    csr := Csr.reset
    q := []
    lb := lbAtReset p.linebufWords e.resets
    seq := { state := .idle, cur := 0#32, chain := false, resume := 0 }
    poll := { state := .off, timer := 0, relcnt := 0#8, tphase := false, period := 0#16, stop := false }
    sample := { x := 0#10, y := 0#10, ready := false, touched := false, tovr := false }
    owner := .none
    pins := { csN := true, sck := sckIdle p.spiMode, mosi := false, rstN := true, cslOk := cslOk }
    loc := Local.none }

/-- Nothing has happened and nothing is to come. -/
def Env.start : Env :=
  { now := 0, host := [], portFree := 0, reads := [], miso := [], busErr := [], freeDraws := 0, resets := 0,
    trace := [] }

/-- The machine with parameters `p` right after block reset (R52). -/
def State.resetWith (p : Params) : State := State.afterReset p Env.start 0

/-- The machine right after block reset (R52), with the parameters of this hardware. -/
def State.reset : State := State.resetWith Config.params

end Sys2Proof.Machine
end

