-- ==== Sys2Proof/Machine/Operands.lean ====
section
/-! DEFINITION. How operands and data are cut from words and put together: the bytes of a register pair and of a
pixel, the bits of a byte on the wire, the fields of TCFG0, TCFG1 and ERRAUX, and the touch coordinates. -/

namespace Sys2Proof.Machine

/-- The low byte of a pair, at the lower address (20_memory.md R75 item 2). -/
def loByte (v : Half) : Byte := v.extractLsb' 0 8

/-- The high byte of a pair, at the address after it (R75 item 2). -/
def hiByte (v : Half) : Byte := v.extractLsb' 8 8

/-- The first byte of a pixel on the bus, `PixBytes` of 42_bulk_commands.md R180. -/
def pixFirst (msbFirst : Bool) (p : Half) : Byte := if msbFirst then hiByte p else loByte p

/-- The second byte of a pixel on the bus, `PixBytes` of R180. -/
def pixSecond (msbFirst : Bool) (p : Half) : Byte := if msbFirst then loByte p else hiByte p

/-- `PixBytes(p)` of R180. -/
def pixBytes (msbFirst : Bool) (p : Half) : List Byte := [pixFirst msbFirst p, pixSecond msbFirst p]

/-- `PixValue(b0, b1)` of R180. -/
def pixValue (msbFirst : Bool) (b0 b1 : Byte) : Half := if msbFirst then b0 ++ b1 else b1 ++ b0

/-- Bit `i` of a byte slot on the wire, i counting the bit times from 0 (40_spi_framing.md R132). -/
def wireBit (o : BitOrder) (b : Byte) (i : Nat) : Bool :=
  match o with
  | .msbFirst => b.getMsbD i
  | .lsbFirst => b.getLsbD i

/-- The eight bits of a byte in the order in which they go over the wire (R132). -/
def toWire (o : BitOrder) (b : Byte) : List Bool := (List.range 8).map (wireBit o b)

/-- The byte of a run of bits whose first bit is the most significant. -/
def byteOfBits (bs : List Bool) : Byte := bs.foldl (fun acc b => (acc <<< 1) ||| (flagBit b).setWidth 8) 0#8

/-- The byte assembled from the eight bits sampled on MISO, in the same bit order (R132). -/
def fromWire (o : BitOrder) (bs : List Bool) : Byte :=
  match o with
  | .msbFirst => byteOfBits bs
  | .lsbFirst => byteOfBits bs.reverse

/-- TCFG0.INT_ADDR (10_state.md R40). -/
def intAddr (tcfg0 : Word) : Byte := tcfg0.extractLsb' 0 8

/-- TCFG0.INT_MASK (R40). -/
def intMask (tcfg0 : Word) : Byte := tcfg0.extractLsb' 8 8

/-- TCFG0.XH_ADDR (R40). -/
def xhAddr (tcfg0 : Word) : Byte := tcfg0.extractLsb' 16 8

/-- TCFG0.YH_ADDR (R40). -/
def yhAddr (tcfg0 : Word) : Byte := tcfg0.extractLsb' 24 8

/-- TCFG1.XYL_ADDR (R40). -/
def xylAddr (tcfg1 : Word) : Byte := tcfg1.extractLsb' 0 8

/-- TCFG1.XL_SHIFT (R40). -/
def xlShift (tcfg1 : Word) : Nat := (tcfg1.extractLsb' 8 3).toNat

/-- TCFG1.YL_SHIFT (R40). -/
def ylShift (tcfg1 : Word) : Nat := (tcfg1.extractLsb' 12 3).toNat

/-- TCFG1.RELEASE_POLLS (R40). -/
def releasePolls (tcfg1 : Word) : Byte := tcfg1.extractLsb' 16 8

/-- What a write of `v` stores in TCFG1: bits 11, 15 and [31:24] read 0, RELEASE_POLLS = 0 stores 1 (R40). -/
def tcfg1Stored (v : Word) : Word :=
  let kept := v &&& 0x00FF77FF#32
  if releasePolls kept = 0#8 then kept ||| 0x00010000#32 else kept

/-- What a write of `v` stores in a timing register whose legal values begin at 1 (R39). -/
def atLeastOne (v : Word) : Half :=
  let kept := v.setWidth 16
  if kept = 0#16 then 1#16 else kept

/-- A raw coordinate from its high byte and the shared low-bits register (44_touch_sampler.md R236, R237). -/
def coordOf (high low : Byte) (shift : Nat) : Coord :=
  (high.setWidth 10 <<< 2) ||| ((low >>> shift).setWidth 10 &&& 0x3#10)

/-- ERRAUX.STEP for the 1-based entry index `step` (0 outside INIT) of a fault in cycle `now`. R37 does not say what the
15-bit field holds for an index above 32767: a free value (notes/assumptions/22.md). -/
def stepField (now step : Nat) : BitVec 15 := if step < 32768 then BitVec.ofNat 15 step else Config.freeStep now step

/-- ERRAUX from its fields BG, STEP and DETAIL (10_state.md R37). -/
def errauxOf (bg : Bool) (step : BitVec 15) (detail : Half) : Word :=
  place 31 (flagBit bg) ||| place 16 step ||| place 0 detail

/-- ERRAUX.DETAIL of a BUS_FAULT: the phase index, saturating at 0xFFFF (R37). -/
def phaseDetail (phase : Nat) : Half := BitVec.ofNat 16 (min phase 0xFFFF)

/-- The busy test of WAIT: some bit of the mask is set in the status byte. M = 0 is never busy, whatever the device
returns (41_register_commands.md R156). -/
def isBusy (r m : Byte) : Bool := m != 0#8 && (r &&& m) != 0#8

/-- A poll found the touch bit set (44_touch_sampler.md R236). -/
def touchSet (status mask : Byte) : Bool := mask != 0#8 && (status &&& mask) != 0#8

end Sys2Proof.Machine
end

