-- ==== Sys2Proof/Machine/Flags.lean ====
section
/-! DEFINITION. The flags and registers that RSQ computes from its state: the STATUS fields (10_state.md R27 to
R34), the line-buffer lock (R44), the IRQ output (60_exceptions.md R313) and the values that reads of CTRL, STATUS
and TOUCH return. -/

namespace Sys2Proof.Machine

/-- STATUS.BUSY (R28). -/
def State.busy (s : State) : Bool := s.seq.state == .exec

/-- STATUS.FAULT (R30). -/
def State.faulted (s : State) : Bool := s.seq.state == .fault

/-- STATUS.TS: 1 Touched, 2 Ready, 0 Idle (R31). -/
def State.ts (s : State) : BitVec 2 :=
  if s.poll.tphase then 1#2 else if s.sample.ready then 2#2 else 0#2

/-- STATUS.QCOUNT (R34). -/
def State.qcount (s : State) : BitVec 8 := BitVec.ofNat 8 s.q.length

/-- The idle condition of IE_IDLE: BUSY = 0, QCOUNT = 0 and FAULT = 0 (R313). -/
def State.isIdle (s : State) : Bool := !s.busy && s.q.isEmpty && !s.faulted

/-- The IRQ output and STATUS.IRQ (R313). -/
def State.irq (s : State) : Bool :=
  (s.csr.ieReady && s.sample.ready) || (s.csr.ieFault && s.faulted) || (s.csr.ieIdle && s.isIdle)

/-- The value of STATUS (R27). -/
def State.status (s : State) : Word :=
  place 0 (flagBit s.busy) ||| place 1 (flagBit s.csr.tpollAct) ||| place 2 (flagBit s.faulted) |||
    place 3 (flagBit s.sample.ready) ||| place 4 (flagBit s.sample.touched) ||| place 5 s.ts |||
    place 7 (flagBit s.seq.chain) ||| place 8 (flagBit s.csr.cmdovf) ||| place 9 (flagBit s.csr.lberr) |||
    place 10 (flagBit s.sample.tovr) ||| place 11 (flagBit s.csr.initDone) ||| place 12 s.csr.err.toBits |||
    place 16 s.qcount ||| place 24 (flagBit s.irq)

/-- The value of CTRL (R23). FLUSH and the reserved bits read 0. -/
def State.ctrl (s : State) : Word :=
  place 0 (flagBit s.csr.touchEn) ||| place 1 (flagBit s.csr.ieReady) ||| place 2 (flagBit s.csr.ieFault) |||
    place 3 (flagBit s.csr.ieIdle)

/-- The value a read of TOUCH returns (10_state.md R38, 44_touch_sampler.md R244). -/
def State.touch (s : State) : Word :=
  place 31 (flagBit s.sample.ready) ||| place 16 s.sample.x ||| place 0 s.sample.y

/-- A raw word whose OP field is MWRITE's or MREAD's (R44). -/
def isBulkWord (w : Word) : Bool := opField w == 0x5#4 || opField w == 0x6#4

/-- `LB_LOCK` (R44). -/
def State.lbLock (s : State) : Bool :=
  s.q.any isBulkWord || (s.busy && isBulkWord s.seq.cur)

end Sys2Proof.Machine
end

