-- ==== Sys2Proof/Machine/Ops.lean ====
section
/-! DEFINITION. The named operations over the state that every agent shares: the passing of block cycles, the bus
trace, the device's draws, the start and end of a poll interval, block reset, fault entry (60_exceptions.md R303)
and the fault return beside it (R309). -/

namespace Sys2Proof.Machine

/-- Pushes a bus event on the trace at the current cycle (40_spi_framing.md R130). -/
def emit (ev : BusEvent) (s : State) : State :=
  { s with env := { s.env with trace := { cycle := s.env.now, event := ev } :: s.env.trace } }

/-- The poller's part of `n` block cycles: in TIMING the timer counts them, and reaching
`POLL_PERIOD * CLK_PER_MS` makes the poll PENDING (44_touch_sampler.md R231, R232). -/
def Poll.advance (clkPerMs n : Nat) (p : Poll) : Poll :=
  match p.state with
  | .timing =>
    if p.period.toNat * clkPerMs ≤ p.timer + n then
      { p with state := .pending, timer := p.period.toNat * clkPerMs }
    else { p with timer := p.timer + n }
  | .off => p
  | .pending => p
  | .active => p

/-- `TIME` advances by `n` block cycles in which no other agent acts (00_scope.md R17). -/
def tick (n : Nat) (s : State) : State :=
  { s with env := { s.env with now := s.env.now + n }, poll := s.poll.advance s.par.clkPerMs n }

/-- The next MISO byte: the head of the input list, or a free value (R9). -/
def Env.nextMiso (e : Env) : Byte :=
  match e.miso with
  | b :: _ => b
  | [] => Config.freeMiso e.freeDraws

/-- The surroundings after the next MISO byte is taken. -/
def Env.takeMiso (e : Env) : Env :=
  match e.miso with
  | _ :: r => { e with miso := r }
  | [] => { e with freeDraws := e.freeDraws + 1 }

/-- The next BUS_ERR sample: the head of the input list, or a free value (R130). -/
def Env.nextBusErr (e : Env) : Bool :=
  match e.busErr with
  | b :: _ => b
  | [] => Config.freeBusErr e.freeDraws

/-- The surroundings after the next BUS_ERR sample is taken. -/
def Env.takeBusErr (e : Env) : Env :=
  match e.busErr with
  | _ :: r => { e with busErr := r }
  | [] => { e with freeDraws := e.freeDraws + 1 }

/-- BUS_ERR as a rise of CS_N in this state samples it, 0 where the hardware has no such input (R130). -/
def State.busError (s : State) : Bool := s.par.hasBusErr && s.env.nextBusErr

/-- The event of a rise of CS_N, with the BUS_ERR sample that hardware with that input takes (R130). -/
def emitRise (s : State) : State :=
  emit (.csh s.busError) { s with env := if s.par.hasBusErr then s.env.takeBusErr else s.env }

/-- `RDATA <- zext_32(r)` (41_register_commands.md R154, R156). -/
def setRdata (r : Byte) (s : State) : State := { s with csr := { s.csr with rdata := zext32 r } }

/-- `STATUS.INIT_DONE <- b` (10_state.md R33). -/
def setInitDone (b : Bool) (s : State) : State := { s with csr := { s.csr with initDone := b } }

/-- `LB[i] <- v` (10_state.md R43). -/
def setLb (i : Nat) (v : Half) (s : State) : State := { s with lb := s.lb.set i v }

/-- `LB[i]` (R43). -/
def getLb (i : Nat) (s : State) : Half := s.lb.getD i 0#16

/-- The poller after a poll has ended: TIMING with the timer at 0 and POLL_PERIOD read anew if TOUCH_EN = 1, else OFF
(44_touch_sampler.md R231, R232); the release count is cleared again if TOUCH_EN fell during the poll (R234). -/
def Poll.ended (touchEn : Bool) (period : Half) (p : Poll) : Poll :=
  { p with
    state := if touchEn then .timing else .off
    timer := 0
    period := if touchEn then period else p.period
    relcnt := if p.stop then 0#8 else p.relcnt
    stop := false }

/-- The end of a background poll but for the bus (R231, R234, R235): the poller's next state, TPOLL_ACT, and TOUCHED
cleared again if TOUCH_EN fell during the poll. -/
def endPoll (s : State) : State :=
  { s with
    csr := { s.csr with tpollAct := false }
    poll := s.poll.ended s.csr.touchEn s.csr.pollPeriod
    sample := { s.sample with touched := s.sample.touched && !s.poll.stop } }

/-- Who raised a fault (R303): a command, a TPOLL command's poll, or a background poll. -/
inductive Raiser where
  | command
  | tpoll
  | background
  deriving DecidableEq, Repr

/-- The record of a first fault (R303): SEQ.state, STATUS.ERR, ERRCMD and ERRAUX. -/
def recordFault (bg : Bool) (code : ErrCode) (detail : Half) (s : State) : State :=
  { s with
    seq := { s.seq with state := .fault }
    csr := { s.csr with
      err := code
      errcmd := if bg then 0xA0000000#32 else s.seq.cur
      erraux := errauxOf bg (stepField s.env.now s.loc.step) detail } }

/-- Fault entry, one step (R303). In FAULT the first record is kept (R310). -/
def faultEntry (who : Raiser) (code : ErrCode) (detail : Half) (s : State) : State :=
  let s := if s.faulted then s else recordFault (who == .background) code detail s
  let s := { s with owner := .none, loc := Local.none }
  match who with
  | .command => { s with seq := { s.seq with chain := false } }
  | .tpoll =>
    { s with
      seq := { s.seq with chain := false }
      poll := { s.poll with tphase := false }
      csr := { s.csr with tpollAct := false } }
  | .background => endPoll { s with poll := { s.poll with tphase := false } }

/-- Fault return: a host write of 1 to STATUS.FAULT (R309). SEQ pops the next word in a later cycle. It has no effect
outside FAULT (10_state.md R30). -/
def faultReturn (s : State) : State :=
  if s.faulted then
    { s with
      seq := { s.seq with state := .idle, resume := s.env.now + 1 }
      csr := { s.csr with err := .none } }
  else s

/-- Normal completion of a command, one step (41_register_commands.md R150). -/
def complete (k : Bool) (s : State) : State :=
  { s with
    seq := { s.seq with chain := k, state := .idle }
    owner := if k then s.owner else .none
    loc := Local.none }

/-- The pop of a command word, one step (R150). -/
def popWord (w : Word) (rest : List Word) (s : State) : State :=
  { s with
    q := rest
    seq := { s.seq with cur := w, state := .exec }
    owner := .seq
    loc := Local.none }

/-- The pins' return to their reset levels as the trace shows it: CS_N, with its BUS_ERR sample, and RST_N rise if they
were low (70_reset_and_hazards.md R341, 40_spi_framing.md R130; notes/assumptions/9.md). -/
def releasePins (s : State) : State :=
  let s := if s.pins.csN then s else emitRise s
  if s.pins.rstN then s else emit .rsth s

/-- The first cycle in which CS_N may fall after a block reset: R134 holds across it. -/
def cslOkAfterReset (s : State) : Nat :=
  if s.pins.csN then s.pins.cslOk else s.env.now + s.par.tCshMin

/-- Block reset with RESET_N held at 0 for `low` cycles, from the current cycle to the one in which it rises
(70_reset_and_hazards.md R340, R341). Inputs, the trace and the host's reads are the outside world's and stay. -/
def blockReset (low : Nat) (s : State) : State :=
  let t := releasePins s
  State.afterReset s.par
    { t.env with
      now := s.env.now + low + 1
      portFree := s.env.now + low + 1
      resets := s.env.resets + 1 }
    (cslOkAfterReset s)

end Sys2Proof.Machine
end

