-- ==== Sys2Proof/Machine/HostPort.lean ====
section
/-! DEFINITION. The host port (spec 10_state.md R21 to R44, 20_memory.md R70 to R81): which register an offset names,
what a read returns and changes, what a write changes, and the host actions of the input list. -/

namespace Sys2Proof.Machine

/-- What an offset of the CSR window names (10_state.md R21). -/
inductive CsrName where
  | id
  | ctrl
  | status
  | cmd
  | rdata
  | errcmd
  | erraux
  | touch
  | pollPeriod
  | waitLimit
  | waitInterval
  | tcfg0
  | tcfg1
  | lbsize
  | qdepth
  | lb (i : Nat)
  | reserved
  deriving DecidableEq, Repr

/-- The CSR map (R21), for a word-aligned offset of the window; `words` is `LINEBUF_WORDS`. -/
def csrAt (words off : Nat) : CsrName :=
  match off with
  | 0x000 => .id
  | 0x004 => .ctrl
  | 0x008 => .status
  | 0x00C => .cmd
  | 0x010 => .rdata
  | 0x014 => .errcmd
  | 0x018 => .erraux
  | 0x01C => .touch
  | 0x020 => .pollPeriod
  | 0x024 => .waitLimit
  | 0x028 => .waitInterval
  | 0x02C => .tcfg0
  | 0x030 => .tcfg1
  | 0x034 => .lbsize
  | 0x038 => .qdepth
  | o => if 0x1000 ≤ o ∧ (o - 0x1000) / 4 < words then .lb ((o - 0x1000) / 4) else .reserved

/-- The value a read returns (R22 to R43; 20_memory.md R74). -/
def readValue (c : CsrName) (s : State) : Word :=
  match c with
  | .id => 0x88750100#32
  | .ctrl => s.ctrl
  | .status => s.status
  | .cmd => 0#32
  | .rdata => s.csr.rdata
  | .errcmd => s.csr.errcmd
  | .erraux => s.csr.erraux
  | .touch => s.touch
  | .pollPeriod => zext32 s.csr.pollPeriod
  | .waitLimit => zext32 s.csr.waitLimit
  | .waitInterval => zext32 s.csr.waitInterval
  | .tcfg0 => s.csr.tcfg0
  | .tcfg1 => s.csr.tcfg1
  | .lbsize => BitVec.ofNat 32 s.par.linebufWords
  | .qdepth => BitVec.ofNat 32 s.par.cmdqDepth
  | .lb i => if s.lbLock then 0#32 else zext32 (getLb i s)
  | .reserved => 0#32

/-- `STATUS.LBERR <- 1` (R32, R44). -/
def setLberr (s : State) : State := { s with csr := { s.csr with lberr := true } }

/-- What a read changes: TOUCH clears READY (44_touch_sampler.md R244), a line-buffer entry read while locked sets
LBERR (R44), and no other read changes anything (20_memory.md R78). -/
def readEffect (c : CsrName) (s : State) : State :=
  match c with
  | .touch => { s with sample := { s.sample with ready := false } }
  | .lb _ => if s.lbLock then setLberr s else s
  | .id | .ctrl | .status | .cmd | .rdata | .errcmd | .erraux | .pollPeriod | .waitLimit | .waitInterval | .tcfg0
  | .tcfg1 | .lbsize | .qdepth | .reserved => s

/-- The poller's start when TOUCH_EN goes from 0 to 1 (44_touch_sampler.md R233). While a poll is ACTIVE its state
is left alone, since R231 has no such transition (notes/assumptions/8.md). -/
def touchStart (s : State) : State :=
  match s.poll.state with
  | .active => { s with poll := { s.poll with relcnt := 0#8 } }
  | .off | .timing | .pending =>
    { s with poll := { s.poll with state := .timing, timer := 0, relcnt := 0#8, period := s.csr.pollPeriod } }

/-- The poller's stop when TOUCH_EN goes from 1 to 0 (44_touch_sampler.md R234). -/
def touchStop (s : State) : State :=
  let s := { s with sample := { s.sample with touched := false }, poll := { s.poll with relcnt := 0#8 } }
  match s.poll.state with
  | .active => { s with poll := { s.poll with stop := true } }
  | .off | .timing | .pending => { s with poll := { s.poll with state := .off } }

/-- CTRL.FLUSH (R26). Closing an idle chain gives the bus back (notes/assumptions/7.md). -/
def flush (s : State) : State :=
  let s := { s with q := [] }
  if s.seq.chain && s.seq.state == .idle then
    { s with seq := { s.seq with chain := false }, owner := .none }
  else s

/-- A write of CTRL (R23, R24): the fields first, with the poller's start or stop, then FLUSH. -/
def writeCtrl (v : Word) (s : State) : State :=
  let was := s.csr.touchEn
  let en := v.getLsbD 0
  let s := { s with csr := { s.csr with
    touchEn := en, ieReady := v.getLsbD 1, ieFault := v.getLsbD 2, ieIdle := v.getLsbD 3 } }
  let s := if en && !was then touchStart s else if was && !en then touchStop s else s
  if v.getLsbD 8 then flush s else s

/-- A write of STATUS: only the W1C bits act (R27, R30, R32). -/
def writeStatus (v : Word) (s : State) : State :=
  let s := if v.getLsbD 2 then faultReturn s else s
  { s with
    csr := { s.csr with
      cmdovf := s.csr.cmdovf && !v.getLsbD 8
      lberr := s.csr.lberr && !v.getLsbD 9 }
    sample := { s.sample with tovr := s.sample.tovr && !v.getLsbD 10 } }

/-- A write of CMD: push one word, or set CMDOVF (R35). -/
def pushWord (w : Word) (s : State) : State :=
  if s.q.length < s.par.cmdqDepth then { s with q := s.q ++ [w] }
  else { s with csr := { s.csr with cmdovf := true } }

/-- A write of a line-buffer entry (R43), refused while locked (R44). -/
def writeLb (i : Nat) (v : Word) (s : State) : State :=
  if s.lbLock then setLberr s else setLb i (v.setWidth 16) s

/-- What a write changes; read-only registers and reserved offsets ignore it (20_memory.md R74, R79). -/
def writeEffect (c : CsrName) (v : Word) (s : State) : State :=
  match c with
  | .ctrl => writeCtrl v s
  | .status => writeStatus v s
  | .cmd => pushWord v s
  | .pollPeriod => { s with csr := { s.csr with pollPeriod := atLeastOne v } }
  | .waitLimit => { s with csr := { s.csr with waitLimit := atLeastOne v } }
  | .waitInterval => { s with csr := { s.csr with waitInterval := v.setWidth 16 } }
  | .tcfg0 => { s with csr := { s.csr with tcfg0 := v } }
  | .tcfg1 => { s with csr := { s.csr with tcfg1 := tcfg1Stored v } }
  | .lb i => writeLb i v s
  | .id | .rdata | .errcmd | .erraux | .touch | .lbsize | .qdepth | .reserved => s

/-- Reports a value to the host. -/
def logRead (addr : Nat) (v : Word) (s : State) : State :=
  { s with env := { s.env with reads := { cycle := s.env.now, addr := addr, value := v } :: s.env.reads } }

/-- Why the machine stops on a host access. -/
inductive Stop where
  | fault (f : Fault)
  | refused (r : Refusal)
  deriving DecidableEq, Repr

/-- Whether the port takes an access, by address and size (R70, R73): it stops outside the 8 KiB window and on any
access that is not one aligned 32-bit word. -/
def portStop (base addr size : Nat) : Option Stop :=
  if addr < base ∨ base + 0x2000 ≤ addr then some (.fault .hostOutsideWindow)
  else if size ≠ 4 ∨ (addr - base) % 4 ≠ 0 then some (.refused .narrowHostAccess)
  else none

/-- What a host action leaves: the state after it, the state after a block reset, or a stop. -/
inductive HostRes where
  | done (s : State)
  | reset (s : State)
  | stop (x : Stop)

/-- One host action, in one step against one state (R77, R81). -/
def hostOp (op : HostOp) (s : State) : HostRes :=
  match op with
  | .read addr size =>
    match portStop s.par.rsqBase addr size with
    | some x => .stop x
    | none =>
      let c := csrAt s.par.linebufWords (addr - s.par.rsqBase)
      .done (logRead addr (readValue c s) (readEffect c s))
  | .write addr size v =>
    match portStop s.par.rsqBase addr size with
    | some x => .stop x
    | none => .done (writeEffect (csrAt s.par.linebufWords (addr - s.par.rsqBase)) v s)
  | .blockReset low => .reset (blockReset low s)

/-- The cycle in which a host action takes effect: its gap after the port is free, and never in the past. One action
ends before the next begins (R81). -/
def hostTime (r : HostReq) (s : State) : Nat := max s.env.now (s.env.portFree + r.gap)

/-- Takes the action `r` in the current cycle, leaving `rest` to come; a read or write takes the port for one cycle
(70_reset_and_hazards.md R348). -/
def takeHost (r : HostReq) (rest : List HostReq) (s : State) : HostRes :=
  hostOp r.op { s with env := { s.env with host := rest, portFree := s.env.now + 1 } }

/-- The host action due in the current cycle, with the actions after it. -/
def hostDue (s : State) : Option (HostReq × List HostReq) :=
  match s.env.host with
  | [] => none
  | r :: rest => if hostTime r s = s.env.now then some (r, rest) else none

end Sys2Proof.Machine
end

