-- ==== Sys2Proof/Machine/Bus.lean ====
section
/-! DEFINITION. What runs a command or a poll: the passing of time with the host's actions landing inside it, and
the bus primitives of spec 40_spi_framing.md. In every cycle the host's action takes effect first, then the agent's
(60_exceptions.md R312). -/

namespace Sys2Proof.Machine

/-- What a piece of a command or poll leaves: a value and the state it goes on from, a raised fault
(00_scope.md R13), the state after a block reset that cut it short (70_reset_and_hazards.md R341), or a stop on a
host access. -/
inductive Res (α : Type) where
  | ok (a : α) (s : State)
  | raise (code : ErrCode) (detail : Half) (s : State)
  | cut (s : State)
  | stop (x : Stop)

/-- One piece of pseudocode after another; nothing after a raise runs (R13, R14). -/
def Res.andThen {α β : Type} (r : Res α) (f : α → State → Res β) : Res β :=
  match r with
  | .ok a s => f a s
  | .raise c d s => .raise c d s
  | .cut s => .cut s
  | .stop x => .stop x

/-- `n` cycles pass, up to and including the host's action of the cycle they lead to; `host` is the input list. -/
def passWith : List HostReq → Nat → State → Res Unit
  | [], n, s => .ok () (tick n s)
  | r :: rest, n, s =>
    if hostTime r s ≤ s.env.now + n then
      match takeHost r rest (tick (hostTime r s - s.env.now) s) with
      | .done s' => passWith rest (n - (hostTime r s - s.env.now)) s'
      | .reset s' => .cut s'
      | .stop x => .stop x
    else .ok () (tick n s)

/-- `WaitCycles(n)` of 00_scope.md R12: `n` cycles pass for the running agent. -/
def pass (n : Nat) (s : State) : Res Unit := passWith s.env.host n s

/-- `WaitMs(d)`: exactly `d * CLK_PER_MS` cycles with the bus idle (R12). -/
def waitMs (d : Nat) (s : State) : Res Unit :=
  (pass (d * s.par.clkPerMs)
    { s with loc := { s.loc with waitEnd := s.env.now + d * s.par.clkPerMs } }).andThen fun _ s =>
  .ok () { s with loc := { s.loc with waitEnd := 0 } }

/-- Drives SCK and MOSI (40_spi_framing.md R131, R132). -/
def drive (sck mosi : Bool) (s : State) : State := { s with pins := { s.pins with sck := sck, mosi := mosi } }

/-- From CSL to the start of the first slot. SCK's first edge comes `SCK_DIV/2` cycles after CSL (R133;
70_reset_and_hazards.md R348): half a bit time into the slot when the clock phase is 0, at its start when it is 1
(notes/assumptions/6.md). -/
def setupTime (p : Params) : Nat := if p.spiMode % 2 = 0 then 0 else p.sckDiv / 2

/-- From the end of the last slot to CSH. SCK's last edge comes `SCK_DIV/2` cycles before CSH (R133, R348): at the end of
the slot when the clock phase is 0, half a bit time before it when it is 1 (notes/assumptions/6.md). -/
def holdTime (p : Params) : Nat := if p.spiMode % 2 = 0 then p.sckDiv / 2 else 0

/-- From the end of the prefix slot to the start of the slot after it, which makes up the phase's time of R348; R132
requires no gap and forbids none (notes/assumptions/6.md). -/
def slotGap (p : Params) : Nat := p.sckDiv / 2

/-- `CsLow()`: CS_N falls, no sooner than `T_CSH_MIN` after it last rose (R134), and the setup time passes (R133). -/
def csLow (s : State) : Res Unit :=
  (pass (s.pins.cslOk - s.env.now) s).andThen fun _ s =>
  pass (setupTime s.par) (emit .csl { s with pins := { s.pins with csN := false } })

/-- CS_N rises and BUS_ERR is sampled, where the hardware has it (R130, R143). -/
def csRise (s : State) : State × Bool :=
  (emitRise
    { s with
      pins := { s.pins with csN := true, cslOk := s.env.now + s.par.tCshMin }
      loc := { s.loc with phase := s.loc.phase + 1 } }, s.busError)

/-- `CsHigh()`: the hold time passes, CS_N rises, and a bus error raises BUS_FAULT with the phase's index
(R133, R143). -/
def csHigh (s : State) : Res Unit :=
  (pass (holdTime s.par) s).andThen fun _ s =>
  match csRise s with
  | (t, true) => .raise .busFault (phaseDetail s.loc.phase) t
  | (t, false) => .ok () t

/-- SCK in the first half of a bit time: idle when the clock phase is 0, active when it is 1 (R132). -/
def sckFirstHalf (mode : Nat) : Bool := if mode % 2 = 0 then sckIdle mode else !sckIdle mode

/-- SCK in the second half of a bit time: active when the clock phase is 0, idle when it is 1 (R132). -/
def sckSecondHalf (mode : Nat) : Bool := !sckFirstHalf mode

/-- The bit times of a byte slot: MOSI carries the bit throughout, and SCK makes one pulse in each (R132). With clock
phase 0 the bit is valid half a bit time before the leading edge, with clock phase 1 half a bit time before the trailing
one. -/
def shiftOut : List Bool → State → Res Unit
  | [], s => .ok () s
  | b :: rest, s =>
    (pass (s.par.sckDiv / 2) (drive (sckFirstHalf s.par.spiMode) b s)).andThen fun _ s =>
    (pass (s.par.sckDiv / 2) (drive (sckSecondHalf s.par.spiMode) b s)).andThen fun _ s =>
    shiftOut rest s

/-- `Xfer(t) -> r`: one byte slot of eight bit times. The device draws `r`, whose bits MISO carries in the same bit
order (R132; 00_scope.md R9). -/
def xfer (t : Byte) (s : State) : Res Byte :=
  (shiftOut (toWire s.par.bitOrder t) s).andThen fun _ s =>
  let r := fromWire s.par.bitOrder (toWire s.par.bitOrder s.env.nextMiso)
  .ok r (emit (.x t r) (drive (sckIdle s.par.spiMode) false { s with env := s.env.takeMiso }))

/-- A phase: CS_N low, the prefix byte, the slots of `body`, CS_N high (R133, R147). -/
def phaseOf {α : Type} (pre : Byte) (body : State → Res α) (s : State) : Res α :=
  (csLow s).andThen fun _ s =>
  (xfer pre s).andThen fun _ s =>
  (pass (slotGap s.par) s).andThen fun _ s =>
  (body s).andThen fun a s =>
  (csHigh s).andThen fun _ s =>
  .ok a s

/-- A slot whose received byte is discarded (R142). -/
def sendByte (t : Byte) (s : State) : Res Unit := (xfer t s).andThen fun _ s => .ok () s

/-- A read slot, which sends `READ_FILL` (R137). -/
def recvByte (s : State) : Res Byte := xfer s.par.readFill s

/-- `CmdPhase(a)` (R135). -/
def cmdPhase (a : Byte) (s : State) : Res Unit := phaseOf 0x80#8 (sendByte a) s

/-- `DataWrite(v)` (R136). -/
def dataWrite (v : Byte) (s : State) : Res Unit := phaseOf 0x00#8 (sendByte v) s

/-- `DataRead() -> r` (R137). -/
def dataRead (s : State) : Res Byte := phaseOf 0x40#8 recvByte s

/-- `WriteReg(a, v)` (R138). -/
def writeReg (a v : Byte) (s : State) : Res Unit := (cmdPhase a s).andThen fun _ s => dataWrite v s

/-- `ReadReg(a) -> r` (R139). -/
def readReg (a : Byte) (s : State) : Res Byte := (cmdPhase a s).andThen fun _ s => dataRead s

/-- `StreamWrite(a, b)`: the whole payload in one data phase; `payload` sends its slots (R140). -/
def streamWrite (a : Byte) (payload : State → Res Unit) (s : State) : Res Unit :=
  (cmdPhase a s).andThen fun _ s => phaseOf 0x00#8 payload s

/-- The dummy slots of a memory read; their bytes are discarded (R141). -/
def recvDummies : Nat → State → Res Unit
  | 0, s => .ok () s
  | n + 1, s => (recvByte s).andThen fun _ s => recvDummies n s

/-- `StreamRead(a, m)`: the dummy slots, then the slots of `payload`, in one data phase (R141). -/
def streamRead (a : Byte) (payload : State → Res Unit) (s : State) : Res Unit :=
  (cmdPhase a s).andThen fun _ s =>
  phaseOf 0x40#8 (fun s => (recvDummies s.par.mreadDummy s).andThen fun _ s => payload s) s

/-- `RstLow()` (R144). -/
def rstLow (s : State) : State := emit .rstl { s with pins := { s.pins with rstN := false } }

/-- `RstHigh()` (R144). -/
def rstHigh (s : State) : State := emit .rsth { s with pins := { s.pins with rstN := true } }

/-- The WAIT loop of 41_register_commands.md R156 with `n` reads left; `i` is the interval in ms. -/
def waitLoop (a m : Byte) (i : Nat) : Nat → State → Res Unit
  | 0, s => .ok () s
  | n + 1, s =>
    (readReg a s).andThen fun r s =>
    let s := setRdata r { s with loc := { s.loc with polls := s.loc.polls + 1 } }
    if isBusy r m = false then .ok () s
    else if n = 0 then .raise .hwFault (r.setWidth 16) s
    else (waitMs i s).andThen fun _ s => waitLoop a m i n s

/-- The first step of every meaning: no phase of the command has been issued, and the pop's cycle passes
(70_reset_and_hazards.md R348). -/
def openCommand (s : State) : Res Unit := pass 1 { s with loc := Local.none }

/-- The end of a command: normal completion or fault entry, each one cycle (R150, R303; R348). A block reset that
cut the command short leaves the reset state. -/
def closeCommand (who : Raiser) (k : Bool) : Res Unit → Host.Outcome State Fault Refusal
  | .ok _ s => .next (tick 1 (complete k s))
  | .raise c d s => .next (tick 1 (faultEntry who c d s))
  | .cut s => .next s
  | .stop (.fault f) => .fault f
  | .stop (.refused r) => .refused r

/-- A command that runs `body` after the pop's cycle. -/
def runCommand (who : Raiser) (k : Bool) (body : State → Res Unit) (s : State) :
    Host.Outcome State Fault Refusal :=
  closeCommand who k ((openCommand s).andThen fun _ s => body s)

/-- A command that decode's operand-value checks turn away: no bus event, ERRAUX = 0 (30_encoding.md R110,
60_exceptions.md R302, R305). -/
def rejectCommand (code : ErrCode) (s : State) : Host.Outcome State Fault Refusal :=
  runCommand .command false (fun s => .raise code 0#16 s) s

end Sys2Proof.Machine
end

