-- ==== Sys2Proof/Machine/Bulk.lean ====
section
/-! DEFINITION. The bulk stream commands of spec 42_bulk_commands.md: MWRITE and MREAD. -/

namespace Sys2Proof.Machine

/-- The slots of `n` pixels from `LB[i]` on, two bytes each; each entry is read at the slot that sends its first byte
(R181; 20_memory.md R87). -/
def sendPixels (i : Nat) : Nat → State → Res Unit
  | 0, s => .ok () s
  | n + 1, s =>
    let p := getLb i s
    (sendByte (pixFirst s.par.pixMsbFirst p) s).andThen fun _ s =>
    (sendByte (pixSecond s.par.pixMsbFirst p) s).andThen fun _ s =>
    sendPixels (i + 1) n s

/-- MWRITE (R181); n = 0 and n > LINEBUF_WORDS are BAD_OPERAND before any bus event. -/
def execMwrite (k : Bool) (a : Byte) (n : Half) (s : State) : Host.Outcome State Fault Refusal :=
  match operandError s.par.linebufWords (.mwrite k a n) with
  | some code => rejectCommand code s
  | none => runCommand .command k (streamWrite a (sendPixels 0 n.toNat)) s

/-- The slots of `n` pixels into `LB[i]` on, two bytes each; each entry is written at the slot that receives its
second byte (R182; 20_memory.md R87). -/
def recvPixels (i : Nat) : Nat → State → Res Unit
  | 0, s => .ok () s
  | n + 1, s =>
    (recvByte s).andThen fun b0 s =>
    (recvByte s).andThen fun b1 s =>
    recvPixels (i + 1) n (setLb i (pixValue s.par.pixMsbFirst b0 b1) s)

/-- MREAD (R182); n = 0 and n > LINEBUF_WORDS are BAD_OPERAND before any bus event. -/
def execMread (k : Bool) (a : Byte) (n : Half) (s : State) : Host.Outcome State Fault Refusal :=
  match operandError s.par.linebufWords (.mread k a n) with
  | some code => rejectCommand code s
  | none => runCommand .command k (streamRead a (recvPixels 0 n.toNat)) s

end Sys2Proof.Machine
end

