-- ==== Sys2Proof/Machine/Register.lean ====
section
/-! DEFINITION. The register commands of spec 41_register_commands.md: NOP, WREG, RREG, WREG16, WAIT and DELAY. A
meaning runs on the state after the pop of its word (R150) and ends with the command's completion or fault entry. -/

namespace Sys2Proof.Machine

/-- NOP (R152). -/
def execNop (k : Bool) (s : State) : Host.Outcome State Fault Refusal :=
  runCommand .command k (fun s => .ok () s) s

/-- WREG (R153). -/
def execWreg (k : Bool) (a v : Byte) (s : State) : Host.Outcome State Fault Refusal :=
  runCommand .command k (writeReg a v) s

/-- `r := ReadReg(A); RDATA <- zext_32(r)` (R154). -/
def readToRdata (a : Byte) (s : State) : Res Unit :=
  (readReg a s).andThen fun r s => .ok () (setRdata r s)

/-- RREG (R154). -/
def execRreg (k : Bool) (a : Byte) (s : State) : Host.Outcome State Fault Refusal :=
  runCommand .command k (readToRdata a) s

/-- The two register writes of a pair, low byte first (R155). -/
def writePair (a : Byte) (d : Half) (s : State) : Res Unit :=
  (writeReg a (loByte d) s).andThen fun _ s => writeReg (a + 1#8) (hiByte d) s

/-- WREG16 (R155); A = 0xFF is BAD_OPERAND before any bus event. -/
def execWreg16 (k : Bool) (a : Byte) (d : Half) (s : State) : Host.Outcome State Fault Refusal :=
  match operandError s.par.linebufWords (.wreg16 k a d) with
  | some code => rejectCommand code s
  | none => runCommand .command k (writePair a d) s

/-- WAIT (R156). WAIT_LIMIT and WAIT_INTERVAL are read once, at the start of the command (20_memory.md R85). -/
def execWait (k : Bool) (a m : Byte) (s : State) : Host.Outcome State Fault Refusal :=
  runCommand .command k (waitLoop a m s.csr.waitInterval.toNat s.csr.waitLimit.toNat) s

/-- DELAY (R157). -/
def execDelay (k : Bool) (ms : Half) (s : State) : Host.Outcome State Fault Refusal :=
  runCommand .command k (waitMs ms.toNat) s

end Sys2Proof.Machine
end

