-- ==== Sys2Proof/Machine/Touch.lean ====
section
/-! DEFINITION. The touch sampler of spec 44_touch_sampler.md: the poll sequence with its commit and release steps,
and the background poll. -/

namespace Sys2Proof.Machine

/-- The commit of a decoded sample, one step (R238): last writer wins, with TOVR if the sample before was unread
(R239). -/
def commitSample (x y : Coord) (s : State) : State :=
  { s with
    sample := { x := x, y := y, ready := true, touched := true, tovr := s.sample.tovr || s.sample.ready }
    poll := { s.poll with relcnt := 0#8, tphase := false } }

/-- One more touch-free poll, saturating at 255 (R241). -/
def nextRelcnt (n : Byte) : Byte := if n = 255#8 then 255#8 else n + 1#8

/-- The release step, one step (R241). RELEASE_POLLS is read here (20_memory.md R85). -/
def releaseStep (s : State) : State :=
  let n := nextRelcnt s.poll.relcnt
  { s with
    poll := { s.poll with relcnt := n }
    sample := { s.sample with touched := s.sample.touched && decide (n.toNat < (releasePolls s.csr.tcfg1).toNat) }
    csr := { s.csr with tpollAct := false } }

/-- `POLL.tphase <- 1`: the source's state Touched begins (R230, R236). -/
def enterTouched (s : State) : State := { s with poll := { s.poll with tphase := true } }

/-- `STATUS.TPOLL_ACT <- b` (R236). -/
def setTpollAct (b : Bool) (s : State) : State := { s with csr := { s.csr with tpollAct := b } }

/-- The three coordinate reads, in R236's order, and the decoded pair (R237). -/
def readCoords (c0 c1 : Word) (s : State) : Res (Coord × Coord) :=
  (readReg (xhAddr c0) s).andThen fun xh s =>
  (readReg (yhAddr c0) s).andThen fun yh s =>
  (readReg (xylAddr c1) s).andThen fun xyl s =>
  .ok (coordOf xh xyl (xlShift c1), coordOf yh xyl (ylShift c1)) s

/-- The poll sequence after its first step, with the snapshot `c0`, `c1` of TCFG0 and TCFG1 that step takes (R236).
The commit is one cycle (70_reset_and_hazards.md R348); the interrupt is cleared after it, with INT_MASK alone
(R240). -/
def pollSequence (c0 c1 : Word) (s : State) : Res Unit :=
  (readReg (intAddr c0) s).andThen fun status s =>
  if touchSet status (intMask c0) then
    (readCoords c0 c1 (enterTouched s)).andThen fun xy s =>
    (pass 1 (commitSample xy.1 xy.2 s)).andThen fun _ s =>
    (writeReg (intAddr c0) (intMask c0) s).andThen fun _ s =>
    .ok () (setTpollAct false s)
  else .ok () (releaseStep s)

/-- A background poll may start (R235). -/
def pollStarts (s : State) : Bool := s.poll.state == .pending && s.owner == .none

/-- The start of a background poll, one step (R235), with the first step of its sequence (R236). -/
def startPoll (s : State) : State :=
  setTpollAct true { s with poll := { s.poll with state := .active }, owner := .poll, loc := Local.none }

/-- The end of a background poll: one step at its normal end (R235), or fault entry (R243; 60_exceptions.md R303). -/
def closePoll : Res Unit → Host.Outcome State Fault Refusal
  | .ok _ s => .next (tick 1 { endPoll s with owner := .none, loc := Local.none })
  | .raise c d s => .next (tick 1 (faultEntry .background c d s))
  | .cut s => .next s
  | .stop (.fault f) => .fault f
  | .stop (.refused r) => .refused r

/-- A background poll, from its start step to its end step (R235). -/
def backgroundPoll (s : State) : Host.Outcome State Fault Refusal :=
  closePoll ((pass 1 (startPoll s)).andThen fun _ s' => pollSequence s.csr.tcfg0 s.csr.tcfg1 s')

end Sys2Proof.Machine
end

