-- ==== Sys2Proof/Machine/System.lean ====
section
/-! DEFINITION. The system commands of spec 43_system_commands.md: RESET, INIT and TPOLL. -/

namespace Sys2Proof.Machine

/-- The panel reset pulse and the wait after it (R200; 70_reset_and_hazards.md R362). -/
def resetPulse (s : State) : Res Unit :=
  (waitMs s.par.tRstLowMs (rstLow s)).andThen fun _ s => waitMs s.par.tRstWaitMs (rstHigh s)

/-- RESET (R200). -/
def execReset (k : Bool) (s : State) : Host.Outcome State Fault Refusal :=
  runCommand .command k (fun s => resetPulse (setInitDone false s)) s

/-- One entry of INIT_TABLE (R208). A wait entry reads WAIT_LIMIT and WAIT_INTERVAL at its own start
(20_memory.md R85). -/
def runEntry (e : InitEntry) (s : State) : Res Unit :=
  match e.kind with
  | .wr => writeReg e.a (loByte e.d) s
  | .wr16 => writePair e.a e.d s
  | .wt => waitLoop e.a (loByte e.d) s.csr.waitInterval.toNat s.csr.waitLimit.toNat s
  | .dl => waitMs e.d.toNat s

/-- The entries of a table from 1-based index `step` on; the first fault ends the walk (R201, R204). -/
def runTable : List InitEntry → Nat → State → Res Unit
  | [], _, s => .ok () s
  | e :: rest, step, s =>
    (runEntry e { s with loc := { s.loc with step := step, polls := 0 } }).andThen fun _ s =>
    runTable rest (step + 1) s

/-- INIT from the reset pulse to INIT_DONE (R201, R205). -/
def initSequence (g : Nat) (s : State) : Res Unit :=
  (resetPulse (setInitDone false s)).andThen fun _ s =>
  (runTable (s.par.initTable g) 1 s).andThen fun _ s =>
  .ok () (setInitDone true s)

/-- INIT (R201); a code other than 0 and 1 is CONFIG_ERROR before the reset pulse (60_exceptions.md R305). -/
def execInit (k : Bool) (g : Half) (s : State) : Host.Outcome State Fault Refusal :=
  match operandError s.par.linebufWords (.init k g) with
  | some code => rejectCommand code s
  | none => runCommand .command k (initSequence g.toNat) s

/-- After TPOLL's poll the poll interval starts anew if TOUCH_EN = 1, and a pending poll is thereby cancelled
(R211). -/
def restartInterval (s : State) : State :=
  if s.csr.touchEn then
    { s with poll := { s.poll with state := .timing, timer := 0, period := s.csr.pollPeriod } }
  else s

/-- TPOLL (R211). TCFG0 and TCFG1 are read once, at the start (20_memory.md R85). -/
def execTpoll (k : Bool) (s : State) : Host.Outcome State Fault Refusal :=
  runCommand .tpoll k
    (fun t => (pollSequence s.csr.tcfg0 s.csr.tcfg1 t).andThen fun _ t => .ok () (restartInterval t))
    (setTpollAct true s)

end Sys2Proof.Machine
end

