-- ==== Sys2Proof/Machine/Dispatch.lean ====
section
/-! DEFINITION. The meaning of each command of RSQ-1, one arm per constructor of Instr. -/

namespace Sys2Proof.Machine

def exec (i : Instr) (s : State) : Host.Outcome State Fault Refusal :=
  match i with
  | .nop k => Sys2Proof.Machine.execNop k s
  | .wreg k a v => Sys2Proof.Machine.execWreg k a v s
  | .rreg k a => Sys2Proof.Machine.execRreg k a s
  | .wreg16 k a d => Sys2Proof.Machine.execWreg16 k a d s
  | .wait k a m => Sys2Proof.Machine.execWait k a m s
  | .delay k ms => Sys2Proof.Machine.execDelay k ms s
  | .mwrite k a n => Sys2Proof.Machine.execMwrite k a n s
  | .mread k a n => Sys2Proof.Machine.execMread k a n s
  | .reset k => Sys2Proof.Machine.execReset k s
  | .init k g => Sys2Proof.Machine.execInit k g s
  | .tpoll k => Sys2Proof.Machine.execTpoll k s

end Sys2Proof.Machine
end

