-- ==== Sys2Proof/Machine/Fetch.lean ====
section
/-! DEFINITION. What a step chooses between: when SEQ pops (spec 41_register_commands.md R150), a word that decode
rejects on encoding grounds (60_exceptions.md R301), a host action as a step of its own, and an idle cycle. -/

namespace Sys2Proof.Machine

/-- SEQ may pop (R150). It does nothing in FAULT and in the cycle of the return from it (60_exceptions.md R309), while
another agent owns the bus, and in a cycle in which a pending poll starts instead. -/
def seqReady (s : State) : Bool :=
  s.seq.state == .idle && decide (s.seq.resume ≤ s.env.now) && s.owner != .poll && !(!s.seq.chain && s.poll.state == .pending)

/-- The word SEQ pops, with the words after it. -/
def fetchWord (s : State) : Option (Word × List Word) :=
  if seqReady s then
    match s.q with
    | [] => none
    | w :: rest => some (w, rest)
  else none

/-- Popping a word that decode rejects raises ILLEGAL_CMD (R301). -/
def rejectWord (s : State) : Host.Outcome State Fault Refusal := rejectCommand .illegalCmd s

/-- A host action between commands, as a step that takes no time of its own. -/
def hostStep (r : HostReq) (rest : List HostReq) (s : State) : Host.Outcome State Fault Refusal :=
  match takeHost r rest s with
  | .done s' => .next s'
  | .reset s' => .next s'
  | .stop (.fault f) => .fault f
  | .stop (.refused x) => .refused x

/-- A cycle in which no agent but TIME acts. -/
def idleCycle (s : State) : Host.Outcome State Fault Refusal := .next (tick 1 s)

/-- SEQ.chain, a state, an owner and a port that let SEQ pop in the current cycle, when no other agent may act before
it: SEQ idle, no fault, the bus SEQ's or free, no poll pending or active, the next host access after this cycle. -/
def readyToPop (s : State) : State :=
  { s with
    env := { s.env with portFree := max s.env.portFree (s.env.now + 1) }
    csr := { s.csr with err := .none }
    seq := { s.seq with state := .idle, resume := 0 }
    owner := if s.seq.chain then .seq else .none
    poll := match s.poll.state with
      | .pending => { s.poll with state := .timing, timer := 0 }
      | .active => { s.poll with state := .off }
      | .off => s.poll
      | .timing => s.poll }

/-- Puts `w` at the head of the FIFO, in place of the word there. -/
def putHead (w : Word) (s : State) : State := { s with q := w :: s.q.tail }

end Sys2Proof.Machine
end

