-- ==== Sys2Proof/Machine/Step.lean ====
section
/-! DEFINITION. One step of the machine. In a cycle a due host action comes first (spec 60_exceptions.md R312); then a
pending background poll if the bus is free (44_touch_sampler.md R235), else the next command of the FIFO
(41_register_commands.md R150), else nothing but time. A command and a poll are one step each, with the host actions
that fall inside them. -/

namespace Sys2Proof.Machine

/-- Pops `w` and runs it. -/
def runWord (w : Word) (rest : List Word) (s : State) : Host.Outcome State Fault Refusal :=
  match decode w with
  | .ok i => exec i (popWord w rest s)
  | .error _ => rejectWord (popWord w rest s)

/-- What the agents other than the host do in the current cycle. -/
def agentStep (s : State) : Host.Outcome State Fault Refusal :=
  if pollStarts s then backgroundPoll s
  else
    match fetchWord s with
    | some (w, rest) => runWord w rest s
    | none => idleCycle s

/-- One step of RSQ. -/
def step (s : State) : Host.Outcome State Fault Refusal :=
  match hostDue s with
  | some (r, rest) => hostStep r rest s
  | none => agentStep s

/-- The opcode-table word `w` at the head of the FIFO, where the next step pops it. -/
def State.withFetchWord (s : State) (nbits w : Nat) : State := putHead (tableWord nbits w) (readyToPop s)

end Sys2Proof.Machine
end

