-- ==== Sys2Proof/Machine/Assembler.lean ====
section
/-! DEFINITION. The assembler syntax of spec 30_encoding.md R116: a line of characters to a command word. Operands
out of range are refused, never truncated. -/

namespace Sys2Proof.Machine

/-- The command of a mnemonic, a K suffix and its operands in R116's order; none if one is out of range or their
number is wrong. -/
def assemble (m : Mnemonic) (k : Bool) (ops : List Nat) : Option Instr :=
  match m, ops with
  | .nop, [] => some (.nop k)
  | .wreg, [a, v] => if a < 256 ∧ v < 256 then some (.wreg k (BitVec.ofNat 8 a) (BitVec.ofNat 8 v)) else none
  | .rreg, [a] => if a < 256 then some (.rreg k (BitVec.ofNat 8 a)) else none
  | .wreg16, [a, d] => if a < 256 ∧ d < 65536 then some (.wreg16 k (BitVec.ofNat 8 a) (BitVec.ofNat 16 d)) else none
  | .wait, [a, v] => if a < 256 ∧ v < 256 then some (.wait k (BitVec.ofNat 8 a) (BitVec.ofNat 8 v)) else none
  | .mwrite, [a, n] => if a < 256 ∧ n < 65536 then some (.mwrite k (BitVec.ofNat 8 a) (BitVec.ofNat 16 n)) else none
  | .mread, [a, n] => if a < 256 ∧ n < 65536 then some (.mread k (BitVec.ofNat 8 a) (BitVec.ofNat 16 n)) else none
  | .delay, [d] => if d < 65536 then some (.delay k (BitVec.ofNat 16 d)) else none
  | .reset, [] => some (.reset k)
  | .init, [g] => if g < 65536 then some (.init k (BitVec.ofNat 16 g)) else none
  | .tpoll, [] => some (.tpoll k)
  | _, _ => none

/-- A mnemonic as written, in upper case. -/
def mnemonicOf : List Char → Option Mnemonic
  | ['N', 'O', 'P'] => some .nop
  | ['W', 'R', 'E', 'G'] => some .wreg
  | ['R', 'R', 'E', 'G'] => some .rreg
  | ['W', 'R', 'E', 'G', '1', '6'] => some .wreg16
  | ['W', 'A', 'I', 'T'] => some .wait
  | ['M', 'W', 'R', 'I', 'T', 'E'] => some .mwrite
  | ['M', 'R', 'E', 'A', 'D'] => some .mread
  | ['D', 'E', 'L', 'A', 'Y'] => some .delay
  | ['R', 'E', 'S', 'E', 'T'] => some .reset
  | ['I', 'N', 'I', 'T'] => some .init
  | ['T', 'P', 'O', 'L', 'L'] => some .tpoll
  | ['W', 'A', 'I', 'T', 'B', 'U', 'S', 'Y'] => some .wait
  | _ => none

/-- A digit of a number in the given base. -/
def digitOf (base : Nat) (c : Char) : Option Nat :=
  let n := c.toNat
  let d :=
    if 48 ≤ n ∧ n ≤ 57 then some (n - 48)
    else if 65 ≤ n ∧ n ≤ 70 then some (n - 55)
    else if 97 ≤ n ∧ n ≤ 102 then some (n - 87)
    else none
  d.bind fun v => if v < base then some v else none

/-- The digits of a number, onto what has been read. -/
def digitsFrom (base : Nat) : List Char → Nat → Option Nat
  | [], acc => some acc
  | c :: r, acc =>
    match digitOf base c with
    | some d => digitsFrom base r (acc * base + d)
    | none => none

/-- A decimal or `0x` hexadecimal number (R116). -/
def numberOf : List Char → Option Nat
  | [] => none
  | '0' :: 'x' :: c :: r => digitsFrom 16 (c :: r) 0
  | c :: r => digitsFrom 10 (c :: r) 0

/-- A line without the spaces at its ends. -/
def trimSpaces (cs : List Char) : List Char :=
  ((cs.dropWhile (fun c => c == ' ')).reverse.dropWhile (fun c => c == ' ')).reverse

/-- The parts of an operand field between commas. -/
def splitCommas : List Char → List (List Char)
  | [] => [[]]
  | ',' :: r => [] :: splitCommas r
  | c :: r =>
    match splitCommas r with
    | [] => [[c]]
    | p :: ps => (c :: p) :: ps

/-- The operands of an operand field; an empty field has none. -/
def operandsIn (cs : List Char) : Option (List Nat) :=
  match trimSpaces cs with
  | [] => some []
  | t => (splitCommas t).mapM fun p => numberOf (trimSpaces p)

/-- Takes the `.K` suffix off a mnemonic field (R116). -/
def takeSuffix (cs : List Char) : List Char × Bool :=
  match cs.reverse with
  | 'K' :: '.' :: r => (r.reverse, true)
  | _ => (cs, false)

/-- A line `MNEMONIC[.K] [operand, ...] [; comment]` (R116). -/
def assembleLine (line : List Char) : Option Instr :=
  let body := trimSpaces (line.takeWhile (fun c => c != ';'))
  let head := body.takeWhile (fun c => c != ' ')
  let mk := takeSuffix head
  (mnemonicOf mk.1).bind fun m =>
  (operandsIn (body.drop head.length)).bind fun ops =>
  assemble m mk.2 ops

/-- The word of a line (R116, R100). -/
def assembleWord (line : List Char) : Option Word := (assembleLine line).map encode

end Sys2Proof.Machine
end

