-- ==== Sys2Proof/Machine/Macros.lean ====
section
/-! DEFINITION. The host macros of spec 45_host_macros.md (pseudo-instructions of 30_encoding.md R117), the boot
sequence of 70_reset_and_hazards.md R345 and the calibration reference of R290. They are host software: each is the
list of host actions it issues. The block executes only the pushed words. Coordinates are rational numbers
(notes/assumptions/16.md). -/

namespace Sys2Proof.Machine

/-- One action of the host's software. -/
inductive HostAct where
  /-- a write of a command word to CMD, once the FIFO has room (R274; 70_reset_and_hazards.md R354) -/
  | push (w : Word)
  /-- a write of a host register at an offset -/
  | csr (off : Nat) (v : Word)
  /-- a write of line-buffer entry `i` -/
  | fill (i : Nat) (p : Half)
  /-- a read of line-buffer entry `i` -/
  | fetch (i : Nat)
  /-- polling until no MWRITE or MREAD is queued or executing (10_state.md R44) -/
  | waitUnlocked
  /-- polling STATUS until BUSY = 0 and QCOUNT = 0 -/
  | waitIdle
  deriving DecidableEq, Repr

/-- The single host access an action makes on the CSR window at `base`; a wait is a loop of STATUS reads. -/
def HostAct.access (base : Nat) : HostAct → Option HostOp
  | .push w => some (.write (base + 0x00C) 4 w)
  | .csr off v => some (.write (base + off) 4 v)
  | .fill i p => some (.write (base + 0x1000 + 4 * i) 4 (zext32 p))
  | .fetch i => some (.read (base + 0x1000 + 4 * i) 4)
  | .waitUnlocked => none
  | .waitIdle => none

/-- The words a list of actions pushes, in order. -/
def pushedWords (acts : List HostAct) : List Word :=
  acts.filterMap fun a => match a with
    | .push w => some w
    | .csr _ _ => none
    | .fill _ _ => none
    | .fetch _ => none
    | .waitUnlocked => none
    | .waitIdle => none

/-- The register, mode and mask parameters of R270. -/
structure MacroRegs where
  x0 : Byte
  y0 : Byte
  x1 : Byte
  y1 : Byte
  cx : Byte
  cy : Byte
  cr : Byte
  ra : Byte
  rb : Byte
  dcr : Byte
  ecr : Byte
  fgr : Byte
  fgg : Byte
  fgb : Byte
  curx : Byte
  cury : Byte
  rcurx : Byte
  rcury : Byte
  mrwc : Byte
  modeLine : Byte
  modeRect : Byte
  modeFrect : Byte
  modeCircle : Byte
  modeFcircle : Byte
  modeRrect : Byte
  modeFrrect : Byte
  busyLine : Byte
  busyCircle : Byte
  busyRrect : Byte
  deriving DecidableEq, Repr

/-- The default values of R270. -/
def MacroRegs.default : MacroRegs :=
  { x0 := 0x91#8, y0 := 0x93#8, x1 := 0x95#8, y1 := 0x97#8, cx := 0x99#8, cy := 0x9B#8, cr := 0x9D#8,
    ra := 0xA1#8, rb := 0xA3#8, dcr := 0x90#8, ecr := 0xA0#8, fgr := 0x63#8, fgg := 0x64#8, fgb := 0x65#8,
    curx := 0x46#8, cury := 0x48#8, rcurx := 0x4A#8, rcury := 0x4C#8, mrwc := 0x02#8,
    modeLine := 0x80#8, modeRect := 0x90#8, modeFrect := 0xB0#8, modeCircle := 0x40#8, modeFcircle := 0x60#8,
    modeRrect := 0xA0#8, modeFrrect := 0xE0#8, busyLine := 0x80#8, busyCircle := 0x40#8, busyRrect := 0x80#8 }

/-- Truncation toward zero (R271). -/
def truncQ (v : ℚ) : ℤ := Int.tdiv v.num v.den

/-- `T(v) = trunc(v) mod 2^16` (R271). -/
def coordT (v : ℚ) : Half := BitVec.ofInt 16 (truncQ v)

/-- A source colour (R272). -/
structure Colour where
  r : Byte
  g : Byte
  b : Byte
  deriving DecidableEq, Repr

/-- `R5(c)` (R272). -/
def Colour.r5 (c : Colour) : Byte := c.r >>> 3

/-- `G6(c)` (R272). -/
def Colour.g6 (c : Colour) : Byte := c.g >>> 2

/-- `B5(c)` (R272). -/
def Colour.b5 (c : Colour) : Byte := c.b >>> 3

/-- `Pack565(c)` (R272). -/
def pack565 (c : Colour) : Half :=
  (c.r5.setWidth 16 <<< 11) ||| (c.g6.setWidth 16 <<< 5) ||| c.b5.setWidth 16

/-- `Unpack565(p)` (R272). -/
def unpack565 (p : Half) : Colour :=
  { r := (p.extractLsb' 11 5).setWidth 8 <<< 3
    g := (p.extractLsb' 5 6).setWidth 8 <<< 2
    b := (p.extractLsb' 0 5).setWidth 8 <<< 3 }

/-- `push WREG16.K reg, T(v)` (R274). -/
def pushCoord (reg : Byte) (v : ℚ) : HostAct := .push (encode (.wreg16 true reg (coordT v)))

/-- FGCOLOR; `last` is the K bit of its last word: 1 as a part of a shape macro, 0 on its own (R273). -/
def fgColour (m : MacroRegs) (c : Colour) (last : Bool) : List HostAct :=
  [ .push (encode (.wreg true m.fgr c.r5)), .push (encode (.wreg true m.fgg c.g6)),
    .push (encode (.wreg last m.fgb c.b5)) ]

/-- SHAPE: coordinates, colour, one mode byte with the trigger, wait (R274). -/
def shape (m : MacroRegs) (coords : List (Byte × ℚ)) (c : Colour) (modeReg mode waitReg waitMask : Byte) :
    List HostAct :=
  coords.map (fun p => pushCoord p.1 p.2) ++ fgColour m c true ++
    [ .push (encode (.wreg true modeReg mode)), .push (encode (.wait false waitReg waitMask)) ]

/-- The coordinate list of a line or rectangle (R275). -/
def corners (m : MacroRegs) (x0 y0 x1 y1 : ℚ) : List (Byte × ℚ) :=
  [(m.x0, x0), (m.y0, y0), (m.x1, x1), (m.y1, y1)]

/-- DRAWLINE (R275). -/
def drawLine (m : MacroRegs) (x0 y0 x1 y1 : ℚ) (c : Colour) : List HostAct :=
  shape m (corners m x0 y0 x1 y1) c m.dcr m.modeLine m.dcr m.busyLine

/-- A line of length `l` is drawn (R276, R277; notes/assumptions/17.md). -/
def lineDrawn (l : ℚ) : Bool := decide (1 ≤ truncQ l) && coordT l != 0#16

/-- HLINE (R276). -/
def hLine (m : MacroRegs) (x y l : ℚ) (c : Colour) : List HostAct :=
  if lineDrawn l then drawLine m x y (x + l - 1) y c else []

/-- VLINE (R277). -/
def vLine (m : MacroRegs) (x y l : ℚ) (c : Colour) : List HostAct :=
  if lineDrawn l then drawLine m x y x (y + l - 1) c else []

/-- DRAWRECT (R278). -/
def drawRect (m : MacroRegs) (x0 y0 x1 y1 : ℚ) (c : Colour) : List HostAct :=
  shape m (corners m x0 y0 x1 y1) c m.dcr m.modeRect m.dcr m.busyLine

/-- FILLRECT (R279). -/
def fillRect (m : MacroRegs) (x0 y0 x1 y1 : ℚ) (c : Colour) : List HostAct :=
  shape m (corners m x0 y0 x1 y1) c m.dcr m.modeFrect m.dcr m.busyLine

/-- The rounded rectangle of R280 with a mode byte. -/
def roundedRect (m : MacroRegs) (mode : Byte) (x0 y0 x1 y1 r : ℚ) (c : Colour) : List HostAct :=
  shape m (corners m x0 y0 x1 y1 ++ [(m.ra, r), (m.rb, r)]) c m.ecr mode m.ecr m.busyRrect

/-- DRAWRRECT (R280). -/
def drawRrect (m : MacroRegs) (x0 y0 x1 y1 r : ℚ) (c : Colour) : List HostAct :=
  roundedRect m m.modeRrect x0 y0 x1 y1 r c

/-- FILLRRECT (R281). -/
def fillRrect (m : MacroRegs) (x0 y0 x1 y1 r : ℚ) (c : Colour) : List HostAct :=
  roundedRect m m.modeFrrect x0 y0 x1 y1 r c

/-- The circle of R282 with a mode byte; a radius above 255 keeps its low byte. -/
def circle (m : MacroRegs) (mode : Byte) (x y r : ℚ) (c : Colour) : List HostAct :=
  [ pushCoord m.cx x, pushCoord m.cy y, .push (encode (.wreg true m.cr ((coordT r).setWidth 8))) ] ++
    shape m [] c m.dcr mode m.dcr m.busyCircle

/-- DRAWCIRCLE (R282). -/
def drawCircle (m : MacroRegs) (x y r : ℚ) (c : Colour) : List HostAct := circle m m.modeCircle x y r c

/-- FILLCIRCLE (R283). -/
def fillCircle (m : MacroRegs) (x y r : ℚ) (c : Colour) : List HostAct := circle m m.modeFcircle x y r c

/-- SETPIXEL (R284). -/
def setPixel (m : MacroRegs) (x y : ℚ) (c : Colour) : List HostAct :=
  [ .waitUnlocked, .fill 0 (pack565 c), pushCoord m.curx x, pushCoord m.cury y,
    .push (encode (.mwrite false m.mrwc 1#16)) ]

/-- GETPIXEL up to its line-buffer read (R285); `getPixelResult` is what it returns. -/
def getPixel (m : MacroRegs) (x y : ℚ) : List HostAct :=
  [ pushCoord m.rcurx x, pushCoord m.rcury y, .push (encode (.mread false m.mrwc 1#16)), .waitUnlocked, .fetch 0 ]

/-- What GETPIXEL returns, from the value `v` that its read of LB[0] returned: `p := LB[0]`, `return Unpack565(p)`
(R285). -/
def getPixelResult (v : Word) : Colour := unpack565 (v.setWidth 16)

/-- The row stride in bytes, `ceil(cols / 8)` (R286). -/
def rowStride (cols : Nat) : Nat := (cols + 7) / 8

/-- The bit of row `i`, column `j` of a bitmap (R286); a byte beyond the bitmap reads 0. -/
def glyphBit (bitmap : List Byte) (cols i j : Nat) : Bool :=
  (bitmap.getD (i * rowStride cols + j / 8) 0#8).getLsbD (7 - j % 8)

/-- `UnpackRow` (R286): the line-buffer fills of row `i`. -/
def unpackRow (bitmap : List Byte) (i cols : Nat) (pfg pbg : Half) : List HostAct :=
  (List.range cols).map fun j => .fill j (if glyphBit bitmap cols i j then pfg else pbg)

/-- The actions of one glyph row (R287). -/
def glyphRow (m : MacroRegs) (bitmap : List Byte) (x y : ℚ) (cols : Nat) (pfg pbg : Half) (i : Nat) : List HostAct :=
  [.waitUnlocked] ++ unpackRow bitmap i cols pfg pbg ++ (if i = 0 then [pushCoord m.curx x] else []) ++
    [ pushCoord m.cury (y + i), .push (encode (.mwrite false m.mrwc (BitVec.ofNat 16 cols))) ]

/-- GLYPH (R287); `lbWords` is `LINEBUF_WORDS`. -/
def glyph (m : MacroRegs) (lbWords : Nat) (bitmap : List Byte) (x y : ℚ) (rows cols : Nat) (fg bg : Colour) :
    List HostAct :=
  if 1 ≤ cols ∧ cols ≤ lbWords then
    (List.range rows).flatMap (glyphRow m bitmap x y cols (pack565 fg) (pack565 bg))
  else []

/-- CLEARSCREEN for a panel of `width` by `height` pixels (R288). -/
def clearScreen (m : MacroRegs) (width height : Nat) : List HostAct :=
  fillRect m 0 0 (width - 1 : ℤ) (height - 1 : ℤ) ⟨0#8, 0#8, 0#8⟩

/-- The geometry code of a (width, height) pair; any other pair is the host library's configuration error
(60_exceptions.md R324; 70_reset_and_hazards.md R345 step 3). -/
def geometryCode (width height : Nat) : Option Half :=
  if width = 480 ∧ height = 272 then some 0#16
  else if width = 800 ∧ height = 480 then some 1#16
  else none

/-- The registers that step 2 of R345 may write, each with its value if the host writes it. -/
structure BootConfig where
  waitLimit    : Option Word
  waitInterval : Option Word
  pollPeriod   : Option Word
  tcfg0        : Option Word
  tcfg1        : Option Word
  deriving DecidableEq, Repr

/-- Step 2 of R345: the optional writes, in its order. -/
def BootConfig.acts (c : BootConfig) : List HostAct :=
  [(0x024, c.waitLimit), (0x028, c.waitInterval), (0x020, c.pollPeriod), (0x02C, c.tcfg0), (0x030, c.tcfg1)].filterMap
    fun p => p.2.map (HostAct.csr p.1)

/-- Why the boot sequence stops before its end (R345 steps 3 and 6). -/
inductive BootError where
  /-- no geometry code for the panel's size: the host's configuration error -/
  | geometry
  /-- initialisation failed with STATUS.ERR = BUS_FAULT, reported apart from the others -/
  | busFault
  /-- initialisation failed with another value of STATUS.ERR -/
  | init (err : BitVec 4)
  deriving DecidableEq, Repr

/-- Step 6 of R345, on the STATUS value with which the wait of step 5 ended: FAULT = 1 or INIT_DONE = 0 is a failed
initialisation, reported by ERR. -/
def bootFailure (status : Word) : Option BootError :=
  if status.getLsbD 2 || !status.getLsbD 11 then
    some (if status.extractLsb' 12 4 = ErrCode.busFault.toBits then .busFault else .init (status.extractLsb' 12 4))
  else none

/-- Step 8 of R345: the CTRL word, TOUCH_EN = 1 with the IE bits the host wants. -/
def bootCtrl (ieReady ieFault ieIdle : Bool) : Word :=
  place 0 (flagBit true) ||| place 1 (flagBit ieReady) ||| place 2 (flagBit ieFault) ||| place 3 (flagBit ieIdle)

/-- Steps 7 and 8 of R345: the WREG words that set up the touch controller, given as register and value, the wait, and
CTRL. -/
def bootFinish (touch : List (Byte × Byte)) (ieReady ieFault ieIdle : Bool) : List HostAct :=
  touch.map (fun p => .push (encode (.wreg false p.1 p.2))) ++ [.waitIdle, .csr 0x004 (bootCtrl ieReady ieFault ieIdle)]

/-- The boot sequence of R345 after its step 1: the host's actions, and the error with which it stops, if it does.
`status` is the STATUS value with which the wait of step 5 ends. -/
def boot (config : BootConfig) (width height : Nat) (status : Word) (touch : List (Byte × Byte))
    (ieReady ieFault ieIdle : Bool) : List HostAct × Option BootError :=
  match geometryCode width height with
  | none => (config.acts, some .geometry)
  | some g =>
    let begun := config.acts ++ [.push (encode (.init false g)), .waitIdle]
    match bootFailure status with
    | some e => (begun, some e)
    | none => (begun ++ bootFinish touch ieReady ieFault ieIdle, none)

/-- The calibration record of R290, with the panel size it clamps to. -/
structure Calibration where
  xMin   : ℚ
  yMin   : ℚ
  xScale : ℚ
  yScale : ℚ
  width  : Nat
  height : Nat
  deriving DecidableEq, Repr

/-- `calibrate(xmin, ymin, xmax, ymax)` (R290). Equal ends have no scale, and the host's software is outside the
model there (93_implementation_defined.md U16). -/
def calibrate (xmin ymin xmax ymax : ℚ) (width height : Nat) : Option Calibration :=
  if xmax = xmin ∨ ymax = ymin then none
  else some
    { xMin := xmin, yMin := ymin, xScale := ((width : ℚ) - 1) / (xmax - xmin),
      yScale := ((height : ℚ) - 1) / (ymax - ymin), width := width, height := height }

/-- Clamps a value into [0, top]. -/
def clampTo (top v : ℤ) : ℤ := max 0 (min v top)

/-- `cal_x` (R290). -/
def Calibration.calX (c : Calibration) (raw : Coord) : ℤ :=
  clampTo (c.width - 1) (truncQ (((raw.toNat : ℚ) - c.xMin) * c.xScale))

/-- `cal_y` (R290). -/
def Calibration.calY (c : Calibration) (raw : Coord) : ℤ :=
  clampTo (c.height - 1) (truncQ (((raw.toNat : ℚ) - c.yMin) * c.yScale))

/-- The host library's `getTouch()`: calibrated, or raw when uncalibrated (R290; 44_touch_sampler.md R247). -/
def hostTouch (c : Option Calibration) (x y : Coord) : ℤ × ℤ :=
  match c with
  | some c => (c.calX x, c.calY y)
  | none => (x.toNat, y.toNat)

end Sys2Proof.Machine
end

