-- ==== Sys2Proof/Safety.lean ====
section
/-! DEFINITION. The words the claims are stated in: which host schedules a claim admits, the device's answers and
the bus events of the composite primitives, what a command leaves alone, the invariant of the state between two
steps, and the framing rules of the bus trace. -/

namespace Sys2Proof.Machine

/-- A read or write that the port takes; a block reset is not one. -/
def HostReq.benign (base : Nat) (r : HostReq) : Bool :=
  match r.op with
  | .read addr size => (portStop base addr size).isNone
  | .write addr size _ => (portStop base addr size).isNone
  | .blockReset _ => false

/-- Whatever the host still does, it is reads and writes the port takes: no block reset, no access outside the
window, none that is not one aligned word. -/
def Benign (s : State) : Prop := ∀ r ∈ s.env.host, r.benign s.par.rsqBase = true

/-- The host does nothing more. -/
def Quiet (s : State) : Prop := s.env.host = []

/-- The surroundings after `n` more byte slots have been answered. -/
def Env.after : Nat → Env → Env
  | 0, e => e
  | n + 1, e => Env.after n e.takeMiso

/-- The device's answer to the `n`-th byte slot from here, counted from 0. -/
def Env.answer (e : Env) (n : Nat) : Byte := (e.after n).nextMiso

/-- The bus trace, oldest event first (40_spi_framing.md R130). -/
def State.bus (s : State) : List BusEvent := (s.env.trace.map TraceEntry.event).reverse

/-- The slots that send `bytes`, with the device's answers. -/
def slotEvents : List Byte → Env → List BusEvent
  | [], _ => []
  | t :: r, e => .x t e.nextMiso :: slotEvents r e.takeMiso

/-- A phase that sends `bytes`, its prefix byte among them, without a bus error (R133). -/
def phaseEvents (bytes : List Byte) (e : Env) : List BusEvent := .csl :: slotEvents bytes e ++ [.csh false]

/-- A command phase for `a`, then a data phase that sends `bytes` (R138 to R141). -/
def accessEvents (a : Byte) (bytes : List Byte) (e : Env) : List BusEvent :=
  phaseEvents [0x80#8, a] e ++ phaseEvents bytes (e.after 2)

/-- `k` status reads of register `a` (41_register_commands.md R156); a read is four slots. -/
def readsEvents (fill a : Byte) : Nat → Env → List BusEvent
  | 0, _ => []
  | k + 1, e => accessEvents a [0x40#8, fill] e ++ readsEvents fill a k (e.after 4)

/-- The value of the `j`-th status read, counted from 0. -/
def statusRead (e : Env) (j : Nat) : Byte := e.answer (4 * j + 3)

/-- The bytes of the first `n` line-buffer entries as MWRITE sends them (42_bulk_commands.md R181). -/
def lbBytes (s : State) (n : Nat) : List Byte :=
  (List.range n).flatMap (fun i => pixBytes s.par.pixMsbFirst (getLb i s))

/-- The events of a poll that finds the touch bit set (44_touch_sampler.md R236). -/
def touchedEvents (c0 c1 : Word) (fill : Byte) (e : Env) : List BusEvent :=
  accessEvents (intAddr c0) [0x40#8, fill] e ++ accessEvents (xhAddr c0) [0x40#8, fill] (e.after 4) ++
    accessEvents (yhAddr c0) [0x40#8, fill] (e.after 8) ++ accessEvents (xylAddr c1) [0x40#8, fill] (e.after 12) ++
    accessEvents (intAddr c0) [0x00#8, intMask c0] (e.after 16)

/-- How many reads a wait with mask `m` and at most `n` reads makes before one reads clear; none if none does. -/
def readsUntilClear (m : Byte) : Nat → Env → Option Nat
  | 0, _ => none
  | n + 1, e =>
    if isBusy (e.answer 3) m then (readsUntilClear m n (e.after 4)).map (· + 1) else some 1

/-- The bus events of one INIT_TABLE entry and the surroundings after it; none if a wait entry never reads clear
(43_system_commands.md R208). -/
def entryEvents (s : State) (en : InitEntry) (e : Env) : Option (List BusEvent × Env) :=
  match en.kind with
  | .wr => some (accessEvents en.a [0x00#8, loByte en.d] e, e.after 4)
  | .wr16 =>
    some (accessEvents en.a [0x00#8, loByte en.d] e ++
      accessEvents (en.a + 1#8) [0x00#8, hiByte en.d] (e.after 4), e.after 8)
  | .wt =>
    (readsUntilClear (loByte en.d) s.csr.waitLimit.toNat e).map fun k =>
      (readsEvents s.par.readFill en.a k e, e.after (4 * k))
  | .dl => some ([], e)

/-- The bus events of a table, in table order; none if one of its wait entries never reads clear. -/
def tableEvents (s : State) : List InitEntry → Env → Option (List BusEvent × Env)
  | [], e => some ([], e)
  | en :: rest, e =>
    (entryEvents s en e).bind fun r =>
    (tableEvents s rest r.2).map fun q => (r.1 ++ q.1, q.2)

/-- A phase of a command or poll: the 1-based index of its INIT_TABLE entry (0 outside INIT), the bytes it sends, and
whether the byte of its last slot goes to RDATA. -/
structure Phase where
  step    : Nat
  bytes   : List Byte
  toRdata : Bool

/-- The two phases of a register write (40_spi_framing.md R138). -/
def writePhases (step : Nat) (a v : Byte) : List Phase :=
  [⟨step, [0x80#8, a], false⟩, ⟨step, [0x00#8, v], false⟩]

/-- The two phases of a register read whose byte goes to RDATA or not (R139). -/
def readPhases (step : Nat) (toRdata : Bool) (fill a : Byte) : List Phase :=
  [⟨step, [0x80#8, a], false⟩, ⟨step, [0x40#8, fill], toRdata⟩]

/-- The phases of a wait with mask `m` and at most `limit` reads, answered by the device of `e`
(41_register_commands.md R156). -/
def waitPhases (step limit : Nat) (fill a m : Byte) (e : Env) : List Phase :=
  (List.replicate ((readsUntilClear m limit e).getD limit) (readPhases step true fill a)).flatten

/-- The phases of a register-pair write (R155). -/
def pairPhases (step : Nat) (a : Byte) (d : Half) : List Phase :=
  writePhases step a (d.extractLsb' 0 8) ++ writePhases step (a + 1#8) (d.extractLsb' 8 8)

/-- The phases of an INIT_TABLE from the entry with 1-based index `step` on, to its end or to the end of a wait entry
that never reads clear (43_system_commands.md R204, R208). -/
def tablePhases (s : State) : Nat → List InitEntry → Env → List Phase
  | _, [], _ => []
  | step, en :: rest, e =>
    match en.kind with
    | .wr => writePhases step en.a (loByte en.d) ++ tablePhases s (step + 1) rest (e.after 4)
    | .wr16 => pairPhases step en.a en.d ++ tablePhases s (step + 1) rest (e.after 8)
    | .wt =>
      waitPhases step s.csr.waitLimit.toNat s.par.readFill en.a (loByte en.d) e ++
        match readsUntilClear (loByte en.d) s.csr.waitLimit.toNat e with
        | some k => tablePhases s (step + 1) rest (e.after (4 * k))
        | none => []
    | .dl => tablePhases s (step + 1) rest e

/-- The phases of a poll with the snapshot `c0`, `c1` of TCFG0 and TCFG1 (44_touch_sampler.md R236). -/
def pollPhases (c0 c1 : Word) (fill : Byte) (e : Env) : List Phase :=
  readPhases 0 false fill (intAddr c0) ++
    if touchSet (e.answer 3) (intMask c0) then
      readPhases 0 false fill (xhAddr c0) ++ readPhases 0 false fill (yhAddr c0) ++
        readPhases 0 false fill (xylAddr c1) ++ writePhases 0 (intAddr c0) (intMask c0)
    else []

/-- The phases of a command begun in `s`, while none ends with a bus error; none for operands that decode turns
away. -/
def commandPhases (s : State) : Instr → List Phase
  | .nop _ => []
  | .wreg _ a v => writePhases 0 a v
  | .rreg _ a => readPhases 0 true s.par.readFill a
  | .wreg16 _ a d => if a = 0xFF#8 then [] else pairPhases 0 a d
  | .wait _ a m => waitPhases 0 s.csr.waitLimit.toNat s.par.readFill a m s.env
  | .delay _ _ => []
  | .mwrite _ a n =>
    if 1 ≤ n.toNat ∧ n.toNat ≤ s.par.linebufWords then
      [⟨0, [0x80#8, a], false⟩, ⟨0, 0x00#8 :: lbBytes s n.toNat, false⟩]
    else []
  | .mread _ a n =>
    if 1 ≤ n.toNat ∧ n.toNat ≤ s.par.linebufWords then
      [⟨0, [0x80#8, a], false⟩,
        ⟨0, 0x40#8 :: List.replicate (s.par.mreadDummy + 2 * n.toNat) s.par.readFill, false⟩]
    else []
  | .reset _ => []
  | .init _ g => tablePhases s 1 (s.par.initTable g.toNat) s.env
  | .tpoll _ => pollPhases s.csr.tcfg0 s.csr.tcfg1 s.par.readFill s.env

/-- The events of a run of phases whose phase number `p`, counted from 0, ends with a bus error: the phases before it
whole, then that one, and nothing after it (40_spi_framing.md R143). -/
def cutEvents : List Phase → Nat → Env → List BusEvent
  | [], _, _ => []
  | ph :: _, 0, e => .csl :: slotEvents ph.bytes e ++ [.csh true]
  | ph :: rest, p + 1, e => phaseEvents ph.bytes e ++ cutEvents rest p (e.after ph.bytes.length)

/-- RDATA after a run of whole phases that began with the value `v` (10_state.md R36). -/
def rdataAfter : List Phase → Env → Word → Word
  | [], _, v => v
  | ph :: rest, e, v =>
    rdataAfter rest (e.after ph.bytes.length) (if ph.toRdata then zext32 (e.answer (ph.bytes.length - 1)) else v)

/-- The BUS_ERR samples to come: no error in the phases before number `p`, an error in that one. -/
def ErrorAt (p : Nat) (s : State) : Prop := ∃ later, s.env.busErr = List.replicate p false ++ true :: later

/-- The sample after a commit of what the device of `s` answers a poll that begins in `s` and finds a touch
(44_touch_sampler.md R237 to R239). -/
def touchedSample (s : State) : Sample :=
  { x := coordOf (s.env.answer 7) (s.env.answer 15) (xlShift s.csr.tcfg1)
    y := coordOf (s.env.answer 11) (s.env.answer 15) (ylShift s.csr.tcfg1)
    ready := true, touched := true, tovr := s.sample.tovr || s.sample.ready }

/-- SEQ pops `w` in the current cycle (41_register_commands.md R150): no host action is due, SEQ is idle, not in the
cycle of a fault return, and holds the bus exactly while a chain is open, and no background poll waits for it. -/
structure AtPop (w : Word) (rest : List Word) (s : State) : Prop where
  noHost : hostDue s = none
  idle : s.seq.state = .idle
  resumed : s.seq.resume ≤ s.env.now
  bus : s.owner = if s.seq.chain then .seq else .none
  noPoll : s.poll.state = .pending → s.seq.chain = true
  queue : s.q = w :: rest

/-- SEQ runs the command `i`: the state its meaning starts from (41_register_commands.md R150). -/
def Running (i : Instr) (s : State) : Prop :=
  s.seq.state = .exec ∧ s.seq.cur = encode i ∧ s.owner = .seq

/-- The sequencer after a command with chain bit `k` has completed (R150). -/
def Completed (k : Bool) (s t : State) : Prop :=
  t.seq = { s.seq with state := .idle, chain := k } ∧ t.owner = (if k then .seq else .none) ∧
    t.loc = Local.none

/-- The sequencer and the record after a command's fault entry (60_exceptions.md R303). -/
def Faulted (code : ErrCode) (erraux : Word) (s t : State) : Prop :=
  t.seq = { s.seq with state := .fault, chain := false } ∧ t.owner = .none ∧ t.loc = Local.none ∧
    t.csr.err = code ∧ t.csr.errcmd = s.seq.cur ∧ t.csr.erraux = erraux

/-- What no host read or write can change and no command but the ones named by a claim changes: the parameters, the
fault record, INIT_DONE, the sample's coordinates, POLL.tphase and TPOLL_ACT, and the reset line. -/
def OutOfHostReach (s t : State) : Prop :=
  t.par = s.par ∧ t.csr.errcmd = s.csr.errcmd ∧ t.csr.erraux = s.csr.erraux ∧ t.csr.err = s.csr.err ∧
    t.sample.x = s.sample.x ∧ t.sample.y = s.sample.y ∧ t.poll.tphase = s.poll.tphase ∧
    t.csr.tpollAct = s.csr.tpollAct ∧ t.env.resets = s.env.resets

/-- A command with chain bit `k` has completed, and the host's reads and writes are all that changed anything else
but the registers a claim names. -/
def Ends (k : Bool) (s t : State) : Prop := Completed k s t ∧ OutOfHostReach s t

/-- The CSRs are as before but for the fault record, and the record too unless the command faulted. -/
def SameCsr (s t : State) : Prop :=
  t.csr = { s.csr with err := t.csr.err, errcmd := t.csr.errcmd, erraux := t.csr.erraux } ∧
    (t.seq.state = .idle → t.csr = s.csr)

/-- What the passing of time and the bus leave alone: every register, the FIFO, the sample and the host's reads. The
poller's timer has counted the cycles that passed. -/
def OnlyTimePassed (s t : State) : Prop :=
  t.par = s.par ∧ t.q = s.q ∧ t.seq.cur = s.seq.cur ∧ t.env.reads = s.env.reads ∧ t.env.host = s.env.host ∧
    t.env.portFree = s.env.portFree ∧ t.env.resets = s.env.resets ∧ s.env.now ≤ t.env.now ∧
    t.poll = s.poll.advance s.par.clkPerMs (t.env.now - s.env.now)

/-- The poll interval has started anew with the poll or TPOLL from `s` to `t`: POLL_PERIOD read again, and the one cycle
of the end counted by the timer (44_touch_sampler.md R231, R232; 43_system_commands.md R211). -/
def IntervalRestarted (s t : State) : Prop :=
  let due := s.csr.pollPeriod.toNat * s.par.clkPerMs
  t.poll.period = s.csr.pollPeriod ∧ t.poll.timer = min 1 due ∧ t.poll.state = if due ≤ 1 then .pending else .timing

/-- One block cycle of the poller, as R232 words it. -/
def Poll.cycle (clkPerMs : Nat) (p : Poll) : Poll :=
  if p.state = .timing then
    { p with
      timer := p.timer + 1
      state := if p.timer + 1 = p.period.toNat * clkPerMs then .pending else .timing }
  else p

/-- The words of one chain: K = 1 in all but the last, K = 0 in the last (45_host_macros.md R289). -/
def IsChain (ws : List Word) : Prop :=
  ∃ body last, ws = body ++ [last] ∧ (∀ w ∈ body, kField w = true) ∧ kField last = false

/-- SCK and MOSI at their idle levels, CS_N and RST_N at 1 (R131). -/
def PinsAtRest (s : State) : Prop :=
  s.pins.csN = true ∧ s.pins.rstN = true ∧ s.pins.mosi = false ∧ s.pins.sck = sckIdle s.par.spiMode

/-- Part of the invariant that holds at every instant, inside a command too: the bounds of R41 and R43, and what the
WARL fields and reserved bits of R36, R39 and R40 can hold. -/
structure Legal (s : State) : Prop where
  params : s.par.legal = true
  queue : s.q.length ≤ s.par.cmdqDepth
  buffer : s.lb.length = s.par.linebufWords
  waitLimit : s.csr.waitLimit ≠ 0#16
  pollPeriod : s.csr.pollPeriod ≠ 0#16
  tcfg1Reserved : s.csr.tcfg1 &&& 0xFF008800#32 = 0#32
  releasePolls : releasePolls s.csr.tcfg1 ≠ 0#8
  rdata : s.csr.rdata &&& 0xFFFFFF00#32 = 0#32

/-- The poller between polls (R47, R231): OFF exactly while TOUCH_EN = 0, a timer that has not passed its interval
in TIMING and has reached it in PENDING. -/
structure PollerAtRest (s : State) : Prop where
  notActive : s.poll.state ≠ .active
  noStop : s.poll.stop = false
  off : s.poll.state = .off ↔ s.csr.touchEn = false
  period : s.poll.state ≠ .off → s.poll.period ≠ 0#16
  timing : s.poll.state = .timing → s.poll.timer < s.poll.period.toNat * s.par.clkPerMs
  pending : s.poll.state = .pending → s.poll.timer = s.poll.period.toNat * s.par.clkPerMs

/-- SEQ waits for one cycle at most after a fault return, and not at all while it runs a command or a chain is open
(60_exceptions.md R309). -/
structure Resumes (s : State) : Prop where
  soon : s.seq.resume ≤ s.env.now + 1
  closed : s.seq.state = .exec ∨ s.seq.chain = true → s.seq.resume ≤ s.env.now

/-- The invariant between two steps (R28 to R30, R45 to R47, R131): no command and no poll in progress, STATUS.ERR
names an error exactly in FAULT, the bus belongs to SEQ exactly while a chain is open and to no one otherwise. -/
structure Inv (s : State) : Prop where
  legal : Legal s
  poller : PollerAtRest s
  pins : PinsAtRest s
  notBusy : s.seq.state ≠ .exec
  err : s.csr.err = .none ↔ s.seq.state ≠ .fault
  chain : s.seq.chain = true → s.seq.state = .idle
  owner : s.owner = if s.seq.chain then .seq else .none
  resumes : Resumes s
  tphase : s.poll.tphase = false
  tpollAct : s.csr.tpollAct = false
  noLocal : s.loc = Local.none

/-- CS_N is 0 at the end of a trace given newest event first (R131). -/
def csLowIn : List TraceEntry → Bool
  | [] => false
  | e :: r =>
    match e.event with
    | .csl => true
    | .csh _ => false
    | .x _ _ => csLowIn r
    | .rstl => csLowIn r
    | .rsth => csLowIn r

/-- RST_N is 0 at the end of a trace given newest event first (R131). -/
def rstLowIn : List TraceEntry → Bool
  | [] => false
  | e :: r =>
    match e.event with
    | .rstl => true
    | .rsth => false
    | .csl => rstLowIn r
    | .csh _ => rstLowIn r
    | .x _ _ => rstLowIn r

/-- The cycle in which CS_N last rose. -/
def lastRise : List TraceEntry → Option Nat
  | [] => none
  | e :: r =>
    match e.event with
    | .csh _ => some e.cycle
    | .csl => lastRise r
    | .x _ _ => lastRise r
    | .rstl => lastRise r
    | .rsth => lastRise r

/-- The event may follow the trace `r` (R131, R132, R134, R144, R147): CS_N falls only from 1, with RST_N at 1 and
`T_CSH_MIN` cycles after it rose; a byte slot needs CS_N = 0 and, first in its phase, sends a prefix byte; a reset
pulse needs CS_N = 1. -/
def mayFollow (p : Params) (e : TraceEntry) (r : List TraceEntry) : Bool :=
  match e.event with
  | .csl => !csLowIn r && !rstLowIn r && (lastRise r).all (fun c => decide (c + p.tCshMin ≤ e.cycle))
  | .csh _ => csLowIn r
  | .x t _ =>
    csLowIn r && (!(r.head?.any fun f => f.event == .csl) || t == 0x80#8 || t == 0x00#8 || t == 0x40#8)
  | .rstl => !csLowIn r && !rstLowIn r
  | .rsth => !csLowIn r && rstLowIn r

/-- A trace, newest event first, that keeps the framing rules, in cycles that never go back (R347). -/
def framed (p : Params) : List TraceEntry → Bool
  | [] => true
  | e :: r => framed p r && r.head?.all (fun f => decide (f.cycle ≤ e.cycle)) && mayFollow p e r

/-- The trace keeps the framing rules, the pins are as it shows them, and CS_N may not fall too soon after it rose
(R131, R134). -/
structure Framing (s : State) : Prop where
  trace : framed s.par s.env.trace = true
  cs : csLowIn s.env.trace = !s.pins.csN
  rst : rstLowIn s.env.trace = !s.pins.rstN
  gap : ∀ c, lastRise s.env.trace = some c → c + s.par.tCshMin ≤ s.pins.cslOk
  past : ∀ e ∈ s.env.trace, e.cycle ≤ s.env.now

/-- The duration of a phase of `n` slots, `P(n)` of 70_reset_and_hazards.md R349. -/
def phaseTime (p : Params) (n : Nat) : Nat := p.sckDiv * (8 * n + 1)

/-- The first cycle in which a command popped in this state can lower CS_N (R348). -/
def firstFall (s : State) : Nat := max (s.env.now + 1) s.pins.cslOk

/-- The cycles of the first and the last bus event that `t` has and `s` has not. -/
def busSpan (s t : State) : Option (Nat × Nat) :=
  let new := t.env.trace.take (t.env.trace.length - s.env.trace.length)
  match new.getLast?, new.head? with
  | some e, some f => some (e.cycle, f.cycle)
  | _, _ => none

end Sys2Proof.Machine
end

