-- ==== Sys2Proof/Certificates/Slice0/Obligations.lean ====
section
/-! DEFINITION. The statements for the provers: encoding, the sequencer's step, what each command does and where it
completes, where it traps, what it leaves alone, the host registers, block reset, and the invariants of a step. -/

open Sys2Proof Sys2Proof.Machine

/-! ### Encoding -/

/-- Decoding the word of a command gives the command back, with every operand at every value its field admits
(30_encoding.md R100, R105, R106). -/
def Obligations.DecodeOfEncode : Prop := ∀ i : Instr, decode (encode i) = .ok i

/-- A word is a command's encoding exactly when `(w & mask) = match` in that command's row of R106's table, and its
operands are the fields `K = w[27]`, `A = w[23:16]`, `D = w[15:0]`, `V = M = w[7:0]` (R102, R105). -/
def Obligations.DecodeByOpcodeMap : Prop := ∀ (w : Word) (i : Instr), decode w = .ok i ↔
  (w &&& 0xF7FFFFFF#32 = 0x00000000#32 ∧ i = .nop (w.getLsbD 27)) ∨
  (w &&& 0xF700FF00#32 = 0x10000000#32 ∧ i = .wreg (w.getLsbD 27) (w.extractLsb' 16 8) (w.extractLsb' 0 8)) ∨
  (w &&& 0xF700FFFF#32 = 0x20000000#32 ∧ i = .rreg (w.getLsbD 27) (w.extractLsb' 16 8)) ∨
  (w &&& 0xF7000000#32 = 0x30000000#32 ∧ i = .wreg16 (w.getLsbD 27) (w.extractLsb' 16 8) (w.extractLsb' 0 16)) ∨
  (w &&& 0xF700FF00#32 = 0x40000000#32 ∧ i = .wait (w.getLsbD 27) (w.extractLsb' 16 8) (w.extractLsb' 0 8)) ∨
  (w &&& 0xF7000000#32 = 0x50000000#32 ∧ i = .mwrite (w.getLsbD 27) (w.extractLsb' 16 8) (w.extractLsb' 0 16)) ∨
  (w &&& 0xF7000000#32 = 0x60000000#32 ∧ i = .mread (w.getLsbD 27) (w.extractLsb' 16 8) (w.extractLsb' 0 16)) ∨
  (w &&& 0xF7FF0000#32 = 0x70000000#32 ∧ i = .delay (w.getLsbD 27) (w.extractLsb' 0 16)) ∨
  (w &&& 0xF7FFFFFF#32 = 0x80000000#32 ∧ i = .reset (w.getLsbD 27)) ∨
  (w &&& 0xF7FF0000#32 = 0x90000000#32 ∧ i = .init (w.getLsbD 27) (w.extractLsb' 0 16)) ∨
  (w &&& 0xF7FFFFFF#32 = 0xA0000000#32 ∧ i = .tpoll (w.getLsbD 27))

/-- The encoding grounds on which decode rejects a word, in R107's order: a reserved opcode, a non-zero RSV field,
a non-zero field that the command's row lists as zero (R106 to R109). -/
def Obligations.DecodeRejectsExactly : Prop := ∀ w : Word,
  let op := (w.extractLsb' 28 4).toNat
  let rsv := w.extractLsb' 24 3
  (decode w = .error .reservedOpcode ↔ 0xB ≤ op) ∧
  (decode w = .error .nonzeroReserved ↔ op < 0xB ∧ rsv ≠ 0#3) ∧
  (decode w = .error .nonzeroZeroField ↔ rsv = 0#3 ∧
    (((op = 0x0 ∨ op = 0x8 ∨ op = 0xA) ∧ w.extractLsb' 0 24 ≠ 0#24) ∨
      ((op = 0x1 ∨ op = 0x4) ∧ w.extractLsb' 8 8 ≠ 0#8) ∨ (op = 0x2 ∧ w.extractLsb' 0 16 ≠ 0#16) ∨
      ((op = 0x7 ∨ op = 0x9) ∧ w.extractLsb' 16 8 ≠ 0#8)))

/-- The rows of R113's table: each command's word decodes to it and is its encoding. -/
def Obligations.ExampleWords : Prop :=
  ∀ row ∈ [((0x00000000#32 : Word), Instr.nop false), (0x08000000#32, .nop true),
      (0x1088000A#32, .wreg false 0x88#8 0x0A#8), (0x189000B0#32, .wreg true 0x90#8 0xB0#8),
      (0x20880000#32, .rreg false 0x88#8), (0x3091000A#32, .wreg16 false 0x91#8 10#16),
      (0x40900080#32, .wait false 0x90#8 0x80#8), (0x50020008#32, .mwrite false 0x02#8 8#16),
      (0x60020001#32, .mread false 0x02#8 1#16), (0x70000014#32, .delay false 20#16), (0x80000000#32, .reset false),
      (0x90000000#32, .init false 0#16), (0x90000001#32, .init false 1#16), (0xA0000000#32, .tpoll false)],
    decode row.1 = .ok row.2 ∧ encode row.2 = row.1

/-! ### The sequencer's step -/

/-- When SEQ pops a word that decodes to `i`, the step is the meaning of `i` on the state after the pop, in which the
word has left the FIFO, SEQ executes it and owns the bus, and nothing else has changed (41_register_commands.md
R150). -/
def Obligations.StepRunsHeadCommand : Prop := ∀ (s : State) (w : Word) (rest : List Word) (i : Instr),
  AtPop w rest s → decode w = .ok i →
    step s = exec i { s with
      q := rest
      seq := { s.seq with state := .exec, cur := w }
      owner := .seq
      loc := Local.none }

/-- Popping a word that decode rejects raises ILLEGAL_CMD, whatever its other bits are: no bus event, the word in
ERRCMD, ERRAUX = 0 and any open chain closed. With no host action to come nothing else changes but time, two cycles
of it; with host reads and writes under way what they cannot reach is unchanged (30_encoding.md R108, R109;
60_exceptions.md R301, R303; 70_reset_and_hazards.md R348). -/
def Obligations.IllegalWordFaults : Prop := ∀ (s : State) (w : Word) (rest : List Word),
  AtPop w rest s → Benign s → (∃ e, decode w = .error e) →
    ∃ t, step s = .next t ∧ t.seq = { s.seq with state := .fault, cur := w, chain := false } ∧
      t.owner = .none ∧ t.csr.err = .illegalCmd ∧ t.csr.errcmd = w ∧ t.csr.erraux = 0#32 ∧ t.bus = s.bus ∧
      t.csr.rdata = s.csr.rdata ∧ t.csr.initDone = s.csr.initDone ∧ t.sample.x = s.sample.x ∧
      t.sample.y = s.sample.y ∧ t.pins = s.pins ∧
      (s.env.host = [] → t = { s with
        q := rest
        seq := t.seq
        owner := .none
        loc := Local.none
        csr := { s.csr with err := .illegalCmd, errcmd := w, erraux := 0#32 }
        poll := s.poll.advance s.par.clkPerMs 2
        env := { s.env with now := s.env.now + 2 } })

/-- In a cycle with a host action, that action comes first: the step is the action alone (60_exceptions.md R312). -/
def Obligations.HostActionComesFirst : Prop := ∀ (s : State) (r : HostReq) (rest : List HostReq),
  s.env.host = r :: rest → s.env.portFree + r.gap ≤ s.env.now → step s = hostStep r rest s

/-- While a chain is open no background poll starts: with no host action due, the step pops the next word and runs it
or, with the FIFO empty, lets a cycle pass (10_state.md R46, 20_memory.md R82). -/
def Obligations.ChainKeepsPollsOut : Prop := ∀ s : State, Inv s → s.seq.chain = true → hostDue s = none →
  (∀ w rest, s.q = w :: rest → step s = runWord w rest s) ∧ (s.q = [] → step s = .next (tick 1 s))

/-- In FAULT, with no host action to come, a step pops nothing, stays in FAULT and keeps the record of the fault,
even if a background poll runs in it and ends in a BUS_FAULT (60_exceptions.md R308, R310). -/
def Obligations.FaultHoldsAndKeepsRecord : Prop := ∀ s : State, Inv s → Quiet s → s.seq.state = .fault →
  ∃ t, step s = .next t ∧ t.seq = s.seq ∧ t.q = s.q ∧ t.csr.err = s.csr.err ∧ t.csr.errcmd = s.csr.errcmd ∧
    t.csr.erraux = s.csr.erraux

/-- A host action takes SEQ out of FAULT only if it is a block reset or a write to STATUS with bit 2 set. After such a
write SEQ pops nothing in the same cycle: unless a pending background poll takes the free bus, the next step lets the
cycle pass (60_exceptions.md R309, R312; the cycle is held in the model's own `Seq.resume`, notes/assumptions/30.md). -/
def Obligations.FaultLeftOnlyByReturn : Prop := ∀ (s t : State) (r : HostReq) (rest : List HostReq),
  s.seq.state = .fault → hostStep r rest s = .next t → t.seq.state ≠ .fault →
    (∃ low, r.op = .blockReset low) ∨
    (∃ v, r.op = .write (s.par.rsqBase + 0x008) 4 v ∧ v.getLsbD 2 = true ∧ t.seq.state = .idle ∧
      t.env.now = s.env.now ∧ (t.owner ≠ .none ∨ t.poll.state ≠ .pending → step t = .next (tick 1 t)))

/-- A background poll that finds the touch bit set: the five register accesses of R236 in its order, the decoded
sample committed with READY and TOUCHED set and TOVR set if the sample before was unread, the release count cleared,
the bus free; the poll interval starts anew if TOUCH_EN = 1, and the poller is OFF otherwise (44_touch_sampler.md R231,
R232, R235 to R240). -/
def Obligations.BackgroundPollTouched : Prop := ∀ s : State,
  Quiet s → s.par.hasBusErr = false → s.poll.state = .pending → s.owner = .none → s.poll.stop = false →
  touchSet (s.env.answer 3) (intMask s.csr.tcfg0) = true →
    ∃ t, step s = .next t ∧ t.bus = s.bus ++ touchedEvents s.csr.tcfg0 s.csr.tcfg1 s.par.readFill s.env ∧
      t.sample = {
        x := coordOf (s.env.answer 7) (s.env.answer 15) (xlShift s.csr.tcfg1)
        y := coordOf (s.env.answer 11) (s.env.answer 15) (ylShift s.csr.tcfg1)
        ready := true, touched := true, tovr := s.sample.tovr || s.sample.ready } ∧
      t.poll.relcnt = 0#8 ∧ t.poll.tphase = false ∧
      (s.csr.touchEn = true → IntervalRestarted s t) ∧
      (s.csr.touchEn = false → t.poll.state = .off ∧ t.poll.timer = 0) ∧
      t.csr = { s.csr with tpollAct := false } ∧ t.seq = s.seq ∧ t.owner = .none ∧ t.q = s.q ∧ t.lb = s.lb

/-- A background poll that finds the touch bit clear: one register read, one more on the release count, TOUCHED
cleared once the count reaches RELEASE_POLLS, the sample as it was; the poll interval starts anew if TOUCH_EN = 1, and
the poller is OFF otherwise (R231, R232, R236, R241). -/
def Obligations.BackgroundPollClear : Prop := ∀ s : State,
  Quiet s → s.par.hasBusErr = false → s.poll.state = .pending → s.owner = .none → s.poll.stop = false →
  touchSet (s.env.answer 3) (intMask s.csr.tcfg0) = false →
    ∃ t, step s = .next t ∧
      t.bus = s.bus ++ accessEvents (intAddr s.csr.tcfg0) [0x40#8, s.par.readFill] s.env ∧
      t.poll.relcnt.toNat = min (s.poll.relcnt.toNat + 1) 255 ∧
      t.sample = { s.sample with
        touched := s.sample.touched && decide (t.poll.relcnt.toNat < (releasePolls s.csr.tcfg1).toNat) } ∧
      (s.csr.touchEn = true → IntervalRestarted s t) ∧
      (s.csr.touchEn = false → t.poll.state = .off ∧ t.poll.timer = 0) ∧
      t.csr = { s.csr with tpollAct := false } ∧ t.seq = s.seq ∧ t.owner = .none ∧ t.q = s.q ∧ t.lb = s.lb

/-! ### Where each command completes and what it does. The host may read and write registers meanwhile. -/

/-- NOP completes two cycles after its pop's cycle began and does nothing on the bus (41_register_commands.md R152;
70_reset_and_hazards.md R348). -/
def Obligations.NopCompletes : Prop := ∀ (k : Bool) (s : State), Running (.nop k) s → Benign s →
  ∃ t, exec (.nop k) s = .next t ∧ Ends k s t ∧ t.bus = s.bus ∧ t.env.now = s.env.now + 2 ∧
    t.csr.rdata = s.csr.rdata ∧ t.csr.initDone = s.csr.initDone

/-- WREG, for every A and V: a command phase and a data-write phase, RDATA unchanged (R153, R138). -/
def Obligations.WregCompletes : Prop := ∀ (k : Bool) (a v : Byte) (s : State),
  Running (.wreg k a v) s → Benign s → s.par.hasBusErr = false →
    ∃ t, exec (.wreg k a v) s = .next t ∧ Ends k s t ∧ t.bus = s.bus ++ accessEvents a [0x00#8, v] s.env ∧
      t.csr.rdata = s.csr.rdata ∧ t.csr.initDone = s.csr.initDone

/-- RREG, for every A: a command phase and a data-read phase; RDATA is the byte of the read slot, zero-extended
(R154, R139). -/
def Obligations.RregCompletes : Prop := ∀ (k : Bool) (a : Byte) (s : State),
  Running (.rreg k a) s → Benign s → s.par.hasBusErr = false →
    ∃ t, exec (.rreg k a) s = .next t ∧ Ends k s t ∧
      t.bus = s.bus ++ accessEvents a [0x40#8, s.par.readFill] s.env ∧
      t.csr.rdata = zext32 (s.env.answer 3) ∧ t.csr.initDone = s.csr.initDone

/-- WREG16, for every A but 0xFF and every D: two register writes, the low byte at A first, then the high byte at
A + 1 (R155; 20_memory.md R75). -/
def Obligations.Wreg16Completes : Prop := ∀ (k : Bool) (a : Byte) (d : Half) (s : State),
  Running (.wreg16 k a d) s → Benign s → s.par.hasBusErr = false → a ≠ 0xFF#8 →
    ∃ t, exec (.wreg16 k a d) s = .next t ∧ Ends k s t ∧
      t.bus = s.bus ++ accessEvents a [0x00#8, d.extractLsb' 0 8] s.env ++
        accessEvents (a + 1#8) [0x00#8, d.extractLsb' 8 8] (s.env.after 4) ∧
      t.csr.rdata = s.csr.rdata ∧ t.csr.initDone = s.csr.initDone

/-- WAIT completes with the first of its at most WAIT_LIMIT reads that finds no bit of M set; RDATA is that read
(R156). -/
def Obligations.WaitCompletes : Prop := ∀ (k : Bool) (a m : Byte) (n : Nat) (s : State),
  Running (.wait k a m) s → Benign s → s.par.hasBusErr = false →
  readsUntilClear m s.csr.waitLimit.toNat s.env = some n →
    ∃ t, exec (.wait k a m) s = .next t ∧ Ends k s t ∧ t.bus = s.bus ++ readsEvents s.par.readFill a n s.env ∧
      t.csr.rdata = zext32 (statusRead s.env (n - 1)) ∧ t.csr.initDone = s.csr.initDone

/-- DELAY takes exactly D milliseconds beside its pop and its completion, with no bus event (R157; R348). -/
def Obligations.DelayCompletes : Prop := ∀ (k : Bool) (ms : Half) (s : State),
  Running (.delay k ms) s → Benign s →
    ∃ t, exec (.delay k ms) s = .next t ∧ Ends k s t ∧ t.bus = s.bus ∧
      t.env.now = s.env.now + 1 + ms.toNat * s.par.clkPerMs + 1 ∧
      t.csr.rdata = s.csr.rdata ∧ t.csr.initDone = s.csr.initDone

/-- MWRITE, for every n from 1 to LINEBUF_WORDS: one data phase with both bytes of each of LB[0] to LB[n-1] as they
were at the pop; the lock keeps the host from changing them (42_bulk_commands.md R181; 10_state.md R44). -/
def Obligations.MwriteCompletes : Prop := ∀ (k : Bool) (a : Byte) (n : Half) (s : State),
  Running (.mwrite k a n) s → Benign s → s.par.hasBusErr = false →
  1 ≤ n.toNat → n.toNat ≤ s.par.linebufWords →
    ∃ t, exec (.mwrite k a n) s = .next t ∧ Ends k s t ∧
      t.bus = s.bus ++ accessEvents a (0x00#8 :: lbBytes s n.toNat) s.env ∧ t.lb = s.lb ∧
      t.csr.rdata = s.csr.rdata ∧ t.csr.initDone = s.csr.initDone

/-- MREAD, for every n from 1 to LINEBUF_WORDS: one data phase with MREAD_DUMMY dummy slots and 2n read slots; entry
j below n holds the pixel of its two bytes, every other entry is unchanged (R182, R141). -/
def Obligations.MreadCompletes : Prop := ∀ (k : Bool) (a : Byte) (n : Half) (s : State),
  Running (.mread k a n) s → Benign s → s.par.hasBusErr = false → s.lb.length = s.par.linebufWords →
  1 ≤ n.toNat → n.toNat ≤ s.par.linebufWords →
    ∃ t, exec (.mread k a n) s = .next t ∧ Ends k s t ∧
      t.bus = s.bus ++ accessEvents a
        (0x40#8 :: List.replicate (s.par.mreadDummy + 2 * n.toNat) s.par.readFill) s.env ∧
      (∀ j < n.toNat, t.lb[j]? = some (pixValue s.par.pixMsbFirst
        (s.env.answer (3 + s.par.mreadDummy + 2 * j)) (s.env.answer (3 + s.par.mreadDummy + 2 * j + 1)))) ∧
      (∀ j, n.toNat ≤ j → t.lb[j]? = s.lb[j]?) ∧
      t.csr.rdata = s.csr.rdata ∧ t.csr.initDone = s.csr.initDone

/-- RESET clears INIT_DONE and pulses RST_N: RSTL, the low time, RSTH, the wait (43_system_commands.md R200). -/
def Obligations.ResetCompletes : Prop := ∀ (k : Bool) (s : State),
  Running (.reset k) s → Benign s → s.pins.rstN = true →
    ∃ t, exec (.reset k) s = .next t ∧ Ends k s t ∧ t.bus = s.bus ++ [.rstl, .rsth] ∧
      t.env.now = s.env.now + 1 + (s.par.tRstLowMs + s.par.tRstWaitMs) * s.par.clkPerMs + 1 ∧
      busSpan s t = some (s.env.now + 1, s.env.now + 1 + s.par.tRstLowMs * s.par.clkPerMs) ∧
      t.pins.rstN = true ∧ t.csr.initDone = false ∧ t.csr.rdata = s.csr.rdata

/-- INIT, for both geometries: the reset pulse, then the accesses of INIT_TABLE[g] in table order, then INIT_DONE, if
every wait entry reads clear in time; RDATA is the last status byte of the table's last wait entry (R201, R205, R208;
10_state.md R36). The host does nothing meanwhile, since it could change WAIT_LIMIT. -/
def Obligations.InitCompletes : Prop := ∀ (k : Bool) (g : Half) (s : State) (evs : List BusEvent) (e : Env),
  Running (.init k g) s → Quiet s → s.par.hasBusErr = false → s.pins.rstN = true → (g = 0#16 ∨ g = 1#16) →
  tableEvents s (s.par.initTable g.toNat) s.env = some (evs, e) →
    ∃ t, exec (.init k g) s = .next t ∧ Ends k s t ∧ t.bus = s.bus ++ [.rstl, .rsth] ++ evs ∧
      t.csr.initDone = true ∧
      t.csr.rdata = rdataAfter (tablePhases s 1 (s.par.initTable g.toNat) s.env) s.env s.csr.rdata

/-- TPOLL, with RDATA unchanged: with the touch bit clear one read of the interrupt-status register and no new sample,
with it set the five accesses of R236 and the sample decoded as R237 says (R211; 44_touch_sampler.md R236). -/
def Obligations.TpollCompletes : Prop := ∀ (k : Bool) (s : State),
  Running (.tpoll k) s → Benign s → s.par.hasBusErr = false →
    let c0 := s.csr.tcfg0
    let c1 := s.csr.tcfg1
    let touched := touchSet (s.env.answer 3) (intMask c0)
    ∃ t, exec (.tpoll k) s = .next t ∧ Completed k s t ∧
      t.bus = s.bus ++ (if touched then touchedEvents c0 c1 s.par.readFill s.env
        else accessEvents (intAddr c0) [0x40#8, s.par.readFill] s.env) ∧
      t.sample.x = (if touched then coordOf (s.env.answer 7) (s.env.answer 15) (xlShift c1) else s.sample.x) ∧
      t.sample.y = (if touched then coordOf (s.env.answer 11) (s.env.answer 15) (ylShift c1) else s.sample.y) ∧
      (s.poll.tphase = false → t.poll.tphase = false) ∧ t.csr.tpollAct = false ∧
      t.csr.rdata = s.csr.rdata ∧ t.csr.initDone = s.csr.initDone ∧ t.csr.err = s.csr.err

/-- The flags TPOLL leaves, when the host does nothing meanwhile: after a touch READY and TOUCHED with TOVR if the
sample before was unread and a cleared release count, without one the release debounce. With TOUCH_EN = 1 the poll
interval starts anew, which cancels a pending poll; the poller stays OFF otherwise (R238, R239, R241, R211). -/
def Obligations.TpollFlags : Prop := ∀ (k : Bool) (s : State),
  Running (.tpoll k) s → Quiet s → s.par.hasBusErr = false → PollerAtRest s →
    ∃ t, exec (.tpoll k) s = .next t ∧
      (touchSet (s.env.answer 3) (intMask s.csr.tcfg0) = true →
        t.sample.ready = true ∧ t.sample.touched = true ∧ t.sample.tovr = (s.sample.tovr || s.sample.ready) ∧
        t.poll.relcnt = 0#8) ∧
      (touchSet (s.env.answer 3) (intMask s.csr.tcfg0) = false →
        t.poll.relcnt.toNat = min (s.poll.relcnt.toNat + 1) 255 ∧
        t.sample = { s.sample with
          touched := s.sample.touched && decide (t.poll.relcnt.toNat < (releasePolls s.csr.tcfg1).toNat) }) ∧
      (s.csr.touchEn = false → t.poll.state = .off) ∧
      (s.csr.touchEn = true → IntervalRestarted s t) ∧
      t.csr = { s.csr with tpollAct := false }

/-- The bus times of R349, from the first falling edge of CS_N, one cycle after the pop's or when T_CSH_MIN allows,
to the last rising edge: register accesses, streams, waits and polls (70_reset_and_hazards.md R348, R349). -/
def Obligations.BusTimes : Prop := ∀ (i : Instr) (s t : State), Running i s → Benign s →
  s.par.hasBusErr = false → s.par.legal = true → exec i s = .next t →
    let P := phaseTime s.par
    let G := s.par.tCshMin
    let spans := fun time => busSpan s t = some (firstFall s, firstFall s + time)
    (∀ k a v, i = .wreg k a v → spans (2 * P 2 + G)) ∧ (∀ k a, i = .rreg k a → spans (2 * P 2 + G)) ∧
    (∀ k a d, i = .wreg16 k a d → a ≠ 0xFF#8 → spans (4 * P 2 + 3 * G)) ∧
    (∀ k a m n, i = .wait k a m → readsUntilClear m s.csr.waitLimit.toNat s.env = some n →
      spans (n * (2 * P 2 + G) + (n - 1) * max (s.csr.waitInterval.toNat * s.par.clkPerMs) G)) ∧
    (∀ k a n, i = .mwrite k a n → 1 ≤ n.toNat → n.toNat ≤ s.par.linebufWords →
      spans (P 2 + G + P (2 * n.toNat + 1))) ∧
    (∀ k a n, i = .mread k a n → 1 ≤ n.toNat → n.toNat ≤ s.par.linebufWords →
      spans (P 2 + G + P (2 * n.toNat + 1 + s.par.mreadDummy))) ∧
    (∀ k, i = .tpoll k → spans (if touchSet (s.env.answer 3) (intMask s.csr.tcfg0) then 10 * P 2 + 9 * G
      else 2 * P 2 + G))

/-- Every command ends, whatever the device answers and whatever reads and writes the host makes meanwhile: in IDLE
or in FAULT with the word in ERRCMD and an error code of execution or an operand check, never stuck (41_register_commands.md
R150, R156; 60_exceptions.md R303). -/
def Obligations.EveryCommandEnds : Prop := ∀ (i : Instr) (s : State), Running i s → Benign s →
  ∃ t, exec i s = .next t ∧ t.loc = Local.none ∧
    ((t.seq.state = .idle ∧ t.seq.chain = i.k ∧ t.owner = if i.k then .seq else .none) ∨
      (t.seq.state = .fault ∧ t.seq.chain = false ∧ t.owner = .none ∧ t.csr.errcmd = encode i ∧
        t.csr.err ≠ .none ∧ t.csr.err ≠ .illegalCmd))

/-! ### Where commands trap -/

/-- A WAIT whose WAIT_LIMIT reads all find a bit of M set raises HW_FAULT after the last: exactly that many reads,
ERRAUX and RDATA the last status byte (60_exceptions.md R304, R303). -/
def Obligations.WaitTimesOut : Prop := ∀ (k : Bool) (a m : Byte) (s : State),
  Running (.wait k a m) s → Benign s → s.par.hasBusErr = false → s.csr.waitLimit ≠ 0#16 →
  readsUntilClear m s.csr.waitLimit.toNat s.env = none →
    ∃ t, exec (.wait k a m) s = .next t ∧
      Faulted .hwFault (zext32 (statusRead s.env (s.csr.waitLimit.toNat - 1))) s t ∧
      t.bus = s.bus ++ readsEvents s.par.readFill a s.csr.waitLimit.toNat s.env ∧
      t.csr.rdata = zext32 (statusRead s.env (s.csr.waitLimit.toNat - 1))

/-- WREG16 at 0xFF, and MWRITE and MREAD of no pixel or of more than LINEBUF_WORDS, raise BAD_OPERAND: no bus event,
ERRAUX = 0, RDATA and the line buffer as they were (60_exceptions.md R302; 30_encoding.md R110). -/
def Obligations.BadOperandTraps : Prop := ∀ (i : Instr) (s : State), Running i s → Benign s →
  ((∃ k d, i = .wreg16 k 0xFF#8 d) ∨
    (∃ k a n, (i = .mwrite k a n ∨ i = .mread k a n) ∧ (n = 0#16 ∨ s.par.linebufWords < n.toNat))) →
    ∃ t, exec i s = .next t ∧ Faulted .badOperand 0#32 s t ∧ t.bus = s.bus ∧ t.csr.rdata = s.csr.rdata ∧
      (isBulkWord s.seq.cur = true → t.lb = s.lb)

/-- INIT with a geometry code other than 0 and 1 raises CONFIG_ERROR: no reset pulse, no bus event, ERRAUX = 0,
INIT_DONE as it was (60_exceptions.md R305). -/
def Obligations.ConfigErrorTraps : Prop := ∀ (k : Bool) (g : Half) (s : State),
  Running (.init k g) s → Benign s → g ≠ 0#16 → g ≠ 1#16 →
    ∃ t, exec (.init k g) s = .next t ∧ Faulted .configError 0#32 s t ∧ t.bus = s.bus ∧ t.pins = s.pins ∧
      t.csr.initDone = s.csr.initDone

/-- The first wait entry of INIT's table that never reads clear ends it: HW_FAULT with the last status byte in DETAIL
and RDATA, STEP = 1 + its index where that fits the field (a longer table's STEP is a free value,
notes/assumptions/22.md), INIT_DONE = 0, and no event of a later entry (43_system_commands.md R204, R205;
60_exceptions.md R304). -/
def Obligations.InitFaultNamesEntry : Prop := ∀ (k : Bool) (g : Half) (s : State) (before after : List InitEntry)
    (en : InitEntry) (evs : List BusEvent) (e : Env),
  Running (.init k g) s → Quiet s → s.par.hasBusErr = false → s.pins.rstN = true →
  s.csr.waitLimit ≠ 0#16 → (g = 0#16 ∨ g = 1#16) → s.par.initTable g.toNat = before ++ en :: after →
  tableEvents s before s.env = some (evs, e) → en.kind = .wt →
  readsUntilClear (loByte en.d) s.csr.waitLimit.toNat e = none →
    ∃ t aux, exec (.init k g) s = .next t ∧ Faulted .hwFault aux s t ∧
      aux.extractLsb' 0 16 = (statusRead e (s.csr.waitLimit.toNat - 1)).setWidth 16 ∧ aux.getLsbD 31 = false ∧
      (before.length + 1 < 32768 → (aux.extractLsb' 16 15).toNat = before.length + 1) ∧
      t.csr.initDone = false ∧ t.csr.rdata = zext32 (statusRead e (s.csr.waitLimit.toNat - 1)) ∧
      t.bus = s.bus ++ [.rstl, .rsth] ++ evs ++ readsEvents s.par.readFill en.a s.csr.waitLimit.toNat e

/-- On hardware with a bus-error input, a bus error at the end of any phase raises BUS_FAULT right after that phase:
nothing more goes over the bus and no byte of a failed read goes to RDATA. In a command, INIT and TPOLL among them,
DETAIL is the phase's index and STEP names INIT's entry. A background poll's fault has BG = 1 and ERRCMD = 0xA000_0000,
keeps the record of an earlier fault and lets the poller go on. In a poll a fault before the commit leaves the sample
as it was, and one after it leaves the new sample (40_spi_framing.md R143; 60_exceptions.md R303, R306, R310;
44_touch_sampler.md R243; STEP beyond its field is a free value, notes/assumptions/22.md). -/
def Obligations.BusFaultNamesPhase : Prop :=
  (∀ (i : Instr) (p : Nat) (ph : Phase) (s : State), Running i s → Benign s → ((∃ k g, i = .init k g) → Quiet s) →
    s.par.hasBusErr = true → (commandPhases s i)[p]? = some ph → ErrorAt p s →
    ∃ t aux, exec i s = .next t ∧ Faulted .busFault aux s t ∧
      aux.extractLsb' 0 16 = BitVec.ofNat 16 (min p 0xFFFF) ∧ aux.getLsbD 31 = false ∧
      (ph.step < 32768 → (aux.extractLsb' 16 15).toNat = ph.step) ∧
      t.bus = s.bus ++ (match i with | .init _ _ => [.rstl, .rsth] | _ => []) ++
        cutEvents (commandPhases s i) p s.env ∧
      t.csr.rdata = rdataAfter ((commandPhases s i).take p) s.env s.csr.rdata ∧
      ((∃ k g, i = .init k g) → t.csr.initDone = false) ∧
      ((∃ k, i = .tpoll k) → t.poll.tphase = false ∧ t.csr.tpollAct = false ∧
        (Quiet s → t.sample = if p < 8 then s.sample else touchedSample s))) ∧
  (∀ (p : Nat) (s : State), Quiet s → s.par.hasBusErr = true → s.poll.state = .pending → s.owner = .none →
    s.poll.stop = false →
    let phases := pollPhases s.csr.tcfg0 s.csr.tcfg1 s.par.readFill s.env
    p < phases.length → ErrorAt p s →
    ∃ t, step s = .next t ∧ t.bus = s.bus ++ cutEvents phases p s.env ∧ t.seq = { s.seq with state := .fault } ∧
      t.owner = .none ∧ t.poll.tphase = false ∧ t.poll.relcnt = (if p < 8 then s.poll.relcnt else 0#8) ∧
      t.sample = (if p < 8 then s.sample else touchedSample s) ∧ t.q = s.q ∧ t.lb = s.lb ∧
      (s.csr.touchEn = true → IntervalRestarted s t) ∧
      (s.csr.touchEn = false → t.poll.state = .off ∧ t.poll.timer = 0) ∧
      t.csr = (if s.seq.state = .fault then { s.csr with tpollAct := false }
        else { s.csr with
          tpollAct := false
          err := .busFault
          errcmd := 0xA0000000#32
          erraux := 0x80000000#32 ||| BitVec.ofNat 32 p }))

/-! ### What each command leaves alone, when the host does nothing meanwhile -/

/-- NOP, WREG, WREG16, DELAY and MWRITE store nothing: every register, every line-buffer entry and the sample are as
they were, but for the fault record if the command faults (41_register_commands.md R151 to R153; 42_bulk_commands.md
R181). -/
def Obligations.PlainCommandFrame : Prop := ∀ (i : Instr) (s t : State),
  ((∃ k, i = .nop k) ∨ (∃ k a v, i = .wreg k a v) ∨ (∃ k a d, i = .wreg16 k a d) ∨ (∃ k ms, i = .delay k ms) ∨
    (∃ k a n, i = .mwrite k a n)) → Quiet s → exec i s = .next t →
    OnlyTimePassed s t ∧ SameCsr s t ∧ t.sample = s.sample ∧ (∀ j, getLb j t = getLb j s) ∧ t.lb = s.lb

/-- RREG and WAIT change RDATA, MREAD stores to LB[0] to LB[n-1], and nothing else changes but the fault record: every
other register and every other line-buffer entry is as before (41_register_commands.md R154, R156;
42_bulk_commands.md R182). -/
def Obligations.ReadCommandFrame : Prop := ∀ (i : Instr) (s t : State), Quiet s → exec i s = .next t →
  (((∃ k a, i = .rreg k a) ∨ (∃ k a m, i = .wait k a m)) →
    OnlyTimePassed s t ∧ SameCsr { s with csr := { s.csr with rdata := t.csr.rdata } } t ∧ t.sample = s.sample ∧
      (∀ j, getLb j t = getLb j s) ∧ t.lb = s.lb) ∧
  (∀ k a n, i = .mread k a n →
    OnlyTimePassed s t ∧ SameCsr s t ∧ t.sample = s.sample ∧ (∀ j, n.toNat ≤ j → getLb j t = getLb j s) ∧
      t.lb.length = s.lb.length)

/-- RESET and INIT change INIT_DONE, INIT also RDATA, and nothing else but the fault record: not the poller, the
sample, the line buffer or any other register (43_system_commands.md R200, R201, R206). -/
def Obligations.SystemCommandFrame : Prop := ∀ (i : Instr) (s t : State),
  ((∃ k, i = .reset k) ∨ (∃ k g, i = .init k g)) → Quiet s → exec i s = .next t →
    OnlyTimePassed s t ∧
      SameCsr { s with csr := { s.csr with rdata := t.csr.rdata, initDone := t.csr.initDone } } t ∧
      ((∃ k, i = .reset k) → t.csr.rdata = s.csr.rdata) ∧ t.sample = s.sample ∧ (∀ j, getLb j t = getLb j s) ∧
      t.lb = s.lb

/-- TPOLL changes the sample, the poller and TPOLL_ACT, and nothing else but the fault record: RDATA, CTRL, the
timing and touch configuration, the FIFO and the line buffer are as they were (43_system_commands.md R211;
44_touch_sampler.md R249). -/
def Obligations.TpollFrame : Prop := ∀ (k : Bool) (s t : State), Quiet s → exec (.tpoll k) s = .next t →
  SameCsr { s with csr := { s.csr with tpollAct := t.csr.tpollAct } } t ∧ t.par = s.par ∧ t.q = s.q ∧
    t.seq.cur = s.seq.cur ∧ t.env.reads = s.env.reads ∧ t.pins.rstN = s.pins.rstN ∧
    t.poll.stop = s.poll.stop ∧ (∀ j, getLb j t = getLb j s) ∧ t.lb = s.lb

/-! ### The host registers -/

/-- ID reads 0x8875_0100, LBSIZE LINEBUF_WORDS and QDEPTH CMDQ_DEPTH, in every state and without effect, and writes to
them are ignored (10_state.md R22, R42). -/
def Obligations.ConstantRegisters : Prop := ∀ (s : State) (v : Word),
  let constant := fun off c => hostOp (.read (s.par.rsqBase + off) 4) s = .done (logRead (s.par.rsqBase + off) c s) ∧
    hostOp (.write (s.par.rsqBase + off) 4 v) s = .done s
  constant 0x000 0x88750100#32 ∧ constant 0x034 (BitVec.ofNat 32 s.par.linebufWords) ∧
    constant 0x038 (BitVec.ofNat 32 s.par.cmdqDepth)

/-- A write of CMD appends the word, unchanged and undecoded, while there is room and sets CMDOVF otherwise, in every
sequencer state; a read of CMD returns 0 (R35). -/
def Obligations.CmdPush : Prop := ∀ (s : State) (w : Word),
  (s.q.length < s.par.cmdqDepth →
    hostOp (.write (s.par.rsqBase + 0x00C) 4 w) s = .done { s with q := s.q ++ [w] }) ∧
  (s.par.cmdqDepth ≤ s.q.length →
    hostOp (.write (s.par.rsqBase + 0x00C) 4 w) s = .done { s with csr := { s.csr with cmdovf := true } }) ∧
  hostOp (.read (s.par.rsqBase + 0x00C) 4) s = .done (logRead (s.par.rsqBase + 0x00C) 0#32 s)

/-- A read of TOUCH returns VALID, X and Y in their bits with the others 0 and clears READY in the same step, so of
two reads without a commit between them the second returns VALID = 0. That it returns the same coordinates is R245's
value, which a model may leave free and this one keeps (notes/assumptions/18.md) (44_touch_sampler.md R244, R245;
10_state.md R38). -/
def Obligations.TouchReadInvalidates : Prop := ∀ s : State, ∃ v : Word,
  v.getLsbD 31 = s.sample.ready ∧ v.extractLsb' 26 5 = 0#5 ∧ v.extractLsb' 16 10 = s.sample.x ∧
  v.extractLsb' 10 6 = 0#6 ∧ v.extractLsb' 0 10 = s.sample.y ∧
  ∃ t, hostOp (.read (s.par.rsqBase + 0x01C) 4) s = .done t ∧
    t = logRead (s.par.rsqBase + 0x01C) v { s with sample := { s.sample with ready := false } } ∧
    ∃ u, hostOp (.read (s.par.rsqBase + 0x01C) 4) t =
      .done (logRead (s.par.rsqBase + 0x01C) u t) ∧ u = v &&& 0x7FFFFFFF#32

/-- The fields of the value that a read of STATUS returns (10_state.md R27 to R34), with TS of R31, the codes of ERR
(60_exceptions.md R300) and the IRQ level (R313); the read has no effect. -/
def Obligations.StatusFields : Prop := ∀ s : State, s.q.length ≤ 255 →
  ∃ v : Word, hostOp (.read (s.par.rsqBase + 0x008) 4) s = .done (logRead (s.par.rsqBase + 0x008) v s) ∧
  v.getLsbD 0 = decide (s.seq.state = .exec) ∧ v.getLsbD 1 = s.csr.tpollAct ∧
  v.getLsbD 2 = decide (s.seq.state = .fault) ∧ v.getLsbD 3 = s.sample.ready ∧ v.getLsbD 4 = s.sample.touched ∧
  (v.extractLsb' 5 2).toNat = (if s.poll.tphase then 1 else if s.sample.ready then 2 else 0) ∧
  v.getLsbD 7 = s.seq.chain ∧ v.getLsbD 8 = s.csr.cmdovf ∧ v.getLsbD 9 = s.csr.lberr ∧
  v.getLsbD 10 = s.sample.tovr ∧ v.getLsbD 11 = s.csr.initDone ∧
  (v.extractLsb' 12 4).toNat = (match s.csr.err with
    | .none => 0 | .illegalCmd => 1 | .badOperand => 2 | .hwFault => 3 | .configError => 4 | .busFault => 5) ∧
  (v.extractLsb' 16 8).toNat = s.q.length ∧
  v.getLsbD 24 = ((s.csr.ieReady && s.sample.ready) || (s.csr.ieFault && decide (s.seq.state = .fault)) ||
    (s.csr.ieIdle && (decide (s.seq.state ≠ .exec) && decide (s.q.length = 0) &&
      decide (s.seq.state ≠ .fault)))) ∧
  v.extractLsb' 25 7 = 0#7

/-- A write to STATUS affects only FAULT, CMDOVF, LBERR and TOVR, each only where a 1 is written; a 1 to FAULT in
FAULT is the fault return, which keeps ERRCMD, ERRAUX and the FIFO and lets SEQ pop from the next cycle on, and outside
FAULT it has no effect (10_state.md R27, R30, R32; 60_exceptions.md R309; notes/assumptions/30.md). -/
def Obligations.StatusWrite : Prop := ∀ (s : State) (v : Word),
  hostOp (.write (s.par.rsqBase + 0x008) 4 v) s = .done { s with
    seq := { s.seq with
      state := if v.getLsbD 2 ∧ s.seq.state = .fault then .idle else s.seq.state
      resume := if v.getLsbD 2 ∧ s.seq.state = .fault then s.env.now + 1 else s.seq.resume }
    csr := { s.csr with
      err := if v.getLsbD 2 ∧ s.seq.state = .fault then .none else s.csr.err
      cmdovf := s.csr.cmdovf && !v.getLsbD 8
      lberr := s.csr.lberr && !v.getLsbD 9 }
    sample := { s.sample with tovr := s.sample.tovr && !v.getLsbD 10 } }

/-- What the WARL registers hold after a write and what a read then returns: POLL_PERIOD and WAIT_LIMIT their low 16
bits, or 1 for 0; WAIT_INTERVAL its low 16 bits; TCFG0 the word; TCFG1 its fields with the reserved bits 0 and 1 for
RELEASE_POLLS = 0 (10_state.md R39, R40). -/
def Obligations.WarlRegisters : Prop := ∀ (s : State) (v : Word),
  let base := s.par.rsqBase
  let low := fun least => BitVec.ofNat 32 (max least (v.toNat % 65536))
  let reads := fun off r => ∃ t, hostOp (.write (base + off) 4 v) s = .done t ∧
    hostOp (.read (base + off) 4) t = .done (logRead (base + off) r t) ∧ t.q = s.q ∧ t.lb = s.lb ∧
    t.seq = s.seq ∧ t.poll = s.poll ∧ t.sample = s.sample ∧ t.env = s.env
  reads 0x020 (low 1) ∧ reads 0x024 (low 1) ∧ reads 0x028 (low 0) ∧ reads 0x02C v ∧
  reads 0x030 ((v &&& 0x000077FF#32) ||| BitVec.ofNat 32 (65536 * max 1 ((v.extractLsb' 16 8).toNat)))

/-- A write of CTRL: the IE bits from the written value; TOUCH_EN from 0 to 1 starts the interval of a poller that is
not in a poll; from 1 to 0 it clears TOUCHED and the release count and turns a poller off that is not in a poll, and
READY, the sample and TOVR stay; unchanged, it leaves the poller alone. FLUSH is a separate bit (10_state.md R23,
R24; 44_touch_sampler.md R233, R234). -/
def Obligations.CtrlWrite : Prop := ∀ (s : State) (v : Word), v.getLsbD 8 = false →
  ∃ t, hostOp (.write (s.par.rsqBase + 0x004) 4 v) s = .done t ∧
    t.csr = { s.csr with
      touchEn := v.getLsbD 0, ieReady := v.getLsbD 1, ieFault := v.getLsbD 2, ieIdle := v.getLsbD 3 } ∧
    (v.getLsbD 0 = s.csr.touchEn → t.poll = s.poll ∧ t.sample = s.sample) ∧
    (v.getLsbD 0 = true → s.csr.touchEn = false → t.sample = s.sample ∧ (s.poll.state ≠ .active →
      t.poll = { s.poll with state := .timing, timer := 0, relcnt := 0#8, period := s.csr.pollPeriod })) ∧
    (v.getLsbD 0 = false → s.csr.touchEn = true → t.sample = { s.sample with touched := false } ∧
      t.poll.relcnt = 0#8 ∧ (s.poll.state ≠ .active → t.poll = { s.poll with state := .off, relcnt := 0#8 }) ∧
      (s.poll.state = .active → t.poll = { s.poll with relcnt := 0#8, stop := true })) ∧
    t.q = s.q ∧ t.lb = s.lb ∧ t.seq = s.seq ∧ t.owner = s.owner ∧ t.pins = s.pins

/-- A write of CTRL with FLUSH and the other fields as they are empties the FIFO in any sequencer state. It closes an
open chain of an idle sequencer, which then gives the bus back (the last is DEDUCED, notes/assumptions/7.md), and
changes nothing else: not the command in execution, not the line buffer (10_state.md R26). -/
def Obligations.FlushEmptiesQueue : Prop := ∀ (s : State),
  hostOp (.write (s.par.rsqBase + 0x004) 4 (s.ctrl ||| 0x100#32)) s = .done
    (if s.seq.chain = true ∧ s.seq.state = .idle then
      { s with q := [], seq := { s.seq with chain := false }, owner := .none }
    else { s with q := [] })

/-- The line buffer and its lock: unlocked, a write stores bits [15:0] and a read returns the entry zero-extended;
while an MWRITE or MREAD is queued or executing a write is dropped and a read returns 0, and each sets LBERR
(10_state.md R43, R44). -/
def Obligations.LineBufferAccess : Prop := ∀ (s : State) (i : Nat) (v : Word),
  i < s.par.linebufWords → s.par.linebufWords ≤ 1024 →
    let addr := s.par.rsqBase + 0x1000 + 4 * i
    let locked := (∃ w ∈ s.q, isBulkWord w = true) ∨ (s.seq.state = .exec ∧ isBulkWord s.seq.cur = true)
    let refused := { s with csr := { s.csr with lberr := true } }
    (locked → hostOp (.write addr 4 v) s = .done refused ∧ hostOp (.read addr 4) s = .done (logRead addr 0#32 refused)) ∧
    (¬ locked → hostOp (.write addr 4 v) s = .done { s with lb := s.lb.set i (v.extractLsb' 0 16) } ∧
      hostOp (.read addr 4) s = .done (logRead addr (zext32 (getLb i s)) s))

/-- A read changes nothing but what the host has read, except a read of TOUCH and a read of a locked line-buffer
entry (20_memory.md R78); and what each offset then returns: ID, CTRL, STATUS, CMD, RDATA, ERRCMD, ERRAUX, the timing
and touch configuration, LBSIZE, QDEPTH, an entry of the line buffer, and 0 elsewhere (10_state.md R21 to R43;
20_memory.md R74). -/
def Obligations.ReadsWithoutEffect : Prop := ∀ (s : State) (off : Nat), off < 0x2000 → off % 4 = 0 →
  off ≠ 0x01C → (s.lbLock = false ∨ off < 0x1000) →
    ∃ v, hostOp (.read (s.par.rsqBase + off) 4) s = .done (logRead (s.par.rsqBase + off) v s) ∧
      (off = 0x000 → v = 0x88750100#32) ∧
      (off = 0x004 → v.getLsbD 0 = s.csr.touchEn ∧ v.getLsbD 1 = s.csr.ieReady ∧ v.getLsbD 2 = s.csr.ieFault ∧
        v.getLsbD 3 = s.csr.ieIdle ∧ v.extractLsb' 4 28 = 0#28) ∧
      (off = 0x008 → v = s.status) ∧ (off = 0x00C → v = 0#32) ∧ (off = 0x010 → v = s.csr.rdata) ∧
      (off = 0x014 → v = s.csr.errcmd) ∧ (off = 0x018 → v = s.csr.erraux) ∧
      (off = 0x020 → v = zext32 s.csr.pollPeriod) ∧ (off = 0x024 → v = zext32 s.csr.waitLimit) ∧
      (off = 0x028 → v = zext32 s.csr.waitInterval) ∧ (off = 0x02C → v = s.csr.tcfg0) ∧
      (off = 0x030 → v = s.csr.tcfg1) ∧ (off = 0x034 → v = BitVec.ofNat 32 s.par.linebufWords) ∧
      (off = 0x038 → v = BitVec.ofNat 32 s.par.cmdqDepth) ∧
      (∀ i < s.par.linebufWords, off = 0x1000 + 4 * i → v = zext32 (getLb i s)) ∧
      ((0x03C ≤ off ∧ off < 0x1000) ∨ 0x1000 + 4 * s.par.linebufWords ≤ off → v = 0#32)

/-- Reserved offsets read 0, and writes to them, to read-only registers and to TOUCH change nothing
(20_memory.md R74, R79; 10_state.md R21). -/
def Obligations.IgnoredAccesses : Prop := ∀ (s : State) (off : Nat) (v : Word), off < 0x2000 → off % 4 = 0 →
  let reserved := (0x03C ≤ off ∧ off < 0x1000) ∨ 0x1000 + 4 * s.par.linebufWords ≤ off
  let readOnly := off ∈ [0x000, 0x010, 0x014, 0x018, 0x01C, 0x034, 0x038]
  (reserved → hostOp (.read (s.par.rsqBase + off) 4) s = .done (logRead (s.par.rsqBase + off) 0#32 s)) ∧
  (reserved ∨ readOnly → hostOp (.write (s.par.rsqBase + off) 4 v) s = .done s)

/-- The model refuses, by name, any host access in the window that is not one 32-bit word at an offset with bits
[1:0] = 0 (20_memory.md R73). -/
def Obligations.NarrowAccessRefused : Prop := ∀ (s : State) (off size g : Nat) (v : Word) (rest : List HostReq),
  off < 0x2000 → (size ≠ 4 ∨ off % 4 ≠ 0) →
    hostStep ⟨g, .read (s.par.rsqBase + off) size⟩ rest s = .refused .narrowHostAccess ∧
    hostStep ⟨g, .write (s.par.rsqBase + off) size v⟩ rest s = .refused .narrowHostAccess

/-- The fields that meanings and other statements are given in, bit by bit. A raw coordinate: its bits [9:2] are the
high byte, its bits [1:0] the bits at XL_SHIFT + 1 and XL_SHIFT (or YL_SHIFT) of the low-bits register, where a bit
above bit 7 reads 0 (44_touch_sampler.md R237). The fields of TCFG0 and TCFG1 (10_state.md R40). A status byte is busy,
and a touch is found, if some bit of it is set that the mask has too (41_register_commands.md R156; R236). A word locks
the line buffer if its OP field is 5 or 6 (10_state.md R44). -/
def Obligations.FieldBits : Prop :=
  (∀ (high low : Byte) (shift : Nat), shift < 8 →
    (coordOf high low shift).extractLsb' 2 8 = high ∧ (coordOf high low shift).getLsbD 0 = low.getLsbD shift ∧
      (coordOf high low shift).getLsbD 1 = (decide (shift + 1 < 8) && low.getLsbD (shift + 1))) ∧
  (∀ c0 : Word, ∀ j < 8, (intAddr c0).getLsbD j = c0.getLsbD j ∧ (intMask c0).getLsbD j = c0.getLsbD (8 + j) ∧
    (xhAddr c0).getLsbD j = c0.getLsbD (16 + j) ∧ (yhAddr c0).getLsbD j = c0.getLsbD (24 + j)) ∧
  (∀ c1 : Word, (∀ j < 8, (xylAddr c1).getLsbD j = c1.getLsbD j ∧
      (releasePolls c1).getLsbD j = c1.getLsbD (16 + j)) ∧
    xlShift c1 = c1.toNat / 256 % 8 ∧ ylShift c1 = c1.toNat / 4096 % 8) ∧
  (∀ r m : Byte, (isBusy r m = true ↔ ∃ j < 8, r.getLsbD j = true ∧ m.getLsbD j = true) ∧
    (touchSet r m = true ↔ ∃ j < 8, r.getLsbD j = true ∧ m.getLsbD j = true)) ∧
  (∀ w : Word, isBulkWord w = true ↔ w.toNat / 2 ^ 28 = 5 ∨ w.toNat / 2 ^ 28 = 6)

/-! ### Reset -/

/-- The state after block reset, for every parameter set: every register at R52's value and the pins at R49's
levels (10_state.md R52, R49). The line buffer's contents are free values. -/
def Obligations.ResetValues : Prop := ∀ p : Params,
  let s := State.resetWith p
  s.par = p ∧ readValue .id s = 0x88750100#32 ∧ s.ctrl = 0#32 ∧ s.status = 0#32 ∧ readValue .cmd s = 0#32 ∧
  readValue .lbsize s = BitVec.ofNat 32 p.linebufWords ∧ readValue .qdepth s = BitVec.ofNat 32 p.cmdqDepth ∧
  s.csr.rdata = 0#32 ∧ s.csr.errcmd = 0#32 ∧ s.csr.erraux = 0#32 ∧
  s.touch = 0#32 ∧ s.csr.pollPeriod = 30#16 ∧ s.csr.waitLimit = 1000#16 ∧ s.csr.waitInterval = 1#16 ∧
  s.csr.tcfg0 = 0x737204F1#32 ∧ s.csr.tcfg1 = 0x00012074#32 ∧ s.lb.length = p.linebufWords ∧ s.q = [] ∧
  s.seq.state = .idle ∧ s.seq.cur = 0#32 ∧ s.seq.chain = false ∧ s.poll.state = .off ∧ s.poll.timer = 0 ∧
  s.poll.relcnt = 0#8 ∧ s.poll.tphase = false ∧
  s.sample = { x := 0#10, y := 0#10, ready := false, touched := false, tovr := false } ∧ s.owner = .none ∧
  s.irq = false ∧ s.pins.csN = true ∧ s.pins.sck = decide (2 ≤ p.spiMode) ∧ s.pins.mosi = false ∧
  s.pins.rstN = true

/-- Block reset from any state at all: in the step in which RESET_N falls and rises again every field has its reset
value, CS_N and RST_N are 1, and only the surroundings (time, inputs, reads, the trace with the rises of CS_N and RST_N)
and T_CSH_MIN's remainder carry over (70_reset_and_hazards.md R340, R341; 40_spi_framing.md R130). That it is one step
ending with the cycle after the low time, the rises on the trace and the remainder are the model's
(notes/assumptions/2.md, 5.md, 9.md, 11.md). -/
def Obligations.BlockResetFromAnyState : Prop := ∀ (s : State) (g low : Nat) (rest : List HostReq),
  let sampled := s.par.hasBusErr = true ∧ s.pins.csN = false
  let env := if sampled then s.env.takeBusErr else s.env
  hostStep ⟨g, .blockReset low⟩ rest s = .next (State.afterReset s.par
    { env with
      now := s.env.now + low + 1
      host := rest
      portFree := s.env.now + low + 1
      reads := s.env.reads
      miso := s.env.miso
      resets := s.env.resets + 1
      trace := (if s.pins.rstN then [] else [⟨s.env.now, .rsth⟩]) ++
        (if s.pins.csN then [] else [⟨s.env.now, .csh (s.par.hasBusErr && s.env.nextBusErr)⟩]) ++ s.env.trace }
    (if s.pins.csN then s.pins.cslOk else s.env.now + s.par.tCshMin))

/-- Block reset in the middle of any command takes effect at once: with a block reset as the next host action, a
command still running in its cycle leaves the state of R52 in that very step, whatever phase, slot, wait or reset pulse
was in progress, and a command that has ended by then leaves it to come (R341). The cycles are the model's
(notes/assumptions/11.md). -/
def Obligations.BlockResetCutsCommand : Prop := ∀ (i : Instr) (s : State) (g low : Nat) (rest : List HostReq),
  s.env.host = ⟨g, .blockReset low⟩ :: rest →
    let cycle := hostTime ⟨g, .blockReset low⟩ s
    ∃ t, exec i s = .next t ∧
      (cycle < t.env.now → ∃ e c, t = State.afterReset s.par e c ∧ e.host = rest ∧ e.now = cycle + low + 1 ∧
        e.reads = s.env.reads ∧ s.env.trace <:+ e.trace) ∧
      (t.env.now ≤ cycle → t.env.host = s.env.host ∧ t.seq.state ≠ .exec)

/-! ### Invariants of a step -/

/-- The parameters this hardware can have are legal, whatever the OPEN ones are (00_scope.md R6; the INIT_TABLE is a
valid configuration by notes/assumptions/21.md). -/
def Obligations.HardwareParamsLegal : Prop := ∀ o : OpenParams, o.params.legal = true

/-- The state after block reset meets the invariant and the framing rules, for every legal parameter set. -/
def Obligations.ResetMeetsInvariants : Prop := ∀ p : Params, p.legal = true →
  Inv (State.resetWith p) ∧ Framing (State.resetWith p)

/-- Every step keeps the invariant, whatever the device answers and the host does: the FIFO within its depth, the
WARL and reserved fields legal, STATUS.ERR set exactly in FAULT, the bus owned by SEQ exactly while a chain is open,
no poll or command half done, the pins at rest (10_state.md R28 to R31, R39 to R47; 40_spi_framing.md R131). -/
def Obligations.StepKeepsInvariant : Prop := ∀ s t : State, Inv s → step s = .next t → Inv t

/-- Every step keeps the framing rules of the bus trace, whatever the device answers and the host does: every phase
bracketed by CS_N and begun by a prefix byte, `T_CSH_MIN` between phases, no phase while RST_N = 0, no reset pulse
while CS_N = 0 (40_spi_framing.md R130 to R134, R144, R147; 70_reset_and_hazards.md R347). -/
def Obligations.StepKeepsFraming : Prop := ∀ s t : State, Inv s → Framing s → step s = .next t → Framing t

/-! ### Pixels and host macros -/

/-- Pixels on the bus: the bytes of a pixel in the order PIX_MSB_FIRST says, and putting them together again gives
the pixel (42_bulk_commands.md R180). -/
def Obligations.PixelBytes : Prop := ∀ (msb : Bool) (p : Half),
  pixBytes msb p = (if msb then [p.extractLsb' 8 8, p.extractLsb' 0 8] else [p.extractLsb' 0 8, p.extractLsb' 8 8]) ∧
    ∀ b0 b1, (pixValue msb b0 b1 = if msb then (b0.setWidth 16 <<< 8) ||| b1.setWidth 16
        else (b1.setWidth 16 <<< 8) ||| b0.setWidth 16) ∧
      (pixBytes msb p = [b0, b1] → pixValue msb b0 b1 = p)

/-- The block's side of the pixel round trip: packing a colour and unpacking it gives its top 5, 6 and 5 bits with
zeros below, packing that again gives the same pixel, and an MREAD whose device answers the two bytes an MWRITE sent
puts that pixel into LB[0], from which GETPIXEL, once the lock is released, returns that colour (45_host_macros.md R272,
R285, R291). -/
def Obligations.PixelRoundTrip : Prop :=
  (∀ c : Colour, unpack565 (pack565 c) = ⟨c.r &&& 0xF8#8, c.g &&& 0xFC#8, c.b &&& 0xF8#8⟩) ∧
  (∀ p : Half, pack565 (unpack565 p) = p) ∧
  ∀ (k : Bool) (a : Byte) (c : Colour) (s : State), Running (.mread k a 1#16) s → Benign s →
    s.par.hasBusErr = false → s.lb.length = s.par.linebufWords → 1 ≤ s.par.linebufWords →
    [s.env.answer (3 + s.par.mreadDummy), s.env.answer (4 + s.par.mreadDummy)] =
      pixBytes s.par.pixMsbFirst (pack565 c) →
    ∃ t, exec (.mread k a 1#16) s = .next t ∧ getLb 0 t = pack565 c ∧
      (t.lbLock = false → getPixelResult (readValue (.lb 0) t) = ⟨c.r &&& 0xF8#8, c.g &&& 0xFC#8, c.b &&& 0xF8#8⟩)

/-- Every drawing macro is one chain, and each row of a glyph is one: all its words but the last have K = 1 and the last
has K = 0 (45_host_macros.md R289), with any registers, coordinates and colours. HLINE and VLINE push a chain or nothing
(R276, R277), and a glyph's words are its rows' words or none (R287). -/
def Obligations.MacrosAreChains : Prop := ∀ (m : MacroRegs) (x0 y0 x1 y1 r : ℚ) (c : Colour),
  (∀ acts ∈ [drawLine m x0 y0 x1 y1 c, drawRect m x0 y0 x1 y1 c, fillRect m x0 y0 x1 y1 c,
      drawRrect m x0 y0 x1 y1 r c, fillRrect m x0 y0 x1 y1 r c, drawCircle m x0 y0 r c, fillCircle m x0 y0 r c,
      setPixel m x0 y0 c, getPixel m x0 y0, fgColour m c false], IsChain (pushedWords acts)) ∧
  (∀ acts ∈ [hLine m x0 y0 r c, vLine m x0 y0 r c],
    IsChain (pushedWords acts) ∨ pushedWords acts = [] ∧ (truncQ r < 1 ∨ coordT r = 0#16)) ∧
  (∀ width height, IsChain (pushedWords (clearScreen m width height))) ∧
  ∀ (bitmap : List Byte) (cols : Nat) (fg bg : Colour),
    (∀ i, IsChain (pushedWords (glyphRow m bitmap x0 y0 cols (pack565 fg) (pack565 bg) i))) ∧
    ∀ words rows, pushedWords (glyph m words bitmap x0 y0 rows cols fg bg) =
      if 1 ≤ cols ∧ cols ≤ words then
        (List.range rows).flatMap fun i =>
          pushedWords (glyphRow m bitmap x0 y0 cols (pack565 fg) (pack565 bg) i)
      else []

/-- FILLRECT writes the draw-mode register exactly once, with 0xB0, right before its completion wait
(45_host_macros.md R279), with the default registers and any coordinates and colour. -/
def Obligations.FillRectOneModeWrite : Prop := ∀ (x0 y0 x1 y1 : ℚ) (c : Colour),
  ∃ body, pushedWords (fillRect MacroRegs.default x0 y0 x1 y1 c) = body ++ [0x189000B0#32, 0x40900080#32] ∧
    ∀ w ∈ body, aField w ≠ MacroRegs.default.dcr

/-! ### The poller in time -/

/-- The poller in time: `n` cycles of it are R232's one cycle `n` times, so in TIMING it becomes PENDING when the timer
reaches `P * CLK_PER_MS` and not before. A write that clears TOUCH_EN while a background poll runs leaves TOUCHED and
the release count 0 at the poll's end, whatever the poll found, and the poller OFF (44_touch_sampler.md R231, R232,
R234). -/
def Obligations.PollerTimes : Prop :=
  (∀ (c n : Nat) (p : Poll), (p.state = .timing → p.timer < p.period.toNat * c) →
    p.advance c n = Nat.iterate (Poll.cycle c) n p) ∧
  (∀ (c n : Nat) (p : Poll), p.state = .timing → p.timer < p.period.toNat * c →
    (p.advance c n).state = if p.period.toNat * c ≤ p.timer + n then .pending else .timing) ∧
  (∀ (s : State) (g : Nat) (v : Word),
    let r : HostReq := ⟨g, .write (s.par.rsqBase + 0x004) 4 v⟩
    s.env.host = [r] → v.getLsbD 0 = false → s.csr.touchEn = true → s.poll.state = .pending → s.owner = .none →
    s.env.now < hostTime r s →
      ∃ t, step s = .next t ∧ (hostTime r s < t.env.now →
        t.csr.touchEn = false ∧ t.sample.touched = false ∧ t.poll.relcnt = 0#8 ∧ t.poll.state = .off ∧
          t.poll.timer = 0))
end

