-- ==== Sys2Proof/Laws/State.lean ====
section
/-! SUPPORT. One lemma per field and named update of the state, each true by rfl, so that no later proof unfolds a
record update. -/

namespace Sys2Proof.Machine

@[simp] theorem tick_env_now (n : Nat) (s : State) : (tick n s).env.now = s.env.now + n := rfl
@[simp] theorem tick_poll (n : Nat) (s : State) : (tick n s).poll = s.poll.advance s.par.clkPerMs n := rfl
@[simp] theorem tick_env_host (n : Nat) (s : State) : (tick n s).env.host = s.env.host := rfl
@[simp] theorem tick_env_portFree (n : Nat) (s : State) : (tick n s).env.portFree = s.env.portFree := rfl
@[simp] theorem tick_env_reads (n : Nat) (s : State) : (tick n s).env.reads = s.env.reads := rfl
@[simp] theorem tick_env_miso (n : Nat) (s : State) : (tick n s).env.miso = s.env.miso := rfl
@[simp] theorem tick_env_busErr (n : Nat) (s : State) : (tick n s).env.busErr = s.env.busErr := rfl
@[simp] theorem tick_env_freeDraws (n : Nat) (s : State) : (tick n s).env.freeDraws = s.env.freeDraws := rfl
@[simp] theorem tick_env_resets (n : Nat) (s : State) : (tick n s).env.resets = s.env.resets := rfl
@[simp] theorem tick_env_trace (n : Nat) (s : State) : (tick n s).env.trace = s.env.trace := rfl
@[simp] theorem tick_par (n : Nat) (s : State) : (tick n s).par = s.par := rfl
@[simp] theorem tick_csr (n : Nat) (s : State) : (tick n s).csr = s.csr := rfl
@[simp] theorem tick_q (n : Nat) (s : State) : (tick n s).q = s.q := rfl
@[simp] theorem tick_lb (n : Nat) (s : State) : (tick n s).lb = s.lb := rfl
@[simp] theorem tick_seq (n : Nat) (s : State) : (tick n s).seq = s.seq := rfl
@[simp] theorem tick_sample (n : Nat) (s : State) : (tick n s).sample = s.sample := rfl
@[simp] theorem tick_owner (n : Nat) (s : State) : (tick n s).owner = s.owner := rfl
@[simp] theorem tick_pins (n : Nat) (s : State) : (tick n s).pins = s.pins := rfl
@[simp] theorem tick_loc (n : Nat) (s : State) : (tick n s).loc = s.loc := rfl

@[simp] theorem emit_env_trace (ev : BusEvent) (s : State) : (emit ev s).env.trace = { cycle := s.env.now, event := ev } :: s.env.trace := rfl
@[simp] theorem emit_env_now (ev : BusEvent) (s : State) : (emit ev s).env.now = s.env.now := rfl
@[simp] theorem emit_env_host (ev : BusEvent) (s : State) : (emit ev s).env.host = s.env.host := rfl
@[simp] theorem emit_env_portFree (ev : BusEvent) (s : State) : (emit ev s).env.portFree = s.env.portFree := rfl
@[simp] theorem emit_env_reads (ev : BusEvent) (s : State) : (emit ev s).env.reads = s.env.reads := rfl
@[simp] theorem emit_env_miso (ev : BusEvent) (s : State) : (emit ev s).env.miso = s.env.miso := rfl
@[simp] theorem emit_env_busErr (ev : BusEvent) (s : State) : (emit ev s).env.busErr = s.env.busErr := rfl
@[simp] theorem emit_env_freeDraws (ev : BusEvent) (s : State) : (emit ev s).env.freeDraws = s.env.freeDraws := rfl
@[simp] theorem emit_env_resets (ev : BusEvent) (s : State) : (emit ev s).env.resets = s.env.resets := rfl
@[simp] theorem emit_par (ev : BusEvent) (s : State) : (emit ev s).par = s.par := rfl
@[simp] theorem emit_csr (ev : BusEvent) (s : State) : (emit ev s).csr = s.csr := rfl
@[simp] theorem emit_q (ev : BusEvent) (s : State) : (emit ev s).q = s.q := rfl
@[simp] theorem emit_lb (ev : BusEvent) (s : State) : (emit ev s).lb = s.lb := rfl
@[simp] theorem emit_seq (ev : BusEvent) (s : State) : (emit ev s).seq = s.seq := rfl
@[simp] theorem emit_poll (ev : BusEvent) (s : State) : (emit ev s).poll = s.poll := rfl
@[simp] theorem emit_sample (ev : BusEvent) (s : State) : (emit ev s).sample = s.sample := rfl
@[simp] theorem emit_owner (ev : BusEvent) (s : State) : (emit ev s).owner = s.owner := rfl
@[simp] theorem emit_pins (ev : BusEvent) (s : State) : (emit ev s).pins = s.pins := rfl
@[simp] theorem emit_loc (ev : BusEvent) (s : State) : (emit ev s).loc = s.loc := rfl

@[simp] theorem emitRise_par (s : State) : (emitRise s).par = s.par := rfl
@[simp] theorem emitRise_csr (s : State) : (emitRise s).csr = s.csr := rfl
@[simp] theorem emitRise_q (s : State) : (emitRise s).q = s.q := rfl
@[simp] theorem emitRise_lb (s : State) : (emitRise s).lb = s.lb := rfl
@[simp] theorem emitRise_seq (s : State) : (emitRise s).seq = s.seq := rfl
@[simp] theorem emitRise_poll (s : State) : (emitRise s).poll = s.poll := rfl
@[simp] theorem emitRise_sample (s : State) : (emitRise s).sample = s.sample := rfl
@[simp] theorem emitRise_owner (s : State) : (emitRise s).owner = s.owner := rfl
@[simp] theorem emitRise_pins (s : State) : (emitRise s).pins = s.pins := rfl
@[simp] theorem emitRise_loc (s : State) : (emitRise s).loc = s.loc := rfl

@[simp] theorem drive_pins_sck (a b : Bool) (s : State) : (drive a b s).pins.sck = a := rfl
@[simp] theorem drive_pins_mosi (a b : Bool) (s : State) : (drive a b s).pins.mosi = b := rfl
@[simp] theorem drive_pins_csN (a b : Bool) (s : State) : (drive a b s).pins.csN = s.pins.csN := rfl
@[simp] theorem drive_pins_rstN (a b : Bool) (s : State) : (drive a b s).pins.rstN = s.pins.rstN := rfl
@[simp] theorem drive_pins_cslOk (a b : Bool) (s : State) : (drive a b s).pins.cslOk = s.pins.cslOk := rfl
@[simp] theorem drive_par (a b : Bool) (s : State) : (drive a b s).par = s.par := rfl
@[simp] theorem drive_env (a b : Bool) (s : State) : (drive a b s).env = s.env := rfl
@[simp] theorem drive_csr (a b : Bool) (s : State) : (drive a b s).csr = s.csr := rfl
@[simp] theorem drive_q (a b : Bool) (s : State) : (drive a b s).q = s.q := rfl
@[simp] theorem drive_lb (a b : Bool) (s : State) : (drive a b s).lb = s.lb := rfl
@[simp] theorem drive_seq (a b : Bool) (s : State) : (drive a b s).seq = s.seq := rfl
@[simp] theorem drive_poll (a b : Bool) (s : State) : (drive a b s).poll = s.poll := rfl
@[simp] theorem drive_sample (a b : Bool) (s : State) : (drive a b s).sample = s.sample := rfl
@[simp] theorem drive_owner (a b : Bool) (s : State) : (drive a b s).owner = s.owner := rfl
@[simp] theorem drive_loc (a b : Bool) (s : State) : (drive a b s).loc = s.loc := rfl

@[simp] theorem setRdata_rdata (r : Byte) (s : State) : (setRdata r s).csr.rdata = zext32 r := rfl
@[simp] theorem setRdata_par (r : Byte) (s : State) : (setRdata r s).par = s.par := rfl
@[simp] theorem setRdata_env (r : Byte) (s : State) : (setRdata r s).env = s.env := rfl
@[simp] theorem setRdata_q (r : Byte) (s : State) : (setRdata r s).q = s.q := rfl
@[simp] theorem setRdata_lb (r : Byte) (s : State) : (setRdata r s).lb = s.lb := rfl
@[simp] theorem setRdata_seq (r : Byte) (s : State) : (setRdata r s).seq = s.seq := rfl
@[simp] theorem setRdata_poll (r : Byte) (s : State) : (setRdata r s).poll = s.poll := rfl
@[simp] theorem setRdata_sample (r : Byte) (s : State) : (setRdata r s).sample = s.sample := rfl
@[simp] theorem setRdata_owner (r : Byte) (s : State) : (setRdata r s).owner = s.owner := rfl
@[simp] theorem setRdata_pins (r : Byte) (s : State) : (setRdata r s).pins = s.pins := rfl
@[simp] theorem setRdata_loc (r : Byte) (s : State) : (setRdata r s).loc = s.loc := rfl

@[simp] theorem setInitDone_initDone (b : Bool) (s : State) : (setInitDone b s).csr.initDone = b := rfl
@[simp] theorem setInitDone_par (b : Bool) (s : State) : (setInitDone b s).par = s.par := rfl
@[simp] theorem setInitDone_env (b : Bool) (s : State) : (setInitDone b s).env = s.env := rfl
@[simp] theorem setInitDone_q (b : Bool) (s : State) : (setInitDone b s).q = s.q := rfl
@[simp] theorem setInitDone_lb (b : Bool) (s : State) : (setInitDone b s).lb = s.lb := rfl
@[simp] theorem setInitDone_seq (b : Bool) (s : State) : (setInitDone b s).seq = s.seq := rfl
@[simp] theorem setInitDone_poll (b : Bool) (s : State) : (setInitDone b s).poll = s.poll := rfl
@[simp] theorem setInitDone_sample (b : Bool) (s : State) : (setInitDone b s).sample = s.sample := rfl
@[simp] theorem setInitDone_owner (b : Bool) (s : State) : (setInitDone b s).owner = s.owner := rfl
@[simp] theorem setInitDone_pins (b : Bool) (s : State) : (setInitDone b s).pins = s.pins := rfl
@[simp] theorem setInitDone_loc (b : Bool) (s : State) : (setInitDone b s).loc = s.loc := rfl

@[simp] theorem setTpollAct_tpollAct (b : Bool) (s : State) : (setTpollAct b s).csr.tpollAct = b := rfl
@[simp] theorem setTpollAct_par (b : Bool) (s : State) : (setTpollAct b s).par = s.par := rfl
@[simp] theorem setTpollAct_env (b : Bool) (s : State) : (setTpollAct b s).env = s.env := rfl
@[simp] theorem setTpollAct_q (b : Bool) (s : State) : (setTpollAct b s).q = s.q := rfl
@[simp] theorem setTpollAct_lb (b : Bool) (s : State) : (setTpollAct b s).lb = s.lb := rfl
@[simp] theorem setTpollAct_seq (b : Bool) (s : State) : (setTpollAct b s).seq = s.seq := rfl
@[simp] theorem setTpollAct_poll (b : Bool) (s : State) : (setTpollAct b s).poll = s.poll := rfl
@[simp] theorem setTpollAct_sample (b : Bool) (s : State) : (setTpollAct b s).sample = s.sample := rfl
@[simp] theorem setTpollAct_owner (b : Bool) (s : State) : (setTpollAct b s).owner = s.owner := rfl
@[simp] theorem setTpollAct_pins (b : Bool) (s : State) : (setTpollAct b s).pins = s.pins := rfl
@[simp] theorem setTpollAct_loc (b : Bool) (s : State) : (setTpollAct b s).loc = s.loc := rfl

@[simp] theorem setLberr_lberr (s : State) : (setLberr s).csr.lberr = true := rfl
@[simp] theorem setLberr_par (s : State) : (setLberr s).par = s.par := rfl
@[simp] theorem setLberr_env (s : State) : (setLberr s).env = s.env := rfl
@[simp] theorem setLberr_q (s : State) : (setLberr s).q = s.q := rfl
@[simp] theorem setLberr_lb (s : State) : (setLberr s).lb = s.lb := rfl
@[simp] theorem setLberr_seq (s : State) : (setLberr s).seq = s.seq := rfl
@[simp] theorem setLberr_poll (s : State) : (setLberr s).poll = s.poll := rfl
@[simp] theorem setLberr_sample (s : State) : (setLberr s).sample = s.sample := rfl
@[simp] theorem setLberr_owner (s : State) : (setLberr s).owner = s.owner := rfl
@[simp] theorem setLberr_pins (s : State) : (setLberr s).pins = s.pins := rfl
@[simp] theorem setLberr_loc (s : State) : (setLberr s).loc = s.loc := rfl

@[simp] theorem setLb_lb (i : Nat) (v : Half) (s : State) : (setLb i v s).lb = s.lb.set i v := rfl
@[simp] theorem setLb_par (i : Nat) (v : Half) (s : State) : (setLb i v s).par = s.par := rfl
@[simp] theorem setLb_env (i : Nat) (v : Half) (s : State) : (setLb i v s).env = s.env := rfl
@[simp] theorem setLb_csr (i : Nat) (v : Half) (s : State) : (setLb i v s).csr = s.csr := rfl
@[simp] theorem setLb_q (i : Nat) (v : Half) (s : State) : (setLb i v s).q = s.q := rfl
@[simp] theorem setLb_seq (i : Nat) (v : Half) (s : State) : (setLb i v s).seq = s.seq := rfl
@[simp] theorem setLb_poll (i : Nat) (v : Half) (s : State) : (setLb i v s).poll = s.poll := rfl
@[simp] theorem setLb_sample (i : Nat) (v : Half) (s : State) : (setLb i v s).sample = s.sample := rfl
@[simp] theorem setLb_owner (i : Nat) (v : Half) (s : State) : (setLb i v s).owner = s.owner := rfl
@[simp] theorem setLb_pins (i : Nat) (v : Half) (s : State) : (setLb i v s).pins = s.pins := rfl
@[simp] theorem setLb_loc (i : Nat) (v : Half) (s : State) : (setLb i v s).loc = s.loc := rfl

@[simp] theorem enterTouched_par (s : State) : (enterTouched s).par = s.par := rfl
@[simp] theorem enterTouched_env (s : State) : (enterTouched s).env = s.env := rfl
@[simp] theorem enterTouched_csr (s : State) : (enterTouched s).csr = s.csr := rfl
@[simp] theorem enterTouched_q (s : State) : (enterTouched s).q = s.q := rfl
@[simp] theorem enterTouched_lb (s : State) : (enterTouched s).lb = s.lb := rfl
@[simp] theorem enterTouched_seq (s : State) : (enterTouched s).seq = s.seq := rfl
@[simp] theorem enterTouched_sample (s : State) : (enterTouched s).sample = s.sample := rfl
@[simp] theorem enterTouched_owner (s : State) : (enterTouched s).owner = s.owner := rfl
@[simp] theorem enterTouched_pins (s : State) : (enterTouched s).pins = s.pins := rfl
@[simp] theorem enterTouched_loc (s : State) : (enterTouched s).loc = s.loc := rfl

@[simp] theorem rstLow_par (s : State) : (rstLow s).par = s.par := rfl
@[simp] theorem rstLow_csr (s : State) : (rstLow s).csr = s.csr := rfl
@[simp] theorem rstLow_q (s : State) : (rstLow s).q = s.q := rfl
@[simp] theorem rstLow_lb (s : State) : (rstLow s).lb = s.lb := rfl
@[simp] theorem rstLow_seq (s : State) : (rstLow s).seq = s.seq := rfl
@[simp] theorem rstLow_poll (s : State) : (rstLow s).poll = s.poll := rfl
@[simp] theorem rstLow_sample (s : State) : (rstLow s).sample = s.sample := rfl
@[simp] theorem rstLow_owner (s : State) : (rstLow s).owner = s.owner := rfl
@[simp] theorem rstLow_loc (s : State) : (rstLow s).loc = s.loc := rfl

@[simp] theorem rstHigh_par (s : State) : (rstHigh s).par = s.par := rfl
@[simp] theorem rstHigh_csr (s : State) : (rstHigh s).csr = s.csr := rfl
@[simp] theorem rstHigh_q (s : State) : (rstHigh s).q = s.q := rfl
@[simp] theorem rstHigh_lb (s : State) : (rstHigh s).lb = s.lb := rfl
@[simp] theorem rstHigh_seq (s : State) : (rstHigh s).seq = s.seq := rfl
@[simp] theorem rstHigh_poll (s : State) : (rstHigh s).poll = s.poll := rfl
@[simp] theorem rstHigh_sample (s : State) : (rstHigh s).sample = s.sample := rfl
@[simp] theorem rstHigh_owner (s : State) : (rstHigh s).owner = s.owner := rfl
@[simp] theorem rstHigh_loc (s : State) : (rstHigh s).loc = s.loc := rfl

@[simp] theorem complete_seq (k : Bool) (s : State) : (complete k s).seq = { s.seq with state := .idle, chain := k } := rfl
@[simp] theorem complete_owner (k : Bool) (s : State) : (complete k s).owner = if k then s.owner else .none := rfl
@[simp] theorem complete_loc (k : Bool) (s : State) : (complete k s).loc = Local.none := rfl
@[simp] theorem complete_par (k : Bool) (s : State) : (complete k s).par = s.par := rfl
@[simp] theorem complete_env (k : Bool) (s : State) : (complete k s).env = s.env := rfl
@[simp] theorem complete_csr (k : Bool) (s : State) : (complete k s).csr = s.csr := rfl
@[simp] theorem complete_q (k : Bool) (s : State) : (complete k s).q = s.q := rfl
@[simp] theorem complete_lb (k : Bool) (s : State) : (complete k s).lb = s.lb := rfl
@[simp] theorem complete_poll (k : Bool) (s : State) : (complete k s).poll = s.poll := rfl
@[simp] theorem complete_sample (k : Bool) (s : State) : (complete k s).sample = s.sample := rfl
@[simp] theorem complete_pins (k : Bool) (s : State) : (complete k s).pins = s.pins := rfl

@[simp] theorem popWord_q (w : Word) (r : List Word) (s : State) : (popWord w r s).q = r := rfl
@[simp] theorem popWord_seq (w : Word) (r : List Word) (s : State) : (popWord w r s).seq = { s.seq with state := .exec, cur := w } := rfl
@[simp] theorem popWord_owner (w : Word) (r : List Word) (s : State) : (popWord w r s).owner = .seq := rfl
@[simp] theorem popWord_loc (w : Word) (r : List Word) (s : State) : (popWord w r s).loc = Local.none := rfl
@[simp] theorem popWord_par (w : Word) (r : List Word) (s : State) : (popWord w r s).par = s.par := rfl
@[simp] theorem popWord_env (w : Word) (r : List Word) (s : State) : (popWord w r s).env = s.env := rfl
@[simp] theorem popWord_csr (w : Word) (r : List Word) (s : State) : (popWord w r s).csr = s.csr := rfl
@[simp] theorem popWord_lb (w : Word) (r : List Word) (s : State) : (popWord w r s).lb = s.lb := rfl
@[simp] theorem popWord_poll (w : Word) (r : List Word) (s : State) : (popWord w r s).poll = s.poll := rfl
@[simp] theorem popWord_sample (w : Word) (r : List Word) (s : State) : (popWord w r s).sample = s.sample := rfl
@[simp] theorem popWord_pins (w : Word) (r : List Word) (s : State) : (popWord w r s).pins = s.pins := rfl

@[simp] theorem commitSample_sample (x y : Coord) (s : State) : (commitSample x y s).sample =
      { x := x, y := y, ready := true, touched := true, tovr := s.sample.tovr || s.sample.ready } := rfl
@[simp] theorem commitSample_par (x y : Coord) (s : State) : (commitSample x y s).par = s.par := rfl
@[simp] theorem commitSample_env (x y : Coord) (s : State) : (commitSample x y s).env = s.env := rfl
@[simp] theorem commitSample_csr (x y : Coord) (s : State) : (commitSample x y s).csr = s.csr := rfl
@[simp] theorem commitSample_q (x y : Coord) (s : State) : (commitSample x y s).q = s.q := rfl
@[simp] theorem commitSample_lb (x y : Coord) (s : State) : (commitSample x y s).lb = s.lb := rfl
@[simp] theorem commitSample_seq (x y : Coord) (s : State) : (commitSample x y s).seq = s.seq := rfl
@[simp] theorem commitSample_owner (x y : Coord) (s : State) : (commitSample x y s).owner = s.owner := rfl
@[simp] theorem commitSample_pins (x y : Coord) (s : State) : (commitSample x y s).pins = s.pins := rfl
@[simp] theorem commitSample_loc (x y : Coord) (s : State) : (commitSample x y s).loc = s.loc := rfl

@[simp] theorem releaseStep_par (s : State) : (releaseStep s).par = s.par := rfl
@[simp] theorem releaseStep_env (s : State) : (releaseStep s).env = s.env := rfl
@[simp] theorem releaseStep_q (s : State) : (releaseStep s).q = s.q := rfl
@[simp] theorem releaseStep_lb (s : State) : (releaseStep s).lb = s.lb := rfl
@[simp] theorem releaseStep_seq (s : State) : (releaseStep s).seq = s.seq := rfl
@[simp] theorem releaseStep_owner (s : State) : (releaseStep s).owner = s.owner := rfl
@[simp] theorem releaseStep_pins (s : State) : (releaseStep s).pins = s.pins := rfl
@[simp] theorem releaseStep_loc (s : State) : (releaseStep s).loc = s.loc := rfl

@[simp] theorem startPoll_par (s : State) : (startPoll s).par = s.par := rfl
@[simp] theorem startPoll_env (s : State) : (startPoll s).env = s.env := rfl
@[simp] theorem startPoll_q (s : State) : (startPoll s).q = s.q := rfl
@[simp] theorem startPoll_lb (s : State) : (startPoll s).lb = s.lb := rfl
@[simp] theorem startPoll_seq (s : State) : (startPoll s).seq = s.seq := rfl
@[simp] theorem startPoll_sample (s : State) : (startPoll s).sample = s.sample := rfl
@[simp] theorem startPoll_pins (s : State) : (startPoll s).pins = s.pins := rfl

@[simp] theorem endPoll_poll (s : State) : (endPoll s).poll = s.poll.ended s.csr.touchEn s.csr.pollPeriod := rfl
@[simp] theorem endPoll_par (s : State) : (endPoll s).par = s.par := rfl
@[simp] theorem endPoll_env (s : State) : (endPoll s).env = s.env := rfl
@[simp] theorem endPoll_q (s : State) : (endPoll s).q = s.q := rfl
@[simp] theorem endPoll_lb (s : State) : (endPoll s).lb = s.lb := rfl
@[simp] theorem endPoll_seq (s : State) : (endPoll s).seq = s.seq := rfl
@[simp] theorem endPoll_owner (s : State) : (endPoll s).owner = s.owner := rfl
@[simp] theorem endPoll_pins (s : State) : (endPoll s).pins = s.pins := rfl
@[simp] theorem endPoll_loc (s : State) : (endPoll s).loc = s.loc := rfl

@[simp] theorem logRead_par (a : Nat) (v : Word) (s : State) : (logRead a v s).par = s.par := rfl
@[simp] theorem logRead_csr (a : Nat) (v : Word) (s : State) : (logRead a v s).csr = s.csr := rfl
@[simp] theorem logRead_q (a : Nat) (v : Word) (s : State) : (logRead a v s).q = s.q := rfl
@[simp] theorem logRead_lb (a : Nat) (v : Word) (s : State) : (logRead a v s).lb = s.lb := rfl
@[simp] theorem logRead_seq (a : Nat) (v : Word) (s : State) : (logRead a v s).seq = s.seq := rfl
@[simp] theorem logRead_poll (a : Nat) (v : Word) (s : State) : (logRead a v s).poll = s.poll := rfl
@[simp] theorem logRead_sample (a : Nat) (v : Word) (s : State) : (logRead a v s).sample = s.sample := rfl
@[simp] theorem logRead_owner (a : Nat) (v : Word) (s : State) : (logRead a v s).owner = s.owner := rfl
@[simp] theorem logRead_pins (a : Nat) (v : Word) (s : State) : (logRead a v s).pins = s.pins := rfl
@[simp] theorem logRead_loc (a : Nat) (v : Word) (s : State) : (logRead a v s).loc = s.loc := rfl

@[simp] theorem setRdata_csr_touchEn (r : Byte) (s : State) : (setRdata r s).csr.touchEn = s.csr.touchEn := rfl
@[simp] theorem setRdata_csr_ieReady (r : Byte) (s : State) : (setRdata r s).csr.ieReady = s.csr.ieReady := rfl
@[simp] theorem setRdata_csr_ieFault (r : Byte) (s : State) : (setRdata r s).csr.ieFault = s.csr.ieFault := rfl
@[simp] theorem setRdata_csr_ieIdle (r : Byte) (s : State) : (setRdata r s).csr.ieIdle = s.csr.ieIdle := rfl
@[simp] theorem setRdata_csr_tpollAct (r : Byte) (s : State) : (setRdata r s).csr.tpollAct = s.csr.tpollAct := rfl
@[simp] theorem setRdata_csr_cmdovf (r : Byte) (s : State) : (setRdata r s).csr.cmdovf = s.csr.cmdovf := rfl
@[simp] theorem setRdata_csr_lberr (r : Byte) (s : State) : (setRdata r s).csr.lberr = s.csr.lberr := rfl
@[simp] theorem setRdata_csr_initDone (r : Byte) (s : State) : (setRdata r s).csr.initDone = s.csr.initDone := rfl
@[simp] theorem setRdata_csr_err (r : Byte) (s : State) : (setRdata r s).csr.err = s.csr.err := rfl
@[simp] theorem setRdata_csr_errcmd (r : Byte) (s : State) : (setRdata r s).csr.errcmd = s.csr.errcmd := rfl
@[simp] theorem setRdata_csr_erraux (r : Byte) (s : State) : (setRdata r s).csr.erraux = s.csr.erraux := rfl
@[simp] theorem setRdata_csr_pollPeriod (r : Byte) (s : State) : (setRdata r s).csr.pollPeriod = s.csr.pollPeriod := rfl
@[simp] theorem setRdata_csr_waitLimit (r : Byte) (s : State) : (setRdata r s).csr.waitLimit = s.csr.waitLimit := rfl
@[simp] theorem setRdata_csr_waitInterval (r : Byte) (s : State) : (setRdata r s).csr.waitInterval = s.csr.waitInterval := rfl
@[simp] theorem setRdata_csr_tcfg0 (r : Byte) (s : State) : (setRdata r s).csr.tcfg0 = s.csr.tcfg0 := rfl
@[simp] theorem setRdata_csr_tcfg1 (r : Byte) (s : State) : (setRdata r s).csr.tcfg1 = s.csr.tcfg1 := rfl

@[simp] theorem setInitDone_csr_touchEn (b : Bool) (s : State) : (setInitDone b s).csr.touchEn = s.csr.touchEn := rfl
@[simp] theorem setInitDone_csr_ieReady (b : Bool) (s : State) : (setInitDone b s).csr.ieReady = s.csr.ieReady := rfl
@[simp] theorem setInitDone_csr_ieFault (b : Bool) (s : State) : (setInitDone b s).csr.ieFault = s.csr.ieFault := rfl
@[simp] theorem setInitDone_csr_ieIdle (b : Bool) (s : State) : (setInitDone b s).csr.ieIdle = s.csr.ieIdle := rfl
@[simp] theorem setInitDone_csr_tpollAct (b : Bool) (s : State) : (setInitDone b s).csr.tpollAct = s.csr.tpollAct := rfl
@[simp] theorem setInitDone_csr_cmdovf (b : Bool) (s : State) : (setInitDone b s).csr.cmdovf = s.csr.cmdovf := rfl
@[simp] theorem setInitDone_csr_lberr (b : Bool) (s : State) : (setInitDone b s).csr.lberr = s.csr.lberr := rfl
@[simp] theorem setInitDone_csr_err (b : Bool) (s : State) : (setInitDone b s).csr.err = s.csr.err := rfl
@[simp] theorem setInitDone_csr_rdata (b : Bool) (s : State) : (setInitDone b s).csr.rdata = s.csr.rdata := rfl
@[simp] theorem setInitDone_csr_errcmd (b : Bool) (s : State) : (setInitDone b s).csr.errcmd = s.csr.errcmd := rfl
@[simp] theorem setInitDone_csr_erraux (b : Bool) (s : State) : (setInitDone b s).csr.erraux = s.csr.erraux := rfl
@[simp] theorem setInitDone_csr_pollPeriod (b : Bool) (s : State) : (setInitDone b s).csr.pollPeriod = s.csr.pollPeriod := rfl
@[simp] theorem setInitDone_csr_waitLimit (b : Bool) (s : State) : (setInitDone b s).csr.waitLimit = s.csr.waitLimit := rfl
@[simp] theorem setInitDone_csr_waitInterval (b : Bool) (s : State) : (setInitDone b s).csr.waitInterval = s.csr.waitInterval := rfl
@[simp] theorem setInitDone_csr_tcfg0 (b : Bool) (s : State) : (setInitDone b s).csr.tcfg0 = s.csr.tcfg0 := rfl
@[simp] theorem setInitDone_csr_tcfg1 (b : Bool) (s : State) : (setInitDone b s).csr.tcfg1 = s.csr.tcfg1 := rfl

@[simp] theorem setTpollAct_csr_touchEn (b : Bool) (s : State) : (setTpollAct b s).csr.touchEn = s.csr.touchEn := rfl
@[simp] theorem setTpollAct_csr_ieReady (b : Bool) (s : State) : (setTpollAct b s).csr.ieReady = s.csr.ieReady := rfl
@[simp] theorem setTpollAct_csr_ieFault (b : Bool) (s : State) : (setTpollAct b s).csr.ieFault = s.csr.ieFault := rfl
@[simp] theorem setTpollAct_csr_ieIdle (b : Bool) (s : State) : (setTpollAct b s).csr.ieIdle = s.csr.ieIdle := rfl
@[simp] theorem setTpollAct_csr_cmdovf (b : Bool) (s : State) : (setTpollAct b s).csr.cmdovf = s.csr.cmdovf := rfl
@[simp] theorem setTpollAct_csr_lberr (b : Bool) (s : State) : (setTpollAct b s).csr.lberr = s.csr.lberr := rfl
@[simp] theorem setTpollAct_csr_initDone (b : Bool) (s : State) : (setTpollAct b s).csr.initDone = s.csr.initDone := rfl
@[simp] theorem setTpollAct_csr_err (b : Bool) (s : State) : (setTpollAct b s).csr.err = s.csr.err := rfl
@[simp] theorem setTpollAct_csr_rdata (b : Bool) (s : State) : (setTpollAct b s).csr.rdata = s.csr.rdata := rfl
@[simp] theorem setTpollAct_csr_errcmd (b : Bool) (s : State) : (setTpollAct b s).csr.errcmd = s.csr.errcmd := rfl
@[simp] theorem setTpollAct_csr_erraux (b : Bool) (s : State) : (setTpollAct b s).csr.erraux = s.csr.erraux := rfl
@[simp] theorem setTpollAct_csr_pollPeriod (b : Bool) (s : State) : (setTpollAct b s).csr.pollPeriod = s.csr.pollPeriod := rfl
@[simp] theorem setTpollAct_csr_waitLimit (b : Bool) (s : State) : (setTpollAct b s).csr.waitLimit = s.csr.waitLimit := rfl
@[simp] theorem setTpollAct_csr_waitInterval (b : Bool) (s : State) : (setTpollAct b s).csr.waitInterval = s.csr.waitInterval := rfl
@[simp] theorem setTpollAct_csr_tcfg0 (b : Bool) (s : State) : (setTpollAct b s).csr.tcfg0 = s.csr.tcfg0 := rfl
@[simp] theorem setTpollAct_csr_tcfg1 (b : Bool) (s : State) : (setTpollAct b s).csr.tcfg1 = s.csr.tcfg1 := rfl

@[simp] theorem setLberr_csr_touchEn (s : State) : (setLberr s).csr.touchEn = s.csr.touchEn := rfl
@[simp] theorem setLberr_csr_ieReady (s : State) : (setLberr s).csr.ieReady = s.csr.ieReady := rfl
@[simp] theorem setLberr_csr_ieFault (s : State) : (setLberr s).csr.ieFault = s.csr.ieFault := rfl
@[simp] theorem setLberr_csr_ieIdle (s : State) : (setLberr s).csr.ieIdle = s.csr.ieIdle := rfl
@[simp] theorem setLberr_csr_tpollAct (s : State) : (setLberr s).csr.tpollAct = s.csr.tpollAct := rfl
@[simp] theorem setLberr_csr_cmdovf (s : State) : (setLberr s).csr.cmdovf = s.csr.cmdovf := rfl
@[simp] theorem setLberr_csr_initDone (s : State) : (setLberr s).csr.initDone = s.csr.initDone := rfl
@[simp] theorem setLberr_csr_err (s : State) : (setLberr s).csr.err = s.csr.err := rfl
@[simp] theorem setLberr_csr_rdata (s : State) : (setLberr s).csr.rdata = s.csr.rdata := rfl
@[simp] theorem setLberr_csr_errcmd (s : State) : (setLberr s).csr.errcmd = s.csr.errcmd := rfl
@[simp] theorem setLberr_csr_erraux (s : State) : (setLberr s).csr.erraux = s.csr.erraux := rfl
@[simp] theorem setLberr_csr_pollPeriod (s : State) : (setLberr s).csr.pollPeriod = s.csr.pollPeriod := rfl
@[simp] theorem setLberr_csr_waitLimit (s : State) : (setLberr s).csr.waitLimit = s.csr.waitLimit := rfl
@[simp] theorem setLberr_csr_waitInterval (s : State) : (setLberr s).csr.waitInterval = s.csr.waitInterval := rfl
@[simp] theorem setLberr_csr_tcfg0 (s : State) : (setLberr s).csr.tcfg0 = s.csr.tcfg0 := rfl
@[simp] theorem setLberr_csr_tcfg1 (s : State) : (setLberr s).csr.tcfg1 = s.csr.tcfg1 := rfl

end Sys2Proof.Machine
end

