-- ==== Sys2Proof/Laws/Host.lean ====
section
/-! SUPPORT. What a host action can do to a running command: reads and writes the port takes change the registers
the host can write, and nothing a bus primitive depends on. -/

namespace Sys2Proof.Machine

/-- A run of host reads and writes, and of time, from `s` to `s'`: what they leave alone. While a command executes
they leave the sequencer and the bus owner alone too, and while a bulk command does, the line buffer (R44). -/
structure HostOnly (s s' : State) : Prop where
  par : s'.par = s.par
  miso : s'.env.miso = s.env.miso
  busErr : s'.env.busErr = s.env.busErr
  freeDraws : s'.env.freeDraws = s.env.freeDraws
  resets : s'.env.resets = s.env.resets
  trace : s'.env.trace = s.env.trace
  pins : s'.pins = s.pins
  loc : s'.loc = s.loc
  cur : s'.seq.cur = s.seq.cur
  rdata : s'.csr.rdata = s.csr.rdata
  errcmd : s'.csr.errcmd = s.csr.errcmd
  erraux : s'.csr.erraux = s.csr.erraux
  initDone : s'.csr.initDone = s.csr.initDone
  tpollAct : s'.csr.tpollAct = s.csr.tpollAct
  x : s'.sample.x = s.sample.x
  y : s'.sample.y = s.sample.y
  tphase : s'.poll.tphase = s.poll.tphase
  running : s.seq.state = .exec → s'.seq = s.seq ∧ s'.owner = s.owner ∧ s'.csr.err = s.csr.err
  buffer : s.seq.state = .exec → isBulkWord s.seq.cur = true → s'.lb = s.lb

theorem HostOnly.refl (s : State) : HostOnly s s := by
  constructor <;> simp

theorem HostOnly.trans {a b c : State} (h : HostOnly a b) (g : HostOnly b c) : HostOnly a c where
  par := g.par.trans h.par
  miso := g.miso.trans h.miso
  busErr := g.busErr.trans h.busErr
  freeDraws := g.freeDraws.trans h.freeDraws
  resets := g.resets.trans h.resets
  trace := g.trace.trans h.trace
  pins := g.pins.trans h.pins
  loc := g.loc.trans h.loc
  cur := g.cur.trans h.cur
  rdata := g.rdata.trans h.rdata
  errcmd := g.errcmd.trans h.errcmd
  erraux := g.erraux.trans h.erraux
  initDone := g.initDone.trans h.initDone
  tpollAct := g.tpollAct.trans h.tpollAct
  x := g.x.trans h.x
  y := g.y.trans h.y
  tphase := g.tphase.trans h.tphase
  running := fun e => by
    obtain ⟨h1, h2, h3⟩ := h.running e
    obtain ⟨g1, g2, g3⟩ := g.running (by rw [h1]; exact e)
    exact ⟨g1.trans h1, g2.trans h2, g3.trans h3⟩
  buffer := fun e f => by
    have h1 := (h.running e).1
    exact (g.buffer (by rw [h1]; exact e) (by rw [h1]; exact f)).trans (h.buffer e f)

theorem advance_tphase (c n : Nat) (p : Poll) : (p.advance c n).tphase = p.tphase := by
  unfold Poll.advance
  split
  · split <;> rfl
  all_goals rfl

/-- Time alone. -/
theorem hostOnly_tick (n : Nat) (s : State) : HostOnly s (tick n s) := by
  constructor <;> simp [advance_tphase]

/-- A bulk command in execution locks the line buffer (R44). -/
theorem lbLock_of_running {s : State} (h : s.seq.state = .exec) (b : isBulkWord s.seq.cur = true) :
    s.lbLock = true := by
  simp [State.lbLock, State.busy, h, b]

theorem hostOnly_flush (s : State) : HostOnly s (flush s) := by
  unfold flush
  dsimp only
  split
  · rename_i h
    constructor <;> simp_all
  · constructor <;> simp

theorem hostOnly_touchStart (s : State) : HostOnly s (touchStart s) := by
  unfold touchStart
  split <;> constructor <;> simp

theorem hostOnly_touchStop (s : State) : HostOnly s (touchStop s) := by
  unfold touchStop
  dsimp only
  split <;> constructor <;> simp

theorem hostOnly_enables (a b c d : Bool) (s : State) :
    HostOnly s { s with csr := { s.csr with touchEn := a, ieReady := b, ieFault := c, ieIdle := d } } := by
  constructor <;> simp

theorem hostOnly_writeCtrl (v : Word) (s : State) : HostOnly s (writeCtrl v s) := by
  have h1 := hostOnly_enables (v.getLsbD 0) (v.getLsbD 1) (v.getLsbD 2) (v.getLsbD 3) s
  simp only [writeCtrl]
  split <;> split
  · exact (h1.trans (hostOnly_touchStart _)).trans (hostOnly_flush _)
  · split
    · exact (h1.trans (hostOnly_touchStop _)).trans (hostOnly_flush _)
    · exact h1.trans (hostOnly_flush _)
  · exact h1.trans (hostOnly_touchStart _)
  · split
    · exact h1.trans (hostOnly_touchStop _)
    · exact h1

theorem hostOnly_faultReturn (s : State) : HostOnly s (faultReturn s) := by
  unfold faultReturn
  split
  · rename_i h
    have h : s.seq.state = .fault := by simpa [State.faulted] using h
    constructor <;> simp [h]
  · exact HostOnly.refl s

theorem hostOnly_writeStatus (v : Word) (s : State) : HostOnly s (writeStatus v s) := by
  have h : HostOnly s (if v.getLsbD 2 then faultReturn s else s) := by
    split
    · exact hostOnly_faultReturn s
    · exact HostOnly.refl s
  simp only [writeStatus]
  generalize (if v.getLsbD 2 then faultReturn s else s) = t at h
  refine h.trans ?_
  constructor <;> simp

theorem hostOnly_pushWord (w : Word) (s : State) : HostOnly s (pushWord w s) := by
  unfold pushWord
  split <;> constructor <;> simp

theorem hostOnly_writeLb (i : Nat) (v : Word) (s : State) : HostOnly s (writeLb i v s) := by
  unfold writeLb
  split
  · constructor <;> simp
  · rename_i h
    constructor <;> simp
    intro e b
    exact absurd (lbLock_of_running e b) h

/-- Every register write. -/
theorem hostOnly_writeEffect (c : CsrName) (v : Word) (s : State) : HostOnly s (writeEffect c v s) := by
  cases c
  case ctrl => exact hostOnly_writeCtrl v s
  case status => exact hostOnly_writeStatus v s
  case cmd => exact hostOnly_pushWord v s
  case lb i => exact hostOnly_writeLb i v s
  all_goals constructor <;> simp [writeEffect]

/-- Every register read. -/
theorem hostOnly_readEffect (c : CsrName) (s : State) : HostOnly s (readEffect c s) := by
  cases c
  case lb i =>
    simp only [readEffect]
    split
    · constructor <;> simp
    · exact HostOnly.refl s
  all_goals constructor <;> simp [readEffect]

theorem hostOnly_logRead (a : Nat) (v : Word) (s : State) : HostOnly s (logRead a v s) := by
  constructor <;> simp [logRead]

/-- What a write leaves of time and of the input list. -/
theorem writeEffect_env (c : CsrName) (v : Word) (s : State) : (writeEffect c v s).env = s.env := by
  cases c <;> simp only [writeEffect, writeCtrl, writeStatus, pushWord, writeLb]
  case ctrl =>
    simp only [touchStart, touchStop, flush]
    repeat' split
    all_goals rfl
  case status =>
    simp only [faultReturn]
    repeat' split
    all_goals rfl
  case cmd => split <;> rfl
  case lb => split <;> rfl

theorem readEffect_env (c : CsrName) (s : State) : (readEffect c s).env = s.env := by
  cases c <;> simp only [readEffect]
  split <;> rfl

/-- A benign action is done; it takes no time and leaves the rest of the input list. -/
theorem takeHost_benign {r : HostReq} {rest : List HostReq} {s : State} (h : r.benign s.par.rsqBase = true) :
    ∃ s', takeHost r rest s = .done s' ∧ HostOnly s s' ∧ s'.env.now = s.env.now ∧ s'.env.host = rest := by
  have h0 : HostOnly s { s with env := { s.env with host := rest, portFree := s.env.now + 1 } } := by
    constructor <;> simp
  unfold takeHost hostOp
  unfold HostReq.benign at h
  split at h
  · rename_i addr size e
    rw [Option.isNone_iff_eq_none] at h
    simp only [e, h]
    exact ⟨_, rfl, (h0.trans (hostOnly_readEffect _ _)).trans (hostOnly_logRead _ _ _), by
      simp [logRead, readEffect_env], by simp [logRead, readEffect_env]⟩
  · rename_i addr size v e
    rw [Option.isNone_iff_eq_none] at h
    simp only [e, h]
    exact ⟨_, rfl, h0.trans (hostOnly_writeEffect _ _ _), by simp [writeEffect_env], by simp [writeEffect_env]⟩
  · exact absurd h (by simp)

end Sys2Proof.Machine
end

