-- ==== Sys2Proof/Laws/Word.lean ====
section
/-! SUPPORT. Laws of fields, bits and bytes: where a placed field's bits are, the fields of an encoded command, the
byte a wire carries, and the bytes of a pixel. -/

namespace Sys2Proof

open Sys2Proof.Machine

/-- A placed field's bits. -/
theorem getElem_place {n : Nat} (i j : Nat) (v : BitVec n) (h : j < 32) :
    (place i v)[j] = (decide (i ≤ j) && v.getLsbD (j - i)) := by
  by_cases hi : i ≤ j
  · simp [place, BitVec.getElem_shiftLeft, hi]
  · simp [place, BitVec.getElem_shiftLeft, hi]

/-- A placed field's bits, by number. -/
theorem getLsbD_place {n : Nat} (i j : Nat) (v : BitVec n) (h : j < 32) :
    (place i v).getLsbD j = (decide (i ≤ j) && v.getLsbD (j - i)) := by
  rw [BitVec.getLsbD_eq_getElem h, getElem_place]

theorem opField_encodeFields (op : BitVec 4) (k : Bool) (a : Byte) (d : Half) :
    opField (encodeFields op k a d) = op := by
  simp only [opField, encodeFields]
  ext i hi
  interval_cases i <;> simp [getElem_place, BitVec.getLsbD_eq_getElem]

theorem kField_encodeFields (op : BitVec 4) (k : Bool) (a : Byte) (d : Half) :
    kField (encodeFields op k a d) = k := by
  simp [kField, encodeFields, getElem_place]

theorem rsvField_encodeFields (op : BitVec 4) (k : Bool) (a : Byte) (d : Half) :
    rsvField (encodeFields op k a d) = 0#3 := by
  simp only [rsvField, encodeFields]
  ext i hi
  interval_cases i <;> simp [getElem_place]

theorem aField_encodeFields (op : BitVec 4) (k : Bool) (a : Byte) (d : Half) :
    aField (encodeFields op k a d) = a := by
  simp only [aField, encodeFields]
  ext i hi
  interval_cases i <;> simp [getElem_place, BitVec.getLsbD_eq_getElem]

theorem dField_encodeFields (op : BitVec 4) (k : Bool) (a : Byte) (d : Half) :
    dField (encodeFields op k a d) = d := by
  simp only [dField, encodeFields]
  ext i hi
  interval_cases i <;> simp [getElem_place, BitVec.getLsbD_eq_getElem]

theorem vField_encodeFields (op : BitVec 4) (k : Bool) (a : Byte) (d : Half) :
    vField (encodeFields op k a d) = d.setWidth 8 := by
  simp only [vField, encodeFields]
  ext i hi
  interval_cases i <;> simp [getElem_place, BitVec.getLsbD_eq_getElem]

/-- The byte assembled from the bits of a byte, in either bit order, is that byte (40_spi_framing.md R132). -/
@[simp] theorem fromWire_toWire (o : BitOrder) (b : Byte) : fromWire o (toWire o b) = b := by
  cases o <;> revert b <;> decide +kernel

end Sys2Proof
end

