-- ==== Sys2Proof/Laws/Bus.lean ====
section
/-! SUPPORT. What the bus primitives do while the host does nothing but reads and writes the port takes, on hardware
without a bus-error input: they complete, in R348's time, with R130's events, and change nothing else a command
depends on. -/

namespace Sys2Proof.Machine

/-- A piece of a command ends normally in a state that meets `Q`. -/
def Res.Yields {α : Type} (r : Res α) (Q : α → State → Prop) : Prop := ∃ a s, r = .ok a s ∧ Q a s

theorem Res.Yields.andThen {α β : Type} {r : Res α} {Q : α → State → Prop} {f : α → State → Res β}
    {P : β → State → Prop} (h : r.Yields Q) (hf : ∀ a s, Q a s → (f a s).Yields P) : (r.andThen f).Yields P := by
  obtain ⟨a, s, rfl, q⟩ := h
  exact hf a s q

theorem Res.Yields.mono {α : Type} {r : Res α} {Q P : α → State → Prop} (h : r.Yields Q)
    (hp : ∀ a s, Q a s → P a s) : r.Yields P := by
  obtain ⟨a, s, e, q⟩ := h
  exact ⟨a, s, e, hp a s q⟩

theorem Res.yields_ok {α : Type} {a : α} {s : State} {Q : α → State → Prop} (h : Q a s) : (Res.ok a s).Yields Q :=
  ⟨a, s, rfl, h⟩

@[simp] theorem Res.ok_andThen {α β : Type} (a : α) (s : State) (f : α → State → Res β) :
    (Res.ok a s).andThen f = f a s := rfl

@[simp] theorem Res.raise_andThen {α β : Type} (c : ErrCode) (d : Half) (s : State) (f : α → State → Res β) :
    (Res.raise c d s : Res α).andThen f = .raise c d s := rfl

@[simp] theorem Res.cut_andThen {α β : Type} (s : State) (f : α → State → Res β) :
    (Res.cut s : Res α).andThen f = .cut s := rfl

@[simp] theorem Res.stop_andThen {α β : Type} (x : Stop) (f : α → State → Res β) :
    (Res.stop x : Res α).andThen f = .stop x := rfl

theorem Res.andThen_assoc {α β γ : Type} (r : Res α) (f : α → State → Res β) (g : β → State → Res γ) :
    (r.andThen f).andThen g = r.andThen fun a s => (f a s).andThen g := by
  cases r <;> rfl

/-- With no host action to come, time passes and nothing else happens. -/
theorem pass_quiet {s : State} (h : Quiet s) (n : Nat) : pass n s = .ok () (tick n s) := by
  unfold Quiet at h
  simp [pass, h, passWith]

theorem passWith_benign (l : List HostReq) : ∀ (n : Nat) (s : State), s.env.host = l → Benign s →
    (passWith l n s).Yields fun _ s' => HostOnly s s' ∧ s'.env.now = s.env.now + n ∧ Benign s' := by
  induction l with
  | nil =>
    intro n s _ b
    exact Res.yields_ok ⟨hostOnly_tick n s, rfl, b⟩
  | cons r rest ih =>
    intro n s e b
    simp only [passWith]
    split
    · rename_i due
      have hr : r.benign s.par.rsqBase = true := b r (by rw [e]; exact List.mem_cons_self)
      obtain ⟨s1, e1, k1, t1, l1⟩ :=
        takeHost_benign (rest := rest) (s := tick (hostTime r s - s.env.now) s) (by simpa using hr)
      simp only [e1]
      have le : s.env.now ≤ hostTime r s := by unfold hostTime; exact le_max_left _ _
      have b1 : Benign s1 := by
        intro x hx
        rw [l1] at hx
        have := b x (by rw [e]; exact List.mem_cons_of_mem _ hx)
        rw [k1.par]
        exact this
      refine (ih (n - (hostTime r s - s.env.now)) s1 l1 b1).mono ?_
      rintro - s2 ⟨k2, t2, b2⟩
      refine ⟨((hostOnly_tick _ s).trans k1).trans k2, ?_, b2⟩
      rw [t2, t1]
      simp only [tick_env_now]
      omega
    · exact Res.yields_ok ⟨hostOnly_tick n s, rfl, b⟩

/-- `n` cycles pass exactly, whatever reads and writes the host does in them. -/
theorem pass_benign {s : State} (b : Benign s) (n : Nat) :
    (pass n s).Yields fun _ s' => HostOnly s s' ∧ s'.env.now = s.env.now + n ∧ Benign s' :=
  passWith_benign _ n s rfl b

theorem takeMiso_other (e : Env) : e.takeMiso.host = e.host ∧ e.takeMiso.portFree = e.portFree ∧
    e.takeMiso.reads = e.reads ∧ e.takeMiso.resets = e.resets ∧ e.takeMiso.now = e.now ∧
    e.takeMiso.trace = e.trace := by
  unfold Env.takeMiso
  split <;> simp

theorem takeBusErr_other (e : Env) : e.takeBusErr.host = e.host ∧ e.takeBusErr.portFree = e.portFree ∧
    e.takeBusErr.reads = e.reads ∧ e.takeBusErr.resets = e.resets ∧ e.takeBusErr.now = e.now ∧
    e.takeBusErr.trace = e.trace := by
  unfold Env.takeBusErr
  split <;> simp

/-- What a rise of CS_N leaves of the surroundings. -/
theorem emitRise_env (s : State) : (emitRise s).env.now = s.env.now ∧ (emitRise s).env.host = s.env.host ∧
    (emitRise s).env.portFree = s.env.portFree ∧ (emitRise s).env.reads = s.env.reads ∧
    (emitRise s).env.resets = s.env.resets ∧
    (emitRise s).env.trace = ⟨s.env.now, .csh s.busError⟩ :: s.env.trace := by
  unfold emitRise
  split <;> simp [takeBusErr_other]

theorem csRise_now (s : State) : (csRise s).1.env.now = s.env.now := (emitRise_env _).1

/-- Draws depend on the input list and the draw counter alone. -/
theorem after_congr (n : Nat) : ∀ {e f : Env}, e.miso = f.miso → e.freeDraws = f.freeDraws →
    (e.after n).miso = (f.after n).miso ∧ (e.after n).freeDraws = (f.after n).freeDraws := by
  induction n with
  | zero => intro e f h g; exact ⟨h, g⟩
  | succ n ih =>
    intro e f h g
    refine ih ?_ ?_ <;> simp only [Env.takeMiso, h] <;> split <;> simp [g]

theorem nextMiso_congr {e f : Env} (h : e.miso = f.miso) (g : e.freeDraws = f.freeDraws) :
    e.nextMiso = f.nextMiso := by
  simp only [Env.nextMiso, h, g]

theorem after_add (m n : Nat) (e : Env) : (e.after m).after n = e.after (m + n) := by
  induction m generalizing e with
  | zero => simp [Env.after]
  | succ m ih => rw [Nat.add_right_comm]; exact ih e.takeMiso

theorem slotEvents_congr (bs : List Byte) : ∀ {e f : Env}, e.miso = f.miso → e.freeDraws = f.freeDraws →
    slotEvents bs e = slotEvents bs f := by
  induction bs with
  | nil => intros; rfl
  | cons t r ih =>
    intro e f h g
    have := after_congr 1 h g
    simp only [slotEvents, nextMiso_congr h g]
    exact congrArg _ (ih this.1 this.2)

theorem slotEvents_append (a b : List Byte) (e : Env) :
    slotEvents (a ++ b) e = slotEvents a e ++ slotEvents b (e.after a.length) := by
  induction a generalizing e with
  | nil => rfl
  | cons t r ih => simp [slotEvents, ih, Env.after]

/-- What a run of `d` byte slots that adds the trace entries `new`, newest first, leaves alone. -/
structure Ran (d : Nat) (new : List TraceEntry) (s s' : State) : Prop where
  par : s'.par = s.par
  miso : s'.env.miso = (s.env.after d).miso
  freeDraws : s'.env.freeDraws = (s.env.after d).freeDraws
  busErr : s'.env.busErr = s.env.busErr
  resets : s'.env.resets = s.env.resets
  trace : s'.env.trace = new ++ s.env.trace
  rstN : s'.pins.rstN = s.pins.rstN
  step : s'.loc.step = s.loc.step
  cur : s'.seq.cur = s.seq.cur
  rdata : s'.csr.rdata = s.csr.rdata
  errcmd : s'.csr.errcmd = s.csr.errcmd
  erraux : s'.csr.erraux = s.csr.erraux
  initDone : s'.csr.initDone = s.csr.initDone
  tpollAct : s'.csr.tpollAct = s.csr.tpollAct
  x : s'.sample.x = s.sample.x
  y : s'.sample.y = s.sample.y
  tphase : s'.poll.tphase = s.poll.tphase
  running : s.seq.state = .exec → s'.seq = s.seq ∧ s'.owner = s.owner ∧ s'.csr.err = s.csr.err
  buffer : s.seq.state = .exec → isBulkWord s.seq.cur = true → s'.lb = s.lb
  benign : Benign s'

theorem after_draws_zero (s : State) : (s.env.after 0) = s.env := rfl

theorem Ran.of_hostOnly {s s' : State} (h : HostOnly s s') (b : Benign s') : Ran 0 [] s s' where
  par := h.par
  miso := h.miso
  freeDraws := h.freeDraws
  busErr := h.busErr
  resets := h.resets
  trace := h.trace
  rstN := by rw [h.pins]
  step := by rw [h.loc]
  cur := h.cur
  rdata := h.rdata
  errcmd := h.errcmd
  erraux := h.erraux
  initDone := h.initDone
  tpollAct := h.tpollAct
  x := h.x
  y := h.y
  tphase := h.tphase
  running := h.running
  buffer := h.buffer
  benign := b

theorem Ran.trans {m n : Nat} {es fs : List TraceEntry} {a b c : State} (h : Ran m es a b) (g : Ran n fs b c) :
    Ran (m + n) (fs ++ es) a c where
  par := g.par.trans h.par
  miso := by rw [g.miso, (after_congr n h.miso h.freeDraws).1, after_add]
  freeDraws := by rw [g.freeDraws, (after_congr n h.miso h.freeDraws).2, after_add]
  busErr := g.busErr.trans h.busErr
  resets := g.resets.trans h.resets
  trace := by rw [g.trace, h.trace, List.append_assoc]
  rstN := g.rstN.trans h.rstN
  step := g.step.trans h.step
  cur := g.cur.trans h.cur
  rdata := g.rdata.trans h.rdata
  errcmd := g.errcmd.trans h.errcmd
  erraux := g.erraux.trans h.erraux
  initDone := g.initDone.trans h.initDone
  tpollAct := g.tpollAct.trans h.tpollAct
  x := g.x.trans h.x
  y := g.y.trans h.y
  tphase := g.tphase.trans h.tphase
  running := fun e => by
    obtain ⟨h1, h2, h3⟩ := h.running e
    obtain ⟨g1, g2, g3⟩ := g.running (by rw [h1]; exact e)
    exact ⟨g1.trans h1, g2.trans h2, g3.trans h3⟩
  buffer := fun e f => by
    have h1 := (h.running e).1
    exact (g.buffer (by rw [h1]; exact e) (by rw [h1]; exact f)).trans (h.buffer e f)
  benign := g.benign

/-- The bit times of a slot: time passes and the pins move. -/
theorem shiftOut_benign (bs : List Bool) : ∀ {s : State}, Benign s →
    (shiftOut bs s).Yields fun _ s' =>
      Ran 0 [] s s' ∧ s'.env.now = s.env.now + bs.length * (2 * (s.par.sckDiv / 2)) ∧ s'.loc = s.loc ∧
      s'.pins.csN = s.pins.csN ∧ s'.pins.cslOk = s.pins.cslOk := by
  induction bs with
  | nil => intro s b; exact Res.yields_ok ⟨Ran.of_hostOnly (HostOnly.refl s) b, by simp, rfl, rfl, rfl⟩
  | cons w rest ih =>
    intro s b
    have d (x y : Bool) (u : State) (bu : Benign u) : Ran 0 [] u (drive x y u) := by
      constructor
      case benign => exact bu
      all_goals simp [Env.after]
    simp only [shiftOut]
    refine (pass_benign (s := drive (sckFirstHalf s.par.spiMode) w s) b _).andThen ?_
    rintro - s1 ⟨k1, t1, b1⟩
    refine (pass_benign (s := drive (sckSecondHalf s1.par.spiMode) w s1) b1 _).andThen ?_
    rintro - s2 ⟨k2, t2, b2⟩
    refine (ih b2).mono ?_
    rintro - s3 ⟨r3, t3, l3, c3, o3⟩
    refine ⟨?_, ?_, ?_, ?_, ?_⟩
    · exact ((((d _ _ s b).trans (.of_hostOnly k1 b1)).trans (d _ _ s1 b1)).trans (.of_hostOnly k2 b2)).trans r3
    · have p1 : s1.par = s.par := k1.par
      have p2 : s2.par = s1.par := k2.par
      have t1 : s1.env.now = s.env.now + s.par.sckDiv / 2 := t1
      have t2 : s2.env.now = s1.env.now + s1.par.sckDiv / 2 := t2
      rw [t3, t2, t1, p2, p1]
      simp only [List.length_cons]
      ring
    · rw [l3, k2.loc, drive_loc, k1.loc, drive_loc]
    · rw [c3, k2.pins, drive_pins_csN, k1.pins, drive_pins_csN]
    · rw [o3, k2.pins, drive_pins_cslOk, k1.pins, drive_pins_cslOk]

/-- The pins between two slots of a phase. -/
def slotPins (s s' : State) : Prop :=
  s'.pins.csN = s.pins.csN ∧ s'.pins.cslOk = s.pins.cslOk ∧ s'.pins.mosi = false ∧
    s'.pins.sck = sckIdle s.par.spiMode ∧ s'.loc = s.loc

/-- One byte slot (40_spi_framing.md R132): eight bit times, one draw, one event. -/
theorem xfer_benign {s : State} (t : Byte) (b : Benign s) :
    (xfer t s).Yields fun r s' =>
      r = s.env.nextMiso ∧ Ran 1 [⟨s'.env.now, .x t s.env.nextMiso⟩] s s' ∧
      s'.env.now = s.env.now + 16 * (s.par.sckDiv / 2) ∧ slotPins s s' := by
  simp only [xfer]
  refine (shiftOut_benign (toWire s.par.bitOrder t) b).andThen ?_
  rintro - s1 ⟨r1, t1, l1, c1, o1⟩
  have m : s1.env.nextMiso = s.env.nextMiso := nextMiso_congr r1.miso r1.freeDraws
  have q : (s1.env.takeMiso).now = s1.env.now := by unfold Env.takeMiso; split <;> rfl
  have r2 : Ran 1 [⟨s1.env.now, .x t s.env.nextMiso⟩] s1
      (emit (.x t s.env.nextMiso)
        (drive (sckIdle s1.par.spiMode) false { s1 with env := s1.env.takeMiso })) := by
    constructor
    case benign =>
      intro r hr
      refine r1.benign r ?_
      have : (s1.env.takeMiso).host = s1.env.host := by unfold Env.takeMiso; split <;> rfl
      simpa [this] using hr
    all_goals simp [Env.after]
    all_goals (unfold Env.takeMiso; split <;> simp)
  refine Res.yields_ok ⟨?_, ?_, ?_, ?_, ?_, ?_, ?_, ?_⟩
  · simp [m]
  · have := r1.trans r2
    simpa [m, q] using this
  · simp [q, t1, toWire]
    ring
  · simpa using c1
  · simpa using o1
  · simp
  · simp [r1.par]
  · simpa using l1

end Sys2Proof.Machine
end

