-- ==== Sys2Proof/Laws/Access.lean ====
section
/-! SUPPORT. What phases and register accesses do while the host does nothing but reads and writes the port takes, on
hardware without a bus-error input: their events, their exact times and what they leave alone. -/

namespace Sys2Proof.Machine

/-- Which host schedules are benign depends on the input list and the window's base alone. -/
theorem Benign.congr {s s' : State} (b : Benign s) (h : s'.env.host = s.env.host) (p : s'.par = s.par) :
    Benign s' := by
  intro r hr
  rw [h] at hr
  rw [p]
  exact b r hr

/-- Half a bit time (70_reset_and_hazards.md R348). -/
abbrev halfBit (p : Params) : Nat := p.sckDiv / 2

/-- What a phase lasts beside its slots (R348). -/
theorem setup_gap_hold (p : Params) : setupTime p + slotGap p + holdTime p = 2 * halfBit p := by
  simp only [setupTime, slotGap, holdTime, halfBit]
  split <;> omega

/-- The same run from a state with another line buffer. -/
theorem Ran.withLb {d : Nat} {new : List TraceEntry} {s s' : State} (h : Ran d new s s') (l : List Half) :
    Ran d new { s with lb := l } { s' with lb := l } where
  par := h.par
  miso := h.miso
  freeDraws := h.freeDraws
  busErr := h.busErr
  resets := h.resets
  trace := h.trace
  rstN := h.rstN
  step := h.step
  cur := h.cur
  rdata := h.rdata
  errcmd := h.errcmd
  erraux := h.erraux
  initDone := h.initDone
  tpollAct := h.tpollAct
  x := h.x
  y := h.y
  tphase := h.tphase
  running := h.running
  buffer := fun _ _ => rfl
  benign := h.benign

/-- A run that may have changed the line buffer, but not of a running bulk command. -/
theorem Ran.dropLb {d : Nat} {new : List TraceEntry} {s s' : State} {l : List Half}
    (h : Ran d new { s with lb := l } s') (e : s.seq.state = .exec → isBulkWord s.seq.cur = true → l = s.lb) :
    Ran d new s s' where
  par := h.par
  miso := h.miso
  freeDraws := h.freeDraws
  busErr := h.busErr
  resets := h.resets
  trace := h.trace
  rstN := h.rstN
  step := h.step
  cur := h.cur
  rdata := h.rdata
  errcmd := h.errcmd
  erraux := h.erraux
  initDone := h.initDone
  tpollAct := h.tpollAct
  x := h.x
  y := h.y
  tphase := h.tphase
  running := h.running
  buffer := fun a c => (h.buffer a c).trans (e a c)
  benign := h.benign

/-- The same run from a state with another RDATA. -/
theorem Ran.withRdata {d : Nat} {new : List TraceEntry} {s s' : State} (h : Ran d new s s') (r : Byte) :
    Ran d new (setRdata r s) (setRdata r s') where
  par := h.par
  miso := h.miso
  freeDraws := h.freeDraws
  busErr := h.busErr
  resets := h.resets
  trace := h.trace
  rstN := h.rstN
  step := h.step
  cur := h.cur
  rdata := rfl
  errcmd := h.errcmd
  erraux := h.erraux
  initDone := h.initDone
  tpollAct := h.tpollAct
  x := h.x
  y := h.y
  tphase := h.tphase
  running := h.running
  buffer := h.buffer
  benign := h.benign

/-- The same run from a state with another INIT_DONE. -/
theorem Ran.withInitDone {d : Nat} {new : List TraceEntry} {s s' : State} (h : Ran d new s s') (b : Bool) :
    Ran d new (setInitDone b s) (setInitDone b s') where
  par := h.par
  miso := h.miso
  freeDraws := h.freeDraws
  busErr := h.busErr
  resets := h.resets
  trace := h.trace
  rstN := h.rstN
  step := h.step
  cur := h.cur
  rdata := h.rdata
  errcmd := h.errcmd
  erraux := h.erraux
  initDone := rfl
  tpollAct := h.tpollAct
  x := h.x
  y := h.y
  tphase := h.tphase
  running := h.running
  buffer := h.buffer
  benign := h.benign

/-- The same run from a state with another local state, as far as its entry index goes. -/
theorem Ran.withLoc {d : Nat} {new : List TraceEntry} {s s' : State} (h : Ran d new s s') {l l' : Local}
    (e : l'.step = l.step) : Ran d new { s with loc := l } { s' with loc := l' } where
  par := h.par
  miso := h.miso
  freeDraws := h.freeDraws
  busErr := h.busErr
  resets := h.resets
  trace := h.trace
  rstN := h.rstN
  step := e
  cur := h.cur
  rdata := h.rdata
  errcmd := h.errcmd
  erraux := h.erraux
  initDone := h.initDone
  tpollAct := h.tpollAct
  x := h.x
  y := h.y
  tphase := h.tphase
  running := h.running
  buffer := h.buffer
  benign := h.benign

theorem Ran.refl {s : State} (b : Benign s) : Ran 0 [] s s := Ran.of_hostOnly (HostOnly.refl s) b

/-- A run with the events `evs`, oldest first, the first in cycle `t0` and the last in cycle `t1`. -/
def Did (d : Nat) (evs : List BusEvent) (t0 t1 : Nat) (s s' : State) : Prop :=
  ∃ new, Ran d new s s' ∧ (new.map TraceEntry.event).reverse = evs ∧
    new.getLast?.map TraceEntry.cycle = some t0 ∧ new.head?.map TraceEntry.cycle = some t1

theorem Did.trans {m n t0 t1 t2 t3 : Nat} {es fs : List BusEvent} {a b c : State} (h : Did m es t0 t1 a b)
    (g : Did n fs t2 t3 b c) : Did (m + n) (es ++ fs) t0 t3 a c := by
  obtain ⟨x, r, e, l, -⟩ := h
  obtain ⟨y, q, f, -, k⟩ := g
  refine ⟨y ++ x, r.trans q, by simp [← e, ← f], ?_, ?_⟩
  · cases x with
    | nil => simp at l
    | cons p ps => rw [List.getLast?_append_of_ne_nil _ (by simp)]; exact l
  · cases y with
    | nil => simp at k
    | cons p ps => exact k

theorem Did.before {n t0 t1 : Nat} {es : List BusEvent} {a b c : State} (h : Ran 0 [] a b)
    (g : Did n es t0 t1 b c) : Did n es t0 t1 a c := by
  obtain ⟨x, r, e, l, k⟩ := g
  exact ⟨x, by simpa using h.trans r, e, l, k⟩

theorem Did.after {n t0 t1 : Nat} {es : List BusEvent} {a b c : State} (h : Did n es t0 t1 a b)
    (g : Ran 0 [] b c) : Did n es t0 t1 a c := by
  obtain ⟨x, r, e, l, k⟩ := h
  exact ⟨x, by simpa using r.trans g, e, l, k⟩

/-- The pins right after CS_N has risen. -/
def AtGap (s : State) : Prop :=
  s.pins.csN = true ∧ s.pins.mosi = false ∧ s.pins.sck = sckIdle s.par.spiMode ∧
    s.pins.cslOk = s.env.now + s.par.tCshMin

/-- A run of the slots `bs`, which may have changed the line buffer to `l`. -/
def SlotRun (bs : List Byte) (l : List Half) (s s' : State) : Prop :=
  (∃ new, Ran bs.length new { s with lb := l } s' ∧
    (new.map TraceEntry.event).reverse = slotEvents bs s.env) ∧
  s'.env.now = s.env.now + 16 * bs.length * halfBit s.par ∧ slotPins s s'

theorem SlotRun.nil {s : State} (b : Benign s) (m : s.pins.mosi = false)
    (k : s.pins.sck = sckIdle s.par.spiMode) : SlotRun [] s.lb s s :=
  ⟨⟨[], Ran.refl b, rfl⟩, by simp, rfl, rfl, m, k, rfl⟩

theorem SlotRun.par {bs : List Byte} {l : List Half} {s s' : State} (h : SlotRun bs l s s') : s'.par = s.par := by
  obtain ⟨⟨new, r, -⟩, -⟩ := h
  exact r.par

theorem SlotRun.benign {bs : List Byte} {l : List Half} {s s' : State} (h : SlotRun bs l s s') : Benign s' := by
  obtain ⟨⟨new, r, -⟩, -⟩ := h
  exact r.benign

/-- Draws after a run of slots. -/
theorem SlotRun.draws {bs : List Byte} {l : List Half} {s s' : State} (h : SlotRun bs l s s') :
    s'.env.miso = (s.env.after bs.length).miso ∧ s'.env.freeDraws = (s.env.after bs.length).freeDraws := by
  obtain ⟨⟨new, r, -⟩, -⟩ := h
  exact ⟨r.miso, r.freeDraws⟩

/-- One slot as a run of slots, and its byte. -/
theorem xfer_run {s : State} (t : Byte) (b : Benign s) :
    (xfer t s).Yields fun r s' => r = s.env.nextMiso ∧ Benign s' ∧
      ∃ l, SlotRun [t] l s s' ∧ (s.seq.state = .exec → isBulkWord s.seq.cur = true → l = s.lb) ∧ l = s'.lb := by
  refine (xfer_benign t b).mono ?_
  rintro a s' ⟨e, r, n, p⟩
  refine ⟨e, r.benign, s'.lb, ⟨⟨_, r.withLb s'.lb, by simp [slotEvents]⟩, ?_, p⟩, r.buffer, rfl⟩
  simpa using n

/-- Runs of slots compose, with a change of the line buffer between them. -/
theorem SlotRun.append {xs ys : List Byte} {l l' m : List Half} {s u v : State} (h : SlotRun xs l s u)
    (e : SlotRun ys m { u with lb := l' } v) : SlotRun (xs ++ ys) m s v := by
  obtain ⟨⟨x, r, ev⟩, n, p1, p2, p3, p4, p5⟩ := h
  obtain ⟨⟨y, q, fv⟩, k, q1, q2, q3, q4, q5⟩ := e
  refine ⟨⟨y ++ x, ?_, ?_⟩, ?_, q1.trans p1, q2.trans p2, q3, ?_, q5.trans p5⟩
  · rw [List.length_append]
    exact (r.withLb m).trans q
  · rw [slotEvents_append, ← slotEvents_congr ys r.miso r.freeDraws, List.map_append, List.reverse_append, ev]
    exact congrArg _ fv
  · have : u.par = s.par := r.par
    simp only [k, n, this, List.length_append]
    ring
  · have : u.par = s.par := r.par
    rw [← this]; exact q4

/-- The setup of a phase. -/
theorem csLow_benign {s : State} (b : Benign s) :
    (csLow s).Yields fun _ u => Ran 0 [⟨max s.env.now s.pins.cslOk, .csl⟩] s u ∧
      u.env.now = max s.env.now s.pins.cslOk + setupTime s.par ∧ u.loc = s.loc ∧ u.pins.mosi = s.pins.mosi ∧
      u.pins.sck = s.pins.sck := by
  simp only [csLow]
  refine (pass_benign b _).andThen ?_
  rintro - s1 ⟨k1, t1, b1⟩
  have t1 : s1.env.now = max s.env.now s.pins.cslOk := by rw [t1]; omega
  have d : Ran 0 [⟨s1.env.now, .csl⟩] s1 (emit .csl { s1 with pins := { s1.pins with csN := false } }) := by
    constructor
    case benign => exact b1
    all_goals simp [Env.after]
  refine (pass_benign (s := emit .csl { s1 with pins := { s1.pins with csN := false } }) d.benign _).mono ?_
  rintro - s2 ⟨k2, t2, b2⟩
  refine ⟨?_, ?_, ?_, ?_, ?_⟩
  · have := ((Ran.of_hostOnly k1 b1).trans d).trans (Ran.of_hostOnly k2 b2)
    simpa [t1] using this
  · rw [t2]
    simp [t1, k1.par]
  · rw [k2.loc]; exact k1.loc
  · rw [k2.pins]; simp [k1.pins]
  · rw [k2.pins]; simp [k1.pins]

/-- The end of a phase, on hardware without a bus-error input. -/
theorem csHigh_benign {s : State} (b : Benign s) (e : s.par.hasBusErr = false) :
    (csHigh s).Yields fun _ u => Ran 0 [⟨s.env.now + holdTime s.par, .csh false⟩] s u ∧
      u.env.now = s.env.now + holdTime s.par ∧ u.loc = { s.loc with phase := s.loc.phase + 1 } ∧
      u.pins.csN = true ∧ u.pins.cslOk = u.env.now + u.par.tCshMin ∧ u.pins.mosi = s.pins.mosi ∧
      u.pins.sck = s.pins.sck := by
  simp only [csHigh]
  refine (pass_benign b _).andThen ?_
  rintro - s1 ⟨k1, t1, b1⟩
  have e1 : s1.par.hasBusErr = false := by rw [k1.par]; exact e
  refine ⟨(), (csRise s1).1, by simp [csRise, emitRise, State.busError, e1], ?_, ?_, ?_, ?_, ?_, ?_, ?_⟩
  · have d : Ran 0 [⟨s1.env.now, .csh false⟩] s1 (csRise s1).1 := by
      constructor
      case benign => exact b1.congr (by simp [csRise, emitRise, State.busError, e1]) (by simp [csRise, emitRise])
      all_goals simp [csRise, emitRise, State.busError, e1, Env.after]
    have := (Ran.of_hostOnly k1 b1).trans d
    simpa [t1] using this
  · simpa [csRise, emitRise, State.busError, e1] using t1
  · simp [csRise, emitRise, State.busError, k1.loc]
  · simp [csRise, emitRise]
  · simp [csRise, emitRise, State.busError, e1]
  · simp [csRise, emitRise, State.busError, k1.pins]
  · simp [csRise, emitRise, State.busError, k1.pins]

/-- A phase (40_spi_framing.md R133; 70_reset_and_hazards.md R348): CS_N falls as soon as it may, the prefix slot and
the slots of the body follow, and CS_N rises `SCK_DIV * (8s + 1)` cycles after it fell. -/
theorem phaseOf_benign {α : Type} {pre : Byte} {body : State → Res α} {bs : List Byte}
    {Q : α → List Half → State → Prop} {s : State} (b : Benign s) (e : s.par.hasBusErr = false)
    (hbody : ∀ u new, Ran 1 new s u → u.pins.mosi = false → u.pins.sck = sckIdle u.par.spiMode →
      (body u).Yields fun a v => ∃ l, SlotRun bs l u v ∧ Q a l u) :
    (phaseOf pre body s).Yields fun a v =>
      ∃ l u, (∃ new, Ran 1 new s u) ∧ Q a l u ∧
      Did (bs.length + 1) (phaseEvents (pre :: bs) s.env) (max s.env.now s.pins.cslOk) v.env.now
        { s with lb := l } v ∧
      v.env.now = max s.env.now s.pins.cslOk + (16 * (bs.length + 1) + 2) * halfBit s.par ∧ AtGap v ∧
      v.loc = { s.loc with phase := s.loc.phase + 1 } := by
  simp only [phaseOf]
  refine (csLow_benign b).andThen ?_
  rintro - s1 ⟨r1, t1, l1, -, -⟩
  refine (xfer_benign pre r1.benign).andThen ?_
  rintro a1 s2 ⟨-, r2, t2, p1, p2, p3, p4, p5⟩
  have r12 := r1.trans r2
  refine (pass_benign r2.benign (slotGap s2.par)).andThen ?_
  rintro - s2' ⟨kg, tg, bg⟩
  have r12g := r12.trans (.of_hostOnly kg bg)
  rw [List.nil_append] at r12g
  have ps : s2.par = s.par := r12.par
  refine (hbody s2' _ r12g (by rw [kg.pins, p3]) (by rw [kg.pins, p4, kg.par, r2.par])).andThen ?_
  rintro a3 s3 ⟨l, ⟨⟨new, r3, ev⟩, t3, q1, q2, q3, q4, q5⟩, q⟩
  have pp : s3.par = s.par := r3.par.trans r12g.par
  refine (csHigh_benign r3.benign (by rw [pp]; exact e)).andThen ?_
  rintro - s4 ⟨r4, t4, l4, c4, o4, m4, k4⟩
  have r := ((r12g.withLb l).trans r3).trans r4
  rw [show 0 + 1 + 0 + bs.length + 0 = bs.length + 1 by omega] at r
  refine Res.yields_ok ⟨l, s2', ⟨_, r12g⟩, q, ⟨_, r, ?_, ?_, ?_⟩, ?_, ?_, ?_⟩
  · have f : slotEvents bs s2'.env = slotEvents bs s.env.takeMiso := slotEvents_congr bs r12g.miso r12g.freeDraws
    have g : s1.env.nextMiso = s.env.nextMiso := nextMiso_congr r1.miso r1.freeDraws
    simp [ev, f, g, phaseEvents, slotEvents]
  · rw [← List.append_assoc, ← List.append_assoc, List.getLast?_concat]
    rfl
  · simp [t4]
  · have := setup_gap_hold s.par
    rw [t4, pp, t3, tg, t2, t1, r12g.par, ps, r1.par]
    simp only [halfBit] at this ⊢
    have : (16 * (bs.length + 1) + 2) * (s.par.sckDiv / 2) =
      16 * (s.par.sckDiv / 2) + 16 * bs.length * (s.par.sckDiv / 2) + 2 * (s.par.sckDiv / 2) := by ring
    omega
  · refine ⟨c4, by rw [m4]; exact q3, ?_, o4⟩
    rw [k4, q4, r4.par, r3.par]
  · rw [l4, q5, kg.loc, p5, l1]

/-- The first cycle in which the next phase can begin. -/
abbrev nextFall (s : State) : Nat := max s.env.now s.pins.cslOk

theorem Did.withLb {d t0 t1 : Nat} {evs : List BusEvent} {s s' : State} (h : Did d evs t0 t1 s s')
    (l : List Half) : Did d evs t0 t1 { s with lb := l } { s' with lb := l } := by
  obtain ⟨x, r, e⟩ := h
  exact ⟨x, r.withLb l, e⟩

theorem Did.dropLb {d t0 t1 : Nat} {evs : List BusEvent} {s s' : State} {l : List Half}
    (h : Did d evs t0 t1 { s with lb := l } s')
    (e : s.seq.state = .exec → isBulkWord s.seq.cur = true → l = s.lb) : Did d evs t0 t1 s s' := by
  obtain ⟨x, r, k⟩ := h
  exact ⟨x, r.dropLb e, k⟩

theorem Did.par {d t0 t1 : Nat} {evs : List BusEvent} {s s' : State} (h : Did d evs t0 t1 s s') :
    s'.par = s.par := by
  obtain ⟨x, r, -⟩ := h
  exact r.par

theorem Did.benign {d t0 t1 : Nat} {evs : List BusEvent} {s s' : State} (h : Did d evs t0 t1 s s') :
    Benign s' := by
  obtain ⟨x, r, -⟩ := h
  exact r.benign

theorem Did.draws {d t0 t1 : Nat} {evs : List BusEvent} {s s' : State} (h : Did d evs t0 t1 s s') :
    s'.env.miso = (s.env.after d).miso ∧ s'.env.freeDraws = (s.env.after d).freeDraws := by
  obtain ⟨x, r, -⟩ := h
  exact ⟨r.miso, r.freeDraws⟩

theorem phaseEvents_congr (bs : List Byte) {e f : Env} (h : e.miso = f.miso) (g : e.freeDraws = f.freeDraws) :
    phaseEvents bs e = phaseEvents bs f := by
  unfold phaseEvents
  rw [slotEvents_congr bs h g]

/-- A slot whose byte is discarded, as the body of a phase. -/
theorem sendByte_run {s : State} (t : Byte) (b : Benign s) :
    (sendByte t s).Yields fun _ s' => ∃ l, SlotRun [t] l s s' ∧
      (s.seq.state = .exec → isBulkWord s.seq.cur = true → l = s.lb) ∧ l = s'.lb := by
  simp only [sendByte]
  refine (xfer_run t b).andThen ?_
  rintro r s' ⟨-, -, h⟩
  exact Res.yields_ok h

/-- Command phase (R135). -/
theorem cmdPhase_benign {s : State} (a : Byte) (b : Benign s) (e : s.par.hasBusErr = false) :
    (cmdPhase a s).Yields fun _ v => Did 2 (phaseEvents [0x80#8, a] s.env) (nextFall s) v.env.now s v ∧
      v.env.now = nextFall s + 34 * halfBit s.par ∧ AtGap v ∧ v.loc = { s.loc with phase := s.loc.phase + 1 } := by
  refine (phaseOf_benign (bs := [a])
    (Q := fun _ l u => u.seq.state = .exec → isBulkWord u.seq.cur = true → l = u.lb) b e ?_).mono ?_
  · intro u new r _ _
    refine (sendByte_run a r.benign).mono ?_
    rintro - v ⟨l, h, k, -⟩
    exact ⟨l, h, k⟩
  · rintro - v ⟨l, u, ⟨new, r⟩, q, d, t, g, c⟩
    refine ⟨d.dropLb ?_, t, g, c⟩
    intro x y
    have x' := (r.running x).1
    rw [q (by rw [x']; exact x) (by rw [x']; exact y), r.buffer x y]

/-- A command phase and the data phase after it (R138 to R141), with the gap of R134 between them. -/
theorem access_benign {α : Type} {a pre : Byte} {body : State → Res α} {bs : List Byte}
    {Q : α → List Half → State → Prop} {s : State} (b : Benign s) (e : s.par.hasBusErr = false)
    (hbody : ∀ u new, Ran 3 new s u → u.pins.mosi = false → u.pins.sck = sckIdle u.par.spiMode →
      (body u).Yields fun r v => ∃ l, SlotRun bs l u v ∧ Q r l u) :
    ((cmdPhase a s).andThen fun _ u => phaseOf pre body u).Yields fun r v =>
      ∃ l u, (∃ new, Ran 3 new s u) ∧ Q r l u ∧
      Did (bs.length + 3) (accessEvents a (pre :: bs) s.env) (nextFall s) v.env.now { s with lb := l } v ∧
      v.env.now = nextFall s + (16 * (bs.length + 1) + 36) * halfBit s.par + s.par.tCshMin ∧ AtGap v ∧
      v.loc = { s.loc with phase := s.loc.phase + 2 } := by
  refine (cmdPhase_benign a b e).andThen ?_
  rintro - s1 ⟨d1, t1, g1, c1⟩
  obtain ⟨n1, r1, -⟩ := id d1
  refine (phaseOf_benign (bs := bs) (Q := Q) d1.benign (by rw [d1.par]; exact e) ?_).mono ?_
  · intro u new r m k
    exact hbody u (new ++ n1) (r1.trans r) m k
  · rintro x v ⟨l, u, ⟨n2, r2⟩, q, d, t, g, c⟩
    refine ⟨l, u, ⟨_, r1.trans r2⟩, q, ?_, ?_, g, by rw [c, c1]⟩
    · have := (d1.withLb l).trans d
      rw [phaseEvents_congr _ d1.draws.1 d1.draws.2] at this
      rw [show bs.length + 3 = 2 + (bs.length + 1) by omega]
      exact this
    · have o : s1.pins.cslOk = s1.env.now + s.par.tCshMin := by rw [g1.2.2.2, d1.par]
      rw [t, o, d1.par, t1]
      rw [Nat.max_eq_right (by omega)]
      ring

/-- The cycles from the first to the last event of a register access (70_reset_and_hazards.md R349). -/
abbrev accessTime (p : Params) : Nat := 68 * halfBit p + p.tCshMin

/-- What a register access that sends `bs` in its data phase leaves. -/
structure Accessed (a : Byte) (bs : List Byte) (s v : State) : Prop where
  did : Did 4 (accessEvents a bs s.env) (nextFall s) v.env.now s v
  now : v.env.now = nextFall s + accessTime s.par
  gap : AtGap v
  loc : v.loc = { s.loc with phase := s.loc.phase + 2 }

/-- Register write (R138). -/
theorem writeReg_benign {s : State} (a x : Byte) (b : Benign s) (e : s.par.hasBusErr = false) :
    (writeReg a x s).Yields fun _ v => Accessed a [0x00#8, x] s v := by
  simp only [writeReg, dataWrite]
  refine (access_benign (bs := [x])
    (Q := fun _ l u => u.seq.state = .exec → isBulkWord u.seq.cur = true → l = u.lb) b e ?_).mono ?_
  · intro u new r _ _
    refine (sendByte_run x r.benign).mono ?_
    rintro - v ⟨l, h, k, -⟩
    exact ⟨l, h, k⟩
  · rintro - v ⟨l, u, ⟨new, r⟩, q, d, t, g, c⟩
    refine ⟨d.dropLb ?_, by rw [t]; simp [accessTime]; ring, g, c⟩
    intro x y
    have x' := (r.running x).1
    rw [q (by rw [x']; exact x) (by rw [x']; exact y), r.buffer x y]

/-- Register read (R139): the fourth answer from here. -/
theorem readReg_benign {s : State} (a : Byte) (b : Benign s) (e : s.par.hasBusErr = false) :
    (readReg a s).Yields fun r v => r = s.env.answer 3 ∧ Accessed a [0x40#8, s.par.readFill] s v := by
  simp only [readReg, dataRead]
  refine (access_benign (bs := [s.par.readFill])
    (Q := fun r l u => (u.seq.state = .exec → isBulkWord u.seq.cur = true → l = u.lb) ∧ r = u.env.nextMiso)
    b e ?_).mono ?_
  · intro u new r _ _
    simp only [recvByte]
    rw [r.par]
    refine (xfer_run s.par.readFill r.benign).mono ?_
    rintro w v ⟨w1, -, l, h, k, -⟩
    exact ⟨l, h, k, w1⟩
  · rintro w v ⟨l, u, ⟨new, r⟩, ⟨q, w1⟩, d, t, g, c⟩
    refine ⟨?_, d.dropLb ?_, by rw [t]; simp [accessTime]; ring, g, c⟩
    · rw [w1]
      exact nextMiso_congr r.miso r.freeDraws
    · intro x y
      have x' := (r.running x).1
      rw [q (by rw [x']; exact x) (by rw [x']; exact y), r.buffer x y]

theorem after_busErr (n : Nat) : ∀ e : Env, (e.after n).busErr = e.busErr := by
  induction n with
  | zero => intro e; rfl
  | succ n ih => intro e; simp only [Env.after, ih]; unfold Env.takeMiso; split <;> rfl

/-- A phase that ends with a bus error raises BUS_FAULT with its index (40_spi_framing.md R143). -/
theorem csHigh_error {s : State} (b : Benign s) (e : s.par.hasBusErr = true) (n : s.env.nextBusErr = true) :
    ∃ u, csHigh s = .raise .busFault (phaseDetail s.loc.phase) u ∧ u.bus = s.bus ++ [.csh true] ∧
      u.csr.rdata = s.csr.rdata ∧ u.seq.cur = s.seq.cur ∧ u.loc.step = s.loc.step ∧
      (s.seq.state = .exec → u.seq = s.seq) := by
  simp only [csHigh]
  obtain ⟨z, s1, e1, k1, t1, b1⟩ := pass_benign b (holdTime s.par)
  have p1 : s1.par.hasBusErr = true := by rw [k1.par]; exact e
  have n1 : s1.env.nextBusErr = true := by simp only [Env.nextBusErr, k1.busErr, k1.freeDraws]; exact n
  refine ⟨(csRise s1).1, ?_, ?_, k1.rdata, k1.cur, by have := k1.loc; simp [csRise, emitRise, State.busError, this],
    fun x => (k1.running x).1⟩
  · rw [e1]; simp [csRise, emitRise, State.busError, p1, n1, k1.loc]
  · have : s1.env.takeBusErr.trace = s1.env.trace := by unfold Env.takeBusErr; split <;> rfl
    simp [csRise, emitRise, State.busError, p1, n1, State.bus, k1.trace, this]

/-- A command phase that ends with a bus error. -/
theorem cmdPhase_error {s : State} (a : Byte) (b : Benign s) (e : s.par.hasBusErr = true)
    (n : (s.env.after 2).nextBusErr = true) :
    ∃ u, cmdPhase a s = .raise .busFault (phaseDetail s.loc.phase) u ∧
      u.bus = s.bus ++ .csl :: slotEvents [0x80#8, a] s.env ++ [.csh true] ∧ u.csr.rdata = s.csr.rdata ∧
      u.loc.step = s.loc.step ∧ u.seq.cur = s.seq.cur ∧ (s.seq.state = .exec → u.seq = s.seq) := by
  simp only [cmdPhase, phaseOf, sendByte]
  obtain ⟨z1, s1, e1, r1, t1, l1, -, -⟩ := csLow_benign b
  obtain ⟨z2, s2, e2, -, r2, t2, p1, p2, p3, p4, p5⟩ := xfer_benign 0x80#8 r1.benign
  obtain ⟨zg, sg, eg, kg, tg, bg⟩ := pass_benign r2.benign (slotGap s2.par)
  have r12 := (r1.trans r2).trans (Ran.of_hostOnly kg bg)
  obtain ⟨z3, s3, e3, -, r3, t3, q1, q2, q3, q4, q5⟩ := xfer_benign a bg
  have r := r12.trans r3
  have pp : s3.par = s.par := r.par
  have ne : s3.env.nextBusErr = true := by
    have h1 := r.busErr
    have h2 := r.freeDraws
    rw [← n]
    simp only [Env.nextBusErr, h1, h2, after_busErr]
  obtain ⟨u, eu, bu, ru, cu, su, xu⟩ := csHigh_error r3.benign (by rw [pp]; exact e) ne
  refine ⟨u, ?_, ?_, ru.trans r.rdata, su.trans r.step, cu.trans r.cur, fun x => ?_⟩
  · simp only [e1, e2, eg, e3, Res.ok_andThen, eu, Res.raise_andThen, q5, kg.loc, p5, l1]
  · rw [bu]
    have m1 : s1.env.nextMiso = s.env.nextMiso := nextMiso_congr r1.miso r1.freeDraws
    have m2 : sg.env.nextMiso = s.env.takeMiso.nextMiso := nextMiso_congr r12.miso r12.freeDraws
    simp [State.bus, r.trace, slotEvents, m1, m2]
  · have := (r.running x).1
    rw [xu (by rw [this]; exact x), this]

end Sys2Proof.Machine
end

