-- ==== Sys2Proof/Laws/Stable.lean ====
section
/-! SUPPORT. A property of the state that every piece of a phase keeps is kept by every bus primitive, whatever the
device answers and the host does: proved once here for all of them. -/

namespace Sys2Proof.Machine

/-- What a result can be: it ends or raises in a state that meets `P`, a block reset leaves one that meets `C`, and
it stops only if `S`. -/
def Res.Sat {α : Type} (r : Res α) (P : State → Prop) (C : State → Prop) (S : Prop) : Prop :=
  match r with
  | .ok _ s => P s
  | .raise _ _ s => P s
  | .cut s => C s
  | .stop _ => S

theorem Res.Sat.andThen {α β : Type} {r : Res α} {f : α → State → Res β} {P P' C : State → Prop} {S : Prop}
    (h : r.Sat P C S) (hf : ∀ a s, r = .ok a s → P s → (f a s).Sat P' C S)
    (hr : ∀ s, P s → (∀ a, r ≠ .ok a s) → P' s) : (r.andThen f).Sat P' C S := by
  cases r with
  | ok a s => exact hf a s rfl h
  | raise c d s => exact hr s h (fun a => by simp)
  | cut s => exact h
  | stop x => exact h

theorem Res.Sat.mono {α : Type} {r : Res α} {P P' C : State → Prop} {S : Prop} (h : r.Sat P C S)
    (hp : ∀ s, P s → P' s) : r.Sat P' C S := by
  cases r with
  | ok a s => exact hp s h
  | raise c d s => exact hp s h
  | cut s => exact h
  | stop x => exact h

/-- Where a running phase is. -/
inductive Stage where
  /-- CS_N is 1 -/
  | gap
  /-- CS_N has fallen and no slot has begun -/
  | opened
  /-- in the prefix slot -/
  | prefixing
  /-- between two slots, after the prefix slot -/
  | between
  /-- in a slot after the prefix slot -/
  | shifting
  deriving DecidableEq, Repr

/-- The stage in which the bits of a slot go out. -/
def Stage.inSlot : Stage → Stage
  | .gap => .shifting
  | .opened => .prefixing
  | .prefixing => .prefixing
  | .between => .shifting
  | .shifting => .shifting

/-- The state at the end of a slot that sent `t` and received `r`. -/
abbrev endSlot (t r : Byte) (s : State) : State :=
  emit (.x t r) (drive (sckIdle s.par.spiMode) false { s with env := s.env.takeMiso })

/-- `P` holds of the state at every instant of a command, by its stage. -/
structure BusLaw (P : Stage → State → Prop) (C : State → Prop) (S : Prop) : Prop where
  time : ∀ g n s, (∀ r rest, s.env.host = r :: rest → s.env.now + n ≤ hostTime r s) → P g s → P g (tick n s)
  host : ∀ g r rest s s', P g s → s.env.host = r :: rest → takeHost r rest s = .done s' → P g s'
  reset : ∀ g r rest s s', P g s → s.env.host = r :: rest → takeHost r rest s = .reset s' → C s'
  stop : ∀ g r rest s x, P g s → s.env.host = r :: rest → takeHost r rest s = .stop x → S
  fall : ∀ s, P .gap s → s.pins.cslOk ≤ s.env.now →
    P .opened (emit .csl { s with pins := { s.pins with csN := false } })
  drive : ∀ g a b s, g ≠ .gap → P g s → P g.inSlot (drive a b s)
  endFirst : ∀ t r s, t = 0x80#8 ∨ t = 0x00#8 ∨ t = 0x40#8 → P .prefixing s → P .between (endSlot t r s)
  endNext : ∀ t r s, P .shifting s → P .between (endSlot t r s)
  rise : ∀ s, P .between s → P .gap (csRise s).1
  loc : ∀ s l, l.step = s.loc.step → P .gap s → P .gap { s with loc := l }

variable {P : Stage → State → Prop} {C : State → Prop} {S : Prop}

/-- A done action is a read or write that the port took. -/
theorem takeHost_done {r : HostReq} {rest : List HostReq} {s s' : State} (h : takeHost r rest s = .done s') :
    HostOnly s s' ∧ s'.env.now = s.env.now ∧ s'.env.host = rest := by
  have b : r.benign s.par.rsqBase = true := by
    unfold takeHost hostOp at h
    cases e : r.op with
    | read addr size =>
      simp only [e] at h
      split at h
      · cases h
      · rename_i q
        simpa [HostReq.benign, e] using q
    | write addr size v =>
      simp only [e] at h
      split at h
      · cases h
      · rename_i q
        simpa [HostReq.benign, e] using q
    | blockReset low =>
      simp only [e] at h
      cases h
  obtain ⟨t, e, k, n, l⟩ := takeHost_benign (rest := rest) b
  rw [h] at e
  cases e
  exact ⟨k, n, l⟩

/-- `Q` holds at every instant of a stretch of time. -/
structure TimeLaw (Q : State → Prop) (C : State → Prop) (S : Prop) : Prop where
  time : ∀ n s, (∀ r rest, s.env.host = r :: rest → s.env.now + n ≤ hostTime r s) → Q s → Q (tick n s)
  host : ∀ r rest s s', Q s → s.env.host = r :: rest → takeHost r rest s = .done s' → Q s'
  reset : ∀ r rest s s', Q s → s.env.host = r :: rest → takeHost r rest s = .reset s' → C s'
  stop : ∀ r rest s x, Q s → s.env.host = r :: rest → takeHost r rest s = .stop x → S

theorem BusLaw.timeLaw (L : BusLaw P C S) (g : Stage) : TimeLaw (P g) C S :=
  ⟨L.time g, L.host g, L.reset g, L.stop g⟩

theorem TimeLaw.passWith_now {Q : State → Prop} (L : TimeLaw Q C S) (l : List HostReq) : ∀ (n : Nat) (s : State),
    s.env.host = l → Q s → (passWith l n s).Sat (fun t => Q t ∧ t.env.now = s.env.now + n ∧ HostOnly s t) C S := by
  induction l with
  | nil =>
    intro n s e h
    exact ⟨L.time n s (fun r rest q => by rw [e] at q; cases q) h, rfl, hostOnly_tick n s⟩
  | cons r rest ih =>
    intro n s e h
    simp only [passWith]
    split
    · rename_i due
      have le : s.env.now ≤ hostTime r s := by unfold hostTime; exact le_max_left _ _
      have hd := L.time (hostTime r s - s.env.now) s
        (fun r' rest' q => by rw [e] at q; cases q; omega) h
      split
      · rename_i s' q
        have t1 := (takeHost_done q).2.1
        refine (ih _ s' (takeHost_done q).2.2 (L.host r rest _ s' hd (by simpa using e) q)).mono ?_
        rintro t ⟨p, t2, k2⟩
        refine ⟨p, ?_, ((hostOnly_tick _ s).trans (takeHost_done q).1).trans k2⟩
        rw [t2, t1]
        simp only [tick_env_now]
        omega
      · rename_i s' q
        exact L.reset r rest _ s' hd (by simpa using e) q
      · rename_i x q
        exact L.stop r rest _ x hd (by simpa using e) q
    · rename_i due
      exact ⟨L.time n s (fun r' rest' q => by rw [e] at q; cases q; omega) h, rfl, hostOnly_tick n s⟩

theorem TimeLaw.pass_sat {Q : State → Prop} (L : TimeLaw Q C S) {s : State} (h : Q s) (n : Nat) :
    (Machine.pass n s).Sat Q C S := (L.passWith_now _ n s rfl h).mono fun _ q => q.1

theorem TimeLaw.waitMs_sat {Q : State → Prop} (L : TimeLaw Q C S)
    (loc : ∀ u l, l.step = u.loc.step → Q u → Q { u with loc := l }) {s : State} (h : Q s) (d : Nat) :
    (waitMs d s).Sat Q C S := by
  unfold waitMs
  have k := L.pass_sat (loc s { s.loc with waitEnd := s.env.now + d * s.par.clkPerMs } rfl h) (d * s.par.clkPerMs)
  generalize Machine.pass _ _ = r at k ⊢
  cases r with
  | ok a u => exact loc u { u.loc with waitEnd := 0 } rfl k
  | raise c e u => exact k
  | cut u => exact k
  | stop x => exact k

theorem BusLaw.pass_now (L : BusLaw P C S) {g : Stage} {s : State} (h : P g s) (n : Nat) :
    (pass n s).Sat (fun t => P g t ∧ t.env.now = s.env.now + n ∧ HostOnly s t) C S :=
  (L.timeLaw g).passWith_now _ n s rfl h

theorem pass_no_raise {n : Nat} {s t : State} {c : ErrCode} {d : Half} : pass n s ≠ .raise c d t := by
  unfold pass
  generalize s.env.host = l
  induction l generalizing n s with
  | nil => simp [passWith]
  | cons r rest ih =>
    simp only [passWith]
    split
    · split
      · exact ih
      · simp
      · simp
    · simp

/-- After some cycles. -/
theorem BusLaw.pass_then (L : BusLaw P C S) {β : Type} {g : Stage} {s : State} (h : P g s) (n : Nat)
    {f : State → Res β} {P' : State → Prop}
    (hf : ∀ t, P g t → t.env.now = s.env.now + n ∧ HostOnly s t → (f t).Sat P' C S) :
    ((pass n s).andThen fun _ t => f t).Sat P' C S := by
  have hp := L.pass_now h n
  generalize e : pass n s = r at hp
  cases r with
  | ok a t => exact hf t hp.1 hp.2
  | raise c d t => exact absurd e pass_no_raise
  | cut t => exact hp
  | stop x => exact hp

theorem BusLaw.pass_sat (L : BusLaw P C S) {g : Stage} {s : State} (h : P g s) (n : Nat) :
    (pass n s).Sat (P g) C S := (L.pass_now h n).mono fun _ q => q.1

theorem BusLaw.waitMs_sat (L : BusLaw P C S) {s : State} (h : P .gap s) (d : Nat) :
    (waitMs d s).Sat (P .gap) C S := by
  unfold waitMs
  exact L.pass_then (L.loc s { s.loc with waitEnd := s.env.now + d * s.par.clkPerMs } rfl h) _
    fun t p _ => L.loc _ _ rfl p

/-- A piece of a phase that keeps the stage `between`; it never raises there. -/
def Res.InPhase {α : Type} (P : Stage → State → Prop) (C : State → Prop) (S : Prop) (r : Res α) : Prop :=
  r.Sat (P .between) C S ∧ ∀ c d s, r ≠ .raise c d s

theorem Res.InPhase.andThen {α β : Type} {r : Res α} {f : α → State → Res β} (h : r.InPhase P C S)
    (hf : ∀ a s, P .between s → (f a s).InPhase P C S) : (r.andThen f).InPhase P C S := by
  obtain ⟨h, n⟩ := h
  cases r with
  | ok a s => exact hf a s h
  | raise c d s => exact absurd rfl (n c d s)
  | cut s => exact ⟨h, by simp⟩
  | stop x => exact ⟨h, by simp⟩

/-- Time between two slots. -/
theorem BusLaw.pass_inPhase (L : BusLaw P C S) {s : State} (h : P .between s) (n : Nat) :
    (pass n s).InPhase P C S := ⟨L.pass_sat h n, fun _ _ _ => pass_no_raise⟩

theorem BusLaw.shiftOut_sat (L : BusLaw P C S) (bs : List Bool) : ∀ {g : Stage} {s : State},
    g ≠ .gap → P g s → (shiftOut bs s).Sat (P (if bs = [] then g else g.inSlot)) C S := by
  induction bs with
  | nil => intro g s _ h; simpa [shiftOut, Res.Sat] using h
  | cons b rest ih =>
    intro g s n h
    have m : g.inSlot ≠ .gap := by cases g <;> simp [Stage.inSlot] at *
    have i : g.inSlot.inSlot = g.inSlot := by cases g <;> rfl
    simp only [shiftOut]
    refine L.pass_then (L.drive g _ b s n h) _ fun t p _ => ?_
    refine L.pass_then (L.drive _ _ b t m p) _ fun t' p' _ => ?_
    rw [i] at p'
    refine (ih m p').mono fun v q => ?_
    simp only [i, ite_self] at q
    simpa using q

theorem shiftOut_no_raise (bs : List Bool) : ∀ {s t : State} {c : ErrCode} {d : Half},
    shiftOut bs s ≠ .raise c d t := by
  induction bs with
  | nil => intros; simp [shiftOut]
  | cons b rest ih =>
    intro s t c d
    simp only [shiftOut]
    generalize e : pass _ _ = r
    cases r with
    | ok a u =>
      simp only [Res.ok_andThen]
      generalize e' : pass _ _ = r'
      cases r' with
      | ok a' u' => exact ih
      | raise c d t => exact absurd e' pass_no_raise
      | cut t => simp
      | stop x => simp
    | raise c d t => exact absurd e pass_no_raise
    | cut t => simp
    | stop x => simp

theorem toWire_ne_nil (o : BitOrder) (t : Byte) : toWire o t ≠ [] := by
  simp [toWire]

theorem xfer_no_raise {t : Byte} {s u : State} {c : ErrCode} {d : Half} :
    xfer t s ≠ .raise c d u := by
  unfold xfer
  generalize e : shiftOut _ _ = r
  cases r with
  | ok a v => simp
  | raise c d v => exact absurd e (shiftOut_no_raise _)
  | cut v => simp
  | stop x => simp

/-- The prefix slot. -/
theorem BusLaw.prefix_sat (L : BusLaw P C S) {s : State} {t : Byte} (ht : t = 0x80#8 ∨ t = 0x00#8 ∨ t = 0x40#8)
    (h : P .opened s) : (xfer t s).InPhase P C S := by
  refine ⟨?_, fun c d u => xfer_no_raise⟩
  have hs := L.shiftOut_sat (toWire s.par.bitOrder t) (g := .opened) (by simp) h
  unfold xfer
  generalize e : shiftOut _ _ = r at hs ⊢
  simp only [toWire_ne_nil, if_false] at hs
  cases r with
  | ok a u => exact L.endFirst t _ u ht hs
  | raise c d u => exact absurd e (shiftOut_no_raise _)
  | cut u => exact hs
  | stop x => exact hs

/-- A later slot. -/
theorem BusLaw.xfer_sat (L : BusLaw P C S) {s : State} (t : Byte) (h : P .between s) :
    (xfer t s).InPhase P C S := by
  refine ⟨?_, fun c d u => xfer_no_raise⟩
  have hs := L.shiftOut_sat (toWire s.par.bitOrder t) (g := .between) (by simp) h
  unfold xfer
  generalize e : shiftOut _ _ = r at hs ⊢
  simp only [toWire_ne_nil, if_false] at hs
  cases r with
  | ok a u => exact L.endNext t _ u hs
  | raise c d u => exact absurd e (shiftOut_no_raise _)
  | cut u => exact hs
  | stop x => exact hs

theorem Res.inPhase_ok {α : Type} {a : α} {s : State} (h : P .between s) : (Res.ok a s).InPhase P C S :=
  ⟨h, by simp⟩

theorem BusLaw.sendByte_sat (L : BusLaw P C S) {s : State} (t : Byte) (h : P .between s) :
    (sendByte t s).InPhase P C S := (L.xfer_sat t h).andThen fun _ _ p => Res.inPhase_ok p

theorem BusLaw.recvByte_sat (L : BusLaw P C S) {s : State} (h : P .between s) : (recvByte s).InPhase P C S :=
  L.xfer_sat _ h

theorem BusLaw.csLow_then (L : BusLaw P C S) {β : Type} {s : State} (h : P .gap s) {f : State → Res β}
    {P' : State → Prop} (hf : ∀ t, P .opened t → (f t).Sat P' C S) :
    ((csLow s).andThen fun _ t => f t).Sat P' C S := by
  unfold csLow
  rw [Res.andThen_assoc]
  refine L.pass_then h _ fun t p e => ?_
  exact L.pass_then (L.fall t p (by rw [e.1, e.2.pins]; omega)) _ fun u q _ => hf u q

theorem BusLaw.csHigh_sat (L : BusLaw P C S) {s : State} (h : P .between s) : (csHigh s).Sat (P .gap) C S := by
  unfold csHigh
  refine L.pass_then h _ fun t p _ => ?_
  have := L.rise t p
  generalize csRise t = r at this ⊢
  obtain ⟨u, e⟩ := r
  cases e <;> exact this

/-- A phase keeps the property, if its body does. -/
theorem BusLaw.phaseOf_sat (L : BusLaw P C S) {α : Type} {pre : Byte} {body : State → Res α}
    (hp : pre = 0x80#8 ∨ pre = 0x00#8 ∨ pre = 0x40#8)
    (hbody : ∀ u, P .between u → (body u).InPhase P C S) {s : State} (h : P .gap s) :
    (phaseOf pre body s).Sat (P .gap) C S := by
  unfold phaseOf
  refine L.csLow_then h fun t q => ?_
  have h1 := (L.prefix_sat hp q).andThen (f := fun _ u => (pass (slotGap u.par) u).andThen fun _ u => body u)
    fun _ u p => (L.pass_inPhase p _).andThen fun _ u p => hbody u p
  simp only [← Res.andThen_assoc] at h1 ⊢
  generalize Res.andThen (Res.andThen (xfer pre t) _) _ = r at h1 ⊢
  obtain ⟨h1, n⟩ := h1
  cases r with
  | ok a u =>
    have h2 := L.csHigh_sat h1
    simp only [Res.ok_andThen]
    generalize csHigh u = r at h2 ⊢
    cases r <;> exact h2
  | raise c d u => exact absurd rfl (n c d u)
  | cut u => exact h1
  | stop x => exact h1

theorem BusLaw.cmdPhase_sat (L : BusLaw P C S) {s : State} (a : Byte) (h : P .gap s) :
    (cmdPhase a s).Sat (P .gap) C S :=
  L.phaseOf_sat (by simp) (fun _ p => L.sendByte_sat a p) h

/-- One piece after another, both at a gap. -/
theorem Res.Sat.then {α β : Type} {r : Res α} {f : α → State → Res β} {P C : State → Prop} {S : Prop}
    (h : r.Sat P C S) (hf : ∀ a s, P s → (f a s).Sat P C S) : (r.andThen f).Sat P C S := by
  cases r with
  | ok a s => exact hf a s h
  | raise c d s => exact h
  | cut s => exact h
  | stop x => exact h

theorem BusLaw.writeReg_sat (L : BusLaw P C S) {s : State} (a v : Byte) (h : P .gap s) :
    (writeReg a v s).Sat (P .gap) C S :=
  (L.cmdPhase_sat a h).then fun _ _ p => L.phaseOf_sat (by simp) (fun _ q => L.sendByte_sat v q) p

theorem BusLaw.readReg_sat (L : BusLaw P C S) {s : State} (a : Byte) (h : P .gap s) :
    (readReg a s).Sat (P .gap) C S :=
  (L.cmdPhase_sat a h).then fun _ _ p => L.phaseOf_sat (by simp) (fun _ q => L.recvByte_sat q) p

theorem BusLaw.writePair_sat (L : BusLaw P C S) {s : State} (a : Byte) (d : Half) (h : P .gap s) :
    (writePair a d s).Sat (P .gap) C S :=
  (L.writeReg_sat a _ h).then fun _ _ p => L.writeReg_sat _ _ p

theorem BusLaw.sendPixels_sat (L : BusLaw P C S) (n : Nat) : ∀ (i : Nat) {s : State}, P .between s →
    (sendPixels i n s).InPhase P C S := by
  induction n with
  | zero => intro i s h; exact Res.inPhase_ok h
  | succ n ih =>
    intro i s h
    exact (L.sendByte_sat _ h).andThen fun _ _ p => (L.sendByte_sat _ p).andThen fun _ _ q => ih _ q

theorem BusLaw.streamWrite_sat (L : BusLaw P C S) {s : State} (a : Byte) (n : Nat) (h : P .gap s) :
    (streamWrite a (sendPixels 0 n) s).Sat (P .gap) C S :=
  (L.cmdPhase_sat a h).then fun _ _ p => L.phaseOf_sat (by simp) (fun _ q => L.sendPixels_sat n 0 q) p

theorem BusLaw.recvDummies_sat (L : BusLaw P C S) (n : Nat) : ∀ {s : State}, P .between s →
    (recvDummies n s).InPhase P C S := by
  induction n with
  | zero => intro s h; exact Res.inPhase_ok h
  | succ n ih => intro s h; exact (L.recvByte_sat h).andThen fun _ _ p => ih p

/-- Pixels received, if writing line-buffer entries `i` to `i + n - 1` keeps the property. -/
theorem BusLaw.recvPixels_sat (L : BusLaw P C S) (n : Nat) : ∀ (i : Nat) {s : State},
    (∀ j v u, i ≤ j → j < i + n → P .between u → P .between (setLb j v u)) → P .between s →
    (recvPixels i n s).InPhase P C S := by
  induction n with
  | zero => intro i s _ h; exact Res.inPhase_ok h
  | succ n ih =>
    intro i s hw h
    refine (L.recvByte_sat h).andThen fun _ _ p => (L.recvByte_sat p).andThen fun _ _ q => ?_
    exact ih _ (fun j v u a b => hw j v u (by omega) (by omega)) (hw i _ _ (le_refl i) (by omega) q)

theorem BusLaw.streamRead_sat (L : BusLaw P C S) {s : State} (a : Byte) (n : Nat)
    (hw : ∀ j v u, j < n → P .between u → P .between (setLb j v u)) (h : P .gap s) :
    (streamRead a (recvPixels 0 n) s).Sat (P .gap) C S :=
  (L.cmdPhase_sat a h).then fun _ _ p => L.phaseOf_sat (by simp)
    (fun _ q => (L.recvDummies_sat _ q).andThen fun _ _ r =>
      L.recvPixels_sat n 0 (fun j v u _ b => hw j v u (by omega)) r) p

/-- A wait loop, if writing RDATA keeps the property. -/
theorem BusLaw.waitLoop_sat (L : BusLaw P C S) (hr : ∀ r u, P .gap u → P .gap (setRdata r u)) (a m : Byte)
    (i n : Nat) : ∀ {s : State}, P .gap s → (waitLoop a m i n s).Sat (P .gap) C S := by
  induction n with
  | zero => intro s h; exact h
  | succ n ih =>
    intro s h
    refine (L.readReg_sat a h).then fun r u p => ?_
    have q := hr r _ (L.loc u { u.loc with polls := u.loc.polls + 1 } rfl p)
    simp only
    split
    · exact q
    · split
      · exact q
      · exact (L.waitMs_sat q i).then fun _ _ w => ih w

theorem BusLaw.readToRdata_sat (L : BusLaw P C S) (hr : ∀ r u, P .gap u → P .gap (setRdata r u)) {s : State}
    (a : Byte) (h : P .gap s) : (readToRdata a s).Sat (P .gap) C S :=
  (L.readReg_sat a h).then fun r u p => hr r u p

/-- An entry of a table, if writing RDATA keeps the property. -/
theorem BusLaw.runEntry_sat (L : BusLaw P C S) (hr : ∀ r u, P .gap u → P .gap (setRdata r u)) (e : InitEntry)
    {s : State} (h : P .gap s) : (runEntry e s).Sat (P .gap) C S := by
  unfold runEntry
  split
  · exact L.writeReg_sat _ _ h
  · exact L.writePair_sat _ _ h
  · exact L.waitLoop_sat hr _ _ _ _ h
  · exact L.waitMs_sat h _

/-- A table, if writing RDATA and the entry index keeps the property. -/
theorem BusLaw.runTable_sat (L : BusLaw P C S) (hr : ∀ r u, P .gap u → P .gap (setRdata r u))
    (hl : ∀ l u, P .gap u → P .gap { u with loc := l }) (t : List InitEntry) : ∀ (i : Nat) {s : State},
    P .gap s → (runTable t i s).Sat (P .gap) C S := by
  induction t with
  | nil => intro i s h; exact h
  | cons e rest ih =>
    intro i s h
    exact (L.runEntry_sat hr e (hl { s.loc with step := i, polls := 0 } s h)).then fun _ _ p => ih _ p

/-- What a result can be, where a normal end leaves `E` and a raise leaves `R`. -/
def Res.Ends {α : Type} (r : Res α) (E R C : State → Prop) (S : Prop) : Prop :=
  match r with
  | .ok _ s => E s
  | .raise _ _ s => R s
  | .cut s => C s
  | .stop _ => S

theorem Res.Sat.ends {α β : Type} {r : Res α} {f : α → State → Res β} {P E R : State → Prop} (h : r.Sat P C S)
    (hr : ∀ s, P s → R s) (hf : ∀ a s, P s → (f a s).Ends E R C S) : (r.andThen f).Ends E R C S := by
  cases r with
  | ok a s => exact hf a s h
  | raise c d s => exact hr s h
  | cut s => exact h
  | stop x => exact h

/-- A poll sequence: `P0` holds up to the touch test, `P1` while the coordinates are read, `P2` after the commit
(44_touch_sampler.md R236). -/
theorem pollSequence_ends {P0 P1 P2 : Stage → State → Prop} {E R : State → Prop} (L0 : BusLaw P0 C S)
    (L1 : BusLaw P1 C S) (L2 : BusLaw P2 C S) (c0 c1 : Word) (enter : ∀ u, P0 .gap u → P1 .gap (enterTouched u))
    (commit : ∀ x y u, P1 .gap u → P2 .gap (commitSample x y u)) (release : ∀ u, P0 .gap u → E (releaseStep u))
    (act : ∀ u, P2 .gap u → E (setTpollAct false u)) (r0 : ∀ u, P0 .gap u → R u) (r1 : ∀ u, P1 .gap u → R u)
    (r2 : ∀ u, P2 .gap u → R u) {s : State} (h : P0 .gap s) : (pollSequence c0 c1 s).Ends E R C S := by
  unfold pollSequence
  refine (L0.readReg_sat _ h).ends r0 fun r u p => ?_
  split
  · have k : (readCoords c0 c1 (enterTouched u)).Sat (P1 .gap) C S := by
      refine (L1.readReg_sat _ (enter u p)).then fun _ _ q => ?_
      refine (L1.readReg_sat _ q).then fun _ _ q => ?_
      exact (L1.readReg_sat _ q).then fun _ _ q => q
    refine k.ends r1 fun xy v q => ?_
    refine (L2.pass_sat (commit _ _ v q) 1).ends r2 fun _ _ w => ?_
    exact (L2.writeReg_sat _ _ w).ends r2 fun _ z k => act z k
  · exact release u p

theorem waitMs_no_raise {d : Nat} {s t : State} {c : ErrCode} {e : Half} : waitMs d s ≠ .raise c e t := by
  unfold waitMs
  generalize h : pass _ _ = r
  cases r with
  | ok a u => simp
  | raise c e u => exact absurd h pass_no_raise
  | cut u => simp
  | stop x => simp

/-- The reset pulse, if `Q` holds while RST_N is low. -/
theorem BusLaw.resetPulse_sat (L : BusLaw P C S) {Q : State → Prop} (T : TimeLaw Q C S) {s : State}
    (low : ∀ u, P .gap u → Q (rstLow u)) (loc : ∀ u l, l.step = u.loc.step → Q u → Q { u with loc := l })
    (high : ∀ u, Q u → P .gap (rstHigh u)) (h : P .gap s) : (resetPulse s).Sat (P .gap) C S := by
  unfold resetPulse
  have h1 := T.waitMs_sat loc (low s h) s.par.tRstLowMs
  generalize e : waitMs _ _ = r at h1 ⊢
  cases r with
  | ok a u => exact L.waitMs_sat (high u h1) _
  | raise c d u => exact absurd e waitMs_no_raise
  | cut u => exact h1
  | stop x => exact h1

/-- A poll sequence, if its own steps keep the property. -/
theorem BusLaw.pollSequence_sat (L : BusLaw P C S) (c0 c1 : Word)
    (enter : ∀ u, P .gap u → P .gap (enterTouched u)) (commit : ∀ x y u, P .gap u → P .gap (commitSample x y u))
    (release : ∀ u, P .gap u → P .gap (releaseStep u)) (act : ∀ u, P .gap u → P .gap (setTpollAct false u))
    {s : State} (h : P .gap s) : (pollSequence c0 c1 s).Sat (P .gap) C S := by
  unfold pollSequence
  refine (L.readReg_sat _ h).then fun r u p => ?_
  split
  · refine Res.Sat.then ?_ fun xy v q => ?_
    · refine (L.readReg_sat _ (enter u p)).then fun _ _ q => ?_
      refine (L.readReg_sat _ q).then fun _ _ q => ?_
      exact (L.readReg_sat _ q).then fun _ _ q => q
    · refine (L.pass_sat (commit _ _ v q) 1).then fun _ _ w => ?_
      exact (L.writeReg_sat _ _ w).then fun _ z k => act z k
  · exact release u p

/-! ### Which error codes execution raises -/

/-- A piece of a command raises BUS_FAULT or HW_FAULT or nothing (60_exceptions.md R304, R306). -/
def Res.Codes {α : Type} (r : Res α) : Prop := ∀ c d s, r = .raise c d s → c = .busFault ∨ c = .hwFault

theorem Res.Codes.andThen {α β : Type} {r : Res α} {f : α → State → Res β} (h : r.Codes)
    (hf : ∀ a s, (f a s).Codes) : (r.andThen f).Codes := by
  cases r with
  | ok a s => exact hf a s
  | raise c d s => intro c' d' s' e; cases e; exact h c d s rfl
  | cut s => intro c d s' e; cases e
  | stop x => intro c d s' e; cases e

theorem Res.codes_ok {α : Type} (a : α) (s : State) : (Res.ok a s).Codes := fun _ _ _ e => by cases e

theorem pass_codes (n : Nat) (s : State) : (pass n s).Codes := fun _ _ _ e => absurd e pass_no_raise

theorem waitMs_codes (d : Nat) (s : State) : (waitMs d s).Codes := fun _ _ _ e => absurd e waitMs_no_raise

theorem xfer_codes (t : Byte) (s : State) : (xfer t s).Codes := fun _ _ _ e => absurd e xfer_no_raise

theorem csHigh_codes (s : State) : (csHigh s).Codes := by
  unfold csHigh
  refine (pass_codes _ _).andThen fun _ t c d u e => ?_
  split at e
  · injection e with e; exact .inl e.symm
  · cases e

theorem phaseOf_codes {α : Type} (pre : Byte) {body : State → Res α} (h : ∀ s, (body s).Codes) (s : State) :
    (phaseOf pre body s).Codes := by
  unfold phaseOf
  refine Res.Codes.andThen ?_ fun _ u => (xfer_codes _ u).andThen fun _ u =>
    (pass_codes _ u).andThen fun _ u => (h u).andThen fun _ u =>
    (csHigh_codes u).andThen fun _ u => Res.codes_ok _ u
  unfold csLow
  exact (pass_codes _ _).andThen fun _ u => pass_codes _ _

theorem sendByte_codes (t : Byte) (s : State) : (sendByte t s).Codes :=
  (xfer_codes t s).andThen fun _ u => Res.codes_ok _ u

theorem writeReg_codes (a v : Byte) (s : State) : (writeReg a v s).Codes :=
  (phaseOf_codes _ (sendByte_codes a) s).andThen fun _ u => phaseOf_codes _ (sendByte_codes v) u

theorem readReg_codes (a : Byte) (s : State) : (readReg a s).Codes :=
  (phaseOf_codes _ (sendByte_codes a) s).andThen fun _ u => phaseOf_codes _ (fun u => xfer_codes _ u) u

theorem writePair_codes (a : Byte) (d : Half) (s : State) : (writePair a d s).Codes :=
  (writeReg_codes a _ s).andThen fun _ u => writeReg_codes _ _ u

theorem sendPixels_codes (n : Nat) : ∀ (i : Nat) (s : State), (sendPixels i n s).Codes := by
  induction n with
  | zero => intro i s; exact Res.codes_ok _ s
  | succ n ih =>
    intro i s
    exact (sendByte_codes _ s).andThen fun _ u => (sendByte_codes _ u).andThen fun _ u => ih _ u

theorem streamWrite_codes (a : Byte) (n : Nat) (s : State) : (streamWrite a (sendPixels 0 n) s).Codes :=
  (phaseOf_codes _ (sendByte_codes a) s).andThen fun _ u => phaseOf_codes _ (sendPixels_codes n 0) u

theorem recvDummies_codes (n : Nat) : ∀ s : State, (recvDummies n s).Codes := by
  induction n with
  | zero => intro s; exact Res.codes_ok _ s
  | succ n ih => intro s; exact (xfer_codes _ s).andThen fun _ u => ih u

theorem recvPixels_codes (n : Nat) : ∀ (i : Nat) (s : State), (recvPixels i n s).Codes := by
  induction n with
  | zero => intro i s; exact Res.codes_ok _ s
  | succ n ih =>
    intro i s
    exact (xfer_codes _ s).andThen fun _ u => (xfer_codes _ u).andThen fun _ u => ih _ _

theorem streamRead_codes (a : Byte) (n : Nat) (s : State) : (streamRead a (recvPixels 0 n) s).Codes :=
  (phaseOf_codes _ (sendByte_codes a) s).andThen fun _ u =>
    phaseOf_codes _ (fun u => (recvDummies_codes _ u).andThen fun _ w => recvPixels_codes n 0 w) u

theorem waitLoop_codes (a m : Byte) (i n : Nat) : ∀ s : State, (waitLoop a m i n s).Codes := by
  induction n with
  | zero => intro s; exact Res.codes_ok _ s
  | succ n ih =>
    intro s
    refine (readReg_codes a s).andThen fun r u => ?_
    dsimp only
    split
    · exact Res.codes_ok _ _
    · split
      · intro c d t e; injection e with e; exact .inr e.symm
      · exact (waitMs_codes _ _).andThen fun _ w => ih w

theorem readToRdata_codes (a : Byte) (s : State) : (readToRdata a s).Codes :=
  (readReg_codes a s).andThen fun _ _ => Res.codes_ok _ _

theorem resetPulse_codes (s : State) : (resetPulse s).Codes :=
  (waitMs_codes _ _).andThen fun _ _ => waitMs_codes _ _

theorem runEntry_codes (e : InitEntry) (s : State) : (runEntry e s).Codes := by
  unfold runEntry
  split
  · exact writeReg_codes _ _ s
  · exact writePair_codes _ _ s
  · exact waitLoop_codes _ _ _ _ s
  · exact waitMs_codes _ s

theorem runTable_codes (t : List InitEntry) : ∀ (i : Nat) (s : State), (runTable t i s).Codes := by
  induction t with
  | nil => intro i s; exact Res.codes_ok _ s
  | cons e rest ih => intro i s; exact (runEntry_codes e _).andThen fun _ u => ih _ u

theorem initSequence_codes (g : Nat) (s : State) : (initSequence g s).Codes :=
  (resetPulse_codes _).andThen fun _ u => (runTable_codes _ _ u).andThen fun _ _ => Res.codes_ok _ _

theorem pollSequence_codes (c0 c1 : Word) (s : State) : (pollSequence c0 c1 s).Codes := by
  unfold pollSequence
  refine (readReg_codes _ s).andThen fun r u => ?_
  split
  · refine Res.Codes.andThen ?_ fun xy v => (pass_codes _ _).andThen fun _ w =>
      (writeReg_codes _ _ w).andThen fun _ z => Res.codes_ok _ _
    exact (readReg_codes _ _).andThen fun _ v => (readReg_codes _ v).andThen fun _ w =>
      (readReg_codes _ w).andThen fun _ z => Res.codes_ok _ _
  · exact Res.codes_ok _ _

end Sys2Proof.Machine
end

