-- ==== Sys2Proof/Laws/Commands.lean ====
section
/-! SUPPORT. What the bodies of the commands do while the host does nothing but reads and writes the port takes, on
hardware without a bus-error input: register pairs, wait loops, streams, the reset pulse and the poll sequence, and
the first and the last step of every command. -/

namespace Sys2Proof.Machine

theorem accessEvents_congr (a : Byte) (bs : List Byte) {e f : Env} (h : e.miso = f.miso)
    (g : e.freeDraws = f.freeDraws) : accessEvents a bs e = accessEvents a bs f := by
  have k := after_congr 2 h g
  unfold accessEvents
  rw [phaseEvents_congr _ h g, phaseEvents_congr _ k.1 k.2]

theorem answer_congr (n : Nat) {e f : Env} (h : e.miso = f.miso) (g : e.freeDraws = f.freeDraws) :
    e.answer n = f.answer n := by
  have k := after_congr n h g
  exact nextMiso_congr k.1 k.2

theorem answer_after (m n : Nat) (e : Env) : (e.after m).answer n = e.answer (m + n) := by
  simp [Env.answer, after_add]

theorem Accessed.par {a : Byte} {bs : List Byte} {s v : State} (h : Accessed a bs s v) : v.par = s.par := h.did.par

theorem Accessed.benign {a : Byte} {bs : List Byte} {s v : State} (h : Accessed a bs s v) : Benign v := h.did.benign

theorem Accessed.draws {a : Byte} {bs : List Byte} {s v : State} (h : Accessed a bs s v) :
    v.env.miso = (s.env.after 4).miso ∧ v.env.freeDraws = (s.env.after 4).freeDraws := h.did.draws

/-- The first cycle in which a phase can begin after an access. -/
theorem Accessed.nextFall {a : Byte} {bs : List Byte} {s v : State} (h : Accessed a bs s v) :
    nextFall v = v.env.now + s.par.tCshMin := by
  have := h.gap.2.2.2
  rw [h.par] at this
  rw [Machine.nextFall, this]
  omega

/-- The register pair of WREG16 (R155). -/
theorem writePair_benign {s : State} (a : Byte) (d : Half) (b : Benign s) (e : s.par.hasBusErr = false) :
    (writePair a d s).Yields fun _ v =>
      Did 8 (accessEvents a [0x00#8, loByte d] s.env ++ accessEvents (a + 1#8) [0x00#8, hiByte d] (s.env.after 4))
        (nextFall s) v.env.now s v ∧
      v.env.now = nextFall s + 2 * accessTime s.par + s.par.tCshMin ∧ AtGap v := by
  simp only [writePair]
  refine (writeReg_benign a _ b e).andThen ?_
  rintro - u h
  refine (writeReg_benign (a + 1#8) (hiByte d) h.benign (by rw [h.par]; exact e)).mono ?_
  rintro - v k
  refine ⟨?_, ?_, k.gap⟩
  · have := h.did.trans k.did
    rw [accessEvents_congr _ _ h.draws.1 h.draws.2] at this
    exact this
  · rw [k.now, h.nextFall, h.par, h.now]
    ring

/-- A number of milliseconds with the bus idle. -/
theorem waitMs_benign {s : State} (d : Nat) (b : Benign s) :
    (waitMs d s).Yields fun _ v => Ran 0 [] s v ∧ v.env.now = s.env.now + d * s.par.clkPerMs ∧ v.pins = s.pins := by
  simp only [waitMs]
  have b' : Benign { s with loc := { s.loc with waitEnd := s.env.now + d * s.par.clkPerMs } } := b
  refine (pass_benign b' _).andThen ?_
  rintro - u ⟨k, t, bu⟩
  refine Res.yields_ok ⟨?_, t, k.pins⟩
  exact (Ran.of_hostOnly k bu).withLoc (l := s.loc) (l' := { u.loc with waitEnd := 0 }) (by rw [k.loc])

theorem readsEvents_congr (f a : Byte) (k : Nat) : ∀ {e g : Env}, e.miso = g.miso → e.freeDraws = g.freeDraws →
    readsEvents f a k e = readsEvents f a k g := by
  induction k with
  | zero => intros; rfl
  | succ k ih =>
    intro e g h j
    have q := after_congr 4 h j
    simp only [readsEvents]
    rw [accessEvents_congr _ _ h j, ih q.1 q.2]

theorem readsUntilClear_congr (m : Byte) (n : Nat) : ∀ {e f : Env}, e.miso = f.miso → e.freeDraws = f.freeDraws →
    readsUntilClear m n e = readsUntilClear m n f := by
  induction n with
  | zero => intros; rfl
  | succ n ih =>
    intro e f h j
    have q := after_congr 4 h j
    simp only [readsUntilClear]
    rw [answer_congr 3 h j, ih q.1 q.2]

theorem statusRead_congr (k : Nat) {e f : Env} (h : e.miso = f.miso) (g : e.freeDraws = f.freeDraws) :
    statusRead e k = statusRead f k := answer_congr _ h g

theorem statusRead_after (k : Nat) (e : Env) : statusRead (e.after 4) k = statusRead e (k + 1) := by
  simp only [statusRead, answer_after]
  congr 1
  ring

theorem readsUntilClear_pos {m : Byte} {n k : Nat} {e : Env} (h : readsUntilClear m n e = some k) : 1 ≤ k := by
  cases n with
  | zero => simp [readsUntilClear] at h
  | succ n =>
    simp only [readsUntilClear] at h
    split at h
    · obtain ⟨x, -, rfl⟩ := Option.map_eq_some_iff.mp h
      omega
    · simp at h
      omega

/-- What `k` status reads leave, the waits between them `i` ms each (41_register_commands.md R156). -/
structure Reads (a : Byte) (i k : Nat) (s v : State) : Prop where
  did : Did (4 * k) (readsEvents s.par.readFill a k s.env) (nextFall s) v.env.now
    (setRdata (statusRead s.env (k - 1)) s) v
  now : v.env.now = nextFall s + k * accessTime s.par + (k - 1) * max (i * s.par.clkPerMs) s.par.tCshMin
  gap : AtGap v

/-- One read of a wait loop, with RDATA and the poll count. -/
theorem oneRead_benign {s : State} (a : Byte) (i : Nat) (b : Benign s) (e : s.par.hasBusErr = false) :
    (readReg a s).Yields fun r u => r = s.env.answer 3 ∧ u.par = s.par ∧
      u.env.miso = (s.env.after 4).miso ∧ u.env.freeDraws = (s.env.after 4).freeDraws ∧
      Reads a i 1 s (setRdata r { u with loc := { u.loc with polls := u.loc.polls + 1 } }) := by
  refine (readReg_benign a b e).mono ?_
  rintro r u ⟨rfl, h⟩
  refine ⟨rfl, h.par, h.draws.1, h.draws.2, ⟨?_, ?_, h.gap⟩⟩
  · obtain ⟨x, r, ev, lst, hd⟩ := h.did
    refine ⟨x, ?_, by simpa [readsEvents] using ev, lst, hd⟩
    have := (r.withRdata (s.env.answer 3)).withLoc (l := s.loc)
      (l' := { u.loc with polls := u.loc.polls + 1 }) (by have := r.step; exact this)
    exact this
  · have := h.now
    simpa using this

/-- A wait loop: it ends after the first read that finds the mask clear, or raises after the last one
(41_register_commands.md R156). -/
theorem waitLoop_benign (a m : Byte) (i : Nat) (n : Nat) : ∀ {s : State}, Benign s → s.par.hasBusErr = false →
    match readsUntilClear m (n + 1) s.env with
    | some k => (waitLoop a m i (n + 1) s).Yields fun _ v => Reads a i k s v
    | none => ∃ v, waitLoop a m i (n + 1) s = .raise .hwFault ((statusRead s.env n).setWidth 16) v ∧
        Reads a i (n + 1) s v := by
  induction n with
  | zero =>
    intro s b e
    obtain ⟨r, u, eq, rfl, -, -, -, h⟩ := oneRead_benign a i b e
    simp only [readsUntilClear, waitLoop, eq, Res.ok_andThen]
    cases q : isBusy (s.env.answer 3) m
    · exact Res.yields_ok h
    · exact ⟨_, rfl, h⟩
  | succ n ih =>
    intro s b e
    obtain ⟨r, u, eq, rfl, pu, mu, fu, h⟩ := oneRead_benign a i b e
    rw [readsUntilClear, waitLoop, eq]
    simp only [Res.ok_andThen]
    cases q : isBusy (s.env.answer 3) m
    · exact Res.yields_ok h
    · obtain ⟨z0, w, eqw, rw_, tw, pw⟩ := waitMs_benign i h.did.benign
      have e2 : w.par = s.par := by rw [rw_.par]; exact pu
      simp only [eqw, Res.ok_andThen, Bool.true_eq_false, if_false, if_true, Nat.add_eq_zero_iff, one_ne_zero,
        and_false]
      have mw : w.env.miso = (s.env.after 4).miso := by rw [rw_.miso]; exact mu
      have fw : w.env.freeDraws = (s.env.after 4).freeDraws := by rw [rw_.freeDraws]; exact fu
      have := ih (s := w) rw_.benign (by rw [e2]; exact e)
      rw [readsUntilClear_congr m (n + 1) mw fw] at this
      have join : ∀ k v, 1 ≤ k → Reads a i k w v → Reads a i (k + 1) s v := by
        intro k v k1 z
        have nf : nextFall w = (nextFall s + accessTime s.par) + max (i * s.par.clkPerMs) s.par.tCshMin := by
          have hn := h.now
          have hg := h.gap.2.2.2
          simp only [one_mul, Nat.sub_self, zero_mul, Nat.add_zero] at hn
          rw [nextFall, tw, pw, hg]
          simp only [setRdata_env, setRdata_par, pu] at *
          rw [hn]
          omega
        refine ⟨?_, ?_, z.gap⟩
        · obtain ⟨x1, r1, ev1, l1, h1⟩ := h.did
          obtain ⟨x2, r2, ev2, l2, h2⟩ := z.did
          have r12 := ((r1.trans rw_).withRdata (statusRead w.env (k - 1))).trans r2
          have sr : statusRead w.env (k - 1) = statusRead s.env k := by
            rw [statusRead_congr _ mw fw, statusRead_after]
            congr 1
            omega
          have D1 : Did (4 * 1) (readsEvents s.par.readFill a 1 s.env) (nextFall s) _ (setRdata (statusRead s.env k) s)
              (setRdata (statusRead w.env (k - 1)) w) :=
            ⟨_, by
              have := (r1.trans rw_).withRdata (statusRead w.env (k - 1))
              rw [sr] at this ⊢
              exact this, by simpa using ev1, by simpa using l1, by simpa using h1⟩
          have D := D1.trans z.did
          have ee : readsEvents s.par.readFill a 1 s.env ++ readsEvents w.par.readFill a k w.env =
              readsEvents s.par.readFill a (k + 1) s.env := by
            rw [e2, readsEvents_congr _ _ _ mw fw]
            simp [readsEvents]
          rw [ee] at D
          rw [show 4 * (k + 1) = 4 * 1 + 4 * k by ring]
          exact D
        · rw [z.now, nf, e2]
          obtain ⟨k, rfl⟩ : ∃ j, k = j + 1 := ⟨k - 1, by omega⟩
          simp only [Nat.add_sub_cancel]
          ring
      cases q2 : readsUntilClear m (n + 1) (s.env.after 4) with
      | none =>
        simp only [q2] at this
        obtain ⟨v, ev, z⟩ := this
        refine ⟨v, ?_, join _ v (by omega) z⟩
        rw [ev]
        rw [statusRead_congr _ mw fw, statusRead_after]
      | some k =>
        simp only [q2] at this
        refine this.mono ?_
        rintro - v z
        exact join _ v (readsUntilClear_pos q2) z

/-- A slot of a running bulk command, which keeps the line buffer. -/
theorem xfer_bulk {s : State} (t : Byte) (b : Benign s) (x : s.seq.state = .exec)
    (y : isBulkWord s.seq.cur = true) :
    (xfer t s).Yields fun r s' => r = s.env.nextMiso ∧ SlotRun [t] s.lb s s' ∧ s'.lb = s.lb ∧ s'.seq = s.seq := by
  refine (xfer_benign t b).mono ?_
  rintro r s' ⟨e, h, n, p⟩
  exact ⟨e, ⟨⟨_, h, by simp [slotEvents]⟩, by simpa using n, p⟩, h.buffer x y, (h.running x).1⟩

/-- The pixels of a running MWRITE (R181). -/
theorem sendPixels_benign (n : Nat) : ∀ (i : Nat) {s : State}, Benign s → s.pins.mosi = false →
    s.pins.sck = sckIdle s.par.spiMode → s.seq.state = .exec → isBulkWord s.seq.cur = true →
    (sendPixels i n s).Yields fun _ v =>
      SlotRun ((List.range' i n).flatMap fun j => pixBytes s.par.pixMsbFirst (getLb j s)) s.lb s v := by
  induction n with
  | zero => intro i s b m k _ _; exact Res.yields_ok (SlotRun.nil b m k)
  | succ n ih =>
    intro i s b m k x y
    simp only [sendPixels, sendByte, Res.andThen_assoc, Res.ok_andThen]
    refine (xfer_bulk _ b x y).andThen ?_
    rintro - s1 ⟨-, r1, l1, q1⟩
    have p1 := r1.par
    rw [p1]
    refine (xfer_bulk _ r1.benign (by rw [q1]; exact x) (by rw [q1]; exact y)).andThen ?_
    rintro - s2 ⟨-, r2, l2, q2⟩
    have p2 := r2.par
    have m2 : s2.pins.mosi = false := r2.2.2.2.2.1
    have k2 : s2.pins.sck = sckIdle s2.par.spiMode := by rw [r2.2.2.2.2.2.1, p2]
    refine (ih (i + 1) r2.benign m2 k2 (by rw [q2, q1]; exact x) (by rw [q2, q1]; exact y)).mono ?_
    rintro - v r3
    have ll : s2.lb = s.lb := l2.trans l1
    have gg : ∀ j, getLb j s2 = getLb j s := fun j => by simp only [getLb, ll]
    have pp : s2.par = s.par := p2.trans p1
    simp only [List.range'_succ, List.flatMap_cons, pixBytes]
    simp only [gg, pp, ll] at r3
    have r12 := r1.append (l' := s1.lb) (m := s.lb) (v := s2) (by rw [← l1]; exact r2)
    exact r12.append (l' := s2.lb) r3

/-- The line buffer after the answers from `e` on have been received as `n` pixels from entry `i` on (R182). -/
def storePixels (msb : Bool) : Nat → Nat → Env → List Half → List Half
  | _, 0, _, l => l
  | i, n + 1, e, l => storePixels msb (i + 1) n (e.after 2) (l.set i (pixValue msb (e.answer 0) (e.answer 1)))

theorem storePixels_congr (msb : Bool) (n : Nat) : ∀ (i : Nat) (l : List Half) {e f : Env}, e.miso = f.miso →
    e.freeDraws = f.freeDraws → storePixels msb i n e l = storePixels msb i n f l := by
  induction n with
  | zero => intros; rfl
  | succ n ih =>
    intro i l e f h g
    have k := after_congr 2 h g
    simp only [storePixels]
    rw [answer_congr 0 h g, answer_congr 1 h g, ih _ _ k.1 k.2]

/-- Each received pixel is in its entry, and every other entry is as before. -/
theorem storePixels_getElem? (msb : Bool) (n : Nat) : ∀ (i : Nat) (e : Env) (l : List Half), i + n ≤ l.length →
    ∀ j, (storePixels msb i n e l)[j]? =
      if i ≤ j ∧ j < i + n then some (pixValue msb (e.answer (2 * (j - i))) (e.answer (2 * (j - i) + 1)))
      else l[j]? := by
  induction n with
  | zero => intro i e l _ j; simp [storePixels]
  | succ n ih =>
    intro i e l h j
    simp only [storePixels]
    rw [ih (i + 1) _ _ (by simp; omega) j]
    by_cases c : j = i
    · subst c
      have : j < l.length := by omega
      simp [this]
    · by_cases d : i + 1 ≤ j ∧ j < i + 1 + n
      · rw [if_pos d, if_pos (by omega), answer_after, answer_after]
        congr 3 <;> omega
      · rw [if_neg d, if_neg (by omega), List.getElem?_set_ne (Ne.symm c)]

theorem storePixels_length (msb : Bool) (n : Nat) : ∀ (i : Nat) (e : Env) (l : List Half),
    (storePixels msb i n e l).length = l.length := by
  induction n with
  | zero => intros; rfl
  | succ n ih => intro i e l; simp only [storePixels, ih, List.length_set]

/-- The dummy slots of a running MREAD. -/
theorem recvDummies_benign (n : Nat) : ∀ {s : State}, Benign s → s.pins.mosi = false →
    s.pins.sck = sckIdle s.par.spiMode → s.seq.state = .exec → isBulkWord s.seq.cur = true →
    (recvDummies n s).Yields fun _ v => SlotRun (List.replicate n s.par.readFill) s.lb s v ∧ v.lb = s.lb ∧
      v.seq = s.seq := by
  induction n with
  | zero => intro s b m k _ _; exact Res.yields_ok ⟨SlotRun.nil b m k, rfl, rfl⟩
  | succ n ih =>
    intro s b m k x y
    simp only [recvDummies, recvByte]
    refine (xfer_bulk _ b x y).andThen ?_
    rintro - s1 ⟨-, r1, l1, q1⟩
    have p1 := r1.par
    refine (ih r1.benign r1.2.2.2.2.1 (by rw [r1.2.2.2.2.2.1, p1]) (by rw [q1]; exact x)
      (by rw [q1]; exact y)).mono ?_
    rintro - v ⟨r2, l2, q2⟩
    refine ⟨?_, l2.trans l1, q2.trans q1⟩
    have := r1.append (l' := s1.lb) r2
    rw [l1, p1] at this
    exact this

/-- The pixels of a running MREAD (R182). -/
theorem recvPixels_benign (n : Nat) : ∀ (i : Nat) {s : State}, Benign s → s.pins.mosi = false →
    s.pins.sck = sckIdle s.par.spiMode → s.seq.state = .exec → isBulkWord s.seq.cur = true →
    (recvPixels i n s).Yields fun _ v =>
      SlotRun (List.replicate (2 * n) s.par.readFill) (storePixels s.par.pixMsbFirst i n s.env s.lb) s v := by
  induction n with
  | zero => intro i s b m k _ _; exact Res.yields_ok (SlotRun.nil b m k)
  | succ n ih =>
    intro i s b m k x y
    simp only [recvPixels, recvByte]
    refine (xfer_bulk _ b x y).andThen ?_
    rintro b0 s1 ⟨rfl, r1, l1, q1⟩
    have p1 := r1.par
    refine (xfer_bulk _ r1.benign (by rw [q1]; exact x) (by rw [q1]; exact y)).andThen ?_
    rintro b1 s2 ⟨rfl, r2, l2, q2⟩
    have p2 := r2.par
    have pp : s2.par = s.par := p2.trans p1
    have b2 : Benign (setLb i (pixValue s2.par.pixMsbFirst s.env.nextMiso s1.env.nextMiso) s2) :=
      r2.benign.congr rfl rfl
    refine (ih (i + 1) b2 (by simpa using r2.2.2.2.2.1) (by simpa [p2] using r2.2.2.2.2.2.1)
      (by simpa [q2, q1] using x) (by simpa [q2, q1] using y)).mono ?_
    rintro - v r3
    simp only [setLb_par, setLb_env, pp, setLb_lb] at r3
    have r12 := r1.append (l' := s1.lb) (m := s.lb) (v := s2) (ys := [s1.par.readFill]) (by rw [← l1]; exact r2)
    rw [p1] at r12
    have d1 := r1.draws
    have d2 := r12.draws
    have a1 : s1.env.nextMiso = s.env.answer 1 := nextMiso_congr d1.1 d1.2
    rw [a1, l2, l1, storePixels_congr _ _ _ _ d2.1 d2.2] at r3
    have := r12.append (l' := s.lb.set i (pixValue s.par.pixMsbFirst s.env.nextMiso (s.env.answer 1)))
      (by simpa [setLb, a1, l2, l1, pp] using r3)
    rw [show 2 * (n + 1) = 2 + 2 * n by ring, List.replicate_add]
    exact this

theorem lbBytes_length (s : State) (n : Nat) : (lbBytes s n).length = 2 * n := by
  simp [lbBytes, pixBytes, List.length_flatMap, Nat.mul_comm]

/-- The stream of a running MWRITE (R140, R181). -/
theorem streamWrite_benign {s : State} (a : Byte) (n : Nat) (b : Benign s) (e : s.par.hasBusErr = false)
    (x : s.seq.state = .exec) (y : isBulkWord s.seq.cur = true) :
    (streamWrite a (sendPixels 0 n) s).Yields fun _ v =>
      Did (2 * n + 3) (accessEvents a (0x00#8 :: lbBytes s n) s.env) (nextFall s) v.env.now s v ∧
      v.env.now = nextFall s + (16 * (2 * n + 1) + 36) * halfBit s.par + s.par.tCshMin ∧ AtGap v := by
  simp only [streamWrite]
  refine (access_benign (bs := lbBytes s n) (Q := fun _ l _ => l = s.lb) b e ?_).mono ?_
  · intro u new r m k
    have q := (r.running x).1
    refine (sendPixels_benign n 0 r.benign m k (by rw [q]; exact x) (by rw [q]; exact y)).mono ?_
    rintro - v h
    have l := r.buffer x y
    refine ⟨s.lb, ?_, rfl⟩
    simp only [getLb, l, r.par] at h
    simpa [lbBytes, List.range_eq_range', getLb] using h
  · rintro - v ⟨l, u, -, rfl, d, t, g, -⟩
    rw [lbBytes_length] at d t
    exact ⟨d, t, g⟩

/-- The stream of a running MREAD (R141, R182). -/
theorem streamRead_benign {s : State} (a : Byte) (n : Nat) (b : Benign s) (e : s.par.hasBusErr = false)
    (x : s.seq.state = .exec) (y : isBulkWord s.seq.cur = true) :
    (streamRead a (recvPixels 0 n) s).Yields fun _ v =>
      Did (s.par.mreadDummy + 2 * n + 3)
        (accessEvents a (0x40#8 :: List.replicate (s.par.mreadDummy + 2 * n) s.par.readFill) s.env)
        (nextFall s) v.env.now
        { s with lb := storePixels s.par.pixMsbFirst 0 n (s.env.after (s.par.mreadDummy + 3)) s.lb } v ∧
      v.env.now = nextFall s + (16 * (s.par.mreadDummy + 2 * n + 1) + 36) * halfBit s.par + s.par.tCshMin ∧
      AtGap v := by
  simp only [streamRead]
  refine (access_benign (bs := List.replicate (s.par.mreadDummy + 2 * n) s.par.readFill)
    (Q := fun _ l _ => l = storePixels s.par.pixMsbFirst 0 n (s.env.after (s.par.mreadDummy + 3)) s.lb)
    b e ?_).mono ?_
  · intro u new r m k
    have q := (r.running x).1
    have l := r.buffer x y
    refine (recvDummies_benign u.par.mreadDummy r.benign m k (by rw [q]; exact x) (by rw [q]; exact y)).andThen ?_
    rintro - w ⟨r1, l1, q1⟩
    have p1 := r1.par
    refine (recvPixels_benign n 0 r1.benign r1.2.2.2.2.1 (by rw [r1.2.2.2.2.2.1, p1]) (by rw [q1, q]; exact x)
      (by rw [q1, q]; exact y)).mono ?_
    rintro - v r2
    have d := r1.draws
    have z := after_congr u.par.mreadDummy r.miso r.freeDraws
    have f1 : w.env.miso = (s.env.after (s.par.mreadDummy + 3)).miso := by
      rw [d.1, List.length_replicate, z.1, after_add, r.par, Nat.add_comm]
    have f2 : w.env.freeDraws = (s.env.after (s.par.mreadDummy + 3)).freeDraws := by
      rw [d.2, List.length_replicate, z.2, after_add, r.par, Nat.add_comm]
    rw [storePixels_congr _ _ _ _ f1 f2, p1, l1, l, r.par] at r2
    rw [r.par] at r1
    refine ⟨_, ?_, rfl⟩
    rw [List.replicate_add]
    exact r1.append (l' := w.lb) r2
  · rintro - v ⟨l, u, -, rfl, d, t, g, -⟩
    rw [List.length_replicate] at d t
    exact ⟨d, t, g⟩

/-- The reset pulse (43_system_commands.md R200): two events, at its start and after the low time. -/
theorem resetPulse_benign {s : State} (b : Benign s) (h : s.pins.rstN = true) :
    (resetPulse s).Yields fun _ v =>
      Did 0 [.rstl, .rsth] s.env.now (s.env.now + s.par.tRstLowMs * s.par.clkPerMs) s v ∧
      v.env.now = s.env.now + (s.par.tRstLowMs + s.par.tRstWaitMs) * s.par.clkPerMs ∧ v.pins = s.pins := by
  simp only [resetPulse]
  have b0 : Benign (rstLow s) := b.congr rfl rfl
  refine (waitMs_benign _ b0).andThen ?_
  rintro - u ⟨r1, t1, p1⟩
  have b1 : Benign (rstHigh u) := r1.benign.congr rfl rfl
  refine (waitMs_benign _ b1).mono ?_
  rintro - v ⟨r2, t2, p2⟩
  have e1 : u.par = s.par := r1.par
  refine ⟨⟨[⟨u.env.now, .rsth⟩, ⟨s.env.now, .rstl⟩], ?_, rfl, rfl, by simp [t1]; rfl⟩, ?_, ?_⟩
  · exact {
      par := r2.par.trans e1
      miso := r2.miso.trans r1.miso
      freeDraws := r2.freeDraws.trans r1.freeDraws
      busErr := r2.busErr.trans r1.busErr
      resets := r2.resets.trans r1.resets
      trace := by
        rw [r2.trace]
        have := r1.trace
        simp only [rstHigh, rstLow, emit_env_trace, List.nil_append] at this ⊢
        rw [this]
        rfl
      rstN := by rw [p2]; exact h.symm
      step := r2.step.trans r1.step
      cur := r2.cur.trans r1.cur
      rdata := r2.rdata.trans r1.rdata
      errcmd := r2.errcmd.trans r1.errcmd
      erraux := r2.erraux.trans r1.erraux
      initDone := r2.initDone.trans r1.initDone
      tpollAct := r2.tpollAct.trans r1.tpollAct
      x := r2.x.trans r1.x
      y := r2.y.trans r1.y
      tphase := r2.tphase.trans r1.tphase
      running := fun q => by
        obtain ⟨h1, h2, h3⟩ := r1.running q
        obtain ⟨g1, g2, g3⟩ := r2.running (by show u.seq.state = _; rw [h1]; exact q)
        exact ⟨g1.trans h1, g2.trans h2, g3.trans h3⟩
      buffer := fun q y => by
        have h1 := (r1.running q).1
        exact (r2.buffer (by show u.seq.state = _; rw [h1]; exact q)
          (by show isBulkWord u.seq.cur = _; rw [h1]; exact y)).trans (r1.buffer q y)
      benign := r2.benign }
  · rw [t2]
    show u.env.now + u.par.tRstWaitMs * u.par.clkPerMs = _
    rw [t1, e1]
    show s.env.now + _ * s.par.clkPerMs + _ = _
    ring
  · rw [p2]
    show { u.pins with rstN := true } = s.pins
    rw [p1]
    show { s.pins with rstN := true } = s.pins
    rw [← h]

/-- A state with the coordinates, POLL.tphase and TPOLL_ACT of a finished poll. -/
def polled (x y : Coord) (s : State) : State :=
  { s with
    sample := { s.sample with x := x, y := y }
    poll := { s.poll with tphase := false }
    csr := { s.csr with tpollAct := false } }

theorem Ran.polled {d : Nat} {new : List TraceEntry} {s s' : State} (h : Ran d new s s') (x y : Coord) :
    Ran d new (polled x y s) (polled x y s') where
  par := h.par
  miso := h.miso
  freeDraws := h.freeDraws
  busErr := h.busErr
  resets := h.resets
  trace := h.trace
  rstN := h.rstN
  step := h.step
  cur := h.cur
  rdata := h.rdata
  errcmd := h.errcmd
  erraux := h.erraux
  initDone := h.initDone
  tpollAct := rfl
  x := rfl
  y := rfl
  tphase := rfl
  running := h.running
  buffer := h.buffer
  benign := h.benign

theorem Did.polled {d t0 t1 : Nat} {evs : List BusEvent} {s s' : State} (h : Did d evs t0 t1 s s') (x y : Coord) :
    Did d evs t0 t1 (polled x y s) (polled x y s') := by
  obtain ⟨n, r, k⟩ := h
  exact ⟨n, r.polled x y, k⟩

theorem touchedEvents_congr (c0 c1 : Word) (fill : Byte) {e f : Env} (h : e.miso = f.miso)
    (g : e.freeDraws = f.freeDraws) : touchedEvents c0 c1 fill e = touchedEvents c0 c1 fill f := by
  have k4 := after_congr 4 h g
  have k8 := after_congr 8 h g
  have k12 := after_congr 12 h g
  have k16 := after_congr 16 h g
  unfold touchedEvents
  rw [accessEvents_congr _ _ h g, accessEvents_congr _ _ k4.1 k4.2, accessEvents_congr _ _ k8.1 k8.2,
    accessEvents_congr _ _ k12.1 k12.2, accessEvents_congr _ _ k16.1 k16.2]

/-- A poll that finds the touch bit clear: one register read, then the release step (R236, R241). -/
theorem pollSequence_clear {s : State} (c0 c1 : Word) (b : Benign s) (e : s.par.hasBusErr = false)
    (h : touchSet (s.env.answer 3) (intMask c0) = false) :
    ∃ u, pollSequence c0 c1 s = .ok () (releaseStep u) ∧ Accessed (intAddr c0) [0x40#8, s.par.readFill] s u := by
  obtain ⟨r, u, eq, rfl, a⟩ := readReg_benign (intAddr c0) b e
  exact ⟨u, by simp [pollSequence, eq, h], a⟩

/-- A poll that finds the touch bit set (R236 to R238, R240). -/
theorem pollSequence_touched {s : State} (c0 c1 : Word) (b : Benign s) (e : s.par.hasBusErr = false)
    (h : touchSet (s.env.answer 3) (intMask c0) = true) :
    (pollSequence c0 c1 s).Yields fun _ v =>
      Did 20 (touchedEvents c0 c1 s.par.readFill s.env) (nextFall s) v.env.now
        (polled (coordOf (s.env.answer 7) (s.env.answer 15) (xlShift c1))
          (coordOf (s.env.answer 11) (s.env.answer 15) (ylShift c1)) s) v ∧
      (1 ≤ s.par.tCshMin → v.env.now = nextFall s + 5 * accessTime s.par + 4 * s.par.tCshMin) ∧ AtGap v := by
  obtain ⟨r1, u1, eq1, rfl, a1⟩ := readReg_benign (intAddr c0) b e
  have b1 : Benign (enterTouched u1) := a1.benign.congr rfl rfl
  have p1 : (enterTouched u1).par = s.par := a1.par
  obtain ⟨r2, u2, eq2, rfl, a2⟩ := readReg_benign (xhAddr c0) b1 (by rw [p1]; exact e)
  have p2 := a2.par.trans p1
  obtain ⟨r3, u3, eq3, rfl, a3⟩ := readReg_benign (yhAddr c0) a2.benign (by rw [p2]; exact e)
  have p3 := a3.par.trans p2
  obtain ⟨r4, u4, eq4, rfl, a4⟩ := readReg_benign (xylAddr c1) a3.benign (by rw [p3]; exact e)
  have p4 := a4.par.trans p3
  have e1 : u1.env.miso = (s.env.after 4).miso ∧ u1.env.freeDraws = (s.env.after 4).freeDraws := a1.draws
  have e2 : u2.env.miso = (s.env.after 8).miso ∧ u2.env.freeDraws = (s.env.after 8).freeDraws := by
    have k := after_congr 4 e1.1 e1.2
    rw [after_add] at k
    exact ⟨a2.draws.1.trans k.1, a2.draws.2.trans k.2⟩
  have e3 : u3.env.miso = (s.env.after 12).miso ∧ u3.env.freeDraws = (s.env.after 12).freeDraws := by
    have k := after_congr 4 e2.1 e2.2
    rw [after_add] at k
    exact ⟨a3.draws.1.trans k.1, a3.draws.2.trans k.2⟩
  have e4 : u4.env.miso = (s.env.after 16).miso ∧ u4.env.freeDraws = (s.env.after 16).freeDraws := by
    have k := after_congr 4 e3.1 e3.2
    rw [after_add] at k
    exact ⟨a4.draws.1.trans k.1, a4.draws.2.trans k.2⟩
  have w2 : (enterTouched u1).env.answer 3 = s.env.answer 7 := by
    rw [show (enterTouched u1).env = u1.env from rfl, answer_congr 3 e1.1 e1.2, answer_after]
  have w3 : u2.env.answer 3 = s.env.answer 11 := by rw [answer_congr 3 e2.1 e2.2, answer_after]
  have w4 : u3.env.answer 3 = s.env.answer 15 := by rw [answer_congr 3 e3.1 e3.2, answer_after]
  rw [w2] at eq2
  rw [w3] at eq3
  rw [w4] at eq4
  generalize hx : coordOf (s.env.answer 7) (s.env.answer 15) (xlShift c1) = x
  generalize hy : coordOf (s.env.answer 11) (s.env.answer 15) (ylShift c1) = y
  have b5 : Benign (commitSample x y u4) := a4.benign.congr rfl rfl
  obtain ⟨z5, u5, eq5, k5, t5, bb5⟩ := pass_benign b5 1
  have r5 := Ran.of_hostOnly k5 bb5
  have p5 : u5.par = s.par := r5.par.trans p4
  obtain ⟨z6, u6, eq6, a6⟩ := writeReg_benign (intAddr c0) (intMask c0) bb5 (by rw [p5]; exact e)
  have p6 := a6.par.trans p5
  have e5 : u5.env.miso = (s.env.after 16).miso ∧ u5.env.freeDraws = (s.env.after 16).freeDraws :=
    ⟨r5.miso.trans e4.1, r5.freeDraws.trans e4.2⟩
  refine ⟨(), setTpollAct false u6, ?_, ?_, ?_, ?_⟩
  · simp only [pollSequence, eq1, Res.ok_andThen, h, if_true, readCoords, eq2, eq3, eq4, hx, hy, eq5, eq6]
  · have commit : Ran 0 [] (polled x y u4) (polled x y (commitSample x y u4)) := by
      constructor
      case benign => exact b5
      all_goals simp [polled, commitSample, Env.after]
    obtain ⟨n6, q6, -⟩ := id a6.did
    have close : Ran 0 [] (polled x y u6) (setTpollAct false u6) := by
      have hx6 : u6.sample.x = x := q6.x.trans r5.x
      have hy6 : u6.sample.y = y := q6.y.trans r5.y
      have ht6 : u6.poll.tphase = false := q6.tphase.trans r5.tphase
      constructor
      case benign => exact a6.benign.congr rfl rfl
      all_goals simp [polled, setTpollAct, Env.after, hx6, hy6, ht6]
    have d1 := a1.did.polled x y
    have d2 : Did 4 _ _ _ (polled x y u1) (polled x y u2) := a2.did.polled x y
    have d3 := a3.did.polled x y
    have d4 := a4.did.polled x y
    have d6 := Did.before (commit.trans (r5.polled x y)) (a6.did.polled x y)
    have D := (((((d1.trans d2).trans d3).trans d4).trans d6).after close)
    rw [show (enterTouched u1).env = u1.env from rfl] at D
    rw [accessEvents_congr _ _ e1.1 e1.2, accessEvents_congr _ _ e2.1 e2.2, accessEvents_congr _ _ e3.1 e3.2,
      accessEvents_congr _ _ e5.1 e5.2] at D
    rw [p1, p2, p3] at D
    exact D
  · intro g
    show u6.env.now = _
    have n1 := a1.nextFall
    have n2 := a2.nextFall
    have n3 := a3.nextFall
    have g4 := a4.gap.2.2.2
    have c5 : u5.pins = u4.pins := k5.pins
    rw [a6.now, nextFall, c5, g4, t5]
    show max (u4.env.now + 1) _ + _ = _
    rw [a4.now, n3, a3.now, n2, a2.now, show nextFall (enterTouched u1) = nextFall u1 from rfl, n1, a1.now]
    rw [p4, p5, p3, p2, show (enterTouched u1).par = s.par from p1]
    simp only [nextFall]
    omega
  · exact a6.gap

/-- The read of RREG (R154). -/
theorem readToRdata_benign {s : State} (a : Byte) (b : Benign s) (e : s.par.hasBusErr = false) :
    (readToRdata a s).Yields fun _ v =>
      Did 4 (accessEvents a [0x40#8, s.par.readFill] s.env) (nextFall s) v.env.now (setRdata (s.env.answer 3) s) v ∧
      v.env.now = nextFall s + accessTime s.par ∧ AtGap v := by
  simp only [readToRdata]
  refine (readReg_benign a b e).andThen ?_
  rintro r u ⟨rfl, h⟩
  refine Res.yields_ok ⟨?_, h.now, h.gap⟩
  obtain ⟨x, q, k⟩ := h.did
  exact ⟨x, q.withRdata _, k⟩

/-- The first step of a command. -/
theorem openCommand_benign {s : State} (b : Benign s) :
    (openCommand s).Yields fun _ u => Ran 0 [] { s with loc := Local.none } u ∧ u.env.now = s.env.now + 1 ∧
      HostOnly { s with loc := Local.none } u := by
  have b' : Benign { s with loc := Local.none } := b
  exact (pass_benign b' 1).mono fun _ u k => ⟨Ran.of_hostOnly k.1 k.2.2, k.2.1, k.1⟩

/-- A command whose body ends normally completes. -/
theorem runCommand_completes {who : Raiser} {k : Bool} {body : State → Res Unit} {Q : State → Prop} {s : State}
    (b : Benign s) (hbody : ∀ u, Ran 0 [] { s with loc := Local.none } u → u.env.now = s.env.now + 1 →
      HostOnly { s with loc := Local.none } u → (body u).Yields fun _ v => Q v) :
    ∃ v, Q v ∧ runCommand who k body s = .next (tick 1 (complete k v)) := by
  obtain ⟨z, u, eq, r, t, p⟩ := openCommand_benign b
  obtain ⟨z', v, ev, q⟩ := hbody u r t p
  exact ⟨v, q, by simp [runCommand, closeCommand, eq, ev]⟩

/-- A command whose body raises enters FAULT. -/
theorem runCommand_faults {who : Raiser} {k : Bool} {body : State → Res Unit} {Q : State → Prop} {s : State}
    {c : ErrCode} {d : Half} (b : Benign s) (hbody : ∀ u, Ran 0 [] { s with loc := Local.none } u →
      u.env.now = s.env.now + 1 → HostOnly { s with loc := Local.none } u → ∃ v, body u = .raise c d v ∧ Q v) :
    ∃ v, Q v ∧ runCommand who k body s = .next (tick 1 (faultEntry who c d v)) := by
  obtain ⟨z, u, eq, r, t, p⟩ := openCommand_benign b
  obtain ⟨v, ev, q⟩ := hbody u r t p
  exact ⟨v, q, by simp [runCommand, closeCommand, eq, ev]⟩

/-- The state after completion. -/
theorem completed_of_ran {d : Nat} {new : List TraceEntry} {k : Bool} {s v : State} (x : s.seq.state = .exec)
    (o : s.owner = .seq) (r : Ran d new s v) : Completed k s (tick 1 (complete k v)) := by
  obtain ⟨h1, h2, -⟩ := r.running x
  refine ⟨?_, ?_, rfl⟩
  · simp [h1]
  · simp [h2, o]

/-- What completion leaves of what the host cannot reach. -/
theorem outOfReach_of_ran {d : Nat} {new : List TraceEntry} {k : Bool} {s v : State} (x : s.seq.state = .exec)
    (r : Ran d new s v) : OutOfHostReach s (tick 1 (complete k v)) := by
  refine ⟨r.par, r.errcmd, r.erraux, (r.running x).2.2, r.x, r.y, ?_, r.tpollAct, r.resets⟩
  simp only [tick_poll, advance_tphase]
  exact r.tphase

/-- The bus events of a run. -/
theorem bus_of_did {d t0 t1 : Nat} {evs : List BusEvent} {s v : State} (h : Did d evs t0 t1 s v) :
    v.bus = s.bus ++ evs := by
  obtain ⟨n, r, e, -⟩ := h
  simp [State.bus, r.trace, ← e]

theorem bus_of_ran {d : Nat} {s v : State} (r : Ran d [] s v) : v.bus = s.bus := by
  simp [State.bus, r.trace]

/-- The span of a run's events. -/
theorem busSpan_of_did {d t0 t1 : Nat} {evs : List BusEvent} {s v : State} (h : Did d evs t0 t1 s v) :
    busSpan s v = some (t0, t1) := by
  obtain ⟨n, r, -, l, k⟩ := h
  have : v.env.trace.take (v.env.trace.length - s.env.trace.length) = n := by
    rw [r.trace, List.length_append, Nat.add_sub_cancel, List.take_left]
  unfold busSpan
  rw [this]
  simp only [Option.map_eq_some_iff] at l k
  obtain ⟨e, le, rfl⟩ := l
  obtain ⟨f, fe, rfl⟩ := k
  simp only [le, fe]

/-- ERRAUX without an entry index. -/
theorem errauxOf_zero (d : Half) : errauxOf false 0#15 d = zext32 d := by
  simp [errauxOf, place]

/-- STEP outside INIT. -/
theorem stepField_zero (now : Nat) : stepField now 0 = 0#15 := rfl

/-- The state after a command's fault entry (60_exceptions.md R303). -/
theorem faulted_of_ran {n : Nat} {new : List TraceEntry} {c : ErrCode} {d : Half} {s v : State}
    (x : s.seq.state = .exec) (r : Ran n new s v) :
    Faulted c (errauxOf false (stepField v.env.now s.loc.step) d) s (tick 1 (faultEntry .command c d v)) := by
  obtain ⟨h1, -, -⟩ := r.running x
  have f : v.faulted = false := by simp [State.faulted, h1, x]
  have st := r.step
  refine ⟨?_, ?_, ?_, ?_, ?_, ?_⟩ <;> simp [faultEntry, f, recordFault, h1, st, show (Raiser.command == Raiser.background) = false from rfl]

/-- A command with no host action to come: its first step is one cycle. -/
theorem runCommand_quiet {who : Raiser} {k : Bool} {body : State → Res Unit} {s : State} (h : Quiet s) :
    runCommand who k body s = closeCommand who k (body (tick 1 { s with loc := Local.none })) := by
  have q : Quiet { s with loc := Local.none } := h
  simp [runCommand, openCommand, pass_quiet q]

theorem Quiet.benign {s : State} (h : Quiet s) : Benign s := by
  intro r hr
  rw [show s.env.host = [] from h] at hr
  cases hr

end Sys2Proof.Machine
end

