-- ==== Sys2Proof/Laws/Invariant.lean ====
section
/-! SUPPORT. The parts of the invariant that hold at every instant, inside commands and polls too, and that host
accesses and the passing of time keep. -/

namespace Sys2Proof.Machine

/-- Who is at work. -/
inductive Mode where
  | between
  | command
  | poll
  deriving DecidableEq, Repr

/-- The sequencer, the bus owner and the poller in each mode. -/
def Agents : Mode → State → Prop
  | .between, s => PollerAtRest s ∧ s.seq.state ≠ .exec ∧ (s.csr.err = .none ↔ s.seq.state ≠ .fault) ∧
      (s.seq.chain = true → s.seq.state = .idle) ∧ s.owner = if s.seq.chain then .seq else .none
  | .command, s => PollerAtRest s ∧ s.seq.state = .exec ∧ s.csr.err = .none ∧ s.owner = .seq
  | .poll, s => s.poll.state = .active ∧ s.seq.state ≠ .exec ∧ (s.csr.err = .none ↔ s.seq.state ≠ .fault) ∧
      s.seq.chain = false ∧ s.owner = .poll

/-- What holds at every instant of a mode, with the values of POLL.tphase and TPOLL_ACT. -/
structure Mid (m : Mode) (tp act : Bool) (s : State) : Prop where
  legal : Legal s
  agents : Agents m s
  resumes : Resumes s
  tphase : s.poll.tphase = tp
  act : s.csr.tpollAct = act

/-- The parts of the state that `Mid` depends on. -/
theorem Legal.congr {s t : State} (h : Legal s) (par : t.par = s.par) (csr : t.csr = s.csr) (q : t.q = s.q)
    (lb : t.lb = s.lb) : Legal t := by
  obtain ⟨h1, h2, h3, h4, h5, h6, h7, h8⟩ := h
  constructor
  · rw [par]; exact h1
  · rw [par, q]; exact h2
  · rw [par, lb]; exact h3
  all_goals rw [csr]; assumption

theorem PollerAtRest.congr {s t : State} (h : PollerAtRest s) (par : t.par = s.par)
    (en : t.csr.touchEn = s.csr.touchEn) (poll : t.poll = s.poll) : PollerAtRest t := by
  obtain ⟨h1, h2, h3, h4, h5, h6⟩ := h
  constructor
  · rw [poll]; exact h1
  · rw [poll]; exact h2
  · rw [poll, en]; exact h3
  · rw [poll]; exact h4
  · rw [poll, par]; exact h5
  · rw [poll, par]; exact h6

theorem Agents.congr {m : Mode} {s t : State} (h : Agents m s) (par : t.par = s.par)
    (en : t.csr.touchEn = s.csr.touchEn) (err : t.csr.err = s.csr.err) (seq : t.seq = s.seq)
    (poll : t.poll = s.poll) (owner : t.owner = s.owner) : Agents m t := by
  cases m
  · exact ⟨h.1.congr par en poll, by rw [seq]; exact h.2.1, by rw [seq, err]; exact h.2.2.1,
      by rw [seq]; exact h.2.2.2.1, by rw [seq, owner]; exact h.2.2.2.2⟩
  · exact ⟨h.1.congr par en poll, by rw [seq]; exact h.2.1, by rw [err]; exact h.2.2.1,
      by rw [owner]; exact h.2.2.2⟩
  · exact ⟨by rw [poll]; exact h.1, by rw [seq]; exact h.2.1, by rw [seq, err]; exact h.2.2.1,
      by rw [seq]; exact h.2.2.2.1, by rw [owner]; exact h.2.2.2.2⟩

theorem Resumes.congr {s t : State} (h : Resumes s) (seq : t.seq = s.seq) (now : s.env.now ≤ t.env.now) : Resumes t where
  soon := by rw [seq]; exact h.soon.trans (by omega)
  closed := by rw [seq]; exact fun e => (h.closed e).trans now

theorem Mid.congr {m : Mode} {tp act : Bool} {s t : State} (h : Mid m tp act s) (par : t.par = s.par)
    (csr : t.csr = s.csr) (q : t.q = s.q) (lb : t.lb = s.lb) (seq : t.seq = s.seq) (poll : t.poll = s.poll)
    (owner : t.owner = s.owner) (now : s.env.now ≤ t.env.now) : Mid m tp act t where
  legal := h.legal.congr par csr q lb
  agents := h.agents.congr par (by rw [csr]) (by rw [csr]) seq poll owner
  resumes := h.resumes.congr seq now
  tphase := by rw [poll]; exact h.tphase
  act := by rw [csr]; exact h.act

/-! ### Time -/

theorem PollerAtRest.tick {s : State} (h : PollerAtRest s) (n : Nat) : PollerAtRest (tick n s) := by
  obtain ⟨h1, h2, h3, h4, h5, h6⟩ := h
  generalize e : s.poll = p at *
  obtain ⟨st, tm, rc, tp, pd, sp⟩ := p
  cases st
  case timing =>
    simp only [reduceCtorEq, not_false_eq_true, ne_eq, forall_const, false_iff, Bool.not_eq_false] at h2 h3 h4 h5
    by_cases g : pd.toNat * s.par.clkPerMs ≤ tm + n
    · constructor <;> simp [e, Poll.advance, g, h2, h3, h4]
    · constructor <;> simp [e, Poll.advance, g, h2, h3, h4]
      omega
  all_goals constructor <;> simp_all [Poll.advance]

theorem advance_active {p : Poll} (h : p.state = .active) (c n : Nat) : p.advance c n = p := by
  simp only [Poll.advance, h]

theorem Agents.tick {m : Mode} {s : State} (h : Agents m s) (n : Nat) : Agents m (tick n s) := by
  cases m
  · exact ⟨h.1.tick n, h.2⟩
  · exact ⟨h.1.tick n, h.2⟩
  · refine ⟨?_, h.2⟩
    rw [tick_poll, advance_active h.1]
    exact h.1

theorem Mid.tick {m : Mode} {tp act : Bool} {s : State} (h : Mid m tp act s) (n : Nat) :
    Mid m tp act (tick n s) where
  legal := h.legal.congr rfl rfl rfl rfl
  agents := h.agents.tick n
  resumes := h.resumes.congr rfl (Nat.le_add_right _ _)
  tphase := by rw [tick_poll, advance_tphase]; exact h.tphase
  act := h.act

/-! ### Host writes -/

theorem atLeastOne_ne (v : Word) : atLeastOne v ≠ 0#16 := by
  unfold atLeastOne
  dsimp only
  split
  · simp
  · assumption

theorem tcfg1Stored_reserved (v : Word) : tcfg1Stored v &&& 0xFF008800#32 = 0#32 := by
  unfold tcfg1Stored
  dsimp only
  split
  · ext i hi
    interval_cases i <;> simp
  · ext i hi
    interval_cases i <;> simp

theorem tcfg1Stored_releasePolls (v : Word) : releasePolls (tcfg1Stored v) ≠ 0#8 := by
  unfold tcfg1Stored
  dsimp only
  split
  · intro h
    have := congrArg (fun b => b.getLsbD 0) h
    simp [releasePolls] at this
  · assumption

theorem Legal.flush {s : State} (h : Legal s) : Legal (flush s) := by
  obtain ⟨h1, h2, h3, h4, h5, h6, h7, h8⟩ := h
  unfold Machine.flush
  dsimp only
  split <;> constructor <;> simp <;> assumption

theorem Legal.writeCtrl {s : State} (v : Word) (h : Legal s) : Legal (writeCtrl v s) := by
  have h0 : Legal { s with csr := { s.csr with
      touchEn := v.getLsbD 0, ieReady := v.getLsbD 1, ieFault := v.getLsbD 2, ieIdle := v.getLsbD 3 } } :=
    ⟨h.1, h.2, h.3, h.4, h.5, h.6, h.7, h.8⟩
  have start : ∀ u, Legal u → Legal (touchStart u) := fun u g => by
    unfold touchStart
    split <;> exact g.congr rfl rfl rfl rfl
  have stop : ∀ u, Legal u → Legal (touchStop u) := fun u g => by
    unfold touchStop
    dsimp only
    split <;> exact g.congr rfl rfl rfl rfl
  unfold Machine.writeCtrl
  dsimp only
  repeat' split
  all_goals first | exact h0 | exact h0.flush | exact start _ h0 | exact stop _ h0 | exact (start _ h0).flush | exact (stop _ h0).flush

theorem Legal.writeEffect {s : State} (c : CsrName) (v : Word) (h : Legal s) : Legal (writeEffect c v s) := by
  have h' := h
  obtain ⟨h1, h2, h3, h4, h5, h6, h7, h8⟩ := h
  cases c <;> simp only [Machine.writeEffect]
  case ctrl => exact h'.writeCtrl v
  case status =>
    simp only [writeStatus, faultReturn]
    repeat' split
    all_goals constructor <;> assumption
  case cmd =>
    unfold pushWord
    split
    · constructor <;> simp <;> assumption
    · constructor <;> assumption
  case lb i =>
    unfold writeLb
    split
    · constructor <;> assumption
    · constructor <;> simp <;> assumption
  case pollPeriod => exact ⟨h1, h2, h3, h4, atLeastOne_ne v, h6, h7, h8⟩
  case waitLimit => exact ⟨h1, h2, h3, atLeastOne_ne v, h5, h6, h7, h8⟩
  case tcfg1 => exact ⟨h1, h2, h3, h4, h5, tcfg1Stored_reserved v, tcfg1Stored_releasePolls v, h8⟩
  all_goals constructor <;> assumption

theorem Agents.flush {m : Mode} {s : State} (h : Agents m s) : Agents m (flush s) := by
  unfold Machine.flush
  dsimp only
  cases m
  · split
    · rename_i c
      obtain ⟨h1, h2, h3, h4, h5⟩ := h
      refine ⟨h1.congr rfl rfl rfl, h2, h3, ?_, ?_⟩ <;> simp
    · exact h.congr rfl rfl rfl rfl rfl rfl
  · rw [if_neg (by simp [h.2.1])]
    exact h.congr rfl rfl rfl rfl rfl rfl
  · rw [if_neg (by simp [h.2.2.2.1])]
    exact h.congr rfl rfl rfl rfl rfl rfl

theorem Agents.writeCtrl {m : Mode} {s : State} (v : Word) (h : Agents m s) (l : Legal s)  :
    Agents m (writeCtrl v s) := by
  have clk : 1 ≤ s.par.clkPerMs := by have := l.params; simp [Params.legal] at this; omega
  have per : 1 ≤ s.csr.pollPeriod.toNat := by
    have := l.pollPeriod
    rcases Nat.eq_zero_or_pos s.csr.pollPeriod.toNat with e | e
    · exact absurd (BitVec.eq_of_toNat_eq (by simpa using e)) this
    · exact e
  have pos := Nat.mul_pos per clk
  -- the fields and the poller's start or stop
  have go : ∀ u : State, u = (if v.getLsbD 0 && !s.csr.touchEn then
        touchStart { s with csr := { s.csr with
          touchEn := v.getLsbD 0, ieReady := v.getLsbD 1, ieFault := v.getLsbD 2, ieIdle := v.getLsbD 3 } }
      else if s.csr.touchEn && !v.getLsbD 0 then
        touchStop { s with csr := { s.csr with
          touchEn := v.getLsbD 0, ieReady := v.getLsbD 1, ieFault := v.getLsbD 2, ieIdle := v.getLsbD 3 } }
      else { s with csr := { s.csr with
          touchEn := v.getLsbD 0, ieReady := v.getLsbD 1, ieFault := v.getLsbD 2, ieIdle := v.getLsbD 3 } }) →
      Agents m u := by
    intro u hu
    have rest : PollerAtRest s → PollerAtRest u := by
      intro r
      obtain ⟨r1, r2, r3, r4, r5, r6⟩ := r
      subst hu
      cases hs : s.poll.state <;> cases hv : v.getLsbD 0 <;> cases he : s.csr.touchEn <;>
        (try exact absurd hs r1) <;> (try simp [hs, he] at r3) <;>
        constructor <;> simp_all [touchStart, touchStop, l.pollPeriod]
    have poll : s.poll.state = .active → u.poll.state = .active := by
      intro e
      subst hu
      repeat' split
      · simp [touchStart, e]
      · simp [touchStop, e]
      · exact e
    have oth : u.seq = s.seq ∧ u.owner = s.owner ∧ u.csr.err = s.csr.err := by
      subst hu
      unfold touchStart touchStop
      dsimp only
      repeat' split
      all_goals simp
    obtain ⟨o1, o2, o3⟩ := oth
    cases m
    · exact ⟨rest h.1, by rw [o1]; exact h.2.1, by rw [o1, o3]; exact h.2.2.1, by rw [o1]; exact h.2.2.2.1,
        by rw [o1, o2]; exact h.2.2.2.2⟩
    · exact ⟨rest h.1, by rw [o1]; exact h.2.1, by rw [o3]; exact h.2.2.1, by rw [o2]; exact h.2.2.2⟩
    · exact ⟨poll h.1, by rw [o1]; exact h.2.1, by rw [o1, o3]; exact h.2.2.1, by rw [o1]; exact h.2.2.2.1,
        by rw [o2]; exact h.2.2.2.2⟩
  unfold Machine.writeCtrl
  dsimp only
  split
  · exact (go _ rfl).flush
  · exact go _ rfl

theorem Agents.faultReturn {m : Mode} {s : State} (h : Agents m s) : Agents m (faultReturn s) := by
  unfold Machine.faultReturn
  split
  · rename_i f
    have f : s.seq.state = .fault := by simpa [State.faulted] using f
    cases m
    · obtain ⟨h1, h2, h3, h4, h5⟩ := h
      have c : s.seq.chain = false := by
        cases e : s.seq.chain
        · rfl
        · have := h4 e; rw [f] at this; cases this
      refine ⟨h1.congr rfl rfl rfl, ?_, ?_, ?_, ?_⟩ <;> simp [h5, c]
    · exact absurd (h.2.1.symm.trans f) (by simp)
    · obtain ⟨h1, h2, h3, h4, h5⟩ := h
      refine ⟨h1, ?_, ?_, h4, h5⟩ <;> simp
  · exact h

theorem touchStart_seq (s : State) : (touchStart s).seq = s.seq := by unfold touchStart; split <;> rfl

theorem touchStop_seq (s : State) : (touchStop s).seq = s.seq := by unfold touchStop; dsimp only; split <;> rfl

theorem flush_seq (s : State) : (flush s).seq = s.seq ∨ (flush s).seq = { s.seq with chain := false } := by
  unfold Machine.flush
  dsimp only
  split
  · exact .inr rfl
  · exact .inl rfl

theorem writeCtrl_seq (v : Word) (s : State) :
    (writeCtrl v s).seq = s.seq ∨ (writeCtrl v s).seq = { s.seq with chain := false } := by
  simp only [Machine.writeCtrl]
  split <;> split
  · simpa only [touchStart_seq] using flush_seq (touchStart _)
  · split
    · simpa only [touchStop_seq] using flush_seq (touchStop _)
    · exact flush_seq _
  · exact .inl (touchStart_seq _)
  · split
    · exact .inl (touchStop_seq _)
    · exact .inl rfl

/-- What a register write can do to the sequencer: nothing, close a chain, or return from a fault. -/
theorem writeEffect_seq (c : CsrName) (v : Word) (s : State) : (writeEffect c v s).seq = s.seq ∨
    (writeEffect c v s).seq = { s.seq with chain := false } ∨
    (s.seq.state = .fault ∧ (writeEffect c v s).seq = { s.seq with state := .idle, resume := s.env.now + 1 }) := by
  cases c <;> simp only [Machine.writeEffect]
  case ctrl => exact (writeCtrl_seq v s).imp_right .inl
  case status =>
    simp only [writeStatus, Machine.faultReturn]
    split
    · split
      · rename_i f
        exact .inr (.inr ⟨by simpa [State.faulted] using f, rfl⟩)
      · exact .inl rfl
    · exact .inl rfl
  case cmd => unfold pushWord; split <;> exact .inl rfl
  case lb => unfold writeLb; split <;> exact .inl rfl
  all_goals simp

theorem Resumes.writeEffect {m : Mode} {s : State} (c : CsrName) (v : Word) (r : Resumes s) (h : Agents m s) :
    Resumes (writeEffect c v s) := by
  have now : (Machine.writeEffect c v s).env.now = s.env.now := by rw [writeEffect_env]
  obtain e | e | ⟨f, e⟩ := writeEffect_seq c v s
  · exact r.congr e now.ge
  · refine ⟨by rw [e, now]; exact r.soon, ?_⟩
    rw [e, now]
    rintro (k | k)
    · exact r.closed (.inl k)
    · cases k
  · have closed : s.seq.chain = false := by
      cases m
      · cases q : s.seq.chain
        · rfl
        · have := h.2.2.2.1 q; rw [f] at this; cases this
      · have := h.2.1; rw [f] at this; cases this
      · exact h.2.2.2.1
    refine ⟨by rw [e, now], ?_⟩
    rw [e]
    rintro (k | k)
    · cases k
    · rw [closed] at k; cases k

/-- Every register write keeps what holds at every instant. -/
theorem Mid.writeEffect {m : Mode} {tp act : Bool} {s : State} (c : CsrName) (v : Word) (h : Mid m tp act s) :
    Mid m tp act (writeEffect c v s) where
  legal := h.legal.writeEffect c v
  agents := by
    cases c <;> simp only [Machine.writeEffect]
    case ctrl => exact h.agents.writeCtrl v h.legal
    case status =>
      have : Agents m (if v.getLsbD 2 then faultReturn s else s) := by
        split
        · exact h.agents.faultReturn
        · exact h.agents
      exact this.congr rfl rfl rfl rfl rfl rfl
    case cmd =>
      unfold pushWord
      split <;> exact h.agents.congr rfl rfl rfl rfl rfl rfl
    case lb i =>
      unfold writeLb
      split <;> exact h.agents.congr rfl rfl rfl rfl rfl rfl
    all_goals exact h.agents.congr rfl rfl rfl rfl rfl rfl
  resumes := h.resumes.writeEffect c v h.agents
  tphase := (hostOnly_writeEffect c v s).tphase.trans h.tphase
  act := (hostOnly_writeEffect c v s).tpollAct.trans h.act

/-- Every register read keeps what holds at every instant. -/
theorem Mid.readEffect {m : Mode} {tp act : Bool} {s : State} (c : CsrName) (h : Mid m tp act s) :
    Mid m tp act (readEffect c s) where
  legal := by
    obtain ⟨h1, h2, h3, h4, h5, h6, h7, h8⟩ := h.legal
    unfold Machine.readEffect
    repeat' split
    all_goals constructor <;> assumption
  agents := by
    unfold Machine.readEffect
    repeat' split
    all_goals exact h.agents.congr rfl rfl rfl rfl rfl rfl
  resumes := by
    refine h.resumes.congr ?_ (by rw [readEffect_env])
    unfold Machine.readEffect
    repeat' split
    all_goals rfl
  tphase := (hostOnly_readEffect c s).tphase.trans h.tphase
  act := (hostOnly_readEffect c s).tpollAct.trans h.act

/-- A host access that is done. -/
theorem takeHost_done_eq {r : HostReq} {rest : List HostReq} {s s' : State} (h : takeHost r rest s = .done s') :
    ∃ u, u = { s with env := { s.env with host := rest, portFree := s.env.now + 1 } } ∧
      ((∃ c v, s' = writeEffect c v u) ∨ ∃ c a v, s' = logRead a v (readEffect c u)) := by
  refine ⟨_, rfl, ?_⟩
  unfold takeHost hostOp at h
  split at h
  · split at h
    · cases h
    · injection h with h
      exact .inr ⟨_, _, _, h.symm⟩
  · split at h
    · cases h
    · injection h with h
      exact .inl ⟨_, _, h.symm⟩
  · cases h

theorem Mid.host {m : Mode} {tp act : Bool} {r : HostReq} {rest : List HostReq} {s s' : State}
    (h : Mid m tp act s) (e : takeHost r rest s = .done s') : Mid m tp act s' := by
  obtain ⟨u, eu, k⟩ := takeHost_done_eq e
  have hu : Mid m tp act u := by
    subst eu
    exact h.congr rfl rfl rfl rfl rfl rfl rfl (le_refl _)
  obtain ⟨c, v, rfl⟩ | ⟨c, a, v, rfl⟩ := k
  · exact hu.writeEffect c v
  · exact (hu.readEffect c).congr rfl rfl rfl rfl rfl rfl rfl (le_refl _)

/-! ### The pins inside a phase, and a block reset -/

/-- The pins at each stage of a phase (40_spi_framing.md R131 to R133). -/
def PinsIn (g : Stage) (s : State) : Prop :=
  s.pins.csN = decide (g = .gap) ∧ s.pins.rstN = true ∧
    (g = .gap ∨ g = .opened ∨ g = .between → s.pins.mosi = false ∧ s.pins.sck = sckIdle s.par.spiMode)

/-- The state after a block reset (10_state.md R52) meets the invariant. -/
theorem inv_afterReset {p : Params} (h : p.legal = true) (e : Env) (c : Nat) : Inv (State.afterReset p e c) where
  legal := {
    params := h
    queue := by simp [State.afterReset]
    buffer := by simp [State.afterReset, lbAtReset]
    waitLimit := by simp [State.afterReset, Csr.reset]
    pollPeriod := by simp [State.afterReset, Csr.reset]
    tcfg1Reserved := by simp [State.afterReset, Csr.reset]
    releasePolls := by simp [State.afterReset, Csr.reset, releasePolls]
    rdata := by simp [State.afterReset, Csr.reset] }
  poller := by constructor <;> simp [State.afterReset, Csr.reset]
  pins := ⟨rfl, rfl, rfl, rfl⟩
  notBusy := by simp [State.afterReset]
  err := by simp [State.afterReset, Csr.reset]
  chain := by simp [State.afterReset]
  owner := by simp [State.afterReset]
  resumes := by constructor <;> simp [State.afterReset]
  tphase := rfl
  tpollAct := rfl
  noLocal := rfl

/-- A block reset among the host actions. -/
theorem takeHost_reset {r : HostReq} {rest : List HostReq} {s s' : State} (h : takeHost r rest s = .reset s') :
    ∃ low e c, r.op = .blockReset low ∧ s' = State.afterReset s.par e c ∧ e.host = rest ∧
      e.now = s.env.now + low + 1 := by
  unfold takeHost hostOp at h
  split at h
  · split at h <;> cases h
  · split at h <;> cases h
  · rename_i low k
    injection h with h
    subst h
    refine ⟨low, _, _, k, rfl, ?_, rfl⟩
    simp only [releasePins, emitRise]
    split <;> split <;> (try split) <;> simp [takeBusErr_other]

/-- What holds at every instant of a mode holds inside every phase. -/
theorem mid_law (m : Mode) (tp act : Bool) :
    BusLaw (fun g s => Mid m tp act s ∧ PinsIn g s) Inv True where
  time := fun g n s _ h => ⟨h.1.tick n, h.2⟩
  host := fun g r rest s s' h _ e => by
    have k := (takeHost_done e).1
    refine ⟨h.1.host e, ?_⟩
    unfold PinsIn
    rw [k.pins, k.par]
    exact h.2
  reset := fun g r rest s s' h _ e => by
    obtain ⟨low, e, c, -, rfl, -⟩ := takeHost_reset e
    exact inv_afterReset h.1.legal.params _ _
  stop := fun _ _ _ _ _ _ _ _ => trivial
  fall := fun s h _ => ⟨h.1.congr rfl rfl rfl rfl rfl rfl rfl (le_refl _), by simp, h.2.2.1, fun _ => h.2.2.2 (.inl rfl)⟩
  drive := fun g a b s n h => by
    refine ⟨h.1.congr rfl rfl rfl rfl rfl rfl rfl (le_refl _), ?_, h.2.2.1, ?_⟩
    · have := h.2.1
      cases g <;> simp_all [Stage.inSlot]
    · cases g <;> simp [Stage.inSlot] at n ⊢
  endFirst := fun t r s _ h =>
    ⟨h.1.congr rfl rfl rfl rfl rfl rfl rfl (by simp [takeMiso_other]), by simpa using h.2.1, h.2.2.1, fun _ => ⟨rfl, rfl⟩⟩
  endNext := fun t r s h =>
    ⟨h.1.congr rfl rfl rfl rfl rfl rfl rfl (by simp [takeMiso_other]), by simpa using h.2.1, h.2.2.1, fun _ => ⟨rfl, rfl⟩⟩
  rise := fun s h =>
    ⟨h.1.congr rfl rfl rfl rfl rfl rfl rfl (by rw [csRise_now]), rfl, h.2.2.1, fun _ => h.2.2.2 (.inr (.inr rfl))⟩
  loc := fun s l _ h => ⟨h.1.congr rfl rfl rfl rfl rfl rfl rfl (le_refl _), h.2⟩

end Sys2Proof.Machine
end

