-- ==== Sys2Proof/Laws/Framing.lean ====
section
/-! SUPPORT. The framing rules of the bus trace at every instant of a command or poll, with RST_N high or low. -/

namespace Sys2Proof.Machine

/-- The framing rules at a stage of a phase. -/
structure FramingIn (g : Stage) (s : State) : Prop where
  framing : Framing s
  csN : s.pins.csN = decide (g = .gap)
  rstN : s.pins.rstN = true
  fresh : (g = .opened ∨ g = .prefixing) ∨ g = .gap ∨
    (s.env.trace.head?.any fun f => f.event == .csl) = false

theorem Framing.congr {s t : State} (h : Framing s) (par : t.par = s.par) (trace : t.env.trace = s.env.trace)
    (now : s.env.now ≤ t.env.now) (csN : t.pins.csN = s.pins.csN) (rstN : t.pins.rstN = s.pins.rstN)
    (ok : t.pins.cslOk = s.pins.cslOk) : Framing t where
  trace := by rw [par, trace]; exact h.trace
  cs := by rw [trace, csN]; exact h.cs
  rst := by rw [trace, rstN]; exact h.rst
  gap := by rw [par, trace, ok]; exact h.gap
  past := by rw [trace]; exact fun e m => (h.past e m).trans now

/-- A new event. -/
theorem framed_cons {p : Params} {e : TraceEntry} {r : List TraceEntry} (h : framed p r = true)
    (past : ∀ f ∈ r, f.cycle ≤ e.cycle) (m : mayFollow p e r = true) : framed p (e :: r) = true := by
  simp only [framed, h, m, Bool.true_and, Bool.and_true]
  cases r with
  | nil => rfl
  | cons f r => simpa using past f List.mem_cons_self

theorem past_emit {s : State} (h : ∀ e ∈ s.env.trace, e.cycle ≤ s.env.now) (ev : BusEvent) :
    ∀ e ∈ (emit ev s).env.trace, e.cycle ≤ (emit ev s).env.now := by
  intro e m
  simp only [emit_env_trace, List.mem_cons] at m
  rcases m with rfl | m
  · exact le_refl _
  · exact h e m

/-- CS_N falls. -/
theorem Framing.fall {s : State} (h : Framing s) (cs : s.pins.csN = true) (rst : s.pins.rstN = true)
    (ok : s.pins.cslOk ≤ s.env.now) : Framing (emit .csl { s with pins := { s.pins with csN := false } }) where
  trace := by
    refine framed_cons h.trace h.past ?_
    have k : (lastRise s.env.trace).all (fun c => decide (c + s.par.tCshMin ≤ s.env.now)) = true := by
      cases e : lastRise s.env.trace with
      | none => rfl
      | some c => have := h.gap c e; simp only [Option.all_some, decide_eq_true_eq]; omega
    simp [mayFollow, h.cs, h.rst, cs, rst, k]
  cs := rfl
  rst := by simpa [rstLowIn] using h.rst
  gap := by simpa [lastRise] using h.gap
  past := past_emit h.past _

/-- A slot ends. -/
theorem Framing.slot {s t : State} {x r : Byte} (h : Framing s) (cs : s.pins.csN = false)
    (first : (s.env.trace.head?.any fun f => f.event == .csl) = false ∨ x = 0x80#8 ∨ x = 0x00#8 ∨ x = 0x40#8)
    (par : t.par = s.par) (trace : t.env.trace = ⟨s.env.now, .x x r⟩ :: s.env.trace) (now : t.env.now = s.env.now)
    (csN : t.pins.csN = s.pins.csN) (rstN : t.pins.rstN = s.pins.rstN) (ok : t.pins.cslOk = s.pins.cslOk) :
    Framing t where
  trace := by
    rw [par, trace]
    refine framed_cons h.trace h.past ?_
    rcases first with k | rfl | rfl | rfl <;> simp [mayFollow, h.cs, cs]
    simp_all
  cs := by rw [trace, csN]; simpa [csLowIn] using h.cs
  rst := by rw [trace, rstN]; simpa [rstLowIn] using h.rst
  gap := by rw [trace, par, ok]; simpa [lastRise] using h.gap
  past := by
    rw [trace, now]
    intro e m
    rcases List.mem_cons.mp m with rfl | m
    · exact le_refl _
    · exact h.past e m

/-- CS_N rises. -/
theorem Framing.rise {s t : State} {e : Bool} (h : Framing s) (cs : s.pins.csN = false) (par : t.par = s.par)
    (trace : t.env.trace = ⟨s.env.now, .csh e⟩ :: s.env.trace) (now : t.env.now = s.env.now)
    (csN : t.pins.csN = true) (rstN : t.pins.rstN = s.pins.rstN) (ok : t.pins.cslOk = s.env.now + s.par.tCshMin) :
    Framing t where
  trace := by
    rw [par, trace]
    refine framed_cons h.trace h.past ?_
    simp [mayFollow, h.cs, cs]
  cs := by rw [trace, csN]; rfl
  rst := by rw [trace, rstN]; simpa [rstLowIn] using h.rst
  gap := by rw [trace, par, ok]; simp [lastRise]
  past := by
    rw [trace, now]
    intro e m
    rcases List.mem_cons.mp m with rfl | m
    · exact le_refl _
    · exact h.past e m

/-- RST_N falls. -/
theorem Framing.rstLow {s : State} (h : Framing s) (cs : s.pins.csN = true) (rst : s.pins.rstN = true) :
    Framing (rstLow s) where
  trace := by
    refine framed_cons h.trace h.past ?_
    simp [mayFollow, h.cs, h.rst, cs, rst]
  cs := by simpa [Machine.rstLow, csLowIn] using h.cs
  rst := rfl
  gap := by simpa [Machine.rstLow, lastRise] using h.gap
  past := past_emit h.past _

/-- RST_N rises. -/
theorem Framing.rstHigh {s t : State} (h : Framing s) (cs : s.pins.csN = true) (rst : s.pins.rstN = false)
    (par : t.par = s.par) (trace : t.env.trace = ⟨s.env.now, .rsth⟩ :: s.env.trace) (now : t.env.now = s.env.now)
    (csN : t.pins.csN = s.pins.csN) (rstN : t.pins.rstN = true) (ok : t.pins.cslOk = s.pins.cslOk) : Framing t where
  trace := by
    rw [par, trace]
    refine framed_cons h.trace h.past ?_
    simp [mayFollow, h.cs, h.rst, cs, rst]
  cs := by rw [trace, csN]; simpa [csLowIn] using h.cs
  rst := by rw [trace, rstN]; rfl
  gap := by rw [trace, par, ok]; simpa [lastRise] using h.gap
  past := by
    rw [trace, now]
    intro e m
    rcases List.mem_cons.mp m with rfl | m
    · exact le_refl _
    · exact h.past e m

/-- A block reset, at any instant (70_reset_and_hazards.md R341). -/
theorem Framing.blockReset {s : State} (h : Framing s) (low : Nat) : Framing (blockReset low s) := by
  have h1 : ∃ u, u.pins.csN = true ∧ u.pins.rstN = s.pins.rstN ∧ u.pins.cslOk = cslOkAfterReset s ∧ u.par = s.par ∧
      u.env.now = s.env.now ∧ Framing u ∧
      u.env.trace = (if s.pins.csN then s else emitRise s).env.trace := by
    have k := emitRise_env s
    cases e : s.pins.csN
    · exact ⟨{ emitRise s with pins := { s.pins with csN := true, cslOk := s.env.now + s.par.tCshMin } },
        rfl, rfl, by simp [cslOkAfterReset, e], rfl, k.1, h.rise e rfl k.2.2.2.2.2 k.1 rfl rfl rfl, by simp⟩
    · exact ⟨s, e, rfl, by simp [cslOkAfterReset, e], rfl, rfl, h, by simp⟩
  obtain ⟨u, u1, u2, u3, u4, u5, fu, ut⟩ := h1
  have h2 : ∃ v, v.pins.csN = true ∧ v.pins.rstN = true ∧ v.pins.cslOk = cslOkAfterReset s ∧ v.par = s.par ∧
      v.env.now = s.env.now ∧ Framing v ∧ v.env.trace = (releasePins s).env.trace := by
    cases e : s.pins.rstN
    · refine ⟨{ emit .rsth u with pins := { u.pins with rstN := true } }, u1, rfl, u3, u4, u5,
        fu.rstHigh u1 (u2.trans e) rfl rfl rfl rfl rfl rfl, ?_⟩
      simp only [emit_env_trace, u5, ut, releasePins]
      cases c : s.pins.csN <;> simp [e, emitRise_env]
    · refine ⟨u, u1, u2.trans e, u3, u4, u5, fu, ?_⟩
      rw [ut, releasePins]
      cases c : s.pins.csN <;> simp [e]
  obtain ⟨v, v1, v2, v3, v4, v5, fv, vt⟩ := h2
  refine fv.congr ?_ ?_ ?_ ?_ ?_ ?_
  · exact v4.symm
  · rw [vt]; rfl
  · rw [v5]; show s.env.now ≤ s.env.now + low + 1; omega
  · rw [v1]; rfl
  · rw [v2]; rfl
  · rw [v3]; rfl

/-- A block reset among the host actions. -/
theorem Framing.takeHost_reset {r : HostReq} {rest : List HostReq} {s s' : State} (h : Framing s)
    (e : takeHost r rest s = .reset s') : Framing s' := by
  unfold takeHost hostOp at e
  split at e
  · split at e <;> cases e
  · split at e <;> cases e
  · injection e with e
    subst e
    exact Framing.blockReset (s := { s with env := { s.env with host := rest, portFree := s.env.now + 1 } })
      (h.congr rfl rfl (le_refl _) rfl rfl rfl) _

/-- A host access. -/
theorem Framing.takeHost_done {r : HostReq} {rest : List HostReq} {s s' : State} (h : Framing s)
    (e : takeHost r rest s = .done s') : Framing s' := by
  obtain ⟨k, n, -⟩ := Machine.takeHost_done e
  exact h.congr k.par k.trace (by rw [n]) (by rw [k.pins]) (by rw [k.pins]) (by rw [k.pins])

/-- The framing rules hold at every instant of a phase. -/
theorem framing_law : BusLaw FramingIn Framing True where
  time := fun g n s _ h => ⟨h.framing.congr rfl rfl (Nat.le_add_right _ _) rfl rfl rfl, h.csN, h.rstN, h.fresh⟩
  host := fun g r rest s s' h _ e => by
    have k := (takeHost_done e).1
    exact ⟨h.framing.takeHost_done e, by rw [k.pins]; exact h.csN, by rw [k.pins]; exact h.rstN,
      by rw [k.trace]; exact h.fresh⟩
  reset := fun g r rest s s' h _ e => h.framing.takeHost_reset e
  stop := fun _ _ _ _ _ _ _ _ => trivial
  fall := fun s h ok => ⟨h.framing.fall h.csN h.rstN ok, rfl, h.rstN, .inl (.inl rfl)⟩
  drive := fun g a b s n h => by
    refine ⟨h.framing.congr rfl rfl (le_refl _) rfl rfl rfl, ?_, h.rstN, ?_⟩
    · have := h.csN
      cases g <;> simp_all [Stage.inSlot]
    · have := h.fresh
      cases g <;> simp_all [Stage.inSlot]
  endFirst := fun t r s p h => by
    have k := takeMiso_other s.env
    exact ⟨h.framing.slot (x := t) (r := r) (by rw [h.csN]; rfl) (.inr p) rfl (by simp [k]) (by simp [k]) rfl rfl rfl, h.csN, h.rstN,
      .inr (.inr (by simp))⟩
  endNext := fun t r s h => by
    have k := takeMiso_other s.env
    have f : (s.env.trace.head?.any fun f => f.event == .csl) = false := by
      rcases h.fresh with (f | f) | f | f
      · cases f
      · cases f
      · cases f
      · exact f
    exact ⟨h.framing.slot (x := t) (r := r) (by rw [h.csN]; rfl) (.inl f) rfl (by simp [k]) (by simp [k]) rfl rfl rfl, h.csN, h.rstN,
      .inr (.inr (by simp))⟩
  rise := fun s h => by
    have k := takeBusErr_other s.env
    refine ⟨h.framing.rise (e := s.par.hasBusErr && s.env.nextBusErr) (by rw [h.csN]; rfl) rfl ?_ ?_ rfl rfl ?_, rfl,
      h.rstN, .inr (.inl rfl)⟩ <;> simp only [csRise, emitRise, State.busError, emit] <;> split <;> simp [k]
  loc := fun s l _ h => ⟨h.framing.congr rfl rfl (le_refl _) rfl rfl rfl, h.csN, h.rstN, h.fresh⟩

/-- The framing rules while RST_N is low. -/
theorem framing_low : TimeLaw (fun s => Framing s ∧ s.pins.csN = true ∧ s.pins.rstN = false) Framing True where
  time := fun n s _ h => ⟨h.1.congr rfl rfl (Nat.le_add_right _ _) rfl rfl rfl, h.2⟩
  host := fun r rest s s' h _ e => by
    have k := (takeHost_done e).1
    exact ⟨h.1.takeHost_done e, by rw [k.pins]; exact h.2⟩
  reset := fun r rest s s' h _ e => h.1.takeHost_reset e
  stop := fun _ _ _ _ _ _ _ => trivial

/-- The reset pulse (43_system_commands.md R200). -/
theorem framing_resetPulse {s : State} (h : FramingIn .gap s) :
    (resetPulse s).Sat (FramingIn .gap) Framing True :=
  framing_law.resetPulse_sat framing_low (fun _ h => ⟨h.framing.rstLow h.csN h.rstN, h.csN, rfl⟩)
    (fun _ _ _ h => ⟨h.1.congr rfl rfl (le_refl _) rfl rfl rfl, h.2⟩)
    (fun _ h => ⟨h.1.rstHigh h.2.1 h.2.2 rfl rfl rfl rfl rfl rfl, h.2.1, rfl, .inr (.inl rfl)⟩) h

end Sys2Proof.Machine
end

