-- ==== Sys2Proof/Laws/PerInstr.lean ====
section
/-! SUPPORT. The fields of an encoded command, one lemma per constructor. -/

namespace Sys2Proof.Laws.Fields

open Sys2Proof

/-- An encoded command's opcode is a defined one, its K is the command's chain bit and its RSV is 0
(30_encoding.md R100, R102, R108). -/
def Statement (i : Instr) : Prop :=
  (opField (encode i)).toNat < 0xB ∧ kField (encode i) = i.k ∧ rsvField (encode i) = 0#3

theorem nop (k : Bool) : Statement (.nop k) :=
  ⟨by simp [encode, opField_encodeFields], kField_encodeFields _ _ _ _, rsvField_encodeFields _ _ _ _⟩

theorem wreg (k : Bool) (a v : Byte) : Statement (.wreg k a v) :=
  ⟨by simp [encode, opField_encodeFields], kField_encodeFields _ _ _ _, rsvField_encodeFields _ _ _ _⟩

theorem rreg (k : Bool) (a : Byte) : Statement (.rreg k a) :=
  ⟨by simp [encode, opField_encodeFields], kField_encodeFields _ _ _ _, rsvField_encodeFields _ _ _ _⟩

theorem wreg16 (k : Bool) (a : Byte) (d : Half) : Statement (.wreg16 k a d) :=
  ⟨by simp [encode, opField_encodeFields], kField_encodeFields _ _ _ _, rsvField_encodeFields _ _ _ _⟩

theorem wait (k : Bool) (a m : Byte) : Statement (.wait k a m) :=
  ⟨by simp [encode, opField_encodeFields], kField_encodeFields _ _ _ _, rsvField_encodeFields _ _ _ _⟩

theorem delay (k : Bool) (ms : Half) : Statement (.delay k ms) :=
  ⟨by simp [encode, opField_encodeFields], kField_encodeFields _ _ _ _, rsvField_encodeFields _ _ _ _⟩

theorem mwrite (k : Bool) (a : Byte) (n : Half) : Statement (.mwrite k a n) :=
  ⟨by simp [encode, opField_encodeFields], kField_encodeFields _ _ _ _, rsvField_encodeFields _ _ _ _⟩

theorem mread (k : Bool) (a : Byte) (n : Half) : Statement (.mread k a n) :=
  ⟨by simp [encode, opField_encodeFields], kField_encodeFields _ _ _ _, rsvField_encodeFields _ _ _ _⟩

theorem reset (k : Bool) : Statement (.reset k) :=
  ⟨by simp [encode, opField_encodeFields], kField_encodeFields _ _ _ _, rsvField_encodeFields _ _ _ _⟩

theorem init (k : Bool) (g : Half) : Statement (.init k g) :=
  ⟨by simp [encode, opField_encodeFields], kField_encodeFields _ _ _ _, rsvField_encodeFields _ _ _ _⟩

theorem tpoll (k : Bool) : Statement (.tpoll k) :=
  ⟨by simp [encode, opField_encodeFields], kField_encodeFields _ _ _ _, rsvField_encodeFields _ _ _ _⟩

end Sys2Proof.Laws.Fields
end

