-- ==== Sys2Proof/Laws/Quiet.lean ====
section
/-! SUPPORT. What the bus primitives leave alone when the host does nothing: everything but time, the trace, the
pins, the device's inputs and the local counters. The poller's timer counts the cycles. -/

namespace Sys2Proof.Machine

/-- Counting cycles in two parts. -/
theorem advance_add (c m n : Nat) (p : Poll) : (p.advance c m).advance c n = p.advance c (m + n) := by
  obtain ⟨st, tm, rc, tp, pd, sp⟩ := p
  cases st
  case timing =>
    simp only [Poll.advance]
    by_cases h : pd.toNat * c ≤ tm + m
    · rw [if_pos h, if_pos (show pd.toNat * c ≤ tm + (m + n) by omega)]
    · rw [if_neg h]
      simp only
      by_cases g : pd.toNat * c ≤ tm + m + n
      · rw [if_pos g, if_pos (show pd.toNat * c ≤ tm + (m + n) by omega)]
      · rw [if_neg g, if_neg (show ¬ pd.toNat * c ≤ tm + (m + n) by omega), Nat.add_assoc]
  all_goals rfl

/-- What does not change between `s` and `t` while a phase runs and the host does nothing. -/
structure Still (s t : State) : Prop where
  par : t.par = s.par
  csr : t.csr = s.csr
  q : t.q = s.q
  lb : t.lb = s.lb
  seq : t.seq = s.seq
  sample : t.sample = s.sample
  owner : t.owner = s.owner
  host : t.env.host = s.env.host
  portFree : t.env.portFree = s.env.portFree
  reads : t.env.reads = s.env.reads
  resets : t.env.resets = s.env.resets
  rstN : t.pins.rstN = s.pins.rstN
  step : t.loc.step = s.loc.step
  now : s.env.now ≤ t.env.now
  poll : t.poll = s.poll.advance s.par.clkPerMs (t.env.now - s.env.now)

theorem Still.tick {s t : State} (h : Still s t) (n : Nat) : Still s (tick n t) where
  par := h.par
  csr := h.csr
  q := h.q
  lb := h.lb
  seq := h.seq
  sample := h.sample
  owner := h.owner
  host := h.host
  portFree := h.portFree
  reads := h.reads
  resets := h.resets
  rstN := h.rstN
  step := h.step
  now := Nat.le_add_right_of_le h.now
  poll := by
    have := h.now
    simp only [tick_poll, tick_env_now, h.poll, h.par, advance_add]
    congr 1
    omega

/-- The first cycle of a command or poll. -/
theorem Still.start (s : State) : Still s (Machine.tick 1 s) where
  par := rfl
  csr := rfl
  q := rfl
  lb := rfl
  seq := rfl
  sample := rfl
  owner := rfl
  host := rfl
  portFree := rfl
  reads := rfl
  resets := rfl
  rstN := rfl
  step := rfl
  now := Nat.le_add_right _ _
  poll := by simp

/-- A change of the fields that a running phase changes. -/
theorem Still.change {s t u : State} (h : Still s t) (par : u.par = t.par) (csr : u.csr = t.csr) (q : u.q = t.q)
    (lb : u.lb = t.lb) (seq : u.seq = t.seq) (sample : u.sample = t.sample) (owner : u.owner = t.owner)
    (host : u.env.host = t.env.host) (portFree : u.env.portFree = t.env.portFree)
    (reads : u.env.reads = t.env.reads) (resets : u.env.resets = t.env.resets)
    (rstN : u.pins.rstN = t.pins.rstN) (step : u.loc.step = t.loc.step) (now : u.env.now = t.env.now)
    (poll : u.poll = t.poll) : Still s u where
  par := par.trans h.par
  csr := csr.trans h.csr
  q := q.trans h.q
  lb := lb.trans h.lb
  seq := seq.trans h.seq
  sample := sample.trans h.sample
  owner := owner.trans h.owner
  host := host.trans h.host
  portFree := portFree.trans h.portFree
  reads := reads.trans h.reads
  resets := resets.trans h.resets
  rstN := rstN.trans h.rstN
  step := step.trans h.step
  now := by rw [now]; exact h.now
  poll := by rw [now, poll]; exact h.poll

/-- What `Still` names does not change between one of the quiet states of `W` and `t`. -/
def StillOf (W : State → Prop) (t : State) : Prop := ∃ w, W w ∧ Still w t

/-- Every piece of a phase keeps still what `Still` names, and no host action cuts it short. -/
theorem stillOf_law {W : State → Prop} (h : ∀ w, W w → Quiet w) :
    BusLaw (fun _ t => StillOf W t) (fun _ => False) False where
  time := fun _ n _ _ ⟨w, hw, p⟩ => ⟨w, hw, p.tick n⟩
  host := fun _ r rest t t' ⟨w, hw, p⟩ e => by rw [p.host, h w hw] at e; cases e
  reset := fun _ r rest t t' ⟨w, hw, p⟩ e => by rw [p.host, h w hw] at e; cases e
  stop := fun _ r rest t x ⟨w, hw, p⟩ e => by rw [p.host, h w hw] at e; cases e
  fall := fun _ ⟨w, hw, p⟩ _ => ⟨w, hw, p.change rfl rfl rfl rfl rfl rfl rfl rfl rfl rfl rfl rfl rfl rfl rfl⟩
  drive := fun _ a b _ _ ⟨w, hw, p⟩ => ⟨w, hw, p.change rfl rfl rfl rfl rfl rfl rfl rfl rfl rfl rfl rfl rfl rfl rfl⟩
  endFirst := fun x r t _ ⟨w, hw, p⟩ => by
    have k := takeMiso_other t.env
    exact ⟨w, hw, p.change rfl rfl rfl rfl rfl rfl rfl k.1 k.2.1 k.2.2.1 k.2.2.2.1 rfl rfl k.2.2.2.2.1 rfl⟩
  endNext := fun x r t ⟨w, hw, p⟩ => by
    have k := takeMiso_other t.env
    exact ⟨w, hw, p.change rfl rfl rfl rfl rfl rfl rfl k.1 k.2.1 k.2.2.1 k.2.2.2.1 rfl rfl k.2.2.2.2.1 rfl⟩
  rise := fun t ⟨w, hw, p⟩ => by
    have k := takeBusErr_other t.env
    refine ⟨w, hw, p.change rfl rfl rfl rfl rfl rfl rfl ?_ ?_ ?_ ?_ rfl rfl ?_ rfl⟩ <;>
      simp only [csRise, emitRise, State.busError, emit] <;> split
    all_goals simp [k]
  loc := fun t l e ⟨w, hw, p⟩ => ⟨w, hw, p.change rfl rfl rfl rfl rfl rfl rfl rfl rfl rfl rfl rfl e rfl rfl⟩

/-- The same for one state. -/
theorem still_law {s : State} (h : Quiet s) : BusLaw (fun _ t => StillOf (· = s) t) (fun _ => False) False :=
  stillOf_law fun w e => by rw [e]; exact h

theorem stillOf_eq {s t : State} : StillOf (· = s) t ↔ Still s t :=
  ⟨fun ⟨_, e, h⟩ => e ▸ h, fun h => ⟨s, rfl, h⟩⟩

/-- The same change of RDATA, INIT_DONE, the line buffer, RST_N and the local state on both sides. -/
theorem Still.rebase {s t : State} (h : Still s t) (r : Word) (d : Bool) (l : List Half) (n : Bool) (c c' : Local)
    (e : c'.step = c.step) :
    Still { s with csr := { s.csr with rdata := r, initDone := d }, lb := l, pins := { s.pins with rstN := n }, loc := c }
      { t with csr := { t.csr with rdata := r, initDone := d }, lb := l, pins := { t.pins with rstN := n }, loc := c' } where
  par := h.par
  csr := by rw [h.csr]
  q := h.q
  lb := rfl
  seq := h.seq
  sample := h.sample
  owner := h.owner
  host := h.host
  portFree := h.portFree
  reads := h.reads
  resets := h.resets
  rstN := rfl
  step := e
  now := h.now
  poll := h.poll

/-- A piece of a phase that yields a value in `s` under the one law and is still under the other. -/
theorem Res.Yields.and_sat {α : Type} {r : Res α} {Q : α → State → Prop} {P C : State → Prop} {S : Prop}
    (h : r.Yields Q) (g : r.Sat P C S) : r.Yields fun a s => Q a s ∧ P s := by
  obtain ⟨a, s, rfl, q⟩ := h
  exact ⟨a, s, rfl, q, g⟩

/-- What a quiet command leaves: the registers and the line buffer of a state `w` of `W`, time and the poller's
timer, and the fault record if it faulted. -/
theorem closeCommand_still {k : Bool} {s t : State} {r : Res Unit} {W : State → Prop}
    (h : r.Sat (StillOf W) (fun _ => False) False) (e : closeCommand .command k r = .next t)
    (hw : ∀ w, W w → w.par = s.par ∧ w.q = s.q ∧ w.seq = s.seq ∧ w.env = s.env ∧ w.poll = s.poll ∧
      w.sample = s.sample) :
    ∃ w, W w ∧ OnlyTimePassed s t ∧ SameCsr w t ∧ t.sample = s.sample ∧ t.lb = w.lb ∧
      t.csr.rdata = w.csr.rdata ∧ t.csr.initDone = w.csr.initDone := by
  have go : ∀ w v, W w → Still w v → t.env = { v.env with now := v.env.now + 1 } → t.par = v.par → t.q = v.q →
      t.seq.cur = v.seq.cur → t.poll = v.poll.advance v.par.clkPerMs 1 → t.sample = v.sample → t.lb = v.lb →
      t.csr = { v.csr with err := t.csr.err, errcmd := t.csr.errcmd, erraux := t.csr.erraux } →
      (t.seq.state = .idle → t.csr = v.csr) → OnlyTimePassed s t ∧ SameCsr w t ∧ t.sample = s.sample ∧
      t.lb = w.lb ∧ t.csr.rdata = w.csr.rdata ∧ t.csr.initDone = w.csr.initDone := by
    intro w v hW h e1 e2 e3 e4 e5 e6 e7 e8 e9
    obtain ⟨w1, w2, w3, w4, w5, w6⟩ := hw w hW
    have n := h.now
    refine ⟨⟨(e2.trans h.par).trans w1, (e3.trans h.q).trans w2, by rw [e4, h.seq, w3], by rw [e1, ← w4]; exact h.reads,
      by rw [e1, ← w4]; exact h.host, by rw [e1, ← w4]; exact h.portFree, by rw [e1, ← w4]; exact h.resets,
      by rw [e1, ← w4]; simp only; omega, ?_⟩, ⟨by rw [e8, h.csr], fun q => by rw [e9 q, h.csr]⟩,
      (e6.trans h.sample).trans w6, e7.trans h.lb, by rw [e8, h.csr], by rw [e8, h.csr]⟩
    rw [e5, h.poll, h.par, advance_add, e1, w5, w1, ← w4]
    congr 1
    simp only
    omega
  cases r with
  | ok a v =>
    injection e with e
    subst e
    obtain ⟨w, hW, hS⟩ := h
    exact ⟨w, hW, go w v hW hS rfl rfl rfl rfl rfl rfl rfl rfl fun _ => rfl⟩
  | raise c d v =>
    injection e with e
    subst e
    obtain ⟨w, hW, hS⟩ := h
    refine ⟨w, hW, ?_⟩
    cases hf : v.faulted
    · apply go w v hW hS <;> simp [faultEntry, hf, recordFault, tick]
    · apply go w v hW hS <;> simp [faultEntry, hf, tick]
  | cut v => exact h.elim
  | stop x => exact h.elim

end Sys2Proof.Machine
end

