-- ==== Sys2Proof/WellFormed.lean ====
section
/-! DEFINITION. The operand checks of the opcode map (spec 30_encoding.md R106, column "operand checks"). Every
other operand value is legal. A word whose command fails a check still decodes; its meaning raises the error
the spec names (R110). -/

namespace Sys2Proof

/-- A command whose operands the hardware with `lbWords` line-buffer entries can take (R106, R110). -/
def Instr.wellFormed (lbWords : Nat) : Instr → Bool
  | .nop _ => true
  | .wreg _ _ _ => true
  | .rreg _ _ => true
  | .wreg16 _ a _ => a != 0xff#8
  | .wait _ _ _ => true
  | .delay _ _ => true
  | .mwrite _ _ n => decide (1 ≤ n.toNat ∧ n.toNat ≤ lbWords)
  | .mread _ _ n => decide (1 ≤ n.toNat ∧ n.toNat ≤ lbWords)
  | .reset _ => true
  | .init _ g => g == 0#16 || g == 1#16
  | .tpoll _ => true

end Sys2Proof
end

