-- ==== Sys2Proof/Tests/Slice0.lean ====
section
/-! SUPPORT. Tests of the model against spec 95_test_vectors.md and the rules, each on one step from a small state,
and for every obligation with hypotheses a state and operands that meet them. Expected values are the spec's. -/

namespace Sys2Proof.Tests

open Sys2Proof Sys2Proof.Machine

/-! ### Small states -/

/-- The parameters of 95_test_vectors.md, with the OPEN ones at small legal values and a short line buffer. -/
def par : Params :=
  { cmdqDepth := 16, linebufWords := 8, clkPerMs := 5, sckDiv := 2, spiMode := 0, bitOrder := .msbFirst,
    pixMsbFirst := true, readFill := 0x00#8, mreadDummy := 0, tCshMin := 1, tRstLowMs := 2, tRstWaitMs := 20,
    hasBusErr := false, panel := Config.ra8875Regs, initTable0 := Config.exampleTable 0,
    initTable1 := Config.exampleTable 1, rsqBase := 0x1000 }

/-- After reset, with line buffer 0, 1, 2, ..., the words `q` queued and the answers `miso` to come. -/
def start (q : List Word) (miso : List Byte) : State :=
  let s := State.resetWith par
  { s with
    q := q
    lb := (List.range 8).map (BitVec.ofNat 16)
    env := { s.env with miso := miso } }

/-- The same, with host actions to come. -/
def hosted (q : List Word) (miso : List Byte) (host : List HostReq) : State :=
  let s := start q miso
  { s with env := { s.env with host := host } }

/-- The state in which the meaning of `i` begins, the host about to read STATUS and CTRL while it runs. -/
def running (i : Instr) (miso : List Byte) : State :=
  let s := hosted [encode i] miso [⟨3, .read 0x1008 4⟩, ⟨0, .read 0x1004 4⟩]
  popWord (encode i) [] s

/-- The same with no host action to come. -/
def quiet (i : Instr) (miso : List Byte) : State := popWord (encode i) [] (start [encode i] miso)

/-- The state a step or a command leaves. -/
def after (o : Host.Outcome State Fault Refusal) : Option State :=
  match o with
  | .next s => some s
  | .fault _ => none
  | .refused _ => none

/-- The state a host action leaves. -/
def acted (r : HostRes) : Option State :=
  match r with
  | .done s => some s
  | .reset s => some s
  | .stop _ => none

/-- The state after one step that pops `w`. -/
def popped (w : Word) (miso : List Byte) : Option State := after (step (start [w] miso))

/-- The bus events of a command phase for `a` and a data write of `v`. -/
def wr (a v : Byte) : List BusEvent :=
  [.csl, .x 0x80#8 0#8, .x a 0#8, .csh false, .csl, .x 0x00#8 0#8, .x v 0#8, .csh false]

/-- The bus events of a command phase for `a` and a data read answered by `r`. -/
def rd (a r : Byte) : List BusEvent :=
  [.csl, .x 0x80#8 0#8, .x a 0#8, .csh false, .csl, .x 0x40#8 0#8, .x 0x00#8 r, .csh false]

/-- Answers that put `r` into the read slot of each register read. -/
def reading (rs : List Byte) : List Byte := rs.flatMap fun r => [0#8, 0#8, 0#8, r]

/-- Answers of zero. -/
def zeros (n : Nat) : List Byte := List.replicate n 0#8

/-! ### WellFormed refuses an ill-formed command, one for each of its checks (30_encoding.md R106) -/

theorem test_wreg16_ff_ill_formed : Instr.wellFormed 1024 (.wreg16 false 0xFF#8 0#16) = false := by decide
theorem test_wreg16_fe_well_formed : Instr.wellFormed 1024 (.wreg16 false 0xFE#8 0#16) = true := by decide
theorem test_mwrite_0_ill_formed : Instr.wellFormed 1024 (.mwrite false 2#8 0#16) = false := by decide
theorem test_mwrite_1025_ill_formed : Instr.wellFormed 1024 (.mwrite false 2#8 1025#16) = false := by decide
theorem test_mwrite_1024_well_formed : Instr.wellFormed 1024 (.mwrite false 2#8 1024#16) = true := by decide
theorem test_mread_0_ill_formed : Instr.wellFormed 1024 (.mread false 2#8 0#16) = false := by decide
theorem test_mread_1025_ill_formed : Instr.wellFormed 1024 (.mread true 2#8 1025#16) = false := by decide
theorem test_init_2_ill_formed : Instr.wellFormed 1024 (.init false 2#16) = false := by decide
theorem test_init_ffff_ill_formed : Instr.wellFormed 1024 (.init false 0xFFFF#16) = false := by decide
theorem test_init_1_well_formed : Instr.wellFormed 1024 (.init false 1#16) = true := by decide

/-! ### Decode: words written out from R100's fields OP, K, RSV, A, D (R113, R114; 95_test_vectors.md 2.1) -/

theorem test_decode_nop : decode 0b0000_0_000_00000000_0000000000000000#32 = .ok (.nop false) := by decide
theorem test_decode_nop_k : decode 0b0000_1_000_00000000_0000000000000000#32 = .ok (.nop true) := by decide
theorem test_decode_wreg :
    decode 0b0001_0_000_10001000_0000000000001010#32 = .ok (.wreg false 0x88#8 0x0A#8) := by decide
theorem test_decode_rreg : decode 0b0010_0_000_10001000_0000000000000000#32 = .ok (.rreg false 0x88#8) := by decide
theorem test_decode_wreg16 :
    decode 0b0011_1_000_10010001_0000001100100000#32 = .ok (.wreg16 true 0x91#8 0x0320#16) := by decide
theorem test_decode_wait :
    decode 0b0100_0_000_10010000_0000000010000000#32 = .ok (.wait false 0x90#8 0x80#8) := by decide
theorem test_decode_mwrite :
    decode 0b0101_0_000_00000010_0000010000000000#32 = .ok (.mwrite false 0x02#8 1024#16) := by decide
theorem test_decode_mread :
    decode 0b0110_0_000_00000010_0000000000000001#32 = .ok (.mread false 0x02#8 1#16) := by decide
theorem test_decode_delay : decode 0b0111_0_000_00000000_0000000000010100#32 = .ok (.delay false 20#16) := by decide
theorem test_decode_reset : decode 0b1000_0_000_00000000_0000000000000000#32 = .ok (.reset false) := by decide
theorem test_decode_init : decode 0b1001_0_000_00000000_0000000000000001#32 = .ok (.init false 1#16) := by decide
theorem test_decode_tpoll : decode 0b1010_1_000_00000000_0000000000000000#32 = .ok (.tpoll true) := by decide
theorem test_reserved_b : decode 0xB0000000#32 = .error .reservedOpcode := by decide
theorem test_reserved_f : decode 0xF7FFFFFF#32 = .error .reservedOpcode := by decide
theorem test_rsv : decode 0x01000000#32 = .error .nonzeroReserved := by decide
theorem test_rsv_before_g : decode 0x91000002#32 = .error .nonzeroReserved := by decide
theorem test_nop_d : decode 0x00000001#32 = .error .nonzeroZeroField := by decide
theorem test_wreg_h : decode 0x1088010A#32 = .error .nonzeroZeroField := by decide
theorem test_rreg_d : decode 0x20880001#32 = .error .nonzeroZeroField := by decide
theorem test_wait_h : decode 0x40900180#32 = .error .nonzeroZeroField := by decide
theorem test_delay_a : decode 0x70010014#32 = .error .nonzeroZeroField := by decide
theorem test_reset_d : decode 0x80000001#32 = .error .nonzeroZeroField := by decide
theorem test_init_a : decode 0x90010000#32 = .error .nonzeroZeroField := by decide
theorem test_tpoll_d : decode 0xA0000001#32 = .error .nonzeroZeroField := by decide
theorem test_encode_wreg16 : encode (.wreg16 false 0x91#8 0x0320#16) = 0x30910320#32 := by decide
theorem test_assemble_wreg16_k :
    assembleWord "WREG16.K 0x91, 10".toList = some 0x3891000A#32 := by decide +kernel
theorem test_assemble_out_of_range : assembleWord "WREG 0x188, 10".toList = none := by decide +kernel

/-! ### One step for each command (95_test_vectors.md sections 1 and 2) -/

theorem test_nop_chain : (popped 0x08000000#32 []).map (fun t => (t.seq.chain, t.owner, t.bus)) =
    some (true, .seq, []) := by decide +kernel

/-- Vector S1. -/
theorem test_wreg : (popped 0x1088000A#32 (zeros 4)).map State.bus = some (wr 0x88#8 0x0A#8) := by decide +kernel

/-- Vector S2. -/
theorem test_rreg : (popped 0x20880000#32 (reading [0x0A#8])).map (fun t => (t.bus, t.csr.rdata)) =
    some (rd 0x88#8 0x0A#8, 0x0000000A#32) := by decide +kernel

/-- Vector S3. -/
theorem test_wreg16 : (popped 0x30910320#32 (zeros 8)).map State.bus =
    some (wr 0x91#8 0x20#8 ++ wr 0x92#8 0x03#8) := by decide +kernel

/-- WREG16 at 0xFF (2.1): BAD_OPERAND without a bus event. -/
theorem test_wreg16_ff : (popped 0x30FF1234#32 []).map (fun t => (t.bus, t.csr.err, t.csr.errcmd, t.csr.erraux)) =
    some ([], .badOperand, 0x30FF1234#32, 0#32) := by decide +kernel

/-- Vector S5 with its setting of WAIT_LIMIT: exactly four reads, then HW_FAULT. -/
theorem test_wait_times_out :
    (after (step { start [0x40900080#32] (reading [0x80#8, 0x80#8, 0x80#8, 0x80#8]) with
      csr := { Csr.reset with waitLimit := 4#16 } })).map
      (fun t => (t.bus, t.csr.err, t.csr.errcmd, t.csr.erraux, t.csr.rdata)) =
    some (rd 0x90#8 0x80#8 ++ rd 0x90#8 0x80#8 ++ rd 0x90#8 0x80#8 ++ rd 0x90#8 0x80#8,
      .hwFault, 0x40900080#32, 0x00000080#32, 0x80#32) := by decide +kernel

/-- A WAIT whose third read clears (2.2). -/
theorem test_wait_clears : (popped 0x40900080#32 (reading [0x81#8, 0x81#8, 0x01#8])).map
      (fun t => (t.bus, t.csr.rdata, t.seq.state)) =
    some (rd 0x90#8 0x81#8 ++ rd 0x90#8 0x81#8 ++ rd 0x90#8 0x01#8, 0x01#32, .idle) := by decide +kernel

/-- DELAY 20 (2.2): 20 ms, the pop's and the completion's cycle (70_reset_and_hazards.md R348). -/
theorem test_delay : (popped 0x70000014#32 []).map (fun t => (t.bus, t.env.now)) = some ([], 20 * 5 + 2) := by
  decide +kernel

/-- MWRITE of two pixels, most significant byte first (2.3, with the start state's LB[0] = 0, LB[1] = 1). -/
theorem test_mwrite : (popped 0x50020002#32 (zeros 7)).map State.bus =
    some [.csl, .x 0x80#8 0#8, .x 0x02#8 0#8, .csh false, .csl, .x 0x00#8 0#8, .x 0x00#8 0#8, .x 0x00#8 0#8,
      .x 0x00#8 0#8, .x 0x01#8 0#8, .csh false] := by decide +kernel

theorem test_mwrite_none : (popped 0x50020000#32 []).map (fun t => (t.bus, t.csr.err)) = some ([], .badOperand) := by
  decide +kernel

/-- MREAD of two pixels (2.3): LB[0] and LB[1] written, LB[5] kept. -/
theorem test_mread : (popped 0x60020002#32 [0#8, 0#8, 0#8, 0x11#8, 0x22#8, 0x33#8, 0x44#8]).map
      (fun t => (getLb 0 t, getLb 1 t, getLb 2 t, getLb 5 t)) =
    some (0x1122#16, 0x3344#16, 2#16, 5#16) := by decide +kernel

/-- MREAD with one dummy slot (2.3): the dummy byte is discarded. -/
theorem test_mread_dummy :
    (after (step { start [0x60020002#32] [0#8, 0#8, 0#8, 0xDD#8, 0xF8#8, 0x00#8, 0x07#8, 0xE0#8] with
      par := { par with mreadDummy := 1 } })).map (fun t => (getLb 0 t, getLb 1 t)) =
    some (0xF800#16, 0x07E0#16) := by decide +kernel

/-- Vector S4: 2 ms low, 20 ms after; one cycle for the pop. -/
theorem test_reset : (popped 0x80000000#32 []).map (fun t => (t.env.trace.reverse, t.csr.initDone)) =
    some ([⟨1, .rstl⟩, ⟨1 + 2 * 5, .rsth⟩], false) := by decide +kernel

/-- INIT 2 (2.1): CONFIG_ERROR; STATUS = 0x0000_4004. -/
theorem test_init_2 : (popped 0x90000002#32 []).map (fun t => (t.bus, t.status)) =
    some ([], 0x00004004#32) := by decide +kernel

/-- Vector S7, with the model's example table: the PLL divisor 0x0A goes to its register right after the reset pulse,
and INIT_DONE = 1. -/
theorem test_init_0 : (popped 0x90000000#32 (zeros 80)).map (fun t => (t.bus.take 10, t.csr.initDone)) =
    some ([.rstl, .rsth] ++ wr 0x88#8 0x0A#8, true) := by decide +kernel

/-- TPOLL that finds no touch (2.4). -/
theorem test_tpoll_clear : (popped 0xA0000000#32 (reading [0xFB#8])).map
      (fun t => (t.bus, t.poll.relcnt, t.sample.touched)) =
    some (rd 0xF1#8 0xFB#8, 1#8, false) := by decide +kernel

/-- TPOLL that finds a touch (2.4): TSAMPLE = (0x201, 0x102), READY, TOUCHED, TS = 2. -/
theorem test_tpoll_touched :
    (popped 0xA0000000#32 (reading [0x04#8, 0x80#8, 0x40#8, 0x09#8] ++ zeros 4)).map
      (fun t => (t.bus, t.sample, t.ts, t.csr.rdata)) =
    some (rd 0xF1#8 0x04#8 ++ rd 0x72#8 0x80#8 ++ rd 0x73#8 0x40#8 ++ rd 0x74#8 0x09#8 ++ wr 0xF1#8 0x04#8,
      { x := 0x201#10, y := 0x102#10, ready := true, touched := true, tovr := false }, 2#2, 0#32) := by
  decide +kernel

/-! ### Coordinates, registers and macros (2.5 to 2.7, S6, S9 to S11) -/

theorem test_coord_shift_6 : coordOf 0x01#8 0xC0#8 6 = 0x007#10 ∧ coordOf 0x01#8 0xC0#8 4 = 0x004#10 := by decide
theorem test_coord_shift_7 : coordOf 0x00#8 0x80#8 7 = 0x001#10 ∧ coordOf 0x55#8 0x0E#8 0 = 0x156#10 := by decide

/-- Vector S9. -/
theorem test_touch_read : (acted (hostOp (.read 0x101C 4)
      { start [] [] with sample := { x := 0x123#10, y := 0x045#10, ready := true, touched := false, tovr := false } })).map
      (fun t => (t.env.reads.map HostRead.value, t.touch)) = some ([0x81230045#32], 0x01230045#32) := by decide +kernel

theorem test_tcfg1_warl : (acted (hostOp (.write 0x1030 4 0x00002074#32) (start [] []))).map (fun t => t.csr.tcfg1) =
    some 0x00012074#32 := by decide +kernel
theorem test_wait_limit_warl : (acted (hostOp (.write 0x1024 4 0x00010000#32) (start [] []))).map
    (fun t => t.csr.waitLimit) = some 1#16 := by decide +kernel

/-- A full FIFO in FAULT (2.6): CMDOVF and QCOUNT = 16, with ERR = 1. -/
theorem test_cmd_overflow : (acted (hostOp (.write 0x100C 4 0#32)
      { start (List.replicate 16 0#32) [] with
        seq := { state := .fault, cur := 0#32, chain := false, resume := 0 }
        csr := { Csr.reset with err := .illegalCmd } })).map State.status = some 0x00101104#32 := by decide +kernel

/-- The line-buffer lock (2.3): the write of a locked entry is dropped and sets LBERR. -/
theorem test_lock : (acted (hostOp (.write 0x2000 4 0x0000BEEF#32) (start [0x50020001#32] []))).map
    (fun t => (getLb 0 t, t.csr.lberr)) = some (0#16, true) := by decide +kernel

theorem test_irq_idle : (acted (hostOp (.write 0x1004 4 8#32) (start [] []))).map (fun t => (t.irq, t.status)) =
    some (true, 0x01000000#32) := by decide +kernel

/-- Vector S10. -/
theorem test_pack : pack565 ⟨200#8, 100#8, 50#8⟩ = 0xCB26#16 ∧ unpack565 0xCB26#16 = ⟨200#8, 100#8, 48#8⟩ := by decide

/-- Vector S6: the pushed words of the one-row glyph. -/
theorem test_glyph : pushedWords (glyph MacroRegs.default 1024 [0xFF#8] 0 0 1 8 ⟨255#8, 255#8, 255#8⟩ ⟨0#8, 0#8, 0#8⟩) =
    [0x38460000#32, 0x38480000#32, 0x50020008#32] := by decide +kernel

theorem test_coordT : coordT (109 / 10) = 10#16 ∧ coordT (-3 / 2) = 0xFFFF#16 ∧ coordT (-1 / 2) = 0#16 := by
  decide +kernel

/-- Vector S11. -/
theorem test_calibrate : (calibrate 100 200 900 800 480 272).map (fun c =>
      (c.calX 100#10, c.calY 200#10, c.calX 900#10, c.calY 800#10, c.calX 50#10, c.calY 900#10)) =
    some (0, 0, 479, 271, 0, 271) := by decide +kernel

/-- A release after three touch-free polls (2.5): TOUCHED falls when the count reaches RELEASE_POLLS = 3. -/
theorem test_release :
    let s := { start [] [] with
      csr := { Csr.reset with tcfg1 := 0x00032074#32 }
      poll := { (start [] []).poll with relcnt := 1#8 }
      sample := { x := 0#10, y := 0#10, ready := false, touched := true, tovr := false } }
    (releaseStep s).sample.touched = true ∧ (releaseStep (releaseStep s)).sample.touched = false := by decide

/-- A block reset in the middle of a byte slot: CS_N rises in the trace and every register is reset (R341). -/
theorem test_block_reset : (after (step (hosted [0x30911234#32] (zeros 8) [⟨12, .blockReset 3⟩]))).map
      (fun t => (t.bus.getLast?, t.env.now, t.q, t.seq.state)) = some (some (.csh false), 12 + 3 + 1, [], .idle) := by
  decide +kernel

/-- The same on hardware with BUS_ERR: the rise samples it (40_spi_framing.md R130). -/
theorem test_block_reset_bus_error :
    let s := hosted [0x30911234#32] (zeros 8) [⟨12, .blockReset 3⟩]
    (after (step { s with par := { par with hasBusErr := true }, env := { s.env with busErr := [true, false] } })).map
      (fun t => (t.bus.getLast?, t.env.busErr)) = some (some (.csh true), [false]) := by decide +kernel

/-- SCK in mode 0 and in mode 3 over a bit time (R132), and the cycles from CSL to the first slot and from the last slot
to CSH, which put the phase's first and last edge SCK_DIV/2 = 1 cycle from them (R348). -/
theorem test_sck :
    (sckFirstHalf 0, sckSecondHalf 0, setupTime par, holdTime par) = (false, true, 0, 1) ∧
    (sckFirstHalf 3, sckSecondHalf 3, setupTime { par with spiMode := 3 }, holdTime { par with spiMode := 3 }) =
      (false, true, 1, 0) := by decide

/-- R209 item 4 asks for four entries: with left X and top Y at one address, one entry is not both. -/
theorem test_window :
    let c := { Config.ra8875Content with awinTop := 0x30#8 }
    let t := Config.exampleTable 0
    awinValid Config.ra8875Content 0 t = true ∧ awinValid Config.ra8875Content 1 t = false ∧
    awinValid c 0 t = false ∧ awinValid c 0 (⟨.awin, .wr16, 0x30#8, 0#16⟩ :: t) = true := by decide +kernel

/-- GETPIXEL's result (R285), for the read value of vector S10. -/
theorem test_get_pixel : getPixelResult 0x0000CB26#32 = ⟨200#8, 100#8, 48#8⟩ := by decide

/-- R209: other entries are no fault of a table, but a wrong divisor, any write of 0x0b to it for geometry 0
(95_test_vectors.md S7), directly or as half of a pair, or a missing backlight is. -/
theorem test_table :
    tableValid Config.ra8875Regs 0 (⟨.pll, .wr, 0x89#8, 0x0b#16⟩ :: Config.exampleTable 0) = true ∧
    tableValid Config.ra8875Regs 1 (⟨.pll, .wr, 0x88#8, 0x0a#16⟩ :: Config.exampleTable 1) = true ∧
    tableValid Config.ra8875Regs 0 (Config.exampleTable 1) = false ∧
    tableValid Config.ra8875Regs 0 (⟨.pll, .wr, 0x88#8, 0x0b#16⟩ :: Config.exampleTable 0) = false ∧
    tableValid Config.ra8875Regs 0 (Config.exampleTable 0 ++ [⟨.enable, .wr16, 0x87#8, 0x0b00#16⟩]) = false ∧
    tableValid Config.ra8875Regs 0 ((Config.exampleTable 0).filter fun e => e.a != 0x8B#8) = false ∧
    tableValid Config.ra8875Regs 0 ((Config.exampleTable 0).filter fun e => e.kind != .wt) = false := by decide +kernel

/-- R345: the whole sequence for 480x272, a BUS_FAULT and another failure of its INIT, and a size without a code. -/
theorem test_boot :
    let c : BootConfig := ⟨none, some 2#32, none, none, none⟩
    boot c 480 272 0x00000800#32 [(0x70#8, 0x80#8)] true false false =
      ([.csr 0x028 2#32, .push 0x90000000#32, .waitIdle, .push 0x10700080#32, .waitIdle, .csr 0x004 3#32], none) ∧
    boot c 800 480 0x00005004#32 [] true false false =
      ([.csr 0x028 2#32, .push 0x90000001#32, .waitIdle], some .busFault) ∧
    (boot c 800 480 0x00003004#32 [] true false false).2 = some (.init 3#4) ∧
    boot c 640 480 0#32 [] true false false = ([.csr 0x028 2#32], some .geometry) := by decide +kernel

/-! ### A state and operands that meet the hypotheses of each obligation -/

/-- The next state of an outcome that has one. -/
theorem next_of_after {o : Host.Outcome State Fault Refusal} (h : (after o).isSome = true) : ∃ t, o = .next t := by
  cases o with
  | next s => exact ⟨s, rfl⟩
  | fault f => simp [after] at h
  | refused r => simp [after] at h

/-- A chain is open. -/
def chained (q : List Word) : State :=
  let s := start q []
  { s with seq := { s.seq with chain := true }, owner := .seq }

/-- In FAULT, with a background poll pending. -/
def faulted : State :=
  let s := start [0x00000000#32] []
  { s with
    seq := { state := .fault, cur := 0xB0000000#32, chain := false, resume := 0 }
    csr := { s.csr with touchEn := true, err := .illegalCmd, errcmd := 0xB0000000#32 }
    poll := { s.poll with state := .pending, timer := 30 * 5, period := 30#16 } }

/-- A background poll is about to start. -/
def polling (miso : List Byte) : State :=
  let s := start [] miso
  { s with
    csr := { s.csr with touchEn := true }
    poll := { s.poll with state := .pending, timer := 30 * 5, period := 30#16 } }

theorem atPop_start (w : Word) (miso : List Byte) : AtPop w [] (start [w] miso) :=
  ⟨rfl, rfl, Nat.zero_le _, rfl, nofun, rfl⟩

theorem atPop_chained (w : Word) : AtPop w [] (chained [w]) := ⟨rfl, rfl, Nat.zero_le _, rfl, fun _ => rfl, rfl⟩

/-- A later host access does not stop the pop. -/
theorem atPop_hosted : AtPop 0x88000000#32 [] (hosted [0x88000000#32] [] [⟨7, .read 0x1008 4⟩]) :=
  ⟨by decide, rfl, Nat.zero_le _, rfl, nofun, rfl⟩

theorem running_meets (i : Instr) (miso : List Byte) :
    Running i (running i miso) ∧ Benign (running i miso) ∧ (running i miso).par.hasBusErr = false :=
  ⟨⟨rfl, rfl, rfl⟩, by
    intro r h
    simp only [running, hosted, popWord, List.mem_cons, List.not_mem_nil, or_false] at h
    rcases h with rfl | rfl
    · exact (by decide : HostReq.benign 0x1000 ⟨3, .read 0x1008 4⟩ = true)
    · exact (by decide : HostReq.benign 0x1000 ⟨0, .read 0x1004 4⟩ = true), rfl⟩

theorem running_lb (i : Instr) (miso : List Byte) : (running i miso).lb.length = (running i miso).par.linebufWords := by
  simp [running, hosted, start, State.resetWith, State.afterReset, par, popWord]

theorem quiet_meets (i : Instr) (miso : List Byte) :
    Running i (quiet i miso) ∧ Quiet (quiet i miso) ∧ (quiet i miso).par.hasBusErr = false :=
  ⟨⟨rfl, rfl, rfl⟩, rfl, rfl⟩

theorem par_legal : par.legal = true := by decide +kernel

theorem legal_start (q : List Word) (h : q.length ≤ 16) : Legal (start q []) :=
  ⟨par_legal, h, rfl, (by decide : (1000#16 : Half) ≠ 0#16), (by decide : (30#16 : Half) ≠ 0#16),
    (by decide : (0x00012074#32 : Word) &&& 0xFF008800#32 = 0#32), (by decide : releasePolls 0x00012074#32 ≠ 0#8),
    (by decide : (0#32 : Word) &&& 0xFFFFFF00#32 = 0#32)⟩

theorem atRest_start (q : List Word) : PollerAtRest (start q []) :=
  ⟨nofun, rfl, by simp [start, State.resetWith, State.afterReset, Csr.reset], fun h => absurd rfl h, nofun, nofun⟩

theorem inv_start : Inv (start [] []) :=
  ⟨legal_start [] (by decide), atRest_start [], ⟨rfl, rfl, rfl, rfl⟩, nofun, by decide, nofun, rfl,
    ⟨Nat.zero_le _, fun _ => Nat.zero_le _⟩, rfl, rfl, rfl⟩

theorem inv_chained : Inv (chained [0x88000000#32]) ∧ Inv (chained []) := by
  have a (q : List Word) (h : q.length ≤ 16) : Inv (chained q) := by
    obtain ⟨l1, l2, l3, l4, l5, l6, l7, l8⟩ := legal_start q h
    obtain ⟨p1, p2, p3, p4, p5, p6⟩ := atRest_start q
    exact ⟨⟨l1, l2, l3, l4, l5, l6, l7, l8⟩, ⟨p1, p2, p3, p4, p5, p6⟩, ⟨rfl, rfl, rfl, rfl⟩, nofun,
      ⟨fun _ => nofun, fun _ => rfl⟩, fun _ => rfl, rfl, ⟨Nat.zero_le _, fun _ => Nat.zero_le _⟩, rfl, rfl, rfl⟩
  exact ⟨a _ (by decide), a _ (by decide)⟩

theorem inv_faulted : Inv faulted := by
  obtain ⟨l1, l2, l3, l4, l5, l6, l7, l8⟩ := legal_start [0x00000000#32] (by decide)
  exact ⟨⟨l1, l2, l3, l4, l5, l6, l7, l8⟩, ⟨nofun, rfl, by decide, fun _ => by decide, nofun, fun _ => by decide⟩,
    ⟨rfl, rfl, rfl, rfl⟩, nofun, by decide, nofun, rfl,
    ⟨Nat.zero_le _, fun _ => Nat.zero_le _⟩, rfl, rfl, rfl⟩

theorem framing_start : Framing (start [] []) :=
  ⟨rfl, rfl, rfl, nofun, nofun⟩

theorem witness_StepRunsHeadCommand : AtPop 0x08000000#32 [] (start [0x08000000#32] []) ∧
    decode 0x08000000#32 = .ok (.nop true) := ⟨atPop_start _ _, by decide⟩

theorem witness_IllegalWordFaults : AtPop 0xB0000000#32 [] (chained [0xB0000000#32]) ∧
    Benign (chained [0xB0000000#32]) ∧ (∃ e, decode 0xB0000000#32 = .error e) ∧
    (chained [0xB0000000#32]).env.host = [] := ⟨atPop_chained _, nofun, ⟨.reservedOpcode, by decide⟩, rfl⟩

theorem witness_HostActionComesFirst :
    (hosted [] [] [⟨0, .read 0x1008 4⟩]).env.host = ⟨0, .read 0x1008 4⟩ :: [] ∧
    (hosted [] [] [⟨0, .read 0x1008 4⟩]).env.portFree + 0 ≤ (hosted [] [] [⟨0, .read 0x1008 4⟩]).env.now :=
  ⟨rfl, by decide⟩

/-- Both clauses: a queued word and an empty FIFO. -/
theorem witness_ChainKeepsPollsOut :
    (Inv (chained [0x88000000#32]) ∧ (chained [0x88000000#32]).seq.chain = true ∧
      hostDue (chained [0x88000000#32]) = none ∧ (chained [0x88000000#32]).q = 0x88000000#32 :: []) ∧
    (Inv (chained []) ∧ (chained []).seq.chain = true ∧ hostDue (chained []) = none ∧ (chained []).q = []) :=
  ⟨⟨inv_chained.1, rfl, rfl, rfl⟩, ⟨inv_chained.2, rfl, rfl, rfl⟩⟩

theorem witness_FaultHoldsAndKeepsRecord : Inv faulted ∧ Quiet faulted ∧ faulted.seq.state = .fault :=
  ⟨inv_faulted, rfl, rfl⟩

/-- In FAULT, with no poll pending. -/
def faultedAlone : State := { faulted with poll := { faulted.poll with state := .timing, timer := 0 } }

/-- After the return, in the same cycle, SEQ does not pop the queued word; in the next it does (R309). -/
theorem test_fault_return : (acted (hostOp (.write 0x1008 4 4#32) faultedAlone)).map (fun t =>
      (t.seq.state, fetchWord t, fetchWord (tick 1 t))) = some (.idle, none, some (0#32, [])) := by decide +kernel

/-- Both ways out: the fault return, with no poll pending after it too, and a block reset. -/
theorem witness_FaultLeftOnlyByReturn : faulted.seq.state = .fault ∧
    (∃ t, hostStep ⟨0, .write 0x1008 4 4#32⟩ [] faulted = .next t ∧ t.seq.state ≠ .fault) ∧
    (∃ t, hostStep ⟨0, .write 0x1008 4 4#32⟩ [] faultedAlone = .next t ∧ t.seq.state ≠ .fault ∧
      (t.owner ≠ .none ∨ t.poll.state ≠ .pending)) ∧
    (∃ t, hostStep ⟨0, .blockReset 2⟩ [] faulted = .next t ∧ t.seq.state ≠ .fault) :=
  ⟨rfl, ⟨_, rfl, by decide⟩, ⟨_, rfl, by decide, by decide⟩, ⟨_, rfl, by decide⟩⟩

/-- Both outcomes of a background poll, with TOUCH_EN = 1 and (in no run) with TOUCH_EN = 0. -/
theorem witness_BackgroundPoll : (polling []).csr.touchEn = true ∧
    (let s := { polling [] with csr := Csr.reset };
      Quiet s ∧ s.par.hasBusErr = false ∧ s.poll.state = .pending ∧ s.owner = .none ∧ s.poll.stop = false ∧
        s.csr.touchEn = false) ∧
    (∀ miso, Quiet (polling miso) ∧ (polling miso).par.hasBusErr = false ∧
    (polling miso).poll.state = .pending ∧ (polling miso).owner = .none ∧ (polling miso).poll.stop = false) ∧
    touchSet ((polling (reading [0x04#8])).env.answer 3) (intMask (polling []).csr.tcfg0) = true ∧
    touchSet ((polling (reading [0xFB#8])).env.answer 3) (intMask (polling []).csr.tcfg0) = false :=
  ⟨rfl, ⟨rfl, rfl, rfl, rfl, rfl, rfl⟩, fun _ => ⟨rfl, rfl, rfl, rfl, rfl⟩, by decide +kernel, by decide +kernel⟩

/-- NOP, WREG, RREG, DELAY, TPOLL and EveryCommandEnds: each meets its hypotheses with host accesses under way. -/
theorem witness_completions : (∀ k, Running (.nop k) (running (.nop k) [])) ∧
    (∀ k a v, Running (.wreg k a v) (running (.wreg k a v) [])) ∧
    (∀ k a, Running (.rreg k a) (running (.rreg k a) [])) ∧
    (∀ k ms, Running (.delay k ms) (running (.delay k ms) [])) ∧
    (∀ k, Running (.tpoll k) (running (.tpoll k) [])) ∧
    (∀ i, Benign (running i []) ∧ (running i []).par.hasBusErr = false) :=
  ⟨fun k => (running_meets (.nop k) []).1, fun k a v => (running_meets (.wreg k a v) []).1,
    fun k a => (running_meets (.rreg k a) []).1, fun k ms => (running_meets (.delay k ms) []).1,
    fun k => (running_meets (.tpoll k) []).1, fun i => (running_meets i []).2⟩

theorem witness_Wreg16Completes : Running (.wreg16 true 0xFE#8 0x1234#16) (running (.wreg16 true 0xFE#8 0x1234#16) []) ∧
    Benign (running (.wreg16 true 0xFE#8 0x1234#16) []) ∧ (0xFE#8 : Byte) ≠ 0xFF#8 :=
  ⟨(running_meets _ _).1, (running_meets _ _).2.1, by decide⟩

/-- A WAIT that clears at its third read of at most 1000, one with M = 0, and (below) one that never clears. -/
theorem witness_WaitCompletes :
    (Running (.wait false 0x90#8 0x80#8) (running (.wait false 0x90#8 0x80#8) (reading [0x80#8, 0x80#8, 0x7F#8])) ∧
      Benign (running (.wait false 0x90#8 0x80#8) (reading [0x80#8, 0x80#8, 0x7F#8])) ∧
      readsUntilClear 0x80#8 (running (.wait false 0x90#8 0x80#8) (reading [0x80#8, 0x80#8, 0x7F#8])).csr.waitLimit.toNat
        (running (.wait false 0x90#8 0x80#8) (reading [0x80#8, 0x80#8, 0x7F#8])).env = some 3) ∧
    readsUntilClear 0x00#8 1 (running (.wait false 0x90#8 0x00#8) (reading [0xFF#8])).env = some 1 :=
  ⟨⟨(running_meets _ _).1, (running_meets _ _).2.1, by decide +kernel⟩, by decide +kernel⟩

/-- The state of vector S5. -/
def stuck : State :=
  let s := running (.wait false 0x90#8 0x80#8) (reading [0x80#8, 0x80#8, 0x80#8, 0x80#8])
  { s with csr := { s.csr with waitLimit := 4#16 } }

theorem witness_WaitTimesOut : Running (.wait false 0x90#8 0x80#8) stuck ∧ Benign stuck ∧
    stuck.par.hasBusErr = false ∧ stuck.csr.waitLimit ≠ 0#16 ∧
    readsUntilClear 0x80#8 stuck.csr.waitLimit.toNat stuck.env = none :=
  ⟨⟨rfl, rfl, rfl⟩, (running_meets _ (reading [0x80#8, 0x80#8, 0x80#8, 0x80#8])).2.1, rfl, by decide,
    by decide +kernel⟩

/-- MWRITE and MREAD at both ends of their range: one pixel and LINEBUF_WORDS pixels. -/
theorem witness_bulk : ∀ n ∈ [1#16, 8#16],
    Running (.mwrite false 2#8 n) (running (.mwrite false 2#8 n) []) ∧
    Running (.mread false 2#8 n) (running (.mread false 2#8 n) []) ∧
    (running (.mread false 2#8 n) []).lb.length = (running (.mread false 2#8 n) []).par.linebufWords ∧
    1 ≤ n.toNat ∧ n.toNat ≤ (running (.mread false 2#8 n) []).par.linebufWords ∧
    Benign (running (.mwrite false 2#8 n) []) ∧ Benign (running (.mread false 2#8 n) []) := by
  intro n h
  have bound : 1 ≤ n.toNat ∧ n.toNat ≤ 8 := by
    rcases List.mem_pair.mp h with rfl | rfl <;> decide
  refine ⟨(running_meets (.mwrite false 2#8 n) []).1, (running_meets (.mread false 2#8 n) []).1,
    running_lb (.mread false 2#8 n) [], ?_, ?_,
    (running_meets (.mwrite false 2#8 n) []).2.1, (running_meets (.mread false 2#8 n) []).2.1⟩
  · exact bound.1
  · exact bound.2

theorem witness_ResetCompletes : Running (.reset true) (running (.reset true) []) ∧ Benign (running (.reset true) []) ∧
    (running (.reset true) []).pins.rstN = true := ⟨(running_meets _ _).1, (running_meets _ _).2.1, rfl⟩

/-- Both geometries. -/
theorem witness_InitCompletes : ∀ g ∈ [0#16, 1#16], Running (.init false g) (quiet (.init false g) (zeros 80)) ∧
    Quiet (quiet (.init false g) (zeros 80)) ∧ (quiet (.init false g) (zeros 80)).par.hasBusErr = false ∧
    (quiet (.init false g) (zeros 80)).pins.rstN = true ∧ (g = 0#16 ∨ g = 1#16) ∧
    ∃ evs e, tableEvents (quiet (.init false g) (zeros 80))
      ((quiet (.init false g) (zeros 80)).par.initTable g.toNat) (quiet (.init false g) (zeros 80)).env =
        some (evs, e) := by
  intro g h
  refine ⟨(quiet_meets (.init false g) (zeros 80)).1, rfl, rfl, rfl, by simpa using h, ?_⟩
  have : ((tableEvents (quiet (.init false g) (zeros 80)) ((quiet (.init false g) (zeros 80)).par.initTable g.toNat)
      (quiet (.init false g) (zeros 80)).env).isSome) = true := by
    rcases List.mem_pair.mp h with rfl | rfl <;> decide +kernel
  obtain ⟨⟨evs, e⟩, hx⟩ := Option.isSome_iff_exists.mp this
  exact ⟨evs, e, hx⟩

/-- INIT 0 whose clear never ends: WAIT_LIMIT = 2 and busy answers from the clear's wait entry on (2.4). -/
def stuckInit : State :=
  let s := quiet (.init false 0#16) (zeros 56 ++ reading [0x80#8, 0x80#8])
  { s with csr := { s.csr with waitLimit := 2#16 } }

theorem witness_InitFaultNamesEntry : Running (.init false 0#16) stuckInit ∧ Quiet stuckInit ∧
    stuckInit.par.hasBusErr = false ∧ stuckInit.pins.rstN = true ∧ stuckInit.par.legal = true ∧
    stuckInit.csr.waitLimit ≠ 0#16 ∧
    stuckInit.par.initTable 0 = (Config.exampleTable 0).take 10 ++
      ⟨.clear, .wt, 0x8E#8, 0x80#16⟩ :: (Config.exampleTable 0).drop 11 ∧
    ∃ evs e, tableEvents stuckInit ((Config.exampleTable 0).take 10) stuckInit.env = some (evs, e) ∧
      readsUntilClear (loByte 0x80#16) stuckInit.csr.waitLimit.toNat e = none := by
  refine ⟨⟨rfl, rfl, rfl⟩, rfl, rfl, rfl, par_legal, by decide, by decide +kernel, ?_⟩
  have : ((tableEvents stuckInit ((Config.exampleTable 0).take 10) stuckInit.env).any
      fun x => (readsUntilClear (loByte 0x80#16) stuckInit.csr.waitLimit.toNat x.2).isNone) = true := by
    decide +kernel
  cases h : tableEvents stuckInit ((Config.exampleTable 0).take 10) stuckInit.env with
  | none => rw [h] at this; cases this
  | some x => rw [h] at this; exact ⟨x.1, x.2, rfl, by simpa using this⟩

/-- TpollFlags, both outcomes, and both values of TOUCH_EN (the poller OFF, or TIMING). -/
theorem witness_TpollFlags : Running (.tpoll false) (quiet (.tpoll false) (reading [0x04#8])) ∧
    Quiet (quiet (.tpoll false) (reading [0x04#8])) ∧ PollerAtRest (quiet (.tpoll false) (reading [0x04#8])) ∧
    (quiet (.tpoll false) []).csr.touchEn = false ∧
    touchSet ((quiet (.tpoll false) (reading [0x04#8])).env.answer 3) 0x04#8 = true ∧
    touchSet ((quiet (.tpoll false) (reading [0xFB#8])).env.answer 3) 0x04#8 = false ∧
    PollerAtRest (popWord 0xA0000000#32 [] (polling (reading [0x04#8]))) ∧
    (popWord 0xA0000000#32 [] (polling (reading [0x04#8]))).csr.touchEn = true := by
  refine ⟨(quiet_meets _ _).1, rfl, ?_, rfl, rfl, rfl, ?_, rfl⟩
  · exact ⟨nofun, rfl, by decide, fun h => absurd rfl h, nofun, nofun⟩
  · exact ⟨nofun, rfl, by decide, fun _ => by decide, nofun, fun _ => by decide⟩

/-- BusTimes: a completed command of each kind, with legal parameters. -/
theorem witness_BusTimes : ∀ i ∈ [Instr.wreg false 1#8 2#8, .rreg false 1#8, .wreg16 false 1#8 2#16,
      .wait false 1#8 0#8, .mwrite false 2#8 1#16, .mread false 2#8 8#16, .tpoll false],
    Running i (running i (zeros 40)) ∧ Benign (running i (zeros 40)) ∧ (running i (zeros 40)).par.hasBusErr = false ∧
    (running i (zeros 40)).par.legal = true ∧ ∃ t, exec i (running i (zeros 40)) = .next t := by
  intro i h
  refine ⟨(running_meets _ _).1, (running_meets _ _).2.1, rfl, par_legal, next_of_after ?_⟩
  revert i
  decide +kernel

/-- Each way to a BAD_OPERAND: the register, no pixel, and LINEBUF_WORDS + 1 pixels. -/
theorem witness_BadOperandTraps : Running (.wreg16 false 0xFF#8 0#16) (running (.wreg16 false 0xFF#8 0#16) []) ∧
    Running (.mwrite false 2#8 0#16) (running (.mwrite false 2#8 0#16) []) ∧
    Running (.mread false 2#8 9#16) (running (.mread false 2#8 9#16) []) ∧ par.linebufWords < (9#16 : Half).toNat ∧
    isBulkWord (running (.mread false 2#8 9#16) []).seq.cur = true ∧ ∀ i, Benign (running i []) :=
  ⟨(running_meets _ _).1, (running_meets _ _).1, (running_meets _ _).1, by decide, by decide,
    fun i => (running_meets i []).2.1⟩

theorem witness_ConfigErrorTraps : Running (.init false 2#16) (running (.init false 2#16) []) ∧
    Benign (running (.init false 2#16) []) ∧ (2#16 : Half) ≠ 0#16 ∧ (2#16 : Half) ≠ 1#16 :=
  ⟨(running_meets _ _).1, (running_meets _ _).2.1, by decide, by decide⟩

/-- Hardware with a bus-error input, whose sample number `p` is the first error. -/
def errored (p : Nat) (s : State) : State :=
  { s with par := { par with hasBusErr := true }, env := { s.env with busErr := List.replicate p false ++ [true] } }

theorem errorAt_errored (p : Nat) (s : State) : ErrorAt p (errored p s) := ⟨[], rfl⟩

/-- BusFaultNamesPhase: the first and the last phase of each command, before and after a poll's commit, and a phase in
the middle of INIT's table; and a background poll at its first and last phase, with and without an earlier fault. -/
theorem witness_BusFaultNamesPhase :
    (∀ x ∈ [(Instr.wreg false 1#8 2#8, 0, 1), (.rreg false 1#8, 0, 1), (.wreg16 false 1#8 2#16, 0, 3),
      (.wait false 1#8 0#8, 0, 1), (.mwrite false 1#8 1#16, 0, 1), (.mread false 1#8 8#16, 0, 1),
      (.init false 0#16, 0, 8), (.init false 1#16, 1, 35), (.tpoll false, 7, 9)], ∀ p ∈ [x.2.1, x.2.2],
      let s := errored p (quiet x.1 (reading [0x04#8] ++ zeros 100))
      Running x.1 s ∧ Benign s ∧ Quiet s ∧ s.par.hasBusErr = true ∧ ErrorAt p s ∧
        ∃ ph, (commandPhases s x.1)[p]? = some ph ∧ ph.step < 32768) ∧
    (∀ p ∈ [0, 7, 8, 9], let s := errored p (polling (reading [0x04#8]));
      Quiet s ∧ s.par.hasBusErr = true ∧ s.poll.state = .pending ∧ s.owner = .none ∧ s.poll.stop = false ∧
        p < (pollPhases s.csr.tcfg0 s.csr.tcfg1 s.par.readFill s.env).length ∧ ErrorAt p s ∧
        s.csr.touchEn = true ∧ s.seq.state ≠ .fault) ∧
    (let s := errored 1 { faulted with csr := { faulted.csr with touchEn := false } };
      Quiet s ∧ s.poll.state = .pending ∧ s.owner = .none ∧ s.poll.stop = false ∧
        1 < (pollPhases s.csr.tcfg0 s.csr.tcfg1 s.par.readFill s.env).length ∧ ErrorAt 1 s ∧
        s.csr.touchEn = false ∧ s.seq.state = .fault) := by
  refine ⟨fun x h p hp => ⟨⟨rfl, rfl, rfl⟩, nofun, rfl, rfl, errorAt_errored _ _, ?_⟩,
    fun p hp => ⟨rfl, rfl, rfl, rfl, rfl, ?_, errorAt_errored _ _, rfl, nofun⟩,
    ⟨rfl, rfl, rfl, rfl, ?_, errorAt_errored _ _, rfl, rfl⟩⟩
  · have k : ((commandPhases (errored p (quiet x.1 (reading [0x04#8] ++ zeros 100))) x.1)[p]?.any
        fun ph => decide (ph.step < 32768)) = true := by
      revert p
      revert x
      decide +kernel
    cases e : (commandPhases (errored p (quiet x.1 (reading [0x04#8] ++ zeros 100))) x.1)[p]? with
    | none => rw [e] at k; cases k
    | some ph => rw [e] at k; exact ⟨ph, rfl, by simpa using k⟩
  · revert p
    decide +kernel
  · simp [pollPhases, readPhases]

/-- The frames: a quiet command of each kind that ends in a next state. -/
theorem witness_frames : ∀ i ∈ [Instr.nop false, .wreg false 1#8 2#8, .rreg false 1#8, .wreg16 false 1#8 2#16,
      .wreg16 false 0xFF#8 0#16, .wait false 1#8 0#8, .delay false 2#16, .mwrite false 2#8 1#16, .mread false 2#8 8#16,
      .reset false, .init false 0#16, .init false 2#16, .tpoll false],
    Quiet (quiet i (zeros 80)) ∧ ∃ t, exec i (quiet i (zeros 80)) = .next t := by
  intro i h
  refine ⟨rfl, next_of_after ?_⟩
  revert i
  decide +kernel

/-- CmdPush: room for one more word, and a full FIFO. -/
theorem witness_CmdPush : (start (List.replicate 15 0#32) []).q.length < par.cmdqDepth ∧
    par.cmdqDepth ≤ (start (List.replicate 16 0#32) []).q.length := by decide

theorem witness_StatusFields : (start (List.replicate 16 0#32) []).q.length ≤ 255 := by decide

/-- CtrlWrite: TOUCH_EN unchanged, from 0 to 1, and from 1 to 0 with the poller in a poll and out of one. -/
theorem witness_CtrlWrite : (1#32 : Word).getLsbD 8 = false ∧ (start [] []).csr.touchEn = false ∧
    (0#32 : Word).getLsbD 0 = (start [] []).csr.touchEn ∧ (1#32 : Word).getLsbD 0 = true ∧
    (start [] []).poll.state ≠ .active ∧ (polling []).csr.touchEn = true ∧ (polling []).poll.state ≠ .active ∧
    (startPoll (polling [])).csr.touchEn = true ∧ (startPoll (polling [])).poll.state = .active := by decide

/-- LineBufferAccess: the first and the last entry, unlocked, locked by a queued word and by a running one. -/
theorem witness_LineBufferAccess : 0 < par.linebufWords ∧ 7 < par.linebufWords ∧ par.linebufWords ≤ 1024 ∧
    (start [] []).lbLock = false ∧ (start [0x50020001#32] []).lbLock = true ∧
    (quiet (.mread false 2#8 1#16) []).lbLock = true := by decide

/-- ReadsWithoutEffect and IgnoredAccesses: each register, the ends of the reserved ranges, and the first and last
line-buffer entry, unlocked. -/
theorem witness_offsets : (∀ off ∈ [0x000, 0x004, 0x008, 0x00C, 0x010, 0x014, 0x018, 0x020, 0x024, 0x028, 0x02C, 0x030, 0x034, 0x038, 0x03C,
      0xFFC, 0x1000 + 4 * 0, 0x1000 + 4 * 7, 0x1000 + 4 * par.linebufWords, 0x1FFC],
      off < 0x2000 ∧ off % 4 = 0 ∧ off ≠ 0x01C) ∧ (start [] []).lbLock = false ∧
    (∀ off ∈ [0x03C, 0xFFC], 0x03C ≤ off ∧ off < 0x1000) ∧
    (∀ off ∈ [0x1000 + 4 * par.linebufWords, 0x1FFC], 0x1000 + 4 * par.linebufWords ≤ off) := by decide

/-- A byte access, a halfword access and a misaligned word access, at both ends of the window. -/
theorem witness_NarrowAccessRefused : (0x1FFF < 0x2000 ∧ (1 ≠ 4 ∨ 0x1FFF % 4 ≠ 0)) ∧
    (0 < 0x2000 ∧ (2 ≠ 4 ∨ 0 % 4 ≠ 0)) ∧ (2 < 0x2000 ∧ (4 ≠ 4 ∨ 2 % 4 ≠ 0)) := by decide

/-- FieldBits: the ends of the shift's range and of a byte's bits. -/
theorem witness_FieldBits : (7 < 8) ∧ (0 < 8) := by decide

/-- A background poll about to start, in whose third cycle the host clears TOUCH_EN. -/
def stopping : State :=
  let s := polling (zeros 4)
  { s with env := { s.env with host := [⟨3, .write 0x1004 4 0#32⟩] } }

/-- PollerTimes: a poller in TIMING one cycle before its interval's end, and a poll stopped while it runs. -/
theorem witness_PollerTimes :
    (let p : Poll := { (polling []).poll with state := .timing, timer := 30 * 5 - 1 };
      p.state = .timing ∧ p.timer < p.period.toNat * 5 ∧ p.period.toNat * 5 ≤ p.timer + 1 ∧
        ¬ p.period.toNat * 5 ≤ p.timer + 0) ∧
    stopping.env.host = [⟨3, .write (stopping.par.rsqBase + 0x004) 4 0#32⟩] ∧ (0#32 : Word).getLsbD 0 = false ∧
    stopping.csr.touchEn = true ∧ stopping.poll.state = .pending ∧ stopping.owner = .none ∧
    stopping.env.now < hostTime ⟨3, .write 0x1004 4 0#32⟩ stopping ∧
    (after (step stopping)).map (fun t => decide (hostTime ⟨3, .write 0x1004 4 0#32⟩ stopping < t.env.now)) =
      some true :=
  ⟨by decide, rfl, by decide, rfl, rfl, rfl, by decide, by decide +kernel⟩

/-- A block reset that falls into the first phase of a WREG16, and one that comes after its end. -/
theorem witness_BlockResetCutsCommand : ∀ g ∈ [12, 500],
    let s := popWord 0x30911234#32 [] (hosted [0x30911234#32] (zeros 8) [⟨g, .blockReset 3⟩])
    s.env.host = ⟨g, .blockReset 3⟩ :: [] ∧ hostTime ⟨g, .blockReset 3⟩ s = g ∧
      (after (exec (.wreg16 false 0x91#8 0x1234#16) s)).map (fun t => decide (g < t.env.now)) = some (g == 12) := by
  intro g h
  refine ⟨rfl, by simp [hostTime, hosted, start, popWord, State.resetWith, State.afterReset, Env.start], ?_⟩
  revert g
  decide +kernel

theorem witness_ResetMeetsInvariants : par.legal = true := par_legal

/-- A step from a state that meets both invariants. -/
theorem witness_steps : Inv (start [] []) ∧ Framing (start [] []) ∧ ∃ t, step (start [] []) = .next t :=
  ⟨inv_start, framing_start, _, rfl⟩

theorem witness_PixelBytes : pixBytes true 0x1234#16 = [0x12#8, 0x34#8] ∧
    pixBytes false 0x1234#16 = [0x34#8, 0x12#8] := by decide

theorem witness_PixelRoundTrip :
    let s := running (.mread false 2#8 1#16) [0#8, 0#8, 0#8, 0xCB#8, 0x26#8]
    Running (.mread false 2#8 1#16) s ∧ Benign s ∧ s.par.hasBusErr = false ∧ s.lb.length = s.par.linebufWords ∧
    1 ≤ s.par.linebufWords ∧ [s.env.answer (3 + s.par.mreadDummy), s.env.answer (4 + s.par.mreadDummy)] =
      pixBytes s.par.pixMsbFirst (pack565 ⟨200#8, 100#8, 50#8⟩) ∧
    (after (exec (.mread false 2#8 1#16) s)).map State.lbLock = some false :=
  ⟨(running_meets _ _).1, (running_meets _ _).2.1, rfl, running_lb _ _, by decide, by decide +kernel, by decide +kernel⟩

end Sys2Proof.Tests
end

section
/-! The host port's rules that the statements about the host registers share, and those statements for the constant
registers, the command FIFO, the line buffer and the state after block reset (10_state.md R21 to R52). -/

namespace Sys2Proof.Machine

/-! ### What the port does with an access -/

/-- The port takes a 32-bit access at an aligned offset of the window (20_memory.md R70, R73). -/
theorem portStop_window {base off : Nat} (inside : off < 0x2000) (aligned : off % 4 = 0) :
    portStop base (base + off) 4 = none := by
  have inWindow : ¬ (base + off < base ∨ base + 0x2000 ≤ base + off) := by omega
  have isWord : ¬ (4 ≠ 4 ∨ (base + off - base) % 4 ≠ 0) := by omega
  simp only [portStop, if_neg inWindow, if_neg isWord]

/-- A read the port takes reports the value of the register its offset names, and has that register's read effect. -/
theorem hostOp_read_window (s : State) {off : Nat} (inside : off < 0x2000) (aligned : off % 4 = 0) :
    hostOp (.read (s.par.rsqBase + off) 4) s = .done (logRead (s.par.rsqBase + off)
      (readValue (csrAt s.par.linebufWords off) s) (readEffect (csrAt s.par.linebufWords off) s)) := by
  simp only [hostOp, portStop_window inside aligned, Nat.add_sub_cancel_left]

/-- A write the port takes has the write effect of the register its offset names. -/
theorem hostOp_write_window (s : State) (v : Word) {off : Nat} (inside : off < 0x2000) (aligned : off % 4 = 0) :
    hostOp (.write (s.par.rsqBase + off) 4 v) s = .done (writeEffect (csrAt s.par.linebufWords off) v s) := by
  simp only [hostOp, portStop_window inside aligned, Nat.add_sub_cancel_left]

/-! ### The line buffer and its lock -/

/-- From 0x1000 on, an offset names a line-buffer entry while there are entries, and is reserved beyond them (R21). -/
theorem csrAt_upper {words off : Nat} (h : 0x1000 ≤ off) :
    csrAt words off = if (off - 0x1000) / 4 < words then .lb ((off - 0x1000) / 4) else .reserved := by
  unfold csrAt
  split
  case h_16 => simp only [h, true_and]
  all_goals omega

theorem csrAt_lb {words i : Nat} (h : i < words) : csrAt words (0x1000 + 4 * i) = .lb i := by
  have index : (0x1000 + 4 * i - 0x1000) / 4 = i := by omega
  rw [csrAt_upper (Nat.le_add_right _ _), index, if_pos h]

/-- The line buffer is locked while a bulk command is queued or executes (R44). -/
theorem lbLock_iff (s : State) : s.lbLock = true ↔
    (∃ w ∈ s.q, isBulkWord w = true) ∨ (s.seq.state = .exec ∧ isBulkWord s.seq.cur = true) := by
  simp [State.lbLock, State.busy]

theorem readValue_lb_locked {s : State} (h : s.lbLock = true) (i : Nat) : readValue (.lb i) s = 0#32 := if_pos h

theorem readEffect_lb_locked {s : State} (h : s.lbLock = true) (i : Nat) : readEffect (.lb i) s = setLberr s := if_pos h

theorem writeEffect_lb_locked {s : State} (h : s.lbLock = true) (i : Nat) (v : Word) :
    writeEffect (.lb i) v s = setLberr s := if_pos h

theorem readValue_lb_unlocked {s : State} (h : ¬ s.lbLock = true) (i : Nat) :
    readValue (.lb i) s = zext32 (getLb i s) := if_neg h

theorem readEffect_lb_unlocked {s : State} (h : ¬ s.lbLock = true) (i : Nat) : readEffect (.lb i) s = s := if_neg h

theorem writeEffect_lb_unlocked {s : State} (h : ¬ s.lbLock = true) (i : Nat) (v : Word) :
    writeEffect (.lb i) v s = setLb i (v.setWidth 16) s := if_neg h

/-- Settles O44: the port names entry `i` at this address, and R44's lock chooses between the effects. -/
theorem lineBufferAccess : Obligations.LineBufferAccess := by
  unfold Obligations.LineBufferAccess
  intro s i v hi hwords
  have inside : 0x1000 + 4 * i < 0x2000 := by omega
  have aligned : (0x1000 + 4 * i) % 4 = 0 := by omega
  have read := hostOp_read_window s inside aligned
  have write := hostOp_write_window s v inside aligned
  rw [csrAt_lb hi, ← Nat.add_assoc] at read write
  dsimp only
  rw [← lbLock_iff, read, write]
  refine ⟨fun locked => ?_, fun unlocked => ?_⟩
  · rw [writeEffect_lb_locked locked, readValue_lb_locked locked, readEffect_lb_locked locked]
    exact ⟨rfl, rfl⟩
  · rw [writeEffect_lb_unlocked unlocked, readValue_lb_unlocked unlocked, readEffect_lb_unlocked unlocked,
      BitVec.setWidth_eq_extractLsb' (by decide)]
    exact ⟨rfl, rfl⟩

/-! ### The constant registers and the command FIFO -/

/-- Settles O36: none of the three offsets names a register with a read effect or a write effect. -/
theorem constantRegisters : Obligations.ConstantRegisters := by
  unfold Obligations.ConstantRegisters
  intro s v
  have accesses {off : Nat} (inside : off < 0x2000) (aligned : off % 4 = 0) :=
    And.intro (hostOp_read_window s inside aligned) (hostOp_write_window s v inside aligned)
  exact ⟨accesses (by decide) (by decide), accesses (by decide) (by decide), accesses (by decide) (by decide)⟩

theorem pushWord_of_room {s : State} (h : s.q.length < s.par.cmdqDepth) (w : Word) :
    pushWord w s = { s with q := s.q ++ [w] } := if_pos h

theorem pushWord_of_full {s : State} (h : s.par.cmdqDepth ≤ s.q.length) (w : Word) :
    pushWord w s = { s with csr := { s.csr with cmdovf := true } } := if_neg (Nat.not_lt.mpr h)

/-- Settles O37: a write of CMD is `pushWord`, which looks at the FIFO's length alone. -/
theorem cmdPush : Obligations.CmdPush := by
  unfold Obligations.CmdPush
  intro s w
  have write : hostOp (.write (s.par.rsqBase + 0x00C) 4 w) s = .done (pushWord w s) :=
    hostOp_write_window s w (by decide) (by decide)
  refine ⟨fun room => ?_, fun full => ?_, hostOp_read_window s (by decide) (by decide)⟩
  · rw [write, pushWord_of_room room]
  · rw [write, pushWord_of_full full]

/-! ### The state after block reset -/

@[simp] theorem place_zero (n i : Nat) : place i 0#n = 0#32 := by
  simp [place]

theorem length_lbAtReset (words n : Nat) : (lbAtReset words n).length = words := by
  simp [lbAtReset]

@[simp] theorem resetWith_csr (p : Params) : (State.resetWith p).csr = Csr.reset := rfl
@[simp] theorem resetWith_chain (p : Params) : (State.resetWith p).seq.chain = false := rfl
@[simp] theorem resetWith_sample (p : Params) : (State.resetWith p).sample =
    { x := 0#10, y := 0#10, ready := false, touched := false, tovr := false } := rfl
@[simp] theorem resetWith_busy (p : Params) : (State.resetWith p).busy = false := rfl
@[simp] theorem resetWith_faulted (p : Params) : (State.resetWith p).faulted = false := rfl
@[simp] theorem resetWith_ts (p : Params) : (State.resetWith p).ts = 0#2 := rfl
@[simp] theorem resetWith_qcount (p : Params) : (State.resetWith p).qcount = 0#8 := rfl

/-- The queue is empty and nothing runs, but IE_IDLE is 0 as the other two enables are (R52; 60_exceptions.md R313). -/
@[simp] theorem resetWith_irq (p : Params) : (State.resetWith p).irq = false := rfl

theorem resetWith_ctrl (p : Params) : (State.resetWith p).ctrl = 0#32 := by
  simp [State.ctrl, Csr.reset]

theorem resetWith_status (p : Params) : (State.resetWith p).status = 0#32 := by
  simp [State.status, Csr.reset, ErrCode.toBits]

theorem resetWith_touch (p : Params) : (State.resetWith p).touch = 0#32 := by
  simp [State.touch]

theorem resetWith_lb_length (p : Params) : (State.resetWith p).lb.length = p.linebufWords :=
  length_lbAtReset _ _

/-- Settles O49: CTRL, STATUS, TOUCH, the line buffer's length and IRQ are computed, and every other value is the
literal that `State.afterReset` stores. -/
theorem resetValues : Obligations.ResetValues := by
  unfold Obligations.ResetValues
  intro p
  refine ⟨rfl, rfl, resetWith_ctrl p, resetWith_status p, rfl, rfl, rfl, rfl, rfl, rfl, resetWith_touch p, rfl, rfl,
    rfl, rfl, rfl, resetWith_lb_length p, rfl, ?_⟩
  exact ⟨rfl, rfl, rfl, rfl, rfl, rfl, rfl, rfl, rfl, resetWith_irq p, rfl, rfl, rfl, rfl⟩

end Sys2Proof.Machine
end

section
/-! The accesses of the window that the host port refuses (20_memory.md R73). -/

namespace Sys2Proof.Machine

/-- Inside the window, an access of another size than a word or at a misaligned offset is refused (20_memory.md R73). -/
theorem portStop_narrow {base off size : Nat} (inside : off < 0x2000) (narrow : size ≠ 4 ∨ off % 4 ≠ 0) :
    portStop base (base + off) size = some (.refused .narrowHostAccess) := by
  have inWindow : ¬ (base + off < base ∨ base + 0x2000 ≤ base + off) := by omega
  rw [portStop, if_neg inWindow, Nat.add_sub_cancel_left, if_pos narrow]

theorem takeHost_read_stop {g addr size : Nat} {rest : List HostReq} {s : State} {x : Stop}
    (h : portStop s.par.rsqBase addr size = some x) : takeHost ⟨g, .read addr size⟩ rest s = .stop x := by
  simp only [takeHost, hostOp, h]

theorem takeHost_write_stop {g addr size : Nat} {v : Word} {rest : List HostReq} {s : State} {x : Stop}
    (h : portStop s.par.rsqBase addr size = some x) : takeHost ⟨g, .write addr size v⟩ rest s = .stop x := by
  simp only [takeHost, hostOp, h]

/-- A refusal by the port is the outcome of the host's step. -/
theorem hostStep_of_refused {r : HostReq} {rest : List HostReq} {s : State} {x : Refusal}
    (h : takeHost r rest s = .stop (.refused x)) : hostStep r rest s = .refused x := by
  simp only [hostStep, h]

/-- Settles O47: the port refuses the access by its offset and size alone, whether it reads or writes. -/
theorem narrowAccessRefused : Obligations.NarrowAccessRefused := by
  unfold Obligations.NarrowAccessRefused
  intro s off size g v rest inside narrow
  have stop := portStop_narrow (base := s.par.rsqBase) inside narrow
  exact ⟨hostStep_of_refused (takeHost_read_stop stop), hostStep_of_refused (takeHost_write_stop stop)⟩

end Sys2Proof.Machine
end

section
/-! The example words of the command encoding (30_encoding.md R113). -/

namespace Sys2Proof.Machine

/-- Settles O4: a table of fourteen closed rows, on each of which `decode` and `encode` are evaluated. -/
theorem exampleWords : Obligations.ExampleWords := by
  unfold Obligations.ExampleWords
  decide

end Sys2Proof.Machine
end

section
/-! The bytes of a pixel on the bus (42_bulk_commands.md R180). -/

namespace Sys2Proof.Machine

theorem hiByte_append_loByte (p : Half) : hiByte p ++ loByte p = p := BitVec.extractLsb'_append_extractLsb'

/-- Putting two bytes side by side is R180's shift and or. -/
theorem byte_append_eq_shiftLeft_or (hi lo : Byte) : hi ++ lo = (hi.setWidth 16 <<< 8) ||| lo.setWidth 16 := by
  rw [← BitVec.setWidth_append_eq_shiftLeft_setWidth_or, BitVec.setWidth_eq]

theorem pixBytes_eq (msb : Bool) (p : Half) : pixBytes msb p =
    if msb then [p.extractLsb' 8 8, p.extractLsb' 0 8] else [p.extractLsb' 0 8, p.extractLsb' 8 8] := by
  cases msb with
  | true => rfl
  | false => rfl

theorem pixValue_eq (msb : Bool) (b0 b1 : Byte) : pixValue msb b0 b1 =
    if msb then (b0.setWidth 16 <<< 8) ||| b1.setWidth 16 else (b1.setWidth 16 <<< 8) ||| b0.setWidth 16 := by
  rw [pixValue, byte_append_eq_shiftLeft_or, byte_append_eq_shiftLeft_or]

/-- `PixValue(PixBytes(p)) = p`: in either byte order the high byte goes back above the low byte. -/
@[simp] theorem pixValue_pixFirst_pixSecond (msb : Bool) (p : Half) :
    pixValue msb (pixFirst msb p) (pixSecond msb p) = p := by
  cases msb with
  | true => exact hiByte_append_loByte p
  | false => exact hiByte_append_loByte p

theorem pixValue_of_pixBytes {msb : Bool} {p : Half} {b0 b1 : Byte} (h : pixBytes msb p = [b0, b1]) :
    pixValue msb b0 b1 = p := by
  obtain ⟨rfl, rfl⟩ : pixFirst msb p = b0 ∧ pixSecond msb p = b1 := by simpa [pixBytes] using h
  exact pixValue_pixFirst_pixSecond msb p

/-- Settles O56: R180's two equations, and its round trip, which rests on the high and the low byte together being the
pixel. -/
theorem pixelBytes : Obligations.PixelBytes := by
  unfold Obligations.PixelBytes
  exact fun msb p => ⟨pixBytes_eq msb p, fun b0 b1 => ⟨pixValue_eq msb b0 b1, pixValue_of_pixBytes⟩⟩

end Sys2Proof.Machine
end

section
/-! The TOUCH register: where its fields are, and what a read of it leaves (10_state.md R38; 44_touch_sampler.md R244,
R245). -/

namespace Sys2Proof.Machine

/-! ### The bits of a placed field -/

theorem extractLsb'_place_self {n i : Nat} (v : BitVec n) (fits : i + n ≤ 32) :
    (place i v).extractLsb' i n = v := by
  apply BitVec.eq_of_getLsbD_eq
  intro b hb
  simp [hb, getLsbD_place i (i + b) v (by omega)]

/-- A placed field is 0 outside its own bits. -/
theorem extractLsb'_place_disjoint {n i j m : Nat} (v : BitVec n) (apart : j + m ≤ i ∨ i + n ≤ j)
    (fits : j + m ≤ 32) : (place i v).extractLsb' j m = 0#m := by
  apply BitVec.eq_of_getLsbD_eq
  intro b hb
  simp only [BitVec.getLsbD_extractLsb', getLsbD_place i (j + b) v (by omega), BitVec.getLsbD_zero]
  obtain below | above := apart
  · have notIn : ¬ i ≤ j + b := by omega
    simp [notIn]
  · have past : v.getLsbD (j + b - i) = false := BitVec.getLsbD_of_ge _ _ (by omega)
    simp [past]

/-! ### The fields of TOUCH -/

theorem touch_valid (s : State) : s.touch.getLsbD 31 = s.sample.ready := by
  simp [State.touch, getElem_place]

/-- TOUCH between the bits of VALID, X and Y is 0 (R38). -/
theorem touch_field_apart (s : State) {j m : Nat} (valid : j + m ≤ 31) (x : j + m ≤ 16 ∨ 26 ≤ j) (y : 10 ≤ j) :
    s.touch.extractLsb' j m = 0#m := by
  have fits : j + m ≤ 32 := by omega
  simp only [State.touch, BitVec.extractLsb'_or, extractLsb'_place_disjoint _ (.inl valid) fits,
    extractLsb'_place_disjoint s.sample.x x fits, extractLsb'_place_disjoint s.sample.y (.inr y) fits, BitVec.or_self]

theorem touch_x (s : State) : s.touch.extractLsb' 16 10 = s.sample.x := by
  simp [State.touch, BitVec.extractLsb'_or, extractLsb'_place_self, extractLsb'_place_disjoint]

theorem touch_y (s : State) : s.touch.extractLsb' 0 10 = s.sample.y := by
  simp [State.touch, BitVec.extractLsb'_or, extractLsb'_place_self, extractLsb'_place_disjoint]

/-! ### What a read of TOUCH leaves -/

theorem getLsbD_clearValid : ∀ j < 32, (0x7FFFFFFF#32).getLsbD j = decide (j ≠ 31) := by decide

/-- Without READY, TOUCH is its value with VALID cleared: the coordinates stay (notes/assumptions/18.md). -/
theorem touch_of_unready {s t : State} (h : t.sample = { s.sample with ready := false }) :
    t.touch = s.touch &&& 0x7FFFFFFF#32 := by
  apply BitVec.eq_of_getLsbD_eq
  intro j hj
  simp only [State.touch, h, BitVec.getLsbD_and, BitVec.getLsbD_or, getLsbD_place _ _ _ hj, getLsbD_clearValid j hj]
  by_cases valid : j = 31
  · simp [valid]
  · have belowValid : ¬ 31 ≤ j := by omega
    simp [valid, belowValid]

theorem hostOp_read_touch (s : State) : hostOp (.read (s.par.rsqBase + 0x01C) 4) s =
    .done (logRead (s.par.rsqBase + 0x01C) s.touch { s with sample := { s.sample with ready := false } }) :=
  hostOp_read_window s (by decide) (by decide)

/-- Once READY is clear, a read of TOUCH changes nothing but what the host has read. -/
theorem hostOp_read_touch_of_unready {s : State} (h : s.sample.ready = false) :
    hostOp (.read (s.par.rsqBase + 0x01C) 4) s = .done (logRead (s.par.rsqBase + 0x01C) s.touch s) := by
  rw [hostOp_read_touch, ← h]

/-- Settles O38: the value is `State.touch` with its fields, and the first read leaves READY clear, so that the second
reports the same coordinates without VALID and changes nothing. -/
theorem touchReadInvalidates : Obligations.TouchReadInvalidates := by
  unfold Obligations.TouchReadInvalidates
  intro s
  have aboveX : s.touch.extractLsb' 26 5 = 0#5 := touch_field_apart s (by decide) (by decide) (by decide)
  have aboveY : s.touch.extractLsb' 10 6 = 0#6 := touch_field_apart s (by decide) (by decide) (by decide)
  exact ⟨s.touch, touch_valid s, aboveX, touch_x s, aboveY, touch_y s,
    _, hostOp_read_touch s, rfl, _, hostOp_read_touch_of_unready rfl, touch_of_unready rfl⟩

end Sys2Proof.Machine
end

section
/-! The commands the block turns away: what their fault entry leaves (60_exceptions.md R301 to R303), a word that decode
rejects, and an operand value the command cannot take. -/

namespace Sys2Proof.Machine

/-! ### The fault entry of a rejected command -/

/-- Fault entry of a command that executes (60_exceptions.md R303): the record, the chain closed, the bus given back. -/
theorem faultEntry_command_of_exec {s : State} (running : s.seq.state = .exec) (code : ErrCode) (detail : Half) :
    faultEntry .command code detail s = { s with
      seq := { s.seq with state := .fault, chain := false }
      csr := { s.csr with
        err := code
        errcmd := s.seq.cur
        erraux := errauxOf false (stepField s.env.now s.loc.step) detail }
      owner := .none
      loc := Local.none } := by
  have unfaulted : ¬ s.faulted = true := by simp [State.faulted, running]
  rw [faultEntry, if_neg unfaulted]
  rfl

/-- ERRAUX of a command's fault outside INIT that has no DETAIL (10_state.md R37). -/
theorem errauxOf_noDetail (now : Nat) : errauxOf false (stepField now 0) 0#16 = 0#32 := by
  rw [stepField_zero, errauxOf_zero]
  rfl

/-- What a command that is turned away before any bus event leaves, whatever the host reads and writes meanwhile: the
record with ERRAUX = 0, the trace and the pins, what the host cannot reach, and the line buffer if the word locks it. -/
structure Rejected (code : ErrCode) (s t : State) : Prop where
  faulted : Faulted code 0#32 s t
  bus : t.bus = s.bus
  rdata : t.csr.rdata = s.csr.rdata
  initDone : t.csr.initDone = s.csr.initDone
  x : t.sample.x = s.sample.x
  y : t.sample.y = s.sample.y
  pins : t.pins = s.pins
  lb : isBulkWord s.seq.cur = true → t.lb = s.lb

/-- The fault entry after the pop's cycle, in which the host may have acted. -/
theorem rejected_of_hostOnly {code : ErrCode} {s v : State} (running : s.seq.state = .exec)
    (host : HostOnly { s with loc := Local.none } v) (ran : Ran 0 [] { s with loc := Local.none } v) :
    Rejected code s (tick 1 (faultEntry .command code 0#16 v)) := by
  have record : Faulted code 0#32 s (tick 1 (faultEntry .command code 0#16 v)) := by
    rw [← errauxOf_noDetail v.env.now]
    exact faulted_of_ran (s := { s with loc := Local.none }) running ran
  have stillRunning : v.seq.state = .exec := by rw [(host.running running).1]; exact running
  rw [faultEntry_command_of_exec stillRunning] at record ⊢
  exact ⟨record, (bus_of_ran ran :), host.rdata, host.initDone, host.x, host.y, host.pins, host.buffer running⟩

theorem rejectCommand_benign {s : State} (code : ErrCode) (running : s.seq.state = .exec) (benign : Benign s) :
    ∃ t, rejectCommand code s = .next t ∧ Rejected code s t := by
  obtain ⟨v, rejected, next⟩ := runCommand_faults (who := .command) (k := false)
    (Q := fun v => Rejected code s (tick 1 (faultEntry .command code 0#16 v))) benign
    fun u ran _ host => ⟨u, rfl, rejected_of_hostOnly running host ran⟩
  exact ⟨_, next, rejected⟩

/-- With no host action to come, a rejected command takes two cycles, the pop's and the fault entry's
(70_reset_and_hazards.md R348), and changes nothing but the fault record, SEQ, the bus owner and the poller's timer. -/
theorem rejectCommand_quiet {s : State} (code : ErrCode) (running : s.seq.state = .exec) (quiet : Quiet s) :
    rejectCommand code s = .next { s with
      seq := { s.seq with state := .fault, chain := false }
      csr := { s.csr with err := code, errcmd := s.seq.cur, erraux := 0#32 }
      owner := .none
      loc := Local.none
      poll := s.poll.advance s.par.clkPerMs 2
      env := { s.env with now := s.env.now + 2 } } := by
  have stillRunning : (tick 1 { s with loc := Local.none }).seq.state = .exec := running
  have twoCycles : (s.poll.advance s.par.clkPerMs 1).advance s.par.clkPerMs 1 = s.poll.advance s.par.clkPerMs 2 :=
    advance_add _ _ _ _
  rw [rejectCommand, runCommand_quiet quiet, closeCommand, faultEntry_command_of_exec stillRunning, ← twoCycles,
    ← errauxOf_noDetail (s.env.now + 1)]
  rfl

/-! ### The pop of a word that decode rejects -/

/-- No background poll starts where SEQ pops: it waits only while a chain is open, and then the bus is SEQ's. -/
theorem AtPop.pollStarts {w : Word} {rest : List Word} {s : State} (pop : AtPop w rest s) : pollStarts s = false := by
  by_cases pending : s.poll.state = .pending
  · simp [Machine.pollStarts, pop.bus, pop.noPoll pending]
  · simp [Machine.pollStarts, pending]

theorem AtPop.fetchWord {w : Word} {rest : List Word} {s : State} (pop : AtPop w rest s) :
    fetchWord s = some (w, rest) := by
  have ready : seqReady s = true := by
    have notPolls : s.owner ≠ .poll := by rw [pop.bus]; split <;> decide
    have noPoll : s.seq.chain = true ∨ s.poll.state ≠ .pending := or_iff_not_imp_right.mpr fun pending =>
      pop.noPoll (not_not.mp pending)
    simpa [seqReady, pop.idle, pop.resumed, notPolls] using noPoll
  simp only [Machine.fetchWord, ready, if_true, pop.queue]

theorem AtPop.step {w : Word} {rest : List Word} {s : State} (pop : AtPop w rest s) : step s = runWord w rest s := by
  simp only [Machine.step, pop.noHost, agentStep, pop.pollStarts, pop.fetchWord, Bool.false_eq_true, if_false]

theorem runWord_of_decode_error {w : Word} {e : DecodeError} (h : decode w = .error e) (rest : List Word) (s : State) :
    runWord w rest s = rejectCommand .illegalCmd (popWord w rest s) := by
  simp only [runWord, h, rejectWord]

/-- Settles O6: the step is the rejection of a command in the state after the pop, where SEQ executes `w`. -/
theorem illegalWordFaults : Obligations.IllegalWordFaults := by
  unfold Obligations.IllegalWordFaults
  intro s w rest pop benign ⟨e, illegal⟩
  rw [pop.step, runWord_of_decode_error illegal]
  obtain ⟨t, next, rejected⟩ := rejectCommand_benign (s := popWord w rest s) .illegalCmd rfl benign
  obtain ⟨seq, owner, -, err, errcmd, erraux⟩ := rejected.faulted
  refine ⟨t, next, seq, owner, err, errcmd, erraux, rejected.bus, rejected.rdata, rejected.initDone, rejected.x,
    rejected.y, rejected.pins, fun quiet => ?_⟩
  rw [rejectCommand_quiet (s := popWord w rest s) .illegalCmd rfl quiet] at next
  cases next
  rfl

/-! ### An operand value the command cannot take -/

/-- An operand value that the checks of 30_encoding.md R107 turn away is rejected by the command's meaning (R110). -/
theorem exec_of_operandError {i : Instr} {s : State} {code : ErrCode}
    (h : operandError s.par.linebufWords i = some code) : exec i s = rejectCommand code s := by
  cases i
  case wreg16 => simp only [exec, execWreg16, h]
  case mwrite => simp only [exec, execMwrite, h]
  case mread => simp only [exec, execMread, h]
  case init => simp only [exec, execInit, h]
  all_goals cases h

/-- Settles O28: each of R302's three ways is an operand error, and an operand error rejects the command. -/
theorem badOperandTraps : Obligations.BadOperandTraps := by
  unfold Obligations.BadOperandTraps
  rintro i s ⟨running, -, -⟩ benign ways
  have bad : operandError s.par.linebufWords i = some .badOperand := by
    rcases ways with ⟨k, d, rfl⟩ | ⟨k, a, n, (rfl | rfl), count⟩
    · rfl
    · exact if_pos count
    · exact if_pos count
  obtain ⟨t, next, rejected⟩ := rejectCommand_benign .badOperand running benign
  exact ⟨t, (exec_of_operandError bad).trans next, rejected.faulted, rejected.bus, rejected.rdata, rejected.lb⟩

end Sys2Proof.Machine
end

section
/-! The opcode map: the words of each row, and what decode says of a word and of a command's word (30_encoding.md R100 to
R109). -/

namespace Sys2Proof.Machine

/-- The bits a row of the opcode map fixes: OP, RSV, and `n` bits from bit `i` on that it lists as zero (R106). -/
def fixedBits (i n : Nat) : Word := 0xF7000000#32 ||| place i (BitVec.allOnes n)

theorem getLsbD_fixedBits {i n j : Nat} (h : j < 32) : (fixedBits i n).getLsbD j =
    (decide (24 ≤ j ∧ j ≠ 27) || decide (i ≤ j ∧ j < i + n)) := by
  have high : (0xF7000000#32).getLsbD j = decide (24 ≤ j ∧ j ≠ 27) := by revert j; decide
  rw [fixedBits, BitVec.getLsbD_or, high, getLsbD_place i j _ h, BitVec.getLsbD_allOnes]
  by_cases below : i ≤ j
  · have shifted : j - i < n ↔ j < i + n := by omega
    simp [below, shifted]
  · simp [below]

theorem place_op_getLsbD (op : BitVec 4) {j : Nat} (h : j < 32) :
    (place 28 op).getLsbD j = (decide (28 ≤ j) && op.getLsbD (j - 28)) := getLsbD_place 28 j op h

/-- A word has the fixed bits of a row exactly when it has the row's opcode, RSV = 0 and zeros where the row lists them. -/
theorem and_fixedBits_eq_iff (w : Word) (op : BitVec 4) {i n : Nat} (low : i + n ≤ 24) :
    w &&& fixedBits i n = place 28 op ↔ opField w = op ∧ rsvField w = 0#3 ∧ w.extractLsb' i n = 0#n := by
  constructor
  · intro h
    have bit (j : Nat) (hj : j < 32) := congrArg (fun v => v.getLsbD j) h
    simp only [BitVec.getLsbD_and] at bit
    refine ⟨?_, ?_, ?_⟩
    all_goals
      apply BitVec.eq_of_getLsbD_eq
      intro b hb
    · have := bit (28 + b) (by omega)
      rw [getLsbD_fixedBits (by omega), place_op_getLsbD op (by omega)] at this
      simpa [opField, hb, show 24 ≤ 28 + b ∧ 28 + b ≠ 27 by omega] using this
    · have := bit (24 + b) (by omega)
      rw [getLsbD_fixedBits (by omega), place_op_getLsbD op (by omega)] at this
      simpa [rsvField, hb, show 24 + b ≠ 27 by omega, show ¬ 28 ≤ 24 + b by omega] using this
    · have := bit (i + b) (by omega)
      rw [getLsbD_fixedBits (by omega), place_op_getLsbD op (by omega)] at this
      simpa [hb, show ¬ 28 ≤ i + b by omega] using this
  · rintro ⟨rfl, rsv, zero⟩
    apply BitVec.eq_of_getLsbD_eq
    intro j hj
    rw [BitVec.getLsbD_and, getLsbD_fixedBits hj, place_op_getLsbD _ hj]
    by_cases top : 28 ≤ j
    · have : 28 + (j - 28) = j := by omega
      simp [opField, top, show j - 28 < 4 by omega, this, show 24 ≤ j ∧ j ≠ 27 by omega]
    · by_cases reserved : 24 ≤ j ∧ j ≠ 27
      · have := congrArg (fun v => v.getLsbD (j - 24)) rsv
        simp [rsvField, show j - 24 < 3 by omega, show 24 + (j - 24) = j by omega] at this
        simp [top, this]
      · by_cases zeroField : i ≤ j ∧ j < i + n
        · have := congrArg (fun v => v.getLsbD (j - i)) zero
          simp [show j - i < n by omega, show i + (j - i) = j by omega] at this
          simp [top, this]
        · simp [top, reserved, zeroField]

/-! ### Decode by rows -/

/-- The rows of R106's table: each is the only one of its opcode, and fixes OP to it and RSV to 0. -/
theorem opcodeTable_rows : ∀ r ∈ opcodeTable, rowOf r.op = some r ∧ opField r.mask = 0xF#4 ∧
    rsvField r.mask = 0x7#3 ∧ opField r.pattern = r.op ∧ rsvField r.pattern = 0#3 := by decide

theorem opField_and (v w : Word) : opField (v &&& w) = opField v &&& opField w := BitVec.extractLsb'_and

theorem rsvField_and (v w : Word) : rsvField (v &&& w) = rsvField v &&& rsvField w := BitVec.extractLsb'_and

/-- A word of a row's pattern has the row's opcode and RSV = 0. -/
theorem fields_of_row {w : Word} {r : OpRow} (row : r ∈ opcodeTable) (h : w &&& r.mask = r.pattern) :
    opField w = r.op ∧ rsvField w = 0#3 := by
  obtain ⟨-, opMask, rsvMask, opPattern, rsvPattern⟩ := opcodeTable_rows r row
  have op := congrArg opField h
  have rsv := congrArg rsvField h
  rw [opField_and, opMask, opPattern] at op
  rw [rsvField_and, rsvMask, rsvPattern] at rsv
  exact ⟨(BitVec.and_allOnes ..).symm.trans op, (BitVec.and_allOnes ..).symm.trans rsv⟩

/-- Decode accepts a word exactly as the command of a row whose pattern it has, with the operands of its fields. -/
theorem decode_eq_ok_iff (w : Word) (i : Instr) : decode w = .ok i ↔
    ∃ r ∈ opcodeTable, w &&& r.mask = r.pattern ∧ i = operandsOf r.mnemonic w := by
  constructor
  · intro h
    unfold decode at h
    split at h
    · cases h
    · rename_i r row
      split_ifs at h with rsv zero
      injection h with h
      exact ⟨r, List.mem_of_find?_eq_some row, by simpa using zero, h.symm⟩
  · rintro ⟨r, row, pattern, rfl⟩
    obtain ⟨op, rsv⟩ := fields_of_row row pattern
    simp [decode, op, (opcodeTable_rows r row).1, rsv, pattern]

/-- Settles O2: decode goes by rows, and the eleven rows are the eleven alternatives. -/
theorem decodeByOpcodeMap : Obligations.DecodeByOpcodeMap := by
  unfold Obligations.DecodeByOpcodeMap
  intro w i
  rw [decode_eq_ok_iff]
  simp only [opcodeTable, List.mem_cons, List.not_mem_nil, or_false, exists_eq_or_imp, exists_eq_left]
  rfl

/-! ### Decode of an encoded command -/

theorem place_zero_setWidth (v : Byte) : place 0 (v.setWidth 16) = place 0 v := by
  simp [place]

/-- Below bit 24 an encoded command holds its A and D alone (R100). -/
theorem encodeFields_low (op : BitVec 4) (k : Bool) (a : Byte) (d : Half) {i n : Nat} (low : i + n ≤ 24) :
    (encodeFields op k a d).extractLsb' i n = (place 16 a ||| place 0 d).extractLsb' i n := by
  simp only [encodeFields, BitVec.extractLsb'_or, extractLsb'_place_disjoint op (show i + n ≤ 28 ∨ _ by omega) (by omega),
    extractLsb'_place_disjoint (flagBit k) (show i + n ≤ 27 ∨ _ by omega) (by omega), BitVec.or_self, BitVec.zero_or]

/-- The command of a row, encoded with zeros where the row lists them, decodes to that row's command. -/
theorem decode_encodeFields {op : BitVec 4} {m : Mnemonic} {i n : Nat}
    (row : rowOf op = some ⟨m, op, fixedBits i n, place 28 op⟩) (low : i + n ≤ 24) (k : Bool) {a : Byte} {d : Half}
    (zero : (place 16 a ||| place 0 d).extractLsb' i n = 0#n) :
    decode (encodeFields op k a d) = .ok (operandsOf m (encodeFields op k a d)) := by
  have fixed : encodeFields op k a d &&& fixedBits i n = place 28 op := by
    rw [and_fixedBits_eq_iff _ _ low, encodeFields_low _ _ _ _ low]
    exact ⟨opField_encodeFields .., rsvField_encodeFields .., zero⟩
  simp [decode, opField_encodeFields, row, rsvField_encodeFields, fixed]

/-- The fields of an encoded command. -/
theorem operandsOf_encodeFields (m : Mnemonic) (op : BitVec 4) (k : Bool) (a : Byte) (d : Half) :
    operandsOf m (encodeFields op k a d) = match m with
      | .nop => .nop k
      | .wreg => .wreg k a (d.setWidth 8)
      | .rreg => .rreg k a
      | .wreg16 => .wreg16 k a d
      | .wait => .wait k a (d.setWidth 8)
      | .mwrite => .mwrite k a d
      | .mread => .mread k a d
      | .delay => .delay k d
      | .reset => .reset k
      | .init => .init k d
      | .tpoll => .tpoll k := by
  cases m <;> simp only [operandsOf, kField_encodeFields, aField_encodeFields, dField_encodeFields, vField_encodeFields]

/-- Settles O1: every command is encoded with zeros where its row lists them, so it has its row's pattern. -/
theorem decodeOfEncode : Obligations.DecodeOfEncode := by
  unfold Obligations.DecodeOfEncode
  intro i
  -- the zero fields of R106: A and D, D, A, bits [15:8], or none
  have noOperand : (place 16 0#8 ||| place 0 0#16).extractLsb' 0 24 = 0#24 := by decide
  have noD (a : Byte) : (place 16 a ||| place 0 0#16).extractLsb' 0 16 = 0#16 := by
    rw [place_zero, BitVec.or_zero, extractLsb'_place_disjoint a (by decide) (by decide)]
  have noA (d : Half) : (place 16 0#8 ||| place 0 d).extractLsb' 16 8 = 0#8 := by
    rw [place_zero, BitVec.zero_or, extractLsb'_place_disjoint d (by decide) (by decide)]
  have lowByte (a v : Byte) : (place 16 a ||| place 0 (v.setWidth 16)).extractLsb' 8 8 = 0#8 := by
    rw [place_zero_setWidth, BitVec.extractLsb'_or, extractLsb'_place_disjoint a (by decide) (by decide),
      extractLsb'_place_disjoint v (by decide) (by decide), BitVec.or_self]
  have noZeros (a : Byte) (d : Half) : (place 16 a ||| place 0 d).extractLsb' 0 0 = 0#0 := BitVec.eq_nil _
  have row (m : Mnemonic) {op : BitVec 4} {i n : Nat} := @decode_encodeFields op m i n
  have operand {m : Mnemonic} {op : BitVec 4} {k : Bool} {a : Byte} {d : Half} := operandsOf_encodeFields m op k a d
  cases i with
  | nop k => exact (row .nop (by decide) (by decide) k noOperand).trans (by rw [operand])
  | wreg k a v => exact (row .wreg (by decide) (by decide) k (lowByte a v)).trans (by simp [operand])
  | rreg k a => exact (row .rreg (by decide) (by decide) k (noD a)).trans (by rw [operand])
  | wreg16 k a d => exact (row .wreg16 (by decide) (by decide) k (noZeros a d)).trans (by rw [operand])
  | wait k a m => exact (row .wait (by decide) (by decide) k (lowByte a m)).trans (by simp [operand])
  | delay k ms => exact (row .delay (by decide) (by decide) k (noA ms)).trans (by rw [operand])
  | mwrite k a n => exact (row .mwrite (by decide) (by decide) k (noZeros a n)).trans (by rw [operand])
  | mread k a n => exact (row .mread (by decide) (by decide) k (noZeros a n)).trans (by rw [operand])
  | reset k => exact (row .reset (by decide) (by decide) k noOperand).trans (by rw [operand])
  | init k g => exact (row .init (by decide) (by decide) k (noA g)).trans (by rw [operand])
  | tpoll k => exact (row .tpoll (by decide) (by decide) k noOperand).trans (by rw [operand])

/-! ### What decode rejects -/

/-- Where the row of an opcode lists a zero field, by lowest bit and width (R106). -/
def zeroField (op : Nat) : Nat × Nat :=
  if op = 0x0 ∨ op = 0x8 ∨ op = 0xA then (0, 24)
  else if op = 0x1 ∨ op = 0x4 then (8, 8)
  else if op = 0x2 then (0, 16)
  else if op = 0x7 ∨ op = 0x9 then (16, 8)
  else (0, 0)

/-- Some bit is set that the row of the word's opcode lists as zero. -/
abbrev HasZeroFieldBit (w : Word) : Prop :=
  w.extractLsb' (zeroField (opField w).toNat).1 (zeroField (opField w).toNat).2 ≠ 0#_

theorem opcodeTable_zeroField : ∀ r ∈ opcodeTable, r.pattern = place 28 r.op ∧
    r.mask = fixedBits (zeroField r.op.toNat).1 (zeroField r.op.toNat).2 ∧
    (zeroField r.op.toNat).1 + (zeroField r.op.toNat).2 ≤ 24 := by decide

theorem rowOf_eq_none_iff : ∀ op : BitVec 4, rowOf op = none ↔ 0xB ≤ op.toNat := by decide

theorem op_of_rowOf {op : BitVec 4} {r : OpRow} (h : rowOf op = some r) : r.op = op := by
  simpa using List.find?_some h

/-- The checks of decode in R107's order, each on a field of the word. -/
theorem decode_by_fields (w : Word) : ∃ i, decode w =
    if 0xB ≤ (opField w).toNat then .error .reservedOpcode
    else if rsvField w ≠ 0#3 then .error .nonzeroReserved
    else if HasZeroFieldBit w then .error .nonzeroZeroField
    else .ok i := by
  cases row : rowOf (opField w) with
  | none => exact ⟨.nop false, by simp only [decode, row, (rowOf_eq_none_iff _).mp row, if_true]⟩
  | some r =>
    have defined : ¬ 0xB ≤ (opField w).toNat := by rw [← rowOf_eq_none_iff, row]; simp
    obtain ⟨pattern, mask, low⟩ := opcodeTable_zeroField r (List.mem_of_find?_eq_some row)
    rw [op_of_rowOf row] at pattern mask low
    have fixed := and_fixedBits_eq_iff w (opField w) low
    refine ⟨operandsOf r.mnemonic w, ?_⟩
    simp only [decode, row, mask, pattern, bne_iff_ne, ne_eq, fixed, defined, if_false]
    by_cases rsv : rsvField w = 0#3 <;> simp [rsv]

/-- The zero fields, row by row. -/
theorem hasZeroFieldBit_iff (w : Word) : HasZeroFieldBit w ↔
    (((opField w).toNat = 0x0 ∨ (opField w).toNat = 0x8 ∨ (opField w).toNat = 0xA) ∧ w.extractLsb' 0 24 ≠ 0#24) ∨
    (((opField w).toNat = 0x1 ∨ (opField w).toNat = 0x4) ∧ w.extractLsb' 8 8 ≠ 0#8) ∨
    ((opField w).toNat = 0x2 ∧ w.extractLsb' 0 16 ≠ 0#16) ∨
    (((opField w).toNat = 0x7 ∨ (opField w).toNat = 0x9) ∧ w.extractLsb' 16 8 ≠ 0#8) := by
  unfold HasZeroFieldBit
  generalize (opField w).toNat = op
  generalize field : zeroField op = f
  unfold zeroField at field
  split_ifs at field with all low d a <;> subst field
  · have others : ¬ (op = 0x1 ∨ op = 0x4) ∧ ¬ op = 0x2 ∧ ¬ (op = 0x7 ∨ op = 0x9) := by omega
    simp [all, others]
  · have others : ¬ op = 0x2 ∧ ¬ (op = 0x7 ∨ op = 0x9) := by omega
    simp [all, low, others]
  · simp [d]
  · simp [all, low, d, a]
  · simp [all, low, d, a, BitVec.eq_nil (w.extractLsb' 0 0)]

/-- Settles O3: the three grounds are the first three checks of decode, and a reserved opcode has no zero field. -/
theorem decodeRejectsExactly : Obligations.DecodeRejectsExactly := by
  unfold Obligations.DecodeRejectsExactly
  intro w
  obtain ⟨i, fields⟩ := decode_by_fields w
  have reserved (h : 0xB ≤ (opField w).toNat) : ¬ HasZeroFieldBit w := by rw [hasZeroFieldBit_iff]; omega
  refine ⟨(?_ : _ ↔ 0xB ≤ (opField w).toNat), (?_ : _ ↔ (opField w).toNat < 0xB ∧ rsvField w ≠ 0#3),
    Iff.trans (?_ : _ ↔ rsvField w = 0#3 ∧ _) (and_congr_right fun _ => hasZeroFieldBit_iff w)⟩
  all_goals rw [fields]
  · split_ifs with op <;> simp [op]
  · split_ifs with op rsv <;> simp_all
  · split_ifs with op rsv zero <;> simp_all

end Sys2Proof.Machine
end

section
/-! Every command as one body that a command runner runs, and what a property kept by the pieces of a phase says of the
whole command. -/

namespace Sys2Proof.Machine

/-! ### Every command is a body that runs after the pop's cycle -/

/-- Who raises the faults of a command (60_exceptions.md R303). -/
def raiserOf : Instr → Raiser
  | .tpoll _ => .tpoll
  | _ => .command

/-- The state a command's runner starts from: TPOLL sets TPOLL_ACT with its pop (44_touch_sampler.md R236). -/
def entered : Instr → State → State
  | .tpoll _, s => setTpollAct true s
  | _, s => s

theorem raiserOf_of_noPoll {i : Instr} (noPoll : ∀ k, i ≠ .tpoll k) : raiserOf i = .command := by
  cases i
  case tpoll k => exact absurd rfl (noPoll k)
  all_goals rfl

theorem entered_of_noPoll {i : Instr} (noPoll : ∀ k, i ≠ .tpoll k) (s : State) : entered i s = s := by
  cases i
  case tpoll k => exact absurd rfl (noPoll k)
  all_goals rfl

/-- What a command whose operands pass the checks does after the pop's cycle, begun in `s`. -/
def legalBody (s : State) : Instr → State → Res Unit
  | .nop _ => fun u => .ok () u
  | .wreg _ a v => writeReg a v
  | .rreg _ a => readToRdata a
  | .wreg16 _ a d => writePair a d
  | .wait _ a m => waitLoop a m s.csr.waitInterval.toNat s.csr.waitLimit.toNat
  | .delay _ ms => waitMs ms.toNat
  | .mwrite _ a n => streamWrite a (sendPixels 0 n.toNat)
  | .mread _ a n => streamRead a (recvPixels 0 n.toNat)
  | .reset _ => fun u => resetPulse (setInitDone false u)
  | .init _ g => initSequence g.toNat
  | .tpoll _ => fun u => (pollSequence s.csr.tcfg0 s.csr.tcfg1 u).andThen fun _ u => .ok () (restartInterval u)

/-- What a command does after the pop's cycle: its operand checks come first (30_encoding.md R107, R110). -/
def commandBody (i : Instr) (s u : State) : Res Unit :=
  match operandError s.par.linebufWords i with
  | some code => .raise code 0#16 u
  | none => legalBody s i u

/-- A command that raises never looks at its chain bit. -/
theorem rejectCommand_eq (code : ErrCode) (k : Bool) (s : State) :
    rejectCommand code s = runCommand .command k (fun u => .raise code 0#16 u) s := by
  unfold rejectCommand runCommand
  cases openCommand s with
  | ok a u => rfl
  | raise c d u => rfl
  | cut u => rfl
  | stop x => cases x <;> rfl

theorem exec_eq_runCommand (i : Instr) (s : State) :
    exec i s = runCommand (raiserOf i) i.k (commandBody i s) (entered i s) := by
  cases h : operandError s.par.linebufWords i with
  | some code =>
    have noPoll : ∀ k, i ≠ .tpoll k := by rintro k rfl; cases h
    have body : commandBody i s = fun u => .raise code 0#16 u := by funext u; simp only [commandBody, h]
    rw [exec_of_operandError h, rejectCommand_eq code i.k, raiserOf_of_noPoll noPoll, entered_of_noPoll noPoll, body]
  | none =>
    have body : commandBody i s = legalBody s i := by funext u; simp only [commandBody, h]
    rw [body]
    cases i
    case wreg16 => simp only [exec, execWreg16, h]; rfl
    case mwrite => simp only [exec, execMwrite, h]; rfl
    case mread => simp only [exec, execMread, h]; rfl
    case init => simp only [exec, execInit, h]; rfl
    all_goals rfl

theorem operandError_code {n : Nat} {i : Instr} {c : ErrCode} (h : operandError n i = some c) :
    c = .badOperand ∨ c = .configError := by
  cases i <;> simp only [operandError] at h
  case wreg16 => split at h <;> cases h; exact .inl rfl
  case mwrite => split at h <;> cases h; exact .inl rfl
  case mread => split at h <;> cases h; exact .inl rfl
  case init => split at h <;> cases h; exact .inr rfl
  all_goals cases h

/-! ### Properties that hold at every instant of a command -/

/-- `P` holds at every instant of a command by its stage, and `Q` while RST_N is low. -/
structure CommandLaw (P : Stage → State → Prop) (Q : State → Prop) (C : State → Prop) (S : Prop) : Prop where
  bus : BusLaw P C S
  low : TimeLaw Q C S
  fall : ∀ u, P .gap u → Q (rstLow u)
  rise : ∀ u, Q u → P .gap (rstHigh u)
  locLow : ∀ u l, Q u → Q { u with loc := l }
  loc : ∀ u l, P .gap u → P .gap { u with loc := l }
  rdata : ∀ r u, P .gap u → P .gap (setRdata r u)
  initDone : ∀ b u, P .gap u → P .gap (setInitDone b u)
  setLb : ∀ i v u, P .between u → P .between (setLb i v u)

variable {P : Stage → State → Prop} {Q C : State → Prop} {S : Prop}

theorem CommandLaw.resetPulse_sat (L : CommandLaw P Q C S) {s : State} (h : P .gap s) :
    (resetPulse s).Sat (P .gap) C S :=
  L.bus.resetPulse_sat L.low L.fall (fun u l _ => L.locLow u l) L.rise h

theorem CommandLaw.initSequence_sat (L : CommandLaw P Q C S) (g : Nat) {s : State} (h : P .gap s) :
    (initSequence g s).Sat (P .gap) C S :=
  (L.resetPulse_sat (L.initDone false s h)).then fun _ u p =>
    (L.bus.runTable_sat L.rdata (fun l u => L.loc u l) (u.par.initTable g) 1 p).then fun _ v q => L.initDone true v q

/-- The body of every command but TPOLL keeps the property. -/
theorem CommandLaw.commandBody_sat (L : CommandLaw P Q C S) {i : Instr} (noPoll : ∀ k, i ≠ .tpoll k) (s : State)
    {u : State} (h : P .gap u) : (commandBody i s u).Sat (P .gap) C S := by
  unfold commandBody
  split
  · exact h
  · cases i with
    | nop k => exact h
    | wreg k a v => simp only [legalBody]; exact L.bus.writeReg_sat a v h
    | rreg k a => simp only [legalBody]; exact L.bus.readToRdata_sat L.rdata a h
    | wreg16 k a d => simp only [legalBody]; exact L.bus.writePair_sat a d h
    | wait k a m => simp only [legalBody]; exact L.bus.waitLoop_sat L.rdata a m _ _ h
    | delay k ms => simp only [legalBody]; exact L.bus.waitMs_sat h _
    | mwrite k a n => simp only [legalBody]; exact L.bus.streamWrite_sat a _ h
    | mread k a n => simp only [legalBody]; exact L.bus.streamRead_sat a _ (fun j v u _ => L.setLb j v u) h
    | reset k => simp only [legalBody]; exact L.resetPulse_sat (L.initDone false u h)
    | init k g => simp only [legalBody]; exact L.initSequence_sat _ h
    | tpoll k => exact absurd rfl (noPoll k)

/-- A whole command but TPOLL: what holds when it has run to its end, and how it ends. -/
theorem CommandLaw.command_sat (L : CommandLaw P Q C S) {i : Instr} (noPoll : ∀ k, i ≠ .tpoll k) {s : State}
    (h : P .gap s) : ((openCommand s).andThen fun _ u => commandBody i s u).Sat (P .gap) C S :=
  L.bus.pass_then (L.loc s Local.none h) 1 fun _ p _ => L.commandBody_sat noPoll s p

theorem Res.Sat.toEnds {α : Type} {r : Res α} {E : State → Prop} (h : r.Sat E C S) : r.Ends E E C S := by
  cases r <;> exact h

/-- How a command ends (41_register_commands.md R150; 60_exceptions.md R303; 70_reset_and_hazards.md R341). -/
theorem closeCommand_next {who : Raiser} {k : Bool} {r : Res Unit} {t : State} {E R : State → Prop}
    (h : r.Ends E R C S) (e : closeCommand who k r = .next t) :
    (∃ v, E v ∧ t = tick 1 (complete k v)) ∨ (∃ c d v, r = .raise c d v ∧ R v ∧ t = tick 1 (faultEntry who c d v)) ∨ C t := by
  cases r with
  | ok a v => cases e; exact .inl ⟨v, h, rfl⟩
  | raise c d v => cases e; exact .inr (.inl ⟨c, d, v, rfl, h, rfl⟩)
  | cut v => cases e; exact .inr (.inr h)
  | stop x => cases x <;> cases e

/-! ### Which error codes a command raises -/

theorem commandBody_codes {i : Instr} {s u v : State} {c : ErrCode} {d : Half} (e : commandBody i s u = .raise c d v) :
    c = .busFault ∨ c = .hwFault ∨ c = .badOperand ∨ c = .configError := by
  unfold commandBody at e
  split at e
  · rename_i code checks
    cases e
    exact .inr (.inr (operandError_code checks))
  · have codes : (legalBody s i u).Codes := by
      cases i <;> simp only [legalBody]
      case nop => exact Res.codes_ok _ _
      case wreg => exact writeReg_codes _ _ _
      case rreg => exact readToRdata_codes _ _
      case wreg16 => exact writePair_codes _ _ _
      case wait => exact waitLoop_codes _ _ _ _ _
      case delay => exact waitMs_codes _ _
      case mwrite => exact streamWrite_codes _ _ _
      case mread => exact streamRead_codes _ _ _
      case reset => exact resetPulse_codes _
      case init => exact initSequence_codes _ _
      case tpoll => exact (pollSequence_codes _ _ _).andThen fun _ _ => Res.codes_ok _ _
    exact (codes c d v e).imp_right .inl

/-- A command that raises names an error of execution or of an operand check (60_exceptions.md R300). -/
theorem command_raises {i : Instr} {s v : State} {c : ErrCode} {d : Half}
    (e : ((openCommand (entered i s)).andThen fun _ u => commandBody i s u) = .raise c d v) :
    c ≠ .none ∧ c ≠ .illegalCmd := by
  generalize opened : openCommand (entered i s) = r at e
  cases r with
  | ok a u => rcases commandBody_codes e with rfl | rfl | rfl | rfl <;> decide
  | raise c' d' u => exact absurd opened pass_no_raise
  | cut u => cases e
  | stop x => cases e

/-! ### What a step does -/

/-- What a step can be: a host action, a background poll, a command or a rejected word after its pop, or an idle cycle. -/
theorem step_cases {s t : State} (e : step s = .next t) :
    (∃ r rest, hostDue s = some (r, rest) ∧ hostStep r rest s = .next t) ∨
    (pollStarts s = true ∧ backgroundPoll s = .next t) ∨
    (∃ w rest, seqReady s = true ∧ pollStarts s = false ∧ s.q = w :: rest ∧
      ((∃ i, decode w = .ok i ∧ exec i (popWord w rest s) = .next t) ∨
        rejectCommand .illegalCmd (popWord w rest s) = .next t)) ∨
    t = tick 1 s := by
  unfold step at e
  split at e
  · rename_i r rest due
    exact .inl ⟨r, rest, due, e⟩
  · unfold agentStep at e
    split at e
    · rename_i starts
      exact .inr (.inl ⟨starts, e⟩)
    · rename_i starts
      split at e
      · rename_i w rest fetched
        unfold fetchWord at fetched
        split at fetched
        · rename_i ready
          split at fetched
          · cases fetched
          · rename_i w' rest' queue
            cases fetched
            refine .inr (.inr (.inl ⟨w, rest, ready, by simpa using starts, queue, ?_⟩))
            unfold runWord at e
            split at e
            · rename_i i decoded
              exact .inl ⟨i, decoded, e⟩
            · exact .inr e
        · cases fetched
      · cases e
        exact .inr (.inr (.inr rfl))

/-- A host step is a read or write that the port took, or a block reset. -/
theorem hostStep_next {r : HostReq} {rest : List HostReq} {s t : State} (e : hostStep r rest s = .next t) :
    takeHost r rest s = .done t ∨ takeHost r rest s = .reset t := by
  unfold hostStep at e
  split at e
  · rename_i taken; cases e; exact .inl taken
  · rename_i taken; cases e; exact .inr taken
  · cases e
  · cases e

end Sys2Proof.Machine
end

section
/-! The invariant between two steps is what holds at every instant between commands, with the pins at rest and nothing
half done; every step keeps it. -/

namespace Sys2Proof.Machine

theorem pinsIn_gap_iff (s : State) : PinsIn .gap s ↔ PinsAtRest s := by
  simp [PinsIn, PinsAtRest]

theorem inv_iff (s : State) : Inv s ↔ Mid .between false false s ∧ PinsIn .gap s ∧ s.loc = Local.none := by
  rw [pinsIn_gap_iff]
  constructor
  · rintro ⟨legal, poller, pins, notBusy, err, chain, owner, resumes, tphase, tpollAct, noLocal⟩
    exact ⟨⟨legal, ⟨poller, notBusy, err, chain, owner⟩, resumes, tphase, tpollAct⟩, pins, noLocal⟩
  · rintro ⟨⟨legal, ⟨poller, notBusy, err, chain, owner⟩, resumes, tphase, tpollAct⟩, pins, noLocal⟩
    exact ⟨legal, poller, pins, notBusy, err, chain, owner, resumes, tphase, tpollAct, noLocal⟩

/-! ### A command -/

/-- A property of pins, parameters and a mode's state that does not depend on the stage holds while RST_N is low. -/
theorem mid_low (m : Mode) (tp act : Bool) : TimeLaw (fun s => Mid m tp act s ∧ s.pins.csN = true ∧
    s.pins.mosi = false ∧ s.pins.sck = sckIdle s.par.spiMode) Inv True where
  time := fun n s _ h => ⟨h.1.tick n, h.2⟩
  host := fun r rest s s' h _ e => by
    obtain ⟨host, -⟩ := takeHost_done e
    exact ⟨h.1.host e, by rw [host.pins, host.par]; exact h.2⟩
  reset := fun r rest s s' h _ e => by
    obtain ⟨low, e, c, -, rfl, -⟩ := takeHost_reset e
    exact inv_afterReset h.1.legal.params _ _
  stop := fun _ _ _ _ _ _ _ => trivial

theorem Legal.setLb {s : State} (h : Legal s) (i : Nat) (v : Half) : Legal (setLb i v s) where
  params := h.params
  queue := h.queue
  buffer := by simpa using h.buffer
  waitLimit := h.waitLimit
  pollPeriod := h.pollPeriod
  tcfg1Reserved := h.tcfg1Reserved
  releasePolls := h.releasePolls
  rdata := h.rdata

theorem zext32_and_high (r : Byte) : zext32 r &&& 0xFFFFFF00#32 = 0#32 := by
  apply BitVec.eq_of_getLsbD_eq
  intro j hj
  have high : (0xFFFFFF00#32).getLsbD j = decide (8 ≤ j) := by revert j; decide
  by_cases h : 8 ≤ j
  · simp [BitVec.getLsbD_of_ge r j h]
  · simp [high, h]

theorem Legal.setRdata {s : State} (h : Legal s) (r : Byte) : Legal (setRdata r s) where
  params := h.params
  queue := h.queue
  buffer := h.buffer
  waitLimit := h.waitLimit
  pollPeriod := h.pollPeriod
  tcfg1Reserved := h.tcfg1Reserved
  releasePolls := h.releasePolls
  rdata := zext32_and_high r

/-- A change of the line buffer, RDATA, INIT_DONE, the pins or the local state that keeps `Legal`. -/
theorem Mid.change {m : Mode} {tp act : Bool} {s t : State} (h : Mid m tp act s) (legal : Legal t) (par : t.par = s.par)
    (en : t.csr.touchEn = s.csr.touchEn) (err : t.csr.err = s.csr.err) (seq : t.seq = s.seq) (poll : t.poll = s.poll)
    (owner : t.owner = s.owner) (now : s.env.now ≤ t.env.now) (tpollAct : t.csr.tpollAct = s.csr.tpollAct) :
    Mid m tp act t where
  legal := legal
  agents := h.agents.congr par en err seq poll owner
  resumes := h.resumes.congr seq now
  tphase := by rw [poll]; exact h.tphase
  act := tpollAct.trans h.act

/-- What holds at every instant of a mode holds inside every command. -/
theorem mid_command (m : Mode) (tp act : Bool) : CommandLaw (fun g s => Mid m tp act s ∧ PinsIn g s)
    (fun s => Mid m tp act s ∧ s.pins.csN = true ∧ s.pins.mosi = false ∧ s.pins.sck = sckIdle s.par.spiMode)
    Inv True where
  bus := mid_law m tp act
  low := mid_low m tp act
  fall := fun u h => by
    obtain ⟨csN, -, mosi, sck⟩ := (pinsIn_gap_iff u).mp h.2
    exact ⟨h.1.congr rfl rfl rfl rfl rfl rfl rfl (le_refl _), csN, mosi, sck⟩
  rise := fun u h => ⟨h.1.congr rfl rfl rfl rfl rfl rfl rfl (le_refl _),
    (pinsIn_gap_iff _).mpr ⟨h.2.1, rfl, h.2.2⟩⟩
  locLow := fun u l h => ⟨h.1.congr rfl rfl rfl rfl rfl rfl rfl (le_refl _), h.2⟩
  loc := fun u l h => ⟨h.1.congr rfl rfl rfl rfl rfl rfl rfl (le_refl _), h.2⟩
  rdata := fun r u h => ⟨h.1.change (h.1.legal.setRdata r) rfl rfl rfl rfl rfl rfl (le_refl _) rfl, h.2⟩
  initDone := fun b u h => ⟨h.1.change ⟨h.1.legal.1, h.1.legal.2, h.1.legal.3, h.1.legal.4, h.1.legal.5, h.1.legal.6,
    h.1.legal.7, h.1.legal.8⟩ rfl rfl rfl rfl rfl rfl (le_refl _) rfl, h.2⟩
  setLb := fun i v u h => ⟨h.1.change (h.1.legal.setLb i v) rfl rfl rfl rfl rfl rfl (le_refl _) rfl, h.2⟩

/-! ### The start and the end of a command -/

theorem seqReady_iff (s : State) : seqReady s = true ↔ s.seq.state = .idle ∧ s.seq.resume ≤ s.env.now ∧
    s.owner ≠ .poll ∧ (s.poll.state = .pending → s.seq.chain = true) := by
  cases chain : s.seq.chain <;> simp [seqReady, chain, and_assoc]

/-- The pop (41_register_commands.md R150). -/
theorem Mid.popWord {w : Word} {rest : List Word} {s : State} (h : Mid .between false false s)
    (ready : seqReady s = true) (queue : s.q = w :: rest) : Mid .command false false (popWord w rest s) := by
  obtain ⟨idle, resumed, -, -⟩ := (seqReady_iff s).mp ready
  obtain ⟨legal, ⟨poller, -, err, -, -⟩, -, tphase, act⟩ := h
  have shorter : rest.length ≤ s.par.cmdqDepth := by
    have := legal.queue
    rw [queue] at this
    exact (Nat.le_succ _).trans this
  exact {
    legal := ⟨legal.params, shorter, legal.buffer, legal.waitLimit, legal.pollPeriod, legal.tcfg1Reserved,
      legal.releasePolls, legal.rdata⟩
    agents := ⟨poller.congr rfl rfl rfl, rfl, err.mpr (by rw [idle]; decide), rfl⟩
    resumes := ⟨resumed.trans (Nat.le_succ _), fun _ => resumed⟩
    tphase := tphase
    act := act }

/-- The cycle of an end. -/
theorem inv_tick {s : State} (h : Mid .between false false s) (pins : PinsIn .gap s) (loc : s.loc = Local.none) :
    Inv (tick 1 s) := (inv_iff _).mpr ⟨h.tick 1, pins, loc⟩

/-- Completion (R150). -/
theorem Mid.complete {s : State} (h : Mid .command false false s) (pins : PinsIn .gap s) (k : Bool) :
    Inv (Machine.tick 1 (complete k s)) := by
  obtain ⟨legal, ⟨poller, running, err, owner⟩, resumes, tphase, act⟩ := h
  refine inv_tick ⟨legal.congr rfl rfl rfl rfl, ⟨poller.congr rfl rfl rfl, ?_, ?_, fun _ => rfl, ?_⟩, ?_, tphase, act⟩
    pins rfl
  · simp
  · simpa using err
  · rw [complete_owner, owner]
    rfl
  · exact ⟨resumes.soon, fun _ => resumes.closed (.inl running)⟩

/-- Fault entry of a TPOLL that executes (60_exceptions.md R303). -/
theorem faultEntry_tpoll_of_exec {s : State} (running : s.seq.state = .exec) (code : ErrCode) (detail : Half) :
    faultEntry .tpoll code detail s = { faultEntry .command code detail s with
      poll := { s.poll with tphase := false }
      csr := { (faultEntry .command code detail s).csr with tpollAct := false } } := by
  have unfaulted : ¬ s.faulted = true := by simp [State.faulted, running]
  rw [faultEntry, if_neg unfaulted, faultEntry, if_neg unfaulted]
  rfl

/-- The poller's rest depends on TOUCH_EN, its state, timer, period and stop alone. -/
theorem PollerAtRest.of_fields {s t : State} (h : PollerAtRest s) (par : t.par = s.par)
    (en : t.csr.touchEn = s.csr.touchEn) (state : t.poll.state = s.poll.state) (timer : t.poll.timer = s.poll.timer)
    (period : t.poll.period = s.poll.period) (stop : t.poll.stop = s.poll.stop) : PollerAtRest t where
  notActive := by rw [state]; exact h.notActive
  noStop := stop.trans h.noStop
  off := by rw [state, en]; exact h.off
  period := by rw [state, period]; exact h.period
  timing := by rw [state, timer, period, par]; exact h.timing
  pending := by rw [state, timer, period, par]; exact h.pending

/-- Fault entry of a command, or of a TPOLL at any point of its poll. -/
theorem Mid.commandFault {who : Raiser} {tp act : Bool} {s : State} (h : Mid .command tp act s) (pins : PinsIn .gap s)
    (raiser : who = .tpoll ∨ who = .command ∧ tp = false ∧ act = false) {code : ErrCode} (error : code ≠ .none)
    (detail : Half) : Inv (Machine.tick 1 (faultEntry who code detail s)) := by
  obtain ⟨legal, ⟨poller, running, err, owner⟩, resumes, tphase, tpollAct⟩ := h
  have legal' (c : Csr) (h : c = { s.csr with err := c.err, errcmd := c.errcmd, erraux := c.erraux, tpollAct := c.tpollAct })
      (t : State) (par : t.par = s.par) (q : t.q = s.q) (lb : t.lb = s.lb) (csr : t.csr = c) : Legal t := by
    rw [h] at csr
    exact {
      params := by rw [par]; exact legal.params
      queue := by rw [par, q]; exact legal.queue
      buffer := by rw [par, lb]; exact legal.buffer
      waitLimit := by rw [csr]; exact legal.waitLimit
      pollPeriod := by rw [csr]; exact legal.pollPeriod
      tcfg1Reserved := by rw [csr]; exact legal.tcfg1Reserved
      releasePolls := by rw [csr]; exact legal.releasePolls
      rdata := by rw [csr]; exact legal.rdata }
  rcases raiser with rfl | ⟨rfl, rfl, rfl⟩
  · rw [faultEntry_tpoll_of_exec running, faultEntry_command_of_exec running]
    refine inv_tick ⟨legal' _ rfl _ rfl rfl rfl rfl, ⟨poller.of_fields rfl rfl rfl rfl rfl rfl, ?_, ?_, ?_, rfl⟩, ?_,
      rfl, rfl⟩ pins rfl
    · simp
    · simp [error]
    · simp
    · exact ⟨resumes.soon, by simp⟩
  · rw [faultEntry_command_of_exec running]
    refine inv_tick ⟨legal' _ rfl _ rfl rfl rfl rfl, ⟨poller.congr rfl rfl rfl, ?_, ?_, ?_, rfl⟩, ?_,
      tphase, tpollAct⟩ pins rfl
    · simp
    · simp [error]
    · simp
    · exact ⟨resumes.soon, by simp⟩

/-! ### Polls -/

/-- A change of the sample, POLL.tphase, the release count and TPOLL_ACT. -/
theorem Mid.polled {m : Mode} {tp act tp' act' : Bool} {s t : State} (h : Mid m tp act s)
    (par : t.par = s.par) (csr : t.csr = { s.csr with tpollAct := act' }) (q : t.q = s.q) (lb : t.lb = s.lb)
    (seq : t.seq = s.seq) (owner : t.owner = s.owner) (env : t.env = s.env)
    (poll : t.poll = { s.poll with tphase := tp', relcnt := t.poll.relcnt }) : Mid m tp' act' t where
  legal := by
    obtain ⟨params, queue, buffer, waitLimit, pollPeriod, tcfg1Reserved, releasePolls, rdata⟩ := h.legal
    constructor
    · rw [par]; exact params
    · rw [par, q]; exact queue
    · rw [par, lb]; exact buffer
    all_goals rw [csr]; assumption
  agents := by
    have rest (r : PollerAtRest s) : PollerAtRest t :=
      r.of_fields par (by rw [csr]) (by rw [poll]) (by rw [poll]) (by rw [poll]) (by rw [poll])
    have err : t.csr.err = s.csr.err := by rw [csr]
    have active : t.poll.state = s.poll.state := by rw [poll]
    cases m with
    | between =>
      obtain ⟨poller, agents⟩ := h.agents
      exact ⟨rest poller, by rw [seq, err, owner]; exact agents⟩
    | command =>
      obtain ⟨poller, agents⟩ := h.agents
      exact ⟨rest poller, by rw [seq, err, owner]; exact agents⟩
    | poll =>
      obtain ⟨state, agents⟩ := h.agents
      exact ⟨active.trans state, by rw [seq, err, owner]; exact agents⟩
  resumes := h.resumes.congr seq (by rw [env])
  tphase := by rw [poll]
  act := by rw [csr]

/-- A poll sequence in the mode of a command or of a background poll. -/
theorem mid_pollSequence {m : Mode} {s : State} (h : Mid m false true s) (pins : PinsIn .gap s) (c0 c1 : Word) :
    (pollSequence c0 c1 s).Ends (fun u => Mid m false false u ∧ PinsIn .gap u)
      (fun u => (∃ tp, Mid m tp true u) ∧ PinsIn .gap u) Inv True :=
  pollSequence_ends (mid_law m false true) (mid_law m true true) (mid_law m false true) c0 c1
    (fun _ h => ⟨h.1.polled rfl (by rw [← h.1.act]; rfl) rfl rfl rfl rfl rfl rfl, h.2⟩)
    (fun _ _ _ h => ⟨h.1.polled rfl (by rw [← h.1.act]; rfl) rfl rfl rfl rfl rfl rfl, h.2⟩)
    (fun _ h => ⟨h.1.polled rfl rfl rfl rfl rfl rfl rfl (by simp [releaseStep, h.1.tphase]), h.2⟩)
    (fun _ h => ⟨h.1.polled rfl rfl rfl rfl rfl rfl rfl (by rw [← h.1.tphase]; rfl), h.2⟩)
    (fun _ h => ⟨⟨_, h.1⟩, h.2⟩) (fun _ h => ⟨⟨_, h.1⟩, h.2⟩) (fun _ h => ⟨⟨_, h.1⟩, h.2⟩) ⟨h, pins⟩

/-- A poll interval takes at least one cycle (10_state.md R39; 00_scope.md R6). -/
theorem interval_pos {s : State} (h : Legal s) : 0 < s.csr.pollPeriod.toNat * s.par.clkPerMs := by
  have clk : 1 ≤ s.par.clkPerMs := by have := h.params; simp [Params.legal] at this; omega
  have period : 0 < s.csr.pollPeriod.toNat :=
    Nat.pos_of_ne_zero fun zero => h.pollPeriod (BitVec.eq_of_toNat_eq zero)
  exact Nat.mul_pos period clk

/-- TPOLL restarts a running poll interval (43_system_commands.md R211). -/
theorem Mid.restartInterval {tp act : Bool} {s : State} (h : Mid .command tp act s) :
    Mid .command tp act (restartInterval s) := by
  unfold Machine.restartInterval
  split
  · rename_i enabled
    obtain ⟨legal, ⟨poller, running⟩, resumes, tphase, act⟩ := h
    refine ⟨legal.congr rfl rfl rfl rfl, ⟨?_, running⟩, ⟨resumes.soon, resumes.closed⟩, tphase, act⟩
    exact {
      notActive := by simp
      noStop := poller.noStop
      off := by simp [enabled]
      period := fun _ => legal.pollPeriod
      timing := fun _ => interval_pos legal
      pending := by simp }
  · exact h

/-- The start of a background poll (44_touch_sampler.md R235). -/
theorem Mid.startPoll {s : State} (h : Mid .between false false s) (starts : pollStarts s = true) :
    Mid .poll false true (startPoll s) := by
  obtain ⟨legal, ⟨poller, notBusy, err, chain, owner⟩, resumes, tphase, act⟩ := h
  obtain ⟨pending, free⟩ : s.poll.state = .pending ∧ s.owner = .none := by simpa [pollStarts] using starts
  have noChain : s.seq.chain = false := by
    cases c : s.seq.chain with
    | false => rfl
    | true => simp [c, free] at owner
  exact {
    legal := ⟨legal.params, legal.queue, legal.buffer, legal.waitLimit, legal.pollPeriod, legal.tcfg1Reserved,
      legal.releasePolls, legal.rdata⟩
    agents := ⟨rfl, notBusy, err, noChain, rfl⟩
    resumes := ⟨resumes.soon, resumes.closed⟩
    tphase := tphase
    act := rfl }

/-- The end of a background poll, normal or by a fault (R231, R234, R235): the poller at rest, and the bus free. -/
theorem Mid.endPoll {tp act : Bool} {s : State} (h : Mid .poll tp act s) (pins : PinsIn .gap s) (t : State)
    (csr : t.csr = { s.csr with
      tpollAct := false, err := t.csr.err, errcmd := t.csr.errcmd, erraux := t.csr.erraux })
    (err : t.csr.err = .none ↔ t.seq.state ≠ .fault) (seq : t.seq = { s.seq with state := t.seq.state })
    (notBusy : t.seq.state ≠ .exec)
    (poll : t.poll = { s.poll.ended s.csr.touchEn s.csr.pollPeriod with tphase := false })
    (par : t.par = s.par) (q : t.q = s.q) (lb : t.lb = s.lb) (owner : t.owner = .none) (env : t.env = s.env)
    (tpins : t.pins = s.pins) (loc : t.loc = Local.none) : Inv (Machine.tick 1 t) := by
  obtain ⟨legal, ⟨active, -, -, noChain, -⟩, resumes, -, -⟩ := h
  have chain : t.seq.chain = false := by rw [seq]; exact noChain
  refine inv_tick ⟨?_, ⟨?_, notBusy, err, by simp [chain], by simp [chain, owner]⟩, ?_, by rw [poll], by rw [csr]⟩
    (by rw [PinsIn, par, tpins]; exact pins) loc
  · obtain ⟨params, queue, buffer, waitLimit, pollPeriod, tcfg1Reserved, releasePolls, rdata⟩ := legal
    constructor
    · rw [par]; exact params
    · rw [par, q]; exact queue
    · rw [par, lb]; exact buffer
    all_goals rw [csr]; assumption
  · have en : t.csr.touchEn = s.csr.touchEn := by rw [csr]
    cases enabled : s.csr.touchEn
    · constructor <;> simp [poll, en, enabled, Poll.ended]
    · have pos := interval_pos legal
      constructor <;> simp [poll, en, enabled, Poll.ended, par, pos, legal.pollPeriod]
  · have resume : t.seq.resume = s.seq.resume := by rw [seq]
    exact ⟨by rw [resume, env]; exact resumes.soon, by simp [chain, notBusy]⟩

/-! ### The step -/

/-- How a background poll ends. -/
theorem closePoll_next {r : Res Unit} {t : State} {E R C : State → Prop} {S : Prop} (h : r.Ends E R C S)
    (e : closePoll r = .next t) :
    (∃ v, E v ∧ t = tick 1 { endPoll v with owner := .none, loc := Local.none }) ∨
    (∃ c d v, r = .raise c d v ∧ R v ∧ t = tick 1 (faultEntry .background c d v)) ∨ C t := by
  cases r with
  | ok a v => cases e; exact .inl ⟨v, h, rfl⟩
  | raise c d v => cases e; exact .inr (.inl ⟨c, d, v, rfl, h, rfl⟩)
  | cut v => cases e; exact .inr (.inr h)
  | stop x => cases x <;> cases e

/-- Fault entry of a background poll (60_exceptions.md R303, R310). -/
theorem faultEntry_background (code : ErrCode) (detail : Half) (s : State) : faultEntry .background code detail s =
    let t := if s.faulted then s else recordFault true code detail s
    { t with
      csr := { t.csr with tpollAct := false }
      poll := { s.poll.ended s.csr.touchEn s.csr.pollPeriod with tphase := false }
      sample := { s.sample with touched := s.sample.touched && !s.poll.stop }
      owner := .none
      loc := Local.none } := by
  unfold faultEntry
  cases s.faulted <;> rfl

theorem Mid.backgroundPoll {s t : State} (h : Mid .between false false s) (pins : PinsIn .gap s)
    (starts : pollStarts s = true) (e : backgroundPoll s = .next t) : Inv t := by
  have started : Mid .poll false true (Machine.startPoll s) ∧ PinsIn .gap (Machine.startPoll s) := ⟨h.startPoll starts, pins⟩
  have ends := ((mid_law .poll false true).pass_sat started 1).ends
    (R := fun u => (∃ tp, Mid .poll tp true u) ∧ PinsIn .gap u) (fun _ p => ⟨⟨_, p.1⟩, p.2⟩)
    fun _ u p => mid_pollSequence p.1 p.2 s.csr.tcfg0 s.csr.tcfg1
  obtain ⟨v, ⟨hv, vpins⟩, rfl⟩ | ⟨c, d, v, raised, ⟨⟨tp, hv⟩, vpins⟩, rfl⟩ | inv := closePoll_next ends e
  · obtain ⟨-, notBusy, err, -⟩ := hv.agents
    have poll : v.poll.ended v.csr.touchEn v.csr.pollPeriod =
        { v.poll.ended v.csr.touchEn v.csr.pollPeriod with tphase := false } := by rw [← hv.tphase]; rfl
    exact hv.endPoll vpins _ rfl err rfl notBusy poll rfl rfl rfl rfl rfl rfl rfl
  · obtain ⟨-, notBusy, err, -⟩ := hv.agents
    have codes := ((pass_codes 1 (Machine.startPoll s)).andThen fun _ u => pollSequence_codes s.csr.tcfg0 s.csr.tcfg1 u)
      c d v raised
    have error : c ≠ .none := by rcases codes with rfl | rfl <;> decide
    rw [faultEntry_background]
    cases faulted : v.faulted
    · exact hv.endPoll vpins _ rfl (by simp [recordFault, error]) rfl (by simp [recordFault]) rfl rfl rfl rfl rfl rfl
        rfl rfl
    · exact hv.endPoll vpins _ rfl err rfl notBusy rfl rfl rfl rfl rfl rfl rfl rfl
  · exact inv

/-- TPOLL, from the state after its pop. -/
theorem Mid.execTpoll {k : Bool} {s t : State} (h : Mid .command false false s) (pins : PinsIn .gap s)
    (e : execTpoll k s = .next t) : Inv t := by
  have start : Mid .command false true { setTpollAct true s with loc := Local.none } :=
    h.polled rfl rfl rfl rfl rfl rfl rfl (by rw [← h.tphase]; rfl)
  have ends := ((mid_law .command false true).pass_sat ⟨start, pins⟩ 1).ends
    (E := fun u => Mid .command false false u ∧ PinsIn .gap u)
    (R := fun u => (∃ tp, Mid .command tp true u) ∧ PinsIn .gap u) (fun _ p => ⟨⟨_, p.1⟩, p.2⟩)
    (f := fun _ u => (pollSequence s.csr.tcfg0 s.csr.tcfg1 u).andThen fun _ u => .ok () (Machine.restartInterval u))
    fun _ u p => by
      have poll := mid_pollSequence p.1 p.2 s.csr.tcfg0 s.csr.tcfg1
      generalize pollSequence s.csr.tcfg0 s.csr.tcfg1 u = r at poll ⊢
      cases r with
      | ok a v => exact ⟨poll.1.restartInterval, by unfold Machine.restartInterval; split <;> exact poll.2⟩
      | raise c d v => exact poll
      | cut v => exact poll
      | stop x => exact poll
  obtain ⟨v, ⟨hv, vpins⟩, rfl⟩ | ⟨c, d, v, raised, ⟨⟨tp, hv⟩, vpins⟩, rfl⟩ | inv := closeCommand_next ends e
  · exact hv.complete vpins k
  · exact hv.commandFault vpins (.inl rfl) (command_raises (i := .tpoll k) raised).1 d
  · exact inv

/-- Every command, from the state after its pop. -/
theorem Mid.exec {i : Instr} {s t : State} (h : Mid .command false false s) (pins : PinsIn .gap s)
    (e : exec i s = .next t) : Inv t := by
  by_cases poll : ∃ k, i = .tpoll k
  · obtain ⟨k, rfl⟩ := poll
    exact h.execTpoll pins e
  · have noPoll : ∀ k, i ≠ .tpoll k := fun k is => poll ⟨k, is⟩
    have raiser : raiserOf i = .command := by cases i <;> simp_all [raiserOf]
    have start : entered i s = s := by cases i <;> simp_all [entered]
    rw [exec_eq_runCommand, raiser, start] at e
    obtain ⟨v, ⟨hv, vpins⟩, rfl⟩ | ⟨c, d, v, raised, ⟨hv, vpins⟩, rfl⟩ | inv :=
      closeCommand_next ((mid_command .command false false).command_sat noPoll ⟨h, pins⟩).toEnds e
    · exact hv.complete vpins i.k
    · exact hv.commandFault vpins (.inr ⟨rfl, rfl, rfl⟩) (command_raises (i := i) (by rw [start]; exact raised)).1 d
    · exact inv

/-- A word that decode rejects, from the state after its pop. -/
theorem Mid.rejectCommand {s t : State} (h : Mid .command false false s) (pins : PinsIn .gap s)
    (e : rejectCommand .illegalCmd s = .next t) : Inv t := by
  have start : Mid .command false false { s with loc := Local.none } :=
    h.congr rfl rfl rfl rfl rfl rfl rfl (le_refl _)
  have sat := (mid_law .command false false).pass_then ⟨start, pins⟩ 1
    (f := fun u => (.raise .illegalCmd 0#16 u : Res Unit)) fun u p _ => p
  obtain ⟨v, ⟨hv, vpins⟩, rfl⟩ | ⟨c, d, v, raised, ⟨hv, vpins⟩, rfl⟩ | inv := closeCommand_next sat.toEnds e
  · exact hv.complete vpins false
  · have error : c = .illegalCmd := by
      generalize opened : pass 1 { s with loc := Local.none } = r at raised
      cases r with
      | ok a u => cases raised; rfl
      | raise c' d' u => exact absurd opened pass_no_raise
      | cut u => cases raised
      | stop x => cases raised
    exact hv.commandFault vpins (.inr ⟨rfl, rfl, rfl⟩) (by rw [error]; decide) d
  · exact inv

theorem Mid.hostStep {r : HostReq} {rest : List HostReq} {s t : State} (h : Mid .between false false s)
    (pins : PinsIn .gap s) (loc : s.loc = Local.none) (e : hostStep r rest s = .next t) : Inv t := by
  obtain done | reset := hostStep_next e
  · obtain ⟨host, -⟩ := takeHost_done done
    exact (inv_iff t).mpr ⟨h.host done, by rw [PinsIn, host.pins, host.par]; exact pins, host.loc.trans loc⟩
  · obtain ⟨low, e, c, -, rfl, -⟩ := takeHost_reset reset
    exact inv_afterReset h.legal.params _ _

/-- Settles O54: the invariant is what holds at every instant between commands, and each way a step can go leads from
there back there, through what holds at every instant of a command or of a poll. -/
theorem stepKeepsInvariant : Obligations.StepKeepsInvariant := by
  unfold Obligations.StepKeepsInvariant
  intro s t inv e
  obtain ⟨between, pins, loc⟩ := (inv_iff s).mp inv
  obtain ⟨r, rest, -, e⟩ | ⟨starts, e⟩ | ⟨w, rest, ready, -, queue, ⟨i, -, e⟩ | e⟩ | rfl := step_cases e
  · exact between.hostStep pins loc e
  · exact between.backgroundPoll pins starts e
  · exact (between.popWord ready queue).exec pins e
  · exact (between.popWord ready queue).rejectCommand pins e
  · exact inv_tick between pins loc

end Sys2Proof.Machine
end

section
/-! Every step keeps the framing rules of the bus trace (40_spi_framing.md R131 to R134, R144, R147). -/

namespace Sys2Proof.Machine

theorem framingIn_gap {s : State} (h : Framing s) (pins : PinsAtRest s) : FramingIn .gap s :=
  ⟨h, pins.1, pins.2.1, .inr (.inl rfl)⟩

/-- The framing rules at a stage depend on the parameters, the trace, the cycle and the pins alone. -/
theorem FramingIn.congr {g : Stage} {s t : State} (h : FramingIn g s) (par : t.par = s.par) (env : t.env = s.env)
    (pins : t.pins = s.pins) : FramingIn g t where
  framing := h.framing.congr par (by rw [env]) (by rw [env]) (by rw [pins]) (by rw [pins]) (by rw [pins])
  csN := by rw [pins]; exact h.csN
  rstN := by rw [pins]; exact h.rstN
  fresh := by rw [env]; exact h.fresh

/-- The framing rules hold at every instant of a command. -/
theorem framing_command : CommandLaw FramingIn (fun s => Framing s ∧ s.pins.csN = true ∧ s.pins.rstN = false) Framing
    True where
  bus := framing_law
  low := framing_low
  fall := fun _ h => ⟨h.framing.rstLow h.csN h.rstN, h.csN, rfl⟩
  rise := fun _ h => ⟨h.1.rstHigh h.2.1 h.2.2 rfl rfl rfl rfl rfl rfl, h.2.1, rfl, .inr (.inl rfl)⟩
  locLow := fun _ _ h => ⟨h.1.congr rfl rfl (le_refl _) rfl rfl rfl, h.2⟩
  loc := fun _ _ h => h.congr rfl rfl rfl
  rdata := fun _ _ h => h.congr rfl rfl rfl
  initDone := fun _ _ h => h.congr rfl rfl rfl
  setLb := fun _ _ _ h => h.congr rfl rfl rfl

theorem framing_pollSequence {s : State} (h : FramingIn .gap s) (c0 c1 : Word) :
    (pollSequence c0 c1 s).Sat (FramingIn .gap) Framing True :=
  framing_law.pollSequence_sat c0 c1 (fun _ p => p.congr rfl rfl rfl) (fun _ _ _ p => p.congr rfl rfl rfl)
    (fun _ p => p.congr rfl rfl rfl) (fun _ p => p.congr rfl rfl rfl) h

/-- An end is one cycle in which nothing happens on the bus. -/
theorem FramingIn.ended {s t : State} (h : FramingIn .gap s) (par : t.par = s.par) (env : t.env = s.env)
    (pins : t.pins = s.pins) : Framing (tick 1 t) :=
  (h.congr par env pins).framing.congr rfl rfl (Nat.le_succ _) rfl rfl rfl

theorem faultEntry_bus (who : Raiser) (code : ErrCode) (detail : Half) (s : State) :
    (faultEntry who code detail s).par = s.par ∧ (faultEntry who code detail s).env = s.env ∧
      (faultEntry who code detail s).pins = s.pins := by
  unfold faultEntry
  cases who <;> cases s.faulted <;> exact ⟨rfl, rfl, rfl⟩

/-- A command's result that keeps the framing rules ends in a state that does. -/
theorem framing_closeCommand {who : Raiser} {k : Bool} {r : Res Unit} {t : State}
    (h : r.Sat (FramingIn .gap) Framing True) (e : closeCommand who k r = .next t) : Framing t := by
  obtain ⟨v, hv, rfl⟩ | ⟨c, d, v, -, hv, rfl⟩ | framing := closeCommand_next h.toEnds e
  · exact hv.ended rfl rfl rfl
  · obtain ⟨par, env, pins⟩ := faultEntry_bus who c d v
    exact hv.ended par env pins
  · exact framing

theorem framing_exec {i : Instr} {s t : State} (h : FramingIn .gap s) (e : exec i s = .next t) : Framing t := by
  rw [exec_eq_runCommand] at e
  refine framing_closeCommand ?_ e
  by_cases poll : ∃ k, i = .tpoll k
  · obtain ⟨k, rfl⟩ := poll
    have start : FramingIn .gap { setTpollAct true s with loc := Local.none } := h.congr rfl rfl rfl
    refine framing_law.pass_then start 1 fun u p _ => (framing_pollSequence p _ _).then fun _ v q => ?_
    unfold restartInterval
    split
    · exact q.congr rfl rfl rfl
    · exact q
  · have noPoll : ∀ k, i ≠ .tpoll k := fun k is => poll ⟨k, is⟩
    rw [entered_of_noPoll noPoll]
    exact framing_command.command_sat noPoll h

theorem framing_backgroundPoll {s t : State} (h : FramingIn .gap s) (e : backgroundPoll s = .next t) : Framing t := by
  have start : FramingIn .gap (startPoll s) := h.congr rfl rfl rfl
  have sat := framing_law.pass_then start 1 fun u p _ => framing_pollSequence p s.csr.tcfg0 s.csr.tcfg1
  obtain ⟨v, hv, rfl⟩ | ⟨c, d, v, -, hv, rfl⟩ | framing := closePoll_next sat.toEnds e
  · exact hv.ended rfl rfl rfl
  · obtain ⟨par, env, pins⟩ := faultEntry_bus .background c d v
    exact hv.ended par env pins
  · exact framing

/-- Settles O55: the pins are at rest between steps, so a step begins at a gap between phases, where the framing rules
hold at every instant of a command or a poll. -/
theorem stepKeepsFraming : Obligations.StepKeepsFraming := by
  unfold Obligations.StepKeepsFraming
  intro s t inv framing e
  have gap := framingIn_gap framing inv.pins
  obtain ⟨r, rest, -, e⟩ | ⟨-, e⟩ | ⟨w, rest, -, -, -, ⟨i, -, e⟩ | e⟩ | rfl := step_cases e
  · obtain done | reset := hostStep_next e
    · exact framing.takeHost_done done
    · exact framing.takeHost_reset reset
  · exact framing_backgroundPoll gap e
  · exact framing_exec (s := popWord w rest s) (gap.congr rfl rfl rfl) e
  · have start : FramingIn .gap { popWord w rest s with loc := Local.none } := gap.congr rfl rfl rfl
    have sat := framing_law.pass_then start 1 (f := fun u => (.raise .illegalCmd 0#16 u : Res Unit)) fun _ p _ => p
    exact framing_closeCommand sat e
  · exact framing.congr rfl rfl (Nat.le_succ _) rfl rfl rfl

/-- Settles O53: the state of R52 meets the invariant, and its trace is empty. -/
theorem resetMeetsInvariants : Obligations.ResetMeetsInvariants := by
  unfold Obligations.ResetMeetsInvariants
  intro p legal
  refine ⟨inv_afterReset legal _ _, ?_⟩
  constructor
  case gap => intro c h; cases h
  case past => intro e m; cases m
  all_goals rfl

end Sys2Proof.Machine
end

section
/-! What a step chooses: a due host action first, a pending poll only while the bus is free, the next word of an open
chain, and nothing in FAULT (10_state.md R46; 60_exceptions.md R308 to R312). -/

namespace Sys2Proof.Machine

/-! ### The pop and the host's action -/

/-- Settles O5: where SEQ pops, the step runs the word, and a word that decodes runs as its command. -/
theorem stepRunsHeadCommand : Obligations.StepRunsHeadCommand := by
  unfold Obligations.StepRunsHeadCommand
  intro s w rest i pop decoded
  have run : runWord w rest s = exec i (popWord w rest s) := by simp only [runWord, decoded]
  rw [pop.step, run]
  rfl

theorem hostDue_of_quiet {s : State} (quiet : Quiet s) : hostDue s = none := by
  rw [hostDue, show s.env.host = [] from quiet]

/-- While the port is busy no host action is due (70_reset_and_hazards.md R348). -/
theorem hostDue_of_port_busy {s : State} (busy : s.env.now < s.env.portFree) : hostDue s = none := by
  unfold hostDue
  split
  · rfl
  · rename_i r rest _
    have later : hostTime r s ≠ s.env.now := by unfold hostTime; omega
    rw [if_neg later]

/-- Settles O7: an action whose gap is over is due now, and a step takes a due action first. -/
theorem hostActionComesFirst : Obligations.HostActionComesFirst := by
  unfold Obligations.HostActionComesFirst
  intro s r rest host ended
  have due : hostDue s = some (r, rest) := by
    simp only [hostDue, host, hostTime, Nat.max_eq_left ended, if_true]
  simp only [step, due]

/-- With no host action due, no poll to start and no word to pop, the step lets a cycle pass. -/
theorem step_idle {s : State} (noHost : hostDue s = none) (noPoll : pollStarts s = false)
    (noWord : fetchWord s = none) : step s = .next (tick 1 s) := by
  simp only [step, noHost, agentStep, noPoll, noWord, Bool.false_eq_true, if_false]
  rfl

/-- With an open chain SEQ holds the bus and may pop (R46). -/
theorem Inv.atPop {s : State} (inv : Inv s) (chain : s.seq.chain = true) (noHost : hostDue s = none) {w : Word}
    {rest : List Word} (queue : s.q = w :: rest) : AtPop w rest s where
  noHost := noHost
  idle := inv.chain chain
  resumed := inv.resumes.closed (.inr chain)
  bus := inv.owner
  noPoll := fun _ => chain
  queue := queue

/-- Settles O8: in an open chain the bus is SEQ's, so no poll starts, and SEQ may pop. -/
theorem chainKeepsPollsOut : Obligations.ChainKeepsPollsOut := by
  unfold Obligations.ChainKeepsPollsOut
  intro s inv chain noHost
  refine ⟨fun w rest queue => (inv.atPop chain noHost queue).step, fun empty => step_idle noHost ?_ ?_⟩
  · simp [pollStarts, inv.owner, chain]
  · simp [fetchWord, empty]

/-! ### FAULT -/

theorem fetchWord_of_not_ready {s : State} (h : seqReady s = false) : fetchWord s = none := by
  simp [fetchWord, h]

/-- What the passing of time and the bus leave alone. The poller's timer counts the cycles, and the poller may turn PENDING
with it (44_touch_sampler.md R232). -/
structure Kept (s t : State) : Prop where
  par : t.par = s.par
  csr : t.csr = s.csr
  q : t.q = s.q
  lb : t.lb = s.lb
  seq : t.seq = s.seq
  sample : t.sample = s.sample
  owner : t.owner = s.owner
  host : t.env.host = s.env.host
  reads : t.env.reads = s.env.reads
  rstN : t.pins.rstN = s.pins.rstN
  relcnt : t.poll.relcnt = s.poll.relcnt
  tphase : t.poll.tphase = s.poll.tphase
  stop : t.poll.stop = s.poll.stop
  off : s.poll.state = .off → t.poll.state = .off

/-- The cycles that pass change the timer alone, and the state of a poller in TIMING. -/
theorem advance_kept (c n : Nat) (p : Poll) : (p.advance c n).relcnt = p.relcnt ∧ (p.advance c n).tphase = p.tphase ∧
    (p.advance c n).stop = p.stop ∧ (p.state = .off → (p.advance c n).state = .off) := by
  obtain ⟨state, timer, relcnt, tphase, period, stop⟩ := p
  cases state
  case timing =>
    simp only [Poll.advance]
    split <;> exact ⟨rfl, rfl, rfl, nofun⟩
  all_goals exact ⟨rfl, rfl, rfl, id⟩

theorem kept_tick (n : Nat) (s : State) : Kept s (tick n s) := by
  obtain ⟨relcnt, tphase, stop, off⟩ := advance_kept s.par.clkPerMs n s.poll
  exact ⟨rfl, rfl, rfl, rfl, rfl, rfl, rfl, rfl, rfl, rfl, relcnt, tphase, stop, off⟩

/-- The pins of SPI, the local counters and the surroundings are no concern of `Kept`. -/
theorem kept_of_bus (s : State) (env : Env) (pins : Pins) (loc : Local) (host : env.host = s.env.host)
    (reads : env.reads = s.env.reads) (rstN : pins.rstN = s.pins.rstN) :
    Kept s { s with env := env, pins := pins, loc := loc } :=
  ⟨rfl, rfl, rfl, rfl, rfl, rfl, rfl, host, reads, rstN, rfl, rfl, rfl, id⟩

/-- What time and the bus keep holds at every instant of a command or poll while the host does nothing. -/
theorem quiet_law {W : State → Prop} (quiet : ∀ w, W w → Quiet w) (kept : ∀ w t, W w → Kept w t → W t) :
    BusLaw (fun _ => W) (fun _ => False) False where
  time := fun _ n s _ h => kept s _ h (kept_tick n s)
  host := fun _ r rest s _ h e => by rw [quiet s h] at e; cases e
  reset := fun _ r rest s _ h e => by rw [quiet s h] at e; cases e
  stop := fun _ r rest s _ h e => by rw [quiet s h] at e; cases e
  fall := fun s h _ => kept s _ h (kept_of_bus s _ _ s.loc rfl rfl rfl)
  drive := fun _ a b s _ h => kept s _ h (kept_of_bus s s.env _ s.loc rfl rfl rfl)
  endFirst := fun t r s _ h =>
    kept s _ h (kept_of_bus s _ _ s.loc (takeMiso_other s.env).1 (takeMiso_other s.env).2.2.1 rfl)
  endNext := fun t r s h =>
    kept s _ h (kept_of_bus s _ _ s.loc (takeMiso_other s.env).1 (takeMiso_other s.env).2.2.1 rfl)
  rise := fun s h => kept s _ h (kept_of_bus s (csRise s).1.env _ _ (emitRise_env _).2.1 (emitRise_env _).2.2.2.1 rfl)
  loc := fun s l _ h => kept s _ h (kept_of_bus s s.env s.pins l rfl rfl rfl)

/-- The host is quiet, and SEQ, the FIFO and the fault record are those of `s`. -/
structure SameRecord (s u : State) : Prop where
  quiet : Quiet u
  seq : u.seq = s.seq
  q : u.q = s.q
  err : u.csr.err = s.csr.err
  errcmd : u.csr.errcmd = s.csr.errcmd
  erraux : u.csr.erraux = s.csr.erraux

theorem SameRecord.kept {s u v : State} (h : SameRecord s u) (kept : Kept u v) : SameRecord s v where
  quiet := kept.host.trans h.quiet
  seq := kept.seq.trans h.seq
  q := kept.q.trans h.q
  err := by rw [kept.csr]; exact h.err
  errcmd := by rw [kept.csr]; exact h.errcmd
  erraux := by rw [kept.csr]; exact h.erraux

/-- A quiet background poll runs to its end and leaves SEQ, the FIFO and the fault record alone until then. -/
theorem backgroundPoll_sameRecord {s : State} (quiet : Quiet s) :
    ((pass 1 (startPoll s)).andThen fun _ u => pollSequence s.csr.tcfg0 s.csr.tcfg1 u).Sat (SameRecord s)
      (fun _ => False) False := by
  have law := quiet_law (W := SameRecord s) (fun _ h => h.quiet) (fun _ _ h => h.kept)
  have start : SameRecord s (startPoll s) := ⟨quiet, rfl, rfl, rfl, rfl, rfl⟩
  exact law.pass_then (g := .gap) start 1 fun u h _ =>
    law.pollSequence_sat _ _ (fun _ h => ⟨h.1, h.2, h.3, h.4, h.5, h.6⟩) (fun _ _ _ h => ⟨h.1, h.2, h.3, h.4, h.5, h.6⟩)
      (fun _ h => ⟨h.1, h.2, h.3, h.4, h.5, h.6⟩) (fun _ h => ⟨h.1, h.2, h.3, h.4, h.5, h.6⟩) h

/-- In FAULT a background poll's fault keeps the record of the first fault (60_exceptions.md R310). -/
theorem faultEntry_of_faulted {s : State} (faulted : s.seq.state = .fault) (code : ErrCode) (detail : Half) :
    faultEntry .background code detail s = { endPoll s with
      poll := { (endPoll s).poll with tphase := false }, owner := .none, loc := Local.none } := by
  have kept : s.faulted = true := by simp [State.faulted, faulted]
  rw [faultEntry, if_pos kept]
  rfl

/-- Settles O9: in FAULT SEQ pops nothing, so a quiet step is a background poll, which keeps the record, or an idle
cycle. -/
theorem faultHoldsAndKeepsRecord : Obligations.FaultHoldsAndKeepsRecord := by
  unfold Obligations.FaultHoldsAndKeepsRecord
  intro s inv quiet faulted
  have noHost := hostDue_of_quiet quiet
  cases starts : pollStarts s with
  | false =>
    have noWord : fetchWord s = none := fetchWord_of_not_ready (by simp [seqReady, faulted])
    exact ⟨tick 1 s, step_idle noHost starts noWord, rfl, rfl, rfl, rfl, rfl⟩
  | true =>
    have poll : step s = backgroundPoll s := by simp only [step, noHost, agentStep, starts, if_true]
    have sat := backgroundPoll_sameRecord quiet
    rw [poll, backgroundPoll]
    generalize (pass 1 (startPoll s)).andThen _ = r at sat ⊢
    cases r with
    | ok a v => exact ⟨_, rfl, sat.seq, sat.q, sat.err, sat.errcmd, sat.erraux⟩
    | raise c d v =>
      refine ⟨_, rfl, ?_⟩
      rw [faultEntry_of_faulted (by rw [sat.seq]; exact faulted)]
      exact ⟨sat.seq, sat.q, sat.err, sat.errcmd, sat.erraux⟩
    | cut v => exact sat.elim
    | stop x => exact sat.elim

/-! ### The return from FAULT -/

/-- A write of STATUS that performs the fault return. -/
theorem writeStatus_seq_of_fault {v : Word} {s : State} (faulted : s.seq.state = .fault) : (writeStatus v s).seq =
    if v.getLsbD 2 then { s.seq with state := .idle, resume := s.env.now + 1 } else s.seq := by
  have isFaulted : s.faulted = true := by simp [State.faulted, faulted]
  unfold writeStatus faultReturn
  rw [if_pos isFaulted]
  split <;> rfl

/-- A register write takes SEQ out of FAULT only if it is a write of STATUS with bit 2 set (60_exceptions.md R309). -/
theorem writeEffect_leaves_fault {c : CsrName} {v : Word} {s : State} (faulted : s.seq.state = .fault)
    (left : (writeEffect c v s).seq.state ≠ .fault) : c = .status ∧ v.getLsbD 2 = true := by
  cases c <;> simp only [writeEffect] at left
  case status =>
    refine ⟨rfl, ?_⟩
    by_contra keeps
    rw [writeStatus_seq_of_fault faulted, if_neg keeps] at left
    exact left faulted
  case ctrl =>
    obtain same | closed := writeCtrl_seq v s
    · exact absurd (by rw [same]; exact faulted) left
    · exact absurd (by rw [closed]; exact faulted) left
  case cmd => unfold pushWord at left; split at left <;> exact absurd faulted left
  case lb i => unfold writeLb at left; split at left <;> exact absurd faulted left
  all_goals exact absurd faulted left

theorem readEffect_seq (c : CsrName) (s : State) : (readEffect c s).seq = s.seq := by
  cases c <;> simp only [readEffect]
  split <;> rfl

/-- STATUS has the offset 0x008 (10_state.md R21). -/
theorem csrAt_eq_status {words off : Nat} (h : csrAt words off = .status) : off = 0x008 := by
  unfold csrAt at h
  split at h
  case h_3 => rfl
  case h_16 => split at h <;> cases h
  all_goals cases h

/-- An access the port takes is one aligned word of the window. -/
theorem portStop_eq_none_iff {base addr size : Nat} : portStop base addr size = none ↔
    ∃ off, addr = base + off ∧ off < 0x2000 ∧ off % 4 = 0 ∧ size = 4 := by
  constructor
  · intro h
    unfold portStop at h
    split_ifs at h with outside narrow
    exact ⟨addr - base, by omega, by omega, by omega, by omega⟩
  · rintro ⟨off, rfl, inside, aligned, rfl⟩
    exact portStop_window inside aligned

/-- What a host step that was a read or write did to the state with the action taken. -/
theorem takeHost_done_cases {r : HostReq} {rest : List HostReq} {s t : State} (e : takeHost r rest s = .done t) :
    let u := { s with env := { s.env with host := rest, portFree := s.env.now + 1 } }
    ∃ off, off < 0x2000 ∧ off % 4 = 0 ∧
      ((r.op = .read (s.par.rsqBase + off) 4 ∧ t = logRead (s.par.rsqBase + off)
        (readValue (csrAt s.par.linebufWords off) u) (readEffect (csrAt s.par.linebufWords off) u)) ∨
      ∃ v, r.op = .write (s.par.rsqBase + off) 4 v ∧ t = writeEffect (csrAt s.par.linebufWords off) v u) := by
  obtain ⟨gap, op⟩ := r
  intro u
  cases op with
  | blockReset low => cases e
  | read addr size =>
    cases port : portStop s.par.rsqBase addr size with
    | some x => simp only [takeHost, hostOp, port] at e; cases e
    | none =>
      obtain ⟨off, rfl, inside, aligned, rfl⟩ := portStop_eq_none_iff.mp port
      have taken := hostOp_read_window u inside aligned
      refine ⟨off, inside, aligned, .inl ⟨rfl, ?_⟩⟩
      rw [takeHost, taken] at e
      cases e
      rfl
  | write addr size v =>
    cases port : portStop s.par.rsqBase addr size with
    | some x => simp only [takeHost, hostOp, port] at e; cases e
    | none =>
      obtain ⟨off, rfl, inside, aligned, rfl⟩ := portStop_eq_none_iff.mp port
      have taken := hostOp_write_window u v inside aligned
      refine ⟨off, inside, aligned, .inr ⟨v, rfl, ?_⟩⟩
      rw [takeHost, taken] at e
      cases e
      rfl

/-- Settles O10: only a write of STATUS leads out of FAULT, and the port and SEQ both wait for the next cycle then. -/
theorem faultLeftOnlyByReturn : Obligations.FaultLeftOnlyByReturn := by
  unfold Obligations.FaultLeftOnlyByReturn
  intro s t r rest faulted e left
  obtain done | reset := hostStep_next e
  · obtain ⟨off, -, -, ⟨-, rfl⟩ | ⟨v, op, written⟩⟩ := takeHost_done_cases done
    · exact absurd (by rw [logRead_seq, readEffect_seq]; exact faulted) left
    · obtain ⟨status, bit⟩ := writeEffect_leaves_fault (by exact faulted) (written ▸ left)
      cases csrAt_eq_status status
      set u : State := { s with env := { s.env with host := rest, portFree := s.env.now + 1 } }
      have written : t = writeStatus v u := written
      have seq : t.seq = { s.seq with state := .idle, resume := s.env.now + 1 } := by
        rw [written, writeStatus_seq_of_fault (s := u) faulted, if_pos bit]
      have env : t.env = u.env := by rw [written]; exact writeEffect_env .status v u
      refine .inr ⟨v, op, bit, by rw [seq], by rw [env], fun noPoll => step_idle ?_ ?_ (fetchWord_of_not_ready ?_)⟩
      · exact hostDue_of_port_busy (by rw [env]; exact Nat.lt_succ_self _)
      · have notBoth : ¬ (t.poll.state = .pending ∧ t.owner = .none) := by tauto
        simpa [pollStarts] using notBoth
      · have waits : ¬ t.seq.resume ≤ t.env.now := by rw [seq, env]; exact Nat.not_succ_le_self _
        simp [seqReady, waits]
  · obtain ⟨low, -, -, op, -⟩ := takeHost_reset reset
    exact .inl ⟨low, op⟩

/-! ### Block reset -/

/-- Settles O50: the state of a block reset keeps nothing but its surroundings, which differ by the rises of the pins that
were low and the BUS_ERR sample of a rise of CS_N. -/
theorem blockResetFromAnyState : Obligations.BlockResetFromAnyState := by
  unfold Obligations.BlockResetFromAnyState
  intro s g low rest sampled env
  have step : hostStep ⟨g, .blockReset low⟩ rest s = .next
      (blockReset low { s with env := { s.env with host := rest, portFree := s.env.now + 1 } }) := rfl
  rw [step]
  congr 1
  simp only [blockReset, releasePins, cslOkAfterReset, emitRise, State.busError]
  cases csN : s.pins.csN with
  | true => cases rstN : s.pins.rstN <;> simp [env, sampled, csN, rstN, emit]
  | false =>
    cases bus : s.par.hasBusErr with
    | false => cases rstN : s.pins.rstN <;> simp [env, sampled, csN, rstN, bus, emit]
    | true =>
      have taken : env = s.env.takeBusErr := if_pos ⟨bus, csN⟩
      rw [taken]
      cases rstN : s.pins.rstN <;> cases samples : s.env.busErr <;>
        simp [rstN, emit, Env.takeBusErr, Env.nextBusErr, samples]

end Sys2Proof.Machine
end

section
/-! The host registers: the fields of STATUS and CTRL, what their writes do, the WARL registers, and the accesses without
effect (10_state.md R21 to R44; 20_memory.md R74 to R79). -/

namespace Sys2Proof.Machine

/-! ### STATUS -/

/-- The flags of STATUS, each in its own bit, with no other field there (R27). -/
theorem status_flags (s : State) : s.status.getLsbD 0 = s.busy ∧ s.status.getLsbD 1 = s.csr.tpollAct ∧
    s.status.getLsbD 2 = s.faulted ∧ s.status.getLsbD 3 = s.sample.ready ∧ s.status.getLsbD 4 = s.sample.touched ∧
    s.status.getLsbD 7 = s.seq.chain ∧ s.status.getLsbD 8 = s.csr.cmdovf ∧ s.status.getLsbD 9 = s.csr.lberr ∧
    s.status.getLsbD 10 = s.sample.tovr ∧ s.status.getLsbD 11 = s.csr.initDone ∧ s.status.getLsbD 24 = s.irq := by
  refine ⟨?_, ?_, ?_, ?_, ?_, ?_, ?_, ?_, ?_, ?_, ?_⟩ <;>
    simp [State.status, getElem_place, BitVec.getLsbD_of_ge]

theorem status_ts (s : State) : s.status.extractLsb' 5 2 = s.ts := by
  simp [State.status, BitVec.extractLsb'_or, extractLsb'_place_self, extractLsb'_place_disjoint]

theorem status_err (s : State) : s.status.extractLsb' 12 4 = s.csr.err.toBits := by
  simp [State.status, BitVec.extractLsb'_or, extractLsb'_place_self, extractLsb'_place_disjoint]

theorem status_qcount (s : State) : s.status.extractLsb' 16 8 = s.qcount := by
  simp [State.status, BitVec.extractLsb'_or, extractLsb'_place_self, extractLsb'_place_disjoint]

theorem status_reserved (s : State) : s.status.extractLsb' 25 7 = 0#7 := by
  simp [State.status, BitVec.extractLsb'_or, extractLsb'_place_disjoint]

theorem busy_eq (s : State) : s.busy = decide (s.seq.state = .exec) := by
  cases h : s.seq.state <;> simp [State.busy, h]

theorem faulted_eq (s : State) : s.faulted = decide (s.seq.state = .fault) := by
  cases h : s.seq.state <;> simp [State.faulted, h]

/-- The IRQ level of 60_exceptions.md R313. -/
theorem irq_eq (s : State) : s.irq = ((s.csr.ieReady && s.sample.ready) ||
    (s.csr.ieFault && decide (s.seq.state = .fault)) || (s.csr.ieIdle && (decide (s.seq.state ≠ .exec) &&
      decide (s.q.length = 0) && decide (s.seq.state ≠ .fault)))) := by
  have empty : s.q.isEmpty = decide (s.q.length = 0) := by cases s.q <;> rfl
  simp only [State.irq, State.isIdle, busy_eq, faulted_eq, empty, decide_not]

/-- Settles O39: a read of STATUS returns `State.status`, whose fields stand apart. -/
theorem statusFields : Obligations.StatusFields := by
  unfold Obligations.StatusFields
  intro s short
  obtain ⟨busy, tpollAct, faulted, ready, touched, chain, cmdovf, lberr, tovr, initDone, irq⟩ := status_flags s
  refine ⟨s.status, hostOp_read_window s (by decide) (by decide), busy.trans (busy_eq s), tpollAct,
    faulted.trans (faulted_eq s), ready, touched, ?_, chain, cmdovf, lberr, tovr, initDone, ?_, ?_, irq.trans (irq_eq s),
    status_reserved s⟩
  · rw [status_ts, State.ts]
    split
    · rfl
    · split <;> rfl
  · rw [status_err]
    cases s.csr.err <;> rfl
  · rw [status_qcount, State.qcount, BitVec.toNat_ofNat, Nat.mod_eq_of_lt (by omega)]

/-- Settles O40: the write-one-to-clear bits and the fault return are all that a write of STATUS does. -/
theorem statusWrite : Obligations.StatusWrite := by
  unfold Obligations.StatusWrite
  intro s v
  have write : hostOp (.write (s.par.rsqBase + 0x008) 4 v) s = .done (writeStatus v s) :=
    hostOp_write_window s v (by decide) (by decide)
  rw [write]
  by_cases returns : v.getLsbD 2 = true ∧ s.seq.state = .fault
  · simp [writeStatus, faultReturn, State.faulted, returns]
  · have kept : (if v.getLsbD 2 then faultReturn s else s) = s := by
      split
      · rename_i bit
        exact if_neg (by simpa [State.faulted] using fun faulted => returns ⟨bit, faulted⟩)
      · rfl
    simp only [writeStatus, kept, if_neg returns]

/-! ### CTRL -/

/-- What a write of CTRL stores (R23). -/
def ctrlStored (v : Word) (s : State) : State :=
  { s with csr := { s.csr with
    touchEn := v.getLsbD 0, ieReady := v.getLsbD 1, ieFault := v.getLsbD 2, ieIdle := v.getLsbD 3 } }

/-- A write of CTRL stores its fields, then starts or stops the poller where TOUCH_EN changes, then flushes (R24, R26). -/
theorem writeCtrl_eq (v : Word) (s : State) : writeCtrl v s =
    let u := if v.getLsbD 0 && !s.csr.touchEn then touchStart (ctrlStored v s)
      else if s.csr.touchEn && !v.getLsbD 0 then touchStop (ctrlStored v s) else ctrlStored v s
    if v.getLsbD 8 then flush u else u := rfl

/-- Without FLUSH, a write of CTRL stores its fields and starts or stops the poller where TOUCH_EN changes (R24). -/
theorem writeCtrl_of_noFlush {v : Word} {s : State} (h : v.getLsbD 8 = false) : writeCtrl v s =
    if v.getLsbD 0 = s.csr.touchEn then ctrlStored v s
    else if v.getLsbD 0 then touchStart (ctrlStored v s) else touchStop (ctrlStored v s) := by
  rw [writeCtrl_eq, h]
  cases v.getLsbD 0 <;> cases s.csr.touchEn <;> rfl

/-- Starting the poller changes the poller alone (44_touch_sampler.md R233). -/
theorem touchStart_eq (s : State) : touchStart s = { s with poll := (touchStart s).poll } := by
  unfold touchStart
  split <;> rfl

theorem touchStart_poll {s : State} (h : s.poll.state ≠ .active) : (touchStart s).poll =
    { s.poll with state := .timing, timer := 0, relcnt := 0#8, period := s.csr.pollPeriod } := by
  unfold touchStart
  split
  · contradiction
  all_goals rfl

/-- Stopping the poller changes the poller and TOUCHED alone (R234). -/
theorem touchStop_eq (s : State) : touchStop s =
    { s with poll := (touchStop s).poll, sample := { s.sample with touched := false } } := by
  unfold touchStop
  dsimp only
  split <;> rfl

theorem touchStop_poll (s : State) : (touchStop s).poll =
    if s.poll.state = .active then { s.poll with relcnt := 0#8, stop := true }
    else { s.poll with state := .off, relcnt := 0#8 } := by
  unfold touchStop
  dsimp only
  split <;> simp_all

/-- Settles O42: the fields are stored, and the poller is started, stopped or left alone as TOUCH_EN rises, falls or
stays. -/
theorem ctrlWrite : Obligations.CtrlWrite := by
  unfold Obligations.CtrlWrite
  intro s v noFlush
  refine ⟨writeCtrl v s, hostOp_write_window s v (by decide) (by decide), ?_⟩
  rw [writeCtrl_of_noFlush noFlush]
  by_cases same : v.getLsbD 0 = s.csr.touchEn
  · rw [if_pos same, same]
    refine ⟨by rw [← same]; rfl, fun _ => ⟨rfl, rfl⟩, fun on off => ?_, fun off on => ?_, rfl, rfl, rfl, rfl, rfl⟩
    · rw [on] at off; cases off
    · rw [on] at off; cases off
  · rw [if_neg same]
    cases en : v.getLsbD 0 with
    | true =>
      rw [if_pos rfl, touchStart_eq]
      refine ⟨by rw [← en]; rfl, fun h => absurd (en.trans h) same, fun _ _ => ⟨rfl, fun idle => ?_⟩, nofun,
        rfl, rfl, rfl, rfl, rfl⟩
      exact touchStart_poll (s := ctrlStored v s) idle
    | false =>
      have poll := touchStop_poll (ctrlStored v s)
      rw [if_neg (by decide), touchStop_eq]
      refine ⟨by rw [← en]; rfl, fun h => absurd (en.trans h) same, nofun, fun _ _ => ⟨rfl, ?_, ?_, ?_⟩,
        rfl, rfl, rfl, rfl, rfl⟩
      · show (touchStop (ctrlStored v s)).poll.relcnt = 0#8
        rw [poll]; split <;> rfl
      · exact fun idle => poll.trans (if_neg idle)
      · exact fun active => poll.trans (if_pos active)

theorem ctrl_fields (s : State) : s.ctrl.getLsbD 0 = s.csr.touchEn ∧ s.ctrl.getLsbD 1 = s.csr.ieReady ∧
    s.ctrl.getLsbD 2 = s.csr.ieFault ∧ s.ctrl.getLsbD 3 = s.csr.ieIdle ∧ s.ctrl.extractLsb' 4 28 = 0#28 := by
  refine ⟨?_, ?_, ?_, ?_, ?_⟩
  case refine_5 => simp [State.ctrl, BitVec.extractLsb'_or, extractLsb'_place_disjoint]
  all_goals simp [State.ctrl, getElem_place, BitVec.getLsbD_of_ge]

/-- A write of CTRL's own value with FLUSH stores nothing new and leaves the poller alone. -/
theorem writeCtrl_ctrl_flush (s : State) : writeCtrl (s.ctrl ||| 0x100#32) s = flush s := by
  obtain ⟨touchEn, ieReady, ieFault, ieIdle, -⟩ := ctrl_fields s
  have en : (s.ctrl ||| 0x100#32).getLsbD 0 = s.csr.touchEn := by rw [BitVec.getLsbD_or, touchEn]; exact Bool.or_false _
  have ready : (s.ctrl ||| 0x100#32).getLsbD 1 = s.csr.ieReady := by rw [BitVec.getLsbD_or, ieReady]; exact Bool.or_false _
  have fault : (s.ctrl ||| 0x100#32).getLsbD 2 = s.csr.ieFault := by rw [BitVec.getLsbD_or, ieFault]; exact Bool.or_false _
  have idle : (s.ctrl ||| 0x100#32).getLsbD 3 = s.csr.ieIdle := by rw [BitVec.getLsbD_or, ieIdle]; exact Bool.or_false _
  have flushes : (s.ctrl ||| 0x100#32).getLsbD 8 = true := by rw [BitVec.getLsbD_or]; exact Bool.or_true _
  unfold writeCtrl
  simp only [en, ready, fault, idle, flushes, Bool.and_not_self, Bool.false_eq_true, if_false, if_true]

/-- Settles O43: writing CTRL's own value with FLUSH is the flush alone. -/
theorem flushEmptiesQueue : Obligations.FlushEmptiesQueue := by
  unfold Obligations.FlushEmptiesQueue
  intro s
  have write : hostOp (.write (s.par.rsqBase + 0x004) 4 (s.ctrl ||| 0x100#32)) s =
    .done (writeCtrl (s.ctrl ||| 0x100#32) s) := hostOp_write_window s _ (by decide) (by decide)
  rw [write, writeCtrl_ctrl_flush]
  by_cases idleChain : s.seq.chain = true ∧ s.seq.state = .idle
  · simp [flush, idleChain]
  · rw [if_neg idleChain]
    simp only [flush]
    rw [if_neg (by simpa using idleChain)]

end Sys2Proof.Machine
end


section
/-! Where the commands complete: each runs its body after the pop's cycle, and the body's events, their cycles and what
they leave are those of the bus laws (41_register_commands.md R150 to R157; 42_bulk_commands.md R181, R182;
43_system_commands.md R200, R211). -/

namespace Sys2Proof.Machine

/-! ### A command after its pop's cycle -/

/-- A command begun in `s` has let the pop's cycle pass. -/
structure Opened (s u : State) : Prop where
  ran : Ran 0 [] { s with loc := Local.none } u
  now : u.env.now = s.env.now + 1
  host : HostOnly { s with loc := Local.none } u

namespace Opened

variable {s u : State}

theorem par (h : Opened s u) : u.par = s.par := h.ran.par

theorem benign (h : Opened s u) : Benign u := h.ran.benign

theorem noBusErr (h : Opened s u) (e : s.par.hasBusErr = false) : u.par.hasBusErr = false := by rw [h.par]; exact e

theorem miso (h : Opened s u) : u.env.miso = s.env.miso := h.host.miso

theorem freeDraws (h : Opened s u) : u.env.freeDraws = s.env.freeDraws := h.host.freeDraws

/-- CS_N can fall in the cycle after the pop's, or when T_CSH_MIN allows (70_reset_and_hazards.md R348). -/
theorem nextFall (h : Opened s u) : nextFall u = firstFall s := by
  rw [Machine.nextFall, h.now, h.host.pins]
  rfl

theorem running (h : Opened s u) (x : s.seq.state = .exec) : u.seq = s.seq := (h.host.running x).1

end Opened

/-- The command `i` completes, after the events `evs` from cycle `t0` to cycle `t1`, with what they leave alone as it is
in `w`. -/
def Completes (i : Instr) (s w : State) (evs : List BusEvent) (t0 t1 : Nat) : Prop :=
  ∃ v d, exec i s = .next (tick 1 (complete i.k v)) ∧ Did d evs t0 t1 w v

theorem exec_completes {i : Instr} {s : State} {Q : State → Prop} (benign : Benign s)
    (legal : operandError s.par.linebufWords i = none)
    (body : ∀ u, Opened (entered i s) u → (legalBody s i u).Yields fun _ v => Q v) :
    ∃ v, Q v ∧ exec i s = .next (tick 1 (complete i.k v)) := by
  have start : Benign (entered i s) := by cases i <;> exact benign
  rw [exec_eq_runCommand]
  refine runCommand_completes start fun u ran now host => ?_
  simp only [commandBody, legal]
  exact body u ⟨ran, now, host⟩

theorem completes_of_body {i : Instr} {s w : State} {evs : List BusEvent} {t0 t1 : Nat} (benign : Benign s)
    (legal : operandError s.par.linebufWords i = none)
    (body : ∀ u, Opened (entered i s) u → (legalBody s i u).Yields fun _ v => ∃ d, Did d evs t0 t1 w v) :
    Completes i s w evs t0 t1 := by
  obtain ⟨v, ⟨d, did⟩, next⟩ := exec_completes benign legal body
  exact ⟨v, d, next, did⟩

/-- What a completed run of slots and time leaves. -/
theorem ends_of_ran {k : Bool} {d : Nat} {new : List TraceEntry} {w v : State} (running : w.seq.state = .exec)
    (owner : w.owner = .seq) (ran : Ran d new w v) : Ends k w (tick 1 (complete k v)) :=
  ⟨completed_of_ran running owner ran, outOfReach_of_ran running ran⟩

/-- What a completed command leaves. -/
theorem Completes.ends {i : Instr} {s w : State} {evs : List BusEvent} {t0 t1 : Nat} (h : Completes i s w evs t0 t1)
    (running : w.seq.state = .exec) (owner : w.owner = .seq) :
    ∃ t, exec i s = .next t ∧ Ends i.k w t ∧ t.bus = w.bus ++ evs ∧ t.csr.rdata = w.csr.rdata ∧
      t.csr.initDone = w.csr.initDone ∧ (isBulkWord w.seq.cur = true → t.lb = w.lb) := by
  obtain ⟨v, d, next, did⟩ := h
  obtain ⟨new, ran, -⟩ := id did
  exact ⟨_, next, ends_of_ran running owner ran, (bus_of_did did :), ran.rdata, ran.initDone, ran.buffer running⟩

/-- The cycles of a completed command's first and last bus event. -/
theorem Completes.busSpan {i : Instr} {s w t : State} {evs : List BusEvent} {t0 t1 : Nat}
    (h : Completes i s w evs t0 t1) (next : exec i s = .next t) : busSpan w t = some (t0, t1) := by
  obtain ⟨v, d, next', did⟩ := h
  rw [next'] at next
  cases next
  exact (busSpan_of_did did :)

/-! ### NOP and DELAY -/

/-- Settles O13: NOP's body is empty. -/
theorem nopCompletes : Obligations.NopCompletes := by
  unfold Obligations.NopCompletes
  rintro k s ⟨running, -, owner⟩ benign
  obtain ⟨v, opened, next⟩ := exec_completes (i := .nop k) (Q := Opened s) benign rfl
    fun u opened => Res.yields_ok opened
  exact ⟨_, next, ends_of_ran (w := { s with loc := Local.none }) running owner opened.ran, (bus_of_ran opened.ran :),
    congrArg (· + 1) opened.now, opened.ran.rdata, opened.ran.initDone⟩

/-- Settles O18: DELAY's body is its milliseconds. -/
theorem delayCompletes : Obligations.DelayCompletes := by
  unfold Obligations.DelayCompletes
  rintro k ms s ⟨running, -, owner⟩ benign
  obtain ⟨v, ⟨ran, now⟩, next⟩ := exec_completes (i := .delay k ms)
    (Q := fun v => Ran 0 [] { s with loc := Local.none } v ∧
      v.env.now = s.env.now + 1 + ms.toNat * s.par.clkPerMs) benign rfl fun u (opened : Opened s u) => by
    refine (waitMs_benign ms.toNat opened.benign).mono fun _ v ⟨ran, now, _⟩ => ⟨opened.ran.trans ran, ?_⟩
    rw [now, opened.now, opened.par]
  exact ⟨_, next, ends_of_ran (w := { s with loc := Local.none }) running owner ran, (bus_of_ran ran :),
    congrArg (· + 1) now, ran.rdata, ran.initDone⟩

/-! ### Register commands -/

/-- WREG's two phases and their cycles (R153; 70_reset_and_hazards.md R349). -/
theorem wreg_completes {k : Bool} {a v : Byte} {s : State} (benign : Benign s) (noBusErr : s.par.hasBusErr = false) :
    Completes (.wreg k a v) s { s with loc := Local.none } (accessEvents a [0x00#8, v] s.env) (firstFall s)
      (firstFall s + accessTime s.par) := by
  refine completes_of_body benign rfl fun u (opened : Opened s u) => ?_
  refine (writeReg_benign a v opened.benign (opened.noBusErr noBusErr)).mono fun _ w access => ⟨4, ?_⟩
  have did := access.did.before opened.ran
  rw [access.now, opened.nextFall, opened.par, accessEvents_congr _ _ opened.miso opened.freeDraws] at did
  exact did

/-- Settles O14: WREG is one register write. -/
theorem wregCompletes : Obligations.WregCompletes := by
  unfold Obligations.WregCompletes
  rintro k a v s ⟨running, -, owner⟩ benign noBusErr
  obtain ⟨t, next, ends, bus, rdata, initDone, -⟩ := (wreg_completes benign noBusErr).ends running owner
  exact ⟨t, next, ends, bus, rdata, initDone⟩

/-- RREG's two phases and their cycles, with the byte read in RDATA (R154; 70_reset_and_hazards.md R349). -/
theorem rreg_completes {k : Bool} {a : Byte} {s : State} (benign : Benign s) (noBusErr : s.par.hasBusErr = false) :
    Completes (.rreg k a) s (setRdata (s.env.answer 3) { s with loc := Local.none })
      (accessEvents a [0x40#8, s.par.readFill] s.env) (firstFall s) (firstFall s + accessTime s.par) := by
  refine completes_of_body benign rfl fun u (opened : Opened s u) => ?_
  refine (readToRdata_benign a opened.benign (opened.noBusErr noBusErr)).mono fun _ w ⟨did, now, _⟩ => ⟨4, ?_⟩
  have did := did.before (opened.ran.withRdata _)
  rw [now, opened.nextFall, opened.par, accessEvents_congr _ _ opened.miso opened.freeDraws,
    answer_congr _ opened.miso opened.freeDraws] at did
  exact did

/-- Settles O15: RREG is one register read into RDATA. -/
theorem rregCompletes : Obligations.RregCompletes := by
  unfold Obligations.RregCompletes
  rintro k a s ⟨running, -, owner⟩ benign noBusErr
  obtain ⟨t, next, ends, bus, rdata, initDone, -⟩ := (rreg_completes benign noBusErr).ends running owner
  exact ⟨t, next, ends, bus, rdata, initDone⟩

/-- WREG16's four phases and their cycles (R155; 70_reset_and_hazards.md R349). -/
theorem wreg16_completes {k : Bool} {a : Byte} {d : Half} {s : State} (benign : Benign s)
    (noBusErr : s.par.hasBusErr = false) (legal : a ≠ 0xFF#8) :
    Completes (.wreg16 k a d) s { s with loc := Local.none }
      (accessEvents a [0x00#8, loByte d] s.env ++ accessEvents (a + 1#8) [0x00#8, hiByte d] (s.env.after 4))
      (firstFall s) (firstFall s + 2 * accessTime s.par + s.par.tCshMin) := by
  refine completes_of_body benign (if_neg legal) fun u (opened : Opened s u) => ?_
  refine (writePair_benign a d opened.benign (opened.noBusErr noBusErr)).mono fun _ w ⟨did, now, _⟩ => ⟨8, ?_⟩
  have did := did.before opened.ran
  have later := after_congr 4 opened.miso opened.freeDraws
  rw [now, opened.nextFall, opened.par, accessEvents_congr _ _ opened.miso opened.freeDraws,
    accessEvents_congr _ _ later.1 later.2] at did
  exact did

/-- Settles O16: WREG16 is two register writes. -/
theorem wreg16Completes : Obligations.Wreg16Completes := by
  unfold Obligations.Wreg16Completes
  rintro k a d s ⟨running, -, owner⟩ benign noBusErr legal
  obtain ⟨t, next, ends, bus, rdata, initDone, -⟩ := (wreg16_completes benign noBusErr legal).ends running owner
  exact ⟨t, next, ends, by rw [bus, List.append_assoc]; rfl, rdata, initDone⟩

/-- WAIT's reads and their cycles, with the last status byte in RDATA (R156; 70_reset_and_hazards.md R349). -/
theorem wait_completes {k : Bool} {a m : Byte} {n : Nat} {s : State} (benign : Benign s)
    (noBusErr : s.par.hasBusErr = false) (clear : readsUntilClear m s.csr.waitLimit.toNat s.env = some n) :
    Completes (.wait k a m) s (setRdata (statusRead s.env (n - 1)) { s with loc := Local.none })
      (readsEvents s.par.readFill a n s.env) (firstFall s) (firstFall s + n * accessTime s.par +
        (n - 1) * max (s.csr.waitInterval.toNat * s.par.clkPerMs) s.par.tCshMin) := by
  obtain ⟨limit, atLeastOne⟩ : ∃ limit, s.csr.waitLimit.toNat = limit + 1 := by
    cases h : s.csr.waitLimit.toNat with
    | zero => rw [h] at clear; cases clear
    | succ limit => exact ⟨limit, rfl⟩
  refine completes_of_body benign rfl fun u (opened : Opened s u) => ?_
  have wait := waitLoop_benign a m s.csr.waitInterval.toNat limit opened.benign (opened.noBusErr noBusErr)
  rw [readsUntilClear_congr _ _ opened.miso opened.freeDraws, ← atLeastOne, clear] at wait
  refine wait.mono fun _ v reads => ⟨4 * n, ?_⟩
  have did := reads.did.before (opened.ran.withRdata _)
  rw [reads.now, opened.nextFall, opened.par, readsEvents_congr _ _ _ opened.miso opened.freeDraws,
    statusRead_congr _ opened.miso opened.freeDraws] at did
  exact did

/-- Settles O17: WAIT's loop ends with its first clear read. -/
theorem waitCompletes : Obligations.WaitCompletes := by
  unfold Obligations.WaitCompletes
  rintro k a m n s ⟨running, -, owner⟩ benign noBusErr clear
  obtain ⟨t, next, ends, bus, rdata, initDone, -⟩ := (wait_completes benign noBusErr clear).ends running owner
  exact ⟨t, next, ends, bus, rdata, initDone⟩

/-! ### Bulk commands -/

/-- The word of an MWRITE or an MREAD locks the line buffer (10_state.md R44). -/
theorem isBulkWord_encode {k : Bool} {a : Byte} {n : Half} :
    isBulkWord (encode (.mwrite k a n)) = true ∧ isBulkWord (encode (.mread k a n)) = true := by
  simp [isBulkWord, encode, opField_encodeFields]

theorem operandError_bulk {words : Nat} {k : Bool} {a : Byte} {n : Half} (least : 1 ≤ n.toNat) (most : n.toNat ≤ words) :
    operandError words (.mwrite k a n) = none ∧ operandError words (.mread k a n) = none := by
  have legal : ¬ (n = 0#16 ∨ words < n.toNat) := by
    rintro (rfl | more)
    · exact absurd least (by decide)
    · omega
  exact ⟨if_neg legal, if_neg legal⟩

/-- MWRITE's two phases and their cycles (R181; 70_reset_and_hazards.md R349). -/
theorem mwrite_completes {k : Bool} {a : Byte} {n : Half} {s : State} (running : Running (.mwrite k a n) s)
    (benign : Benign s) (noBusErr : s.par.hasBusErr = false) (least : 1 ≤ n.toNat) (most : n.toNat ≤ s.par.linebufWords) :
    Completes (.mwrite k a n) s { s with loc := Local.none } (accessEvents a (0x00#8 :: lbBytes s n.toNat) s.env)
      (firstFall s) (firstFall s + (16 * (2 * n.toNat + 1) + 36) * halfBit s.par + s.par.tCshMin) := by
  obtain ⟨exec, cur, -⟩ := running
  have bulk : isBulkWord s.seq.cur = true := by rw [cur]; exact isBulkWord_encode.1
  refine completes_of_body benign (operandError_bulk least most).1 fun u (opened : Opened s u) => ?_
  have seq := opened.running exec
  have bytes : lbBytes u n.toNat = lbBytes s n.toNat := by
    simp only [lbBytes, getLb, opened.par, opened.ran.buffer exec bulk]
  refine (streamWrite_benign a n.toNat opened.benign (opened.noBusErr noBusErr) (by rw [seq]; exact exec)
    (by rw [seq]; exact bulk)).mono fun _ v ⟨did, now, _⟩ => ⟨2 * n.toNat + 3, ?_⟩
  have did := did.before opened.ran
  rw [now, opened.nextFall, opened.par, bytes, accessEvents_congr _ _ opened.miso opened.freeDraws] at did
  exact did

/-- Settles O19: MWRITE is one write stream of its pixels, and its lock keeps the line buffer. -/
theorem mwriteCompletes : Obligations.MwriteCompletes := by
  unfold Obligations.MwriteCompletes
  rintro k a n s running benign noBusErr least most
  obtain ⟨t, next, ends, bus, rdata, initDone, lb⟩ :=
    (mwrite_completes running benign noBusErr least most).ends running.1 running.2.2
  exact ⟨t, next, ends, bus, lb (by show isBulkWord s.seq.cur = true; rw [running.2.1]; exact isBulkWord_encode.1), rdata,
    initDone⟩

/-- MREAD's two phases and their cycles, with its pixels in the line buffer (R182; 70_reset_and_hazards.md R349). -/
theorem mread_completes {k : Bool} {a : Byte} {n : Half} {s : State} (running : Running (.mread k a n) s)
    (benign : Benign s) (noBusErr : s.par.hasBusErr = false) (least : 1 ≤ n.toNat) (most : n.toNat ≤ s.par.linebufWords) :
    Completes (.mread k a n) s
      { s with
        loc := Local.none
        lb := storePixels s.par.pixMsbFirst 0 n.toNat (s.env.after (s.par.mreadDummy + 3)) s.lb }
      (accessEvents a (0x40#8 :: List.replicate (s.par.mreadDummy + 2 * n.toNat) s.par.readFill) s.env) (firstFall s)
      (firstFall s + (16 * (s.par.mreadDummy + 2 * n.toNat + 1) + 36) * halfBit s.par + s.par.tCshMin) := by
  obtain ⟨exec, cur, -⟩ := running
  have bulk : isBulkWord s.seq.cur = true := by rw [cur]; exact isBulkWord_encode.2
  refine completes_of_body benign (operandError_bulk least most).2 fun u (opened : Opened s u) => ?_
  have seq := opened.running exec
  have lb : u.lb = s.lb := opened.ran.buffer exec bulk
  have later := after_congr (s.par.mreadDummy + 3) opened.miso opened.freeDraws
  refine (streamRead_benign a n.toNat opened.benign (opened.noBusErr noBusErr) (by rw [seq]; exact exec)
    (by rw [seq]; exact bulk)).mono fun _ v ⟨did, now, _⟩ => ⟨s.par.mreadDummy + 2 * n.toNat + 3, ?_⟩
  have did := did.before (opened.ran.withLb _)
  rw [now, opened.nextFall, opened.par, lb, accessEvents_congr _ _ opened.miso opened.freeDraws,
    storePixels_congr _ _ _ _ later.1 later.2] at did
  exact did

/-- Settles O20: MREAD is one read stream into its entries of the line buffer. -/
theorem mreadCompletes : Obligations.MreadCompletes := by
  unfold Obligations.MreadCompletes
  rintro k a n s running benign noBusErr length least most
  obtain ⟨t, next, ends, bus, rdata, initDone, lb⟩ :=
    (mread_completes running benign noBusErr least most).ends running.1 running.2.2
  have lb := lb (by show isBulkWord s.seq.cur = true; rw [running.2.1]; exact isBulkWord_encode.2)
  have entry := storePixels_getElem? s.par.pixMsbFirst n.toNat 0 (s.env.after (s.par.mreadDummy + 3)) s.lb (by omega)
  refine ⟨t, next, ends, bus, fun j below => ?_, fun j above => ?_, rdata, initDone⟩
  · rw [lb, entry, if_pos (by omega), answer_after, answer_after]
    congr 3 <;> omega
  · rw [lb, entry, if_neg (by omega)]

/-! ### RESET -/

/-- Settles O21: RESET is the reset pulse, from the cycle after the pop's on. -/
theorem resetCompletes : Obligations.ResetCompletes := by
  unfold Obligations.ResetCompletes
  rintro k s ⟨running, -, owner⟩ benign high
  obtain ⟨v, ⟨did, now, rstN⟩, next⟩ := exec_completes (i := .reset k)
    (Q := fun v => Did 0 [.rstl, .rsth] (s.env.now + 1) (s.env.now + 1 + s.par.tRstLowMs * s.par.clkPerMs)
        (setInitDone false { s with loc := Local.none }) v ∧
      v.env.now = s.env.now + 1 + (s.par.tRstLowMs + s.par.tRstWaitMs) * s.par.clkPerMs ∧ v.pins.rstN = true)
    benign rfl fun u (opened : Opened s u) => by
    have start : Benign (setInitDone false u) := opened.benign
    have stillHigh : u.pins.rstN = true := opened.ran.rstN.trans high
    refine (resetPulse_benign start stillHigh).mono fun _ v ⟨did, now, pins⟩ => ?_
    have did := did.before (opened.ran.withInitDone false)
    rw [setInitDone_env, setInitDone_par, opened.now, opened.par] at did now
    exact ⟨did, now, by rw [pins]; exact stillHigh⟩
  obtain ⟨new, ran, -⟩ := id did
  exact ⟨_, next, (ends_of_ran (w := setInitDone false { s with loc := Local.none }) running owner ran :),
    (bus_of_did did :), congrArg (· + 1) now, (busSpan_of_did did :), rstN, ran.initDone, ran.rdata⟩

/-! ### TPOLL -/

/-- The same run from a state with another TPOLL_ACT. -/
theorem Ran.withTpollAct {d : Nat} {new : List TraceEntry} {s s' : State} (h : Ran d new s s') (b : Bool) :
    Ran d new (setTpollAct b s) (setTpollAct b s') where
  par := h.par
  miso := h.miso
  freeDraws := h.freeDraws
  busErr := h.busErr
  resets := h.resets
  trace := h.trace
  rstN := h.rstN
  step := h.step
  cur := h.cur
  rdata := h.rdata
  errcmd := h.errcmd
  erraux := h.erraux
  initDone := h.initDone
  tpollAct := rfl
  x := h.x
  y := h.y
  tphase := h.tphase
  running := h.running
  buffer := h.buffer
  benign := h.benign

theorem Did.withTpollAct {d t0 t1 : Nat} {evs : List BusEvent} {s s' : State} (h : Did d evs t0 t1 s s') (b : Bool) :
    Did d evs t0 t1 (setTpollAct b s) (setTpollAct b s') := by
  obtain ⟨new, ran, span⟩ := h
  exact ⟨new, ran.withTpollAct b, span⟩

/-- The release step clears TPOLL_ACT, and changes TOUCHED and the release count beside (44_touch_sampler.md R241). -/
theorem ran_releaseStep {u : State} (benign : Benign u) : Ran 0 [] (setTpollAct false u) (releaseStep u) := by
  constructor
  case benign => exact benign
  all_goals simp [releaseStep, setTpollAct, Env.after]

/-- TPOLL's restart of the poll interval changes the poller's state, timer and period alone (R211). -/
theorem ran_restartInterval {u : State} (benign : Benign u) : Ran 0 [] u (restartInterval u) := by
  unfold restartInterval
  split
  · constructor
    case benign => exact benign
    all_goals simp [Env.after]
  · exact Ran.refl benign

/-- TPOLL's accesses and their cycles where it finds the touch bit clear (R236; 70_reset_and_hazards.md R349). -/
theorem tpoll_completes_clear {k : Bool} {s : State} (benign : Benign s) (noBusErr : s.par.hasBusErr = false)
    (clear : touchSet (s.env.answer 3) (intMask s.csr.tcfg0) = false) :
    Completes (.tpoll k) s (setTpollAct false { s with loc := Local.none })
      (accessEvents (intAddr s.csr.tcfg0) [0x40#8, s.par.readFill] s.env) (firstFall s)
      (firstFall s + accessTime s.par) := by
  refine completes_of_body benign rfl fun u (opened : Opened (setTpollAct true s) u) => ?_
  obtain ⟨v, poll, access⟩ := pollSequence_clear s.csr.tcfg0 s.csr.tcfg1 opened.benign (opened.noBusErr noBusErr)
    (by rw [answer_congr _ opened.miso opened.freeDraws]; exact clear)
  simp only [legalBody, poll, Res.ok_andThen]
  have released := (ran_releaseStep access.benign).trans (ran_restartInterval access.benign)
  have did := ((access.did.before opened.ran).withTpollAct false).after released
  rw [access.now, opened.nextFall, opened.par, accessEvents_congr _ _ opened.miso opened.freeDraws] at did
  exact Res.yields_ok ⟨4, did⟩

/-- TPOLL's accesses and their cycles where it finds the touch bit set, with the decoded coordinates (R236 to R240;
70_reset_and_hazards.md R349). -/
theorem tpoll_completes_touched {k : Bool} {s : State} (benign : Benign s) (noBusErr : s.par.hasBusErr = false)
    (touched : touchSet (s.env.answer 3) (intMask s.csr.tcfg0) = true) :
    ∃ t1, (1 ≤ s.par.tCshMin → t1 = firstFall s + 5 * accessTime s.par + 4 * s.par.tCshMin) ∧
    Completes (.tpoll k) s
      (polled (coordOf (s.env.answer 7) (s.env.answer 15) (xlShift s.csr.tcfg1))
        (coordOf (s.env.answer 11) (s.env.answer 15) (ylShift s.csr.tcfg1)) { s with loc := Local.none })
      (touchedEvents s.csr.tcfg0 s.csr.tcfg1 s.par.readFill s.env) (firstFall s) t1 := by
  obtain ⟨v, ⟨t1, time, did⟩, next⟩ := exec_completes (i := .tpoll k) (Q := fun v => ∃ t1,
      (1 ≤ s.par.tCshMin → t1 = firstFall s + 5 * accessTime s.par + 4 * s.par.tCshMin) ∧
      Did 20 (touchedEvents s.csr.tcfg0 s.csr.tcfg1 s.par.readFill s.env) (firstFall s) t1
        (polled (coordOf (s.env.answer 7) (s.env.answer 15) (xlShift s.csr.tcfg1))
          (coordOf (s.env.answer 11) (s.env.answer 15) (ylShift s.csr.tcfg1)) { s with loc := Local.none }) v)
    benign rfl fun u (opened : Opened (setTpollAct true s) u) => by
    have answers := fun n => answer_congr n opened.miso opened.freeDraws
    obtain ⟨x, v, poll, did, time, -⟩ := pollSequence_touched s.csr.tcfg0 s.csr.tcfg1 opened.benign
      (opened.noBusErr noBusErr) (by rw [answers]; exact touched)
    simp only [legalBody, poll, Res.ok_andThen]
    have did := (did.before (opened.ran.polled _ _)).after (ran_restartInterval did.benign)
    rw [opened.nextFall, opened.par] at did time
    rw [touchedEvents_congr _ _ _ opened.miso opened.freeDraws, answers, answers, answers] at did
    exact Res.yields_ok ⟨_, time, did⟩
  exact ⟨t1, time, v, 20, next, did⟩

/-- Settles O23: TPOLL is one poll, which finds the touch bit set or clear. -/
theorem tpollCompletes : Obligations.TpollCompletes := by
  unfold Obligations.TpollCompletes
  rintro k s ⟨running, -, owner⟩ benign noBusErr c0 c1 found
  cases touched : found with
  | false =>
    obtain ⟨t, next, ⟨completed, reach⟩, bus, rdata, initDone, -⟩ :=
      (tpoll_completes_clear benign noBusErr touched).ends running owner
    obtain ⟨-, -, -, err, x, y, tphase, tpollAct, -⟩ := reach
    exact ⟨t, next, completed, bus, x, y, tphase.trans, tpollAct, rdata, initDone, err⟩
  | true =>
    obtain ⟨t1, -, completes⟩ := tpoll_completes_touched (k := k) benign noBusErr touched
    obtain ⟨t, next, ⟨completed, reach⟩, bus, rdata, initDone, -⟩ := completes.ends running owner
    obtain ⟨-, -, -, err, x, y, tphase, tpollAct, -⟩ := reach
    exact ⟨t, next, completed, bus, x, y, fun _ => tphase, tpollAct, rdata, initDone, err⟩

/-! ### Bus times -/

/-- A bit time is even, so it is two of its halves (00_scope.md R6). -/
theorem sckDiv_eq_of_legal {p : Params} (legal : p.legal = true) : p.sckDiv = 2 * halfBit p ∧ 1 ≤ p.tCshMin := by
  simp only [Params.legal, Bool.and_eq_true, decide_eq_true_eq] at legal
  simp only [halfBit]
  omega

/-- Settles O25: the cycles of each command's events are those of R349's rows. -/
theorem busTimes : Obligations.BusTimes := by
  unfold Obligations.BusTimes
  intro i s t running benign noBusErr legal next P G spans
  obtain ⟨bit, gap⟩ := sckDiv_eq_of_legal legal
  have phase : ∀ n, P n = (16 * n + 2) * halfBit s.par := fun n => by
    simp only [P, phaseTime, bit]
    ring
  have spans_of : ∀ {w evs t1 time}, Completes i s w evs (firstFall s) t1 → w.env = s.env →
      t1 = firstFall s + time → spans time := fun completes env time => by
    have span := completes.busSpan next
    rw [time] at span
    show busSpan s t = some (firstFall s, firstFall s + _)
    rw [← span, busSpan, busSpan, env]
  refine ⟨?_, ?_, ?_, ?_, ?_, ?_, ?_⟩
  · rintro k a v rfl
    exact spans_of (wreg_completes benign noBusErr) rfl (by rw [phase, accessTime]; ring)
  · rintro k a rfl
    exact spans_of (rreg_completes benign noBusErr) rfl (by rw [phase, accessTime]; ring)
  · rintro k a d rfl noCarry
    exact spans_of (wreg16_completes benign noBusErr noCarry) rfl (by rw [phase, accessTime]; ring)
  · rintro k a m n rfl clear
    exact spans_of (wait_completes benign noBusErr clear) rfl (by rw [phase, accessTime]; ring)
  · rintro k a n rfl least most
    exact spans_of (mwrite_completes running benign noBusErr least most) rfl (by rw [phase, phase]; ring)
  · rintro k a n rfl least most
    exact spans_of (mread_completes running benign noBusErr least most) rfl (by rw [phase, phase]; ring)
  · rintro k rfl
    cases touched : touchSet (s.env.answer 3) (intMask s.csr.tcfg0) with
    | false =>
      exact spans_of (tpoll_completes_clear benign noBusErr touched) rfl (by
        rw [if_neg (by decide), phase, accessTime]; ring)
    | true =>
      obtain ⟨t1, time, completes⟩ := tpoll_completes_touched (k := k) benign noBusErr touched
      exact spans_of completes rfl (by rw [if_pos rfl, time gap, phase, accessTime]; ring)

/-! ### Faults of WAIT and INIT's operand -/

/-- Settles O27: a WAIT that never reads clear raises after its last read. -/
theorem waitTimesOut : Obligations.WaitTimesOut := by
  unfold Obligations.WaitTimesOut
  rintro k a m s ⟨running, -, -⟩ benign noBusErr positive never
  obtain ⟨limit, atLeastOne⟩ : ∃ limit, s.csr.waitLimit.toNat = limit + 1 :=
    ⟨s.csr.waitLimit.toNat - 1, by have := BitVec.toNat_ne.mp positive; simp at this; omega⟩
  have wait := runCommand_faults (who := .command) (k := k) (c := .hwFault)
    (body := waitLoop a m s.csr.waitInterval.toNat s.csr.waitLimit.toNat)
    (d := (statusRead s.env limit).setWidth 16)
    (Q := fun v => ∃ t0 t1, Did (4 * (limit + 1)) (readsEvents s.par.readFill a (limit + 1) s.env) t0 t1
      (setRdata (statusRead s.env limit) { s with loc := Local.none }) v) benign fun u ran now host => by
    have opened : Opened s u := ⟨ran, now, host⟩
    have loop := waitLoop_benign a m s.csr.waitInterval.toNat limit opened.benign (opened.noBusErr noBusErr)
    rw [readsUntilClear_congr _ _ opened.miso opened.freeDraws, ← atLeastOne, never,
      statusRead_congr _ opened.miso opened.freeDraws] at loop
    obtain ⟨v, raised, reads⟩ := loop
    have did := reads.did.before (opened.ran.withRdata _)
    rw [opened.par, atLeastOne, readsEvents_congr _ _ _ opened.miso opened.freeDraws,
      statusRead_congr _ opened.miso opened.freeDraws] at did
    exact ⟨v, raised, _, _, did⟩
  obtain ⟨v, ⟨t0, t1, did⟩, next⟩ := wait
  obtain ⟨new, ran, -⟩ := id did
  have faulted := faulted_of_ran (s := setRdata (statusRead s.env limit) { s with loc := Local.none }) (c := .hwFault)
    (d := (statusRead s.env limit).setWidth 16) running ran
  have stillRunning : v.seq.state = .exec := by rw [(ran.running running).1]; exact running
  rw [show s.csr.waitLimit.toNat - 1 = limit by omega, atLeastOne]
  refine ⟨_, next, ?_, ?_, ?_⟩
  · have aux : errauxOf false (stepField v.env.now 0) ((statusRead s.env limit).setWidth 16) =
        zext32 (statusRead s.env limit) := by
      rw [stepField_zero, errauxOf_zero]
      exact BitVec.setWidth_setWidth (by decide)
    rw [← aux]
    exact faulted
  · rw [faultEntry_command_of_exec stillRunning]
    exact (bus_of_did did :)
  · rw [faultEntry_command_of_exec stillRunning]
    exact ran.rdata

/-- Settles O29: another geometry code is an operand error, which rejects the command. -/
theorem configErrorTraps : Obligations.ConfigErrorTraps := by
  unfold Obligations.ConfigErrorTraps
  rintro k g s ⟨running, -, -⟩ benign not0 not1
  have bad : operandError s.par.linebufWords (.init k g) = some .configError := if_neg (by rintro (h | h) <;> contradiction)
  obtain ⟨t, next, rejected⟩ := rejectCommand_benign .configError running benign
  exact ⟨t, (exec_of_operandError bad).trans next, rejected.faulted, rejected.bus, rejected.pins, rejected.initDone⟩

end Sys2Proof.Machine
end


section
/-! The WARL registers, the reads and writes without effect, and the fields that other statements are given in
(10_state.md R21 to R44; 20_memory.md R74 to R79; 44_touch_sampler.md R236, R237). -/

namespace Sys2Proof.Machine

/-! ### WARL registers -/

/-- What POLL_PERIOD and WAIT_LIMIT hold after a write, as a number (R39). -/
theorem toNat_atLeastOne (v : Word) : (atLeastOne v).toNat = max 1 (v.toNat % 65536) := by
  have low : (v.setWidth 16).toNat = v.toNat % 65536 := BitVec.toNat_setWidth 16 v
  unfold atLeastOne
  dsimp only
  split
  · rename_i zero
    rw [zero] at low
    rw [← low]
    rfl
  · rename_i nonzero
    have := BitVec.toNat_ne.mp nonzero
    rw [low] at this
    rw [low, Nat.max_eq_right (Nat.one_le_iff_ne_zero.mpr this)]

theorem zext32_eq_ofNat (h : Half) : zext32 h = BitVec.ofNat 32 h.toNat := (BitVec.ofNat_toNat 32 h).symm

theorem place_sixteen_eq_ofNat (b : Byte) : place 16 b = BitVec.ofNat 32 (65536 * b.toNat) := by
  refine BitVec.eq_of_toNat_eq ?_
  have small := b.isLt
  rw [place, BitVec.toNat_shiftLeft, BitVec.toNat_setWidth, BitVec.toNat_ofNat, Nat.shiftLeft_eq]
  omega

/-- The bits of TCFG1 that a write can set are RELEASE_POLLS and the low fields (R40). -/
theorem tcfg1_kept (v : Word) : v &&& 0x00FF77FF#32 = (v &&& 0x000077FF#32) ||| place 16 (v.extractLsb' 16 8) := by
  ext i hi
  interval_cases i <;> simp [getElem_place, BitVec.getLsbD_eq_getElem]

theorem releasePolls_kept (v : Word) : releasePolls (v &&& 0x00FF77FF#32) = v.extractLsb' 16 8 := by
  rw [releasePolls, BitVec.extractLsb'_and]
  exact BitVec.and_allOnes

/-- RELEASE_POLLS after a write is the field written, or 1 for 0 (R40). -/
theorem tcfg1Stored_eq (v : Word) : tcfg1Stored v =
    (v &&& 0x000077FF#32) ||| BitVec.ofNat 32 (65536 * max 1 (v.extractLsb' 16 8).toNat) := by
  unfold tcfg1Stored
  dsimp only
  rw [releasePolls_kept, tcfg1_kept]
  split
  · rename_i zero
    rw [zero]
    simp [place]
  · rename_i nonzero
    have := BitVec.toNat_ne.mp nonzero
    rw [place_sixteen_eq_ofNat, Nat.max_eq_right (Nat.one_le_iff_ne_zero.mpr this)]

/-- A write that stores in the CSRs alone, and what a read of the same register then returns. -/
theorem write_then_read {s : State} {v r : Word} {off : Nat} {c : Csr} (inside : off < 0x2000) (aligned : off % 4 = 0)
    (wrote : writeEffect (csrAt s.par.linebufWords off) v s = { s with csr := c })
    (value : readValue (csrAt s.par.linebufWords off) { s with csr := c } = r)
    (kept : readEffect (csrAt s.par.linebufWords off) { s with csr := c } = { s with csr := c }) :
    ∃ t, hostOp (.write (s.par.rsqBase + off) 4 v) s = .done t ∧
      hostOp (.read (s.par.rsqBase + off) 4) t = .done (logRead (s.par.rsqBase + off) r t) ∧ t.q = s.q ∧ t.lb = s.lb ∧
      t.seq = s.seq ∧ t.poll = s.poll ∧ t.sample = s.sample ∧ t.env = s.env := by
  have write := hostOp_write_window s v inside aligned
  have read := hostOp_read_window { s with csr := c } inside aligned
  rw [wrote] at write
  rw [value, kept] at read
  exact ⟨_, write, read, rfl, rfl, rfl, rfl, rfl, rfl⟩

/-- Settles O41: each register stores its legal value and reads it back. -/
theorem warlRegisters : Obligations.WarlRegisters := by
  unfold Obligations.WarlRegisters
  intro s v base low reads
  have atLeast : zext32 (atLeastOne v) = low 1 := by rw [zext32_eq_ofNat, toNat_atLeastOne]
  have half : zext32 (v.setWidth 16) = low 0 := by
    rw [zext32_eq_ofNat, BitVec.toNat_setWidth]
    exact congrArg _ (Nat.zero_max _).symm
  exact ⟨write_then_read (by decide) (by decide) rfl atLeast rfl, write_then_read (by decide) (by decide) rfl atLeast rfl,
    write_then_read (by decide) (by decide) rfl half rfl, write_then_read (by decide) (by decide) rfl rfl rfl,
    write_then_read (by decide) (by decide) rfl (tcfg1Stored_eq v) rfl⟩

/-! ### Accesses without effect -/

/-- The offsets between the CSRs and the line buffer are reserved (R21). -/
theorem csrAt_gap {words off : Nat} (above : 0x03C ≤ off) (below : off < 0x1000) : csrAt words off = .reserved := by
  unfold csrAt
  split
  case h_16 => exact if_neg (by omega)
  all_goals omega

/-- The offsets beyond the line buffer are reserved (R21). -/
theorem csrAt_beyond {words off : Nat} (above : 0x1000 + 4 * words ≤ off) : csrAt words off = .reserved := by
  rw [csrAt_upper (by omega), if_neg (by omega)]

/-- No read but of TOUCH and of a locked line-buffer entry has an effect (20_memory.md R78). -/
theorem readEffect_eq_self {c : CsrName} {s : State} (notTouch : c ≠ .touch) (unlocked : ∀ i, c = .lb i → s.lbLock = false) :
    readEffect c s = s := by
  cases c
  case touch => exact absurd rfl notTouch
  case lb i => exact readEffect_lb_unlocked (by rw [unlocked i rfl]; decide) i
  all_goals rfl

theorem csrAt_eq_touch {words off : Nat} (h : csrAt words off = .touch) : off = 0x01C := by
  unfold csrAt at h
  split at h
  case h_8 => rfl
  case h_16 => split at h <;> cases h
  all_goals cases h

theorem csrAt_eq_lb {words off i : Nat} (h : csrAt words off = .lb i) : 0x1000 ≤ off := by
  unfold csrAt at h
  split at h
  case h_16 o =>
    split at h
    · rename_i inBuffer; exact inBuffer.1
    · cases h
  all_goals cases h

/-- Settles O45: the register that an offset names gives the value, and no such read has an effect. -/
theorem readsWithoutEffect : Obligations.ReadsWithoutEffect := by
  unfold Obligations.ReadsWithoutEffect
  intro s off inside aligned notTouch unlocked
  have kept : readEffect (csrAt s.par.linebufWords off) s = s :=
    readEffect_eq_self (fun touch => notTouch (csrAt_eq_touch touch)) fun i entry => by
      have := csrAt_eq_lb entry
      exact unlocked.resolve_right (by omega)
  have read := hostOp_read_window s inside aligned
  rw [kept] at read
  refine ⟨_, read, ?_, ?_, ?_, ?_, ?_, ?_, ?_, ?_, ?_, ?_, ?_, ?_, ?_, ?_, ?_, ?_⟩
  case refine_2 => rintro rfl; exact ctrl_fields s
  case refine_15 =>
    rintro i entry rfl
    have entryUnlocked : s.lbLock = false := unlocked.resolve_right (by omega)
    rw [csrAt_lb entry, readValue_lb_unlocked (by rw [entryUnlocked]; decide)]
  case refine_16 =>
    rintro (⟨above, below⟩ | beyond)
    · rw [csrAt_gap above below]; rfl
    · rw [csrAt_beyond beyond]; rfl
  all_goals rintro rfl; rfl

/-- Settles O46: a reserved offset reads 0 without effect, and it and the read-only registers ignore writes. -/
theorem ignoredAccesses : Obligations.IgnoredAccesses := by
  unfold Obligations.IgnoredAccesses
  intro s off v inside aligned reserved readOnly
  have isReserved : reserved → csrAt s.par.linebufWords off = .reserved := by
    rintro (⟨above, below⟩ | beyond)
    · exact csrAt_gap above below
    · exact csrAt_beyond beyond
  refine ⟨fun h => ?_, fun h => ?_⟩
  · rw [hostOp_read_window s inside aligned, isReserved h]
    rfl
  · rw [hostOp_write_window s v inside aligned]
    obtain h | h := h
    · rw [isReserved h]
      rfl
    · simp only [readOnly, List.mem_cons, List.not_mem_nil, or_false] at h
      obtain rfl | rfl | rfl | rfl | rfl | rfl | rfl := h <;> rfl

/-! ### Fields -/

/-- Some bit is set in both bytes. -/
theorem and_ne_zero_iff (r m : Byte) : (m != 0#8 && (r &&& m) != 0#8) = true ↔
    ∃ j < 8, r.getLsbD j = true ∧ m.getLsbD j = true := by
  simp only [Bool.and_eq_true, bne_iff_ne, ne_eq]
  constructor
  · rintro ⟨-, common⟩
    by_contra none
    refine common (BitVec.eq_of_getLsbD_eq fun j hj => ?_)
    rw [BitVec.getLsbD_and, BitVec.getLsbD_zero, Bool.and_eq_false_iff]
    by_contra both
    simp only [not_or, Bool.not_eq_false] at both
    exact none ⟨j, hj, both⟩
  · rintro ⟨j, -, inR, inM⟩
    refine ⟨fun zero => ?_, fun zero => ?_⟩
    · rw [zero] at inM
      simp at inM
    · have := congrArg (·.getLsbD j) zero
      simp [inR, inM] at this

/-- The bits of a raw coordinate (44_touch_sampler.md R237). -/
theorem coordOf_bits (high low : Byte) (shift : Nat) : (coordOf high low shift).extractLsb' 2 8 = high ∧
    (coordOf high low shift).getLsbD 0 = low.getLsbD shift ∧
    (coordOf high low shift).getLsbD 1 = low.getLsbD (shift + 1) := by
  refine ⟨?_, ?_, ?_⟩
  · ext i hi
    interval_cases i <;> simp [coordOf, BitVec.getLsbD_eq_getElem]
  · simpa [coordOf] using fun set => (BitVec.lt_of_getLsbD set).trans (by decide)
  · simpa [coordOf] using fun set => (BitVec.lt_of_getLsbD set).trans (by decide)

/-- The OP field as a number (30_encoding.md R100). -/
theorem toNat_opField (w : Word) : (opField w).toNat = w.toNat / 2 ^ 28 := by
  have small := w.isLt
  rw [opField, BitVec.extractLsb'_toNat, Nat.shiftRight_eq_div_pow]
  omega

/-- Settles O48: each field's bits are the word's. -/
theorem fieldBits : Obligations.FieldBits := by
  unfold Obligations.FieldBits
  refine ⟨fun high low shift _ => ?_, fun c0 j hj => ?_, fun c1 => ⟨fun j hj => ?_, ?_, ?_⟩, fun r m => ⟨?_, ?_⟩,
    fun w => ?_⟩
  · obtain ⟨top, bit0, bit1⟩ := coordOf_bits high low shift
    refine ⟨top, bit0, bit1.trans ?_⟩
    by_cases inside : shift + 1 < 8
    · simp [inside]
    · rw [BitVec.getLsbD_of_ge low _ (by omega)]
      simp [inside]
  · simp [intAddr, intMask, xhAddr, yhAddr, hj]
  · simp [xylAddr, releasePolls, hj]
  · rw [xlShift, BitVec.extractLsb'_toNat, Nat.shiftRight_eq_div_pow]
  · rw [ylShift, BitVec.extractLsb'_toNat, Nat.shiftRight_eq_div_pow]
  · exact and_ne_zero_iff r m
  · exact and_ne_zero_iff r m
  · rw [isBulkWord, ← toNat_opField]
    simp [BitVec.toNat_eq]

end Sys2Proof.Machine
end


section
/-! The parameters of this hardware, pixels and host macros (00_scope.md R6; 45_host_macros.md R270 to R291). -/

namespace Sys2Proof.Machine

/-! ### Parameters -/

/-- The tables of this hardware are valid: the OPEN ones if they are, the example ones otherwise (R203). -/
theorem tables_valid (o : OpenParams) :
    tableValid o.tables.1 0 o.tables.2.1 = true ∧ tableValid o.tables.1 1 o.tables.2.2 = true := by
  unfold OpenParams.tables
  split
  · rename_i valid
    simpa using valid
  · decide

/-- Settles O52: the fixed parameters are legal, each OPEN one is brought into its range, and the tables are valid. -/
theorem hardwareParamsLegal : Obligations.HardwareParamsLegal := by
  unfold Obligations.HardwareParamsLegal
  intro o
  obtain ⟨valid0, valid1⟩ := tables_valid o
  have dummy : o.dummy % 3 ≤ 2 := by omega
  simp [Params.legal, OpenParams.params, valid0, valid1, dummy]

/-! ### Pixels -/

/-- Packing keeps the top 5, 6 and 5 bits of a colour (R272). -/
theorem unpack565_pack565 (c : Colour) : unpack565 (pack565 c) = ⟨c.r &&& 0xF8#8, c.g &&& 0xFC#8, c.b &&& 0xF8#8⟩ := by
  simp only [unpack565, Colour.mk.injEq]
  refine ⟨?_, ?_, ?_⟩ <;> ext i hi <;> interval_cases i <;>
    simp [pack565, Colour.r5, Colour.g6, Colour.b5, BitVec.getLsbD_eq_getElem]

/-- The parts of an unpacked colour are the fields of the pixel (R272). -/
theorem unpack565_parts (p : Half) : (unpack565 p).r5 = (p.extractLsb' 11 5).setWidth 8 ∧
    (unpack565 p).g6 = (p.extractLsb' 5 6).setWidth 8 ∧ (unpack565 p).b5 = (p.extractLsb' 0 5).setWidth 8 := by
  refine ⟨?_, ?_, ?_⟩ <;> ext i hi <;> interval_cases i <;>
    simp [unpack565, Colour.r5, Colour.g6, Colour.b5, BitVec.getLsbD_eq_getElem]

/-- A pixel's colour packs to the pixel (R272). -/
theorem pack565_unpack565 (p : Half) : pack565 (unpack565 p) = p := by
  obtain ⟨r5, g6, b5⟩ := unpack565_parts p
  rw [pack565, r5, g6, b5]
  ext i hi
  interval_cases i <;> simp [BitVec.getLsbD_eq_getElem]

/-- Settles O57: the packing laws, and MREAD's one entry of the line buffer. -/
theorem pixelRoundTrip : Obligations.PixelRoundTrip := by
  unfold Obligations.PixelRoundTrip
  refine ⟨unpack565_pack565, pack565_unpack565, fun k a c s running benign noBusErr length words answers => ?_⟩
  obtain ⟨t, next, -, -, entries, -⟩ :=
    mreadCompletes k a 1#16 s running benign noBusErr length (by decide) words
  have entry : t.lb[0]? = some (pack565 c) := by
    rw [entries 0 (by decide), ← pixValue_of_pixBytes answers.symm]
    congr 3
    omega
  have lb0 : getLb 0 t = pack565 c := by rw [getLb, List.getD_eq_getElem?_getD, entry]; rfl
  refine ⟨t, next, lb0, fun unlocked => ?_⟩
  rw [readValue_lb_unlocked (by rw [unlocked]; decide), lb0, getPixelResult,
    BitVec.setWidth_setWidth (by decide), BitVec.setWidth_eq, unpack565_pack565]

/-! ### Macros -/

theorem kField_encode (i : Instr) : kField (encode i) = i.k := by
  cases i <;> exact kField_encodeFields _ _ _ _

theorem pushedWords_append (a b : List HostAct) : pushedWords (a ++ b) = pushedWords a ++ pushedWords b :=
  List.filterMap_append

@[simp] theorem pushedWords_push (w : Word) (acts : List HostAct) : pushedWords (.push w :: acts) = w :: pushedWords acts :=
  rfl

@[simp] theorem pushedWords_nil : pushedWords [] = [] := rfl

/-- Coordinates are pushed as register pairs with K = 1 (45_host_macros.md R274). -/
theorem pushedWords_coords (coords : List (Byte × ℚ)) : pushedWords (coords.map fun p => pushCoord p.1 p.2) =
    coords.map fun p => encode (.wreg16 true p.1 (coordT p.2)) := by
  induction coords with
  | nil => rfl
  | cons p rest ih => exact congrArg _ ih

/-- Filling the line buffer pushes no word. -/
theorem pushedWords_unpackRow (bitmap : List Byte) (i cols : Nat) (pfg pbg : Half) :
    pushedWords (unpackRow bitmap i cols pfg pbg) = [] := by
  simp [pushedWords, unpackRow]

theorem isChain_last {i : Instr} (h : i.k = false) : IsChain (pushedWords [.push (encode i)]) :=
  ⟨[], encode i, rfl, by simp, by rw [kField_encode, h]⟩

theorem IsChain.prepend {ws vs : List Word} (h : IsChain vs) (before : ∀ w ∈ ws, kField w = true) : IsChain (ws ++ vs) := by
  obtain ⟨body, last, rfl, linked, closed⟩ := h
  refine ⟨ws ++ body, last, (List.append_assoc _ _ _).symm, fun w mem => ?_, closed⟩
  exact (List.mem_append.mp mem).elim (before w) (linked w)

theorem IsChain.push {i : Instr} {acts : List HostAct} (h : IsChain (pushedWords acts)) (linked : i.k = true) :
    IsChain (pushedWords (.push (encode i) :: acts)) :=
  h.prepend (ws := [encode i]) (by simp [kField_encode, linked])

/-- A shape is a chain (R274, R289). -/
theorem shape_isChain (m : MacroRegs) (coords : List (Byte × ℚ)) (c : Colour) (modeReg mode waitReg waitMask : Byte) :
    IsChain (pushedWords (shape m coords c modeReg mode waitReg waitMask)) := by
  rw [shape, List.append_assoc, pushedWords_append, pushedWords_coords]
  refine IsChain.prepend ?_ fun w mem => ?_
  · exact ((((isChain_last rfl).push rfl).push rfl).push rfl).push rfl
  · obtain ⟨p, -, rfl⟩ := List.mem_map.mp mem
    exact kField_encode _

theorem circle_isChain (m : MacroRegs) (mode : Byte) (x y r : ℚ) (c : Colour) :
    IsChain (pushedWords (circle m mode x y r c)) :=
  (((shape_isChain m [] c m.dcr mode m.dcr m.busyCircle).push rfl).push rfl).push rfl

/-- A row of a glyph is a chain (R287, R289). -/
theorem glyphRow_isChain (m : MacroRegs) (bitmap : List Byte) (x y : ℚ) (cols : Nat) (pfg pbg : Half) (i : Nat) :
    IsChain (pushedWords (glyphRow m bitmap x y cols pfg pbg i)) := by
  have stream : IsChain (pushedWords
      [pushCoord m.cury (y + i), .push (encode (.mwrite false m.mrwc (BitVec.ofNat 16 cols)))]) :=
    (isChain_last rfl).push rfl
  rw [glyphRow, pushedWords_append, pushedWords_append, pushedWords_append, pushedWords_unpackRow]
  refine stream.prepend ?_
  split
  · simp [pushedWords, pushCoord, kField_encode, Instr.k]
  · simp [pushedWords]

/-- A horizontal or vertical line that is not drawn has no length to draw (R276, R277). -/
theorem line_chain_or_nothing {l : ℚ} {line : List HostAct} (chain : IsChain (pushedWords line)) :
    IsChain (pushedWords (if lineDrawn l then line else [])) ∨
      pushedWords (if lineDrawn l then line else []) = [] ∧ (truncQ l < 1 ∨ coordT l = 0#16) := by
  split
  · exact .inl chain
  · rename_i notDrawn
    refine .inr ⟨rfl, ?_⟩
    simp only [lineDrawn, Bool.and_eq_true, decide_eq_true_eq, bne_iff_ne, not_and_or, not_le, not_not] at notDrawn
    exact notDrawn

/-- Settles O58: each drawing is a shape, a shape with pushes before it, or a few pushes of which the last has K = 0. -/
theorem macrosAreChains : Obligations.MacrosAreChains := by
  unfold Obligations.MacrosAreChains
  intro m x0 y0 x1 y1 r c
  refine ⟨?_, ?_, fun width height => shape_isChain _ _ _ _ _ _ _, fun bitmap cols fg bg =>
    ⟨glyphRow_isChain m bitmap x0 y0 cols _ _, fun words rows => ?_⟩⟩
  · have pixel : IsChain (pushedWords (setPixel m x0 y0 c)) :=
      ((isChain_last (i := .mwrite false m.mrwc 1#16) rfl).push rfl).push rfl
    have fetch : IsChain (pushedWords (getPixel m x0 y0)) :=
      ((isChain_last (i := .mread false m.mrwc 1#16) rfl).push rfl).push rfl
    have colour : IsChain (pushedWords (fgColour m c false)) :=
      ((isChain_last (i := .wreg false m.fgb c.b5) rfl).push rfl).push rfl
    simp only [List.forall_mem_cons, List.not_mem_nil, false_imp_iff, implies_true, and_true]
    exact ⟨shape_isChain _ _ _ _ _ _ _, shape_isChain _ _ _ _ _ _ _, shape_isChain _ _ _ _ _ _ _,
      shape_isChain _ _ _ _ _ _ _, shape_isChain _ _ _ _ _ _ _, circle_isChain _ _ _ _ _ _, circle_isChain _ _ _ _ _ _,
      pixel, fetch, colour⟩
  · simp only [List.forall_mem_cons, List.not_mem_nil, false_imp_iff, implies_true, and_true]
    exact ⟨line_chain_or_nothing (shape_isChain _ _ _ _ _ _ _), line_chain_or_nothing (shape_isChain _ _ _ _ _ _ _)⟩
  · rw [glyph]
    split
    · exact List.filterMap_flatMap
    · rfl

theorem aField_encode_wreg (k : Bool) (a v : Byte) : aField (encode (.wreg k a v)) = a := aField_encodeFields _ _ _ _

theorem aField_encode_wreg16 (k : Bool) (a : Byte) (d : Half) : aField (encode (.wreg16 k a d)) = a :=
  aField_encodeFields _ _ _ _

/-- Settles O59: the words before the last two write the coordinate and colour registers, none of which is the draw-mode
register. -/
theorem fillRectOneModeWrite : Obligations.FillRectOneModeWrite := by
  unfold Obligations.FillRectOneModeWrite
  intro x0 y0 x1 y1 c
  let m := MacroRegs.default
  have modeAndWait : pushedWords [.push (encode (.wreg true m.dcr m.modeFrect)),
      .push (encode (.wait false m.dcr m.busyLine))] = [0x189000B0#32, 0x40900080#32] := by decide
  have coordRegs : ∀ p ∈ corners m x0 y0 x1 y1, p.1 ≠ m.dcr := by
    simp only [corners, List.forall_mem_cons, List.not_mem_nil, false_imp_iff, implies_true, and_true]
    decide
  refine ⟨(corners m x0 y0 x1 y1).map (fun p => encode (.wreg16 true p.1 (coordT p.2))) ++ pushedWords (fgColour m c true),
    ?_, fun w mem => ?_⟩
  · rw [← modeAndWait, ← pushedWords_coords, ← pushedWords_append, ← pushedWords_append]
    rfl
  · obtain coord | colour := List.mem_append.mp mem
    · obtain ⟨p, corner, rfl⟩ := List.mem_map.mp coord
      rw [aField_encode_wreg16]
      exact coordRegs p corner
    · simp only [fgColour, pushedWords_push, pushedWords_nil, List.mem_cons, List.not_mem_nil, or_false] at colour
      obtain rfl | rfl | rfl := colour
      all_goals
        rw [aField_encode_wreg]
        decide

end Sys2Proof.Machine
end


section
/-! Host actions inside a command or poll. A property of time, the host's schedule and the trace that holds after every
passing of time holds at a command's end: so no action is due there, and a block reset to come has not been due
(60_exceptions.md R312; 70_reset_and_hazards.md R341; 44_touch_sampler.md R234). -/

namespace Sys2Proof.Machine

/-! ### Properties of the surroundings -/

/-- Time and the host's schedule are the same in `t`, whose trace goes on from that of `s`. -/
structure SameSurroundings (s t : State) : Prop where
  par : t.par = s.par
  now : t.env.now = s.env.now
  host : t.env.host = s.env.host
  portFree : t.env.portFree = s.env.portFree
  reads : t.env.reads = s.env.reads
  trace : s.env.trace <:+ t.env.trace

/-- The state changed, but not its surroundings. -/
theorem SameSurroundings.of_env {s t : State} (env : t.env = s.env) (par : t.par = s.par) : SameSurroundings s t := by
  constructor
  case par => exact par
  case trace => rw [env]
  all_goals rw [env]

theorem sameSurroundings_emit (ev : BusEvent) (s : State) : SameSurroundings s (emit ev s) :=
  ⟨rfl, rfl, rfl, rfl, rfl, List.suffix_cons _ _⟩

theorem sameSurroundings_takeMiso (s : State) : SameSurroundings s { s with env := s.env.takeMiso } := by
  obtain ⟨host, portFree, reads, -, now, trace⟩ := takeMiso_other s.env
  exact ⟨rfl, now, host, portFree, reads, by rw [trace]⟩

theorem sameSurroundings_emitRise (s : State) : SameSurroundings s (emitRise s) := by
  obtain ⟨now, host, portFree, reads, -, trace⟩ := emitRise_env s
  exact ⟨rfl, now, host, portFree, reads, by rw [trace]; exact List.suffix_cons _ _⟩

theorem SameSurroundings.trans {s t u : State} (h : SameSurroundings s t) (g : SameSurroundings t u) :
    SameSurroundings s u :=
  ⟨g.par.trans h.par, g.now.trans h.now, g.host.trans h.host, g.portFree.trans h.portFree, g.reads.trans h.reads,
    h.trace.trans g.trace⟩

theorem sameSurroundings_csRise (s : State) : SameSurroundings s (csRise s).1 :=
  .trans (t := { s with
      pins := { s.pins with csN := true, cslOk := s.env.now + s.par.tCshMin }
      loc := { s.loc with phase := s.loc.phase + 1 } }) (.of_env rfl rfl) (sameSurroundings_emitRise _)

theorem sameSurroundings_releasePins (s : State) : SameSurroundings s (releasePins s) := by
  have rise : SameSurroundings s (if s.pins.csN then s else emitRise s) := by
    split
    · exact .of_env rfl rfl
    · exact sameSurroundings_emitRise s
  unfold releasePins
  dsimp only
  generalize (if s.pins.csN then s else emitRise s) = u at rise ⊢
  split
  · exact rise
  · exact rise.trans (sameSurroundings_emit _ u)

theorem Res.sat_ok {α : Type} {P C : State → Prop} {S : Prop} {a : α} {s : State} (h : P s) : (Res.ok a s).Sat P C S := h

/-- `P` is a property of the surroundings that holds again after every passing of time, unless a host action ends it. -/
structure SurroundingsLaw (P C : State → Prop) (S : Prop) : Prop where
  pass : ∀ n {s}, P s → (pass n s).Sat P C S
  same : ∀ {s t}, P s → SameSurroundings s t → P t

namespace SurroundingsLaw

variable {P C : State → Prop} {S : Prop} (L : SurroundingsLaw P C S)
include L

theorem set {s t : State} (h : P s) (env : t.env = s.env) (par : t.par = s.par) : P t := L.same h (.of_env env par)

theorem loc (l : Local) {s : State} (h : P s) : P { s with loc := l } := L.set h rfl rfl

theorem pins (p : Pins) {s : State} (h : P s) : P { s with pins := p } := L.set h rfl rfl

theorem emit (ev : BusEvent) {s : State} (h : P s) : P (emit ev s) := L.same h (sameSurroundings_emit ev s)

theorem waitMs_sat (d : Nat) {s : State} (h : P s) : (waitMs d s).Sat P C S :=
  (L.pass _ (L.loc _ h)).then fun _ _ k => Res.sat_ok (L.loc _ k)

theorem csLow_sat {s : State} (h : P s) : (csLow s).Sat P C S :=
  (L.pass _ h).then fun _ _ k => L.pass _ (L.emit .csl (L.pins _ k))

theorem csHigh_sat {s : State} (h : P s) : (csHigh s).Sat P C S := by
  refine (L.pass _ h).then fun _ u k => ?_
  have rise := L.same k (sameSurroundings_csRise u)
  generalize csRise u = r at rise ⊢
  obtain ⟨v, error⟩ := r
  cases error <;> exact rise

theorem shiftOut_sat (bs : List Bool) : ∀ {s : State}, P s → (shiftOut bs s).Sat P C S := by
  induction bs with
  | nil => exact fun h => h
  | cons b rest ih =>
    intro s h
    simp only [shiftOut]
    exact (L.pass _ (L.pins _ h)).then fun _ u k => (L.pass _ (L.pins _ k)).then fun _ _ k => ih k

theorem xfer_sat (t : Byte) {s : State} (h : P s) : (xfer t s).Sat P C S :=
  (L.shiftOut_sat _ h).then fun _ u k => L.emit _ (L.set (L.same k (sameSurroundings_takeMiso u)) rfl rfl)

theorem sendByte_sat (t : Byte) {s : State} (h : P s) : (sendByte t s).Sat P C S :=
  (L.xfer_sat t h).then fun _ _ k => k

theorem phaseOf_sat {α : Type} (pre : Byte) {body : State → Res α} (hbody : ∀ {s}, P s → (body s).Sat P C S) {s : State}
    (h : P s) : (phaseOf pre body s).Sat P C S :=
  (L.csLow_sat h).then fun _ _ h => (L.xfer_sat pre h).then fun _ _ h => (L.pass _ h).then fun _ _ h =>
    (hbody h).then fun _ _ h => (L.csHigh_sat h).then fun _ _ h => h

theorem cmdPhase_sat (a : Byte) {s : State} (h : P s) : (cmdPhase a s).Sat P C S :=
  L.phaseOf_sat _ (fun h => L.sendByte_sat a h) h

theorem writeReg_sat (a v : Byte) {s : State} (h : P s) : (writeReg a v s).Sat P C S :=
  (L.cmdPhase_sat a h).then fun _ _ h => L.phaseOf_sat _ (fun h => L.sendByte_sat v h) h

theorem readReg_sat (a : Byte) {s : State} (h : P s) : (readReg a s).Sat P C S :=
  (L.cmdPhase_sat a h).then fun _ _ h => L.phaseOf_sat _ (fun h => L.xfer_sat _ h) h

theorem writePair_sat (a : Byte) (d : Half) {s : State} (h : P s) : (writePair a d s).Sat P C S :=
  (L.writeReg_sat a _ h).then fun _ _ h => L.writeReg_sat _ _ h

theorem sendPixels_sat (n : Nat) : ∀ (i : Nat) {s : State}, P s → (sendPixels i n s).Sat P C S := by
  induction n with
  | zero => exact fun _ _ h => h
  | succ n ih => exact fun i _ h => (L.sendByte_sat _ h).then fun _ _ h => (L.sendByte_sat _ h).then fun _ _ h => ih _ h

theorem streamWrite_sat (a : Byte) (n : Nat) {s : State} (h : P s) : (streamWrite a (sendPixels 0 n) s).Sat P C S :=
  (L.cmdPhase_sat a h).then fun _ _ h => L.phaseOf_sat _ (fun h => L.sendPixels_sat n 0 h) h

theorem recvDummies_sat (n : Nat) : ∀ {s : State}, P s → (recvDummies n s).Sat P C S := by
  induction n with
  | zero => exact fun h => h
  | succ n ih => exact fun h => (L.xfer_sat _ h).then fun _ _ h => ih h

theorem recvPixels_sat (n : Nat) : ∀ (i : Nat) {s : State}, P s → (recvPixels i n s).Sat P C S := by
  induction n with
  | zero => exact fun _ _ h => h
  | succ n ih =>
    exact fun i _ h => (L.xfer_sat _ h).then fun _ _ h => (L.xfer_sat _ h).then fun _ _ h => ih _ (L.set h rfl rfl)

theorem streamRead_sat (a : Byte) (n : Nat) {s : State} (h : P s) : (streamRead a (recvPixels 0 n) s).Sat P C S :=
  (L.cmdPhase_sat a h).then fun _ _ h => L.phaseOf_sat _ (fun h =>
    (L.recvDummies_sat _ h).then fun _ _ h => L.recvPixels_sat n 0 h) h

theorem waitLoop_sat (a m : Byte) (i n : Nat) : ∀ {s : State}, P s → (waitLoop a m i n s).Sat P C S := by
  induction n with
  | zero => exact fun h => h
  | succ n ih =>
    refine fun h => (L.readReg_sat a h).then fun r u h => ?_
    have h : P (setRdata r { u with loc := { u.loc with polls := u.loc.polls + 1 } }) := L.set h rfl rfl
    dsimp only
    split
    · exact h
    · split
      · exact h
      · exact (L.waitMs_sat _ h).then fun _ _ h => ih h

theorem resetPulse_sat {s : State} (h : P s) : (resetPulse s).Sat P C S :=
  (L.waitMs_sat _ (L.emit .rstl (L.pins _ h))).then fun _ _ h => L.waitMs_sat _ (L.emit .rsth (L.pins _ h))

theorem runEntry_sat (e : InitEntry) {s : State} (h : P s) : (runEntry e s).Sat P C S := by
  unfold runEntry
  split
  · exact L.writeReg_sat _ _ h
  · exact L.writePair_sat _ _ h
  · exact L.waitLoop_sat _ _ _ _ h
  · exact L.waitMs_sat _ h

theorem runTable_sat (t : List InitEntry) : ∀ (i : Nat) {s : State}, P s → (runTable t i s).Sat P C S := by
  induction t with
  | nil => exact fun _ _ h => h
  | cons e rest ih =>
    intro i s h
    simp only [runTable]
    exact (L.runEntry_sat e (L.loc _ h)).then fun _ _ h => ih _ h

theorem initSequence_sat (g : Nat) {s : State} (h : P s) : (initSequence g s).Sat P C S := by
  refine (L.resetPulse_sat (s := setInitDone false s) (L.set h rfl rfl)).then fun _ u h => ?_
  exact (L.runTable_sat _ _ h).then fun _ _ h => Res.sat_ok (L.set h rfl rfl)

theorem readCoords_sat (c0 c1 : Word) {s : State} (h : P s) : (readCoords c0 c1 s).Sat P C S :=
  (L.readReg_sat _ h).then fun _ _ h => (L.readReg_sat _ h).then fun _ _ h => (L.readReg_sat _ h).then fun _ _ h => h

theorem pollSequence_sat (c0 c1 : Word) {s : State} (h : P s) : (pollSequence c0 c1 s).Sat P C S := by
  refine (L.readReg_sat _ h).then fun r u h => ?_
  split
  · refine (L.readCoords_sat c0 c1 (s := enterTouched u) (L.set h rfl rfl)).then fun xy v h => ?_
    refine (L.pass 1 (s := commitSample xy.1 xy.2 v) (L.set h rfl rfl)).then fun _ _ h => ?_
    exact (L.writeReg_sat _ _ h).then fun _ _ h => Res.sat_ok (L.set h rfl rfl)
  · exact L.set h rfl rfl

theorem legalBody_sat (s : State) (i : Instr) {u : State} (h : P u) : (legalBody s i u).Sat P C S := by
  cases i <;> simp only [legalBody]
  case nop => exact h
  case wreg => exact L.writeReg_sat _ _ h
  case rreg => exact (L.readReg_sat _ h).then fun _ _ h => L.set h rfl rfl
  case wreg16 => exact L.writePair_sat _ _ h
  case wait => exact L.waitLoop_sat _ _ _ _ h
  case delay => exact L.waitMs_sat _ h
  case mwrite => exact L.streamWrite_sat _ _ h
  case mread => exact L.streamRead_sat _ _ h
  case reset => exact L.resetPulse_sat (L.set h rfl rfl)
  case init => exact L.initSequence_sat _ h
  case tpoll =>
    refine (L.pollSequence_sat _ _ h).then fun _ v h => ?_
    unfold restartInterval
    split
    · exact L.set h rfl rfl
    · exact h

/-- A command ends or raises with the property, if its first cycle establishes it. -/
theorem command_sat (i : Instr) (s : State) (first : (Machine.pass 1 { entered i s with loc := Local.none }).Sat P C S) :
    ((openCommand (entered i s)).andThen fun _ u => commandBody i s u).Sat P C S := by
  refine first.then fun _ u h => ?_
  unfold commandBody
  split
  · exact h
  · exact L.legalBody_sat s i h

end SurroundingsLaw

/-! ### No host action is left due -/

/-- The next host action, if there is one, comes after the current cycle. -/
def NotDue (s : State) : Prop := ∀ r rest, s.env.host = r :: rest → s.env.now < s.env.portFree + r.gap

theorem NotDue.same {s t : State} (h : NotDue s) (same : SameSurroundings s t) : NotDue t := by
  intro r rest host
  rw [same.host] at host
  rw [same.now, same.portFree]
  exact h r rest host

theorem passWith_notDue (l : List HostReq) : ∀ (n : Nat) (s : State), s.env.host = l →
    (passWith l n s).Sat NotDue (fun _ => True) True := by
  induction l with
  | nil =>
    intro n s e r rest host
    rw [tick_env_host, e] at host
    cases host
  | cons r rest ih =>
    intro n s e
    simp only [passWith]
    split
    · split
      · rename_i u taken; exact ih _ u (takeHost_done taken).2.2
      · trivial
      · trivial
    · rename_i later
      intro r' rest' host
      rw [tick_env_host, e] at host
      cases host
      unfold hostTime at later
      simp only [tick_env_now, tick_env_portFree]
      omega

/-- After a passing of time, the actions that came due in it have been taken. -/
theorem pass_notDue (n : Nat) (s : State) : (pass n s).Sat NotDue (fun _ => True) True := passWith_notDue _ n s rfl

theorem notDue_law : SurroundingsLaw NotDue (fun _ => True) True := ⟨fun n s _ => pass_notDue n s, NotDue.same⟩

/-! ### A block reset to come -/

/-- The host has done nothing since the command began in `s`, and the trace goes on. -/
structure Awaits (s : State) (u : State) : Prop where
  par : u.par = s.par
  host : u.env.host = s.env.host
  portFree : u.env.portFree = s.env.portFree
  reads : u.env.reads = s.env.reads
  trace : s.env.trace <:+ u.env.trace
  now : s.env.now ≤ u.env.now

theorem Awaits.same {s u v : State} (h : Awaits s u) (same : SameSurroundings u v) : Awaits s v where
  par := same.par.trans h.par
  host := same.host.trans h.host
  portFree := same.portFree.trans h.portFree
  reads := same.reads.trans h.reads
  trace := h.trace.trans same.trace
  now := same.now ▸ h.now

/-- The state that the block reset leaves (70_reset_and_hazards.md R341). -/
def CutAt (g low : Nat) (rest : List HostReq) (s t : State) : Prop :=
  ∃ e c, t = State.afterReset s.par e c ∧ e.host = rest ∧
    e.now = hostTime ⟨g, .blockReset low⟩ s + low + 1 ∧ e.reads = s.env.reads ∧ s.env.trace <:+ e.trace

theorem cutAt_of_takeHost {g low : Nat} {rest : List HostReq} {s u t : State} (h : Awaits s u)
    (due : u.env.now = hostTime ⟨g, .blockReset low⟩ s)
    (taken : takeHost ⟨g, .blockReset low⟩ rest u = .reset t) : CutAt g low rest s t := by
  have pins := sameSurroundings_releasePins { u with env := { u.env with host := rest, portFree := u.env.now + 1 } }
  have time : u.env.now + low + 1 = hostTime ⟨g, .blockReset low⟩ s + low + 1 := by rw [due]
  have state : State.afterReset u.par _ _ = t := HostRes.reset.inj taken
  rw [← state]
  exact ⟨_, _, congrArg (State.afterReset · _ _) h.par, pins.host, time, pins.reads.trans h.reads, h.trace.trans pins.trace⟩

/-- Time passes until the block reset is due, or ends before. -/
theorem pass_awaits {g low : Nat} {rest : List HostReq} {s u : State} (next : s.env.host = ⟨g, .blockReset low⟩ :: rest)
    (h : Awaits s u) (before : u.env.now ≤ hostTime ⟨g, .blockReset low⟩ s) (n : Nat) :
    (pass n u).Sat (fun v => Awaits s v ∧ v.env.now < hostTime ⟨g, .blockReset low⟩ s) (CutAt g low rest s) False := by
  have time : hostTime ⟨g, .blockReset low⟩ u = hostTime ⟨g, .blockReset low⟩ s := by
    have := h.now
    unfold hostTime at before ⊢
    rw [h.portFree]
    simp only at before ⊢
    omega
  unfold pass
  rw [h.host, next]
  simp only [passWith, time]
  split
  · refine cutAt_of_takeHost (u := tick (hostTime ⟨g, .blockReset low⟩ s - u.env.now) u)
      ⟨h.par, h.host, h.portFree, h.reads, h.trace, Nat.le_add_right_of_le h.now⟩ ?_ rfl
    rw [tick_env_now]
    omega
  · rename_i later
    exact ⟨⟨h.par, h.host, h.portFree, h.reads, h.trace, Nat.le_add_right_of_le h.now⟩, not_le.mp later⟩

theorem awaits_law {g low : Nat} {rest : List HostReq} {s : State} (next : s.env.host = ⟨g, .blockReset low⟩ :: rest) :
    SurroundingsLaw (fun u => Awaits s u ∧ u.env.now < hostTime ⟨g, .blockReset low⟩ s) (CutAt g low rest s) False where
  pass := fun n _ ⟨h, before⟩ => pass_awaits next h before.le n
  same := fun ⟨h, before⟩ same => ⟨h.same same, by rw [same.now]; exact before⟩

theorem faultEntry_env (who : Raiser) (c : ErrCode) (d : Half) (s : State) : (faultEntry who c d s).env = s.env := by
  unfold faultEntry
  cases who <;> cases s.faulted <;> rfl

theorem faultEntry_state (who : Raiser) (c : ErrCode) (d : Half) (s : State) :
    (faultEntry who c d s).seq.state = .fault := by
  cases faulted : s.faulted with
  | false => cases who <;> simp [faultEntry, faulted, recordFault]
  | true =>
    have state : s.seq.state = .fault := by simpa [State.faulted] using faulted
    cases who <;> simp [faultEntry, faulted, state]

/-- Settles O51: a passing of time that reaches the block reset's cycle ends the command there, so a command that ends
by itself has ended before, or ends in that cycle with the block reset still to come. -/
theorem blockResetCutsCommand : Obligations.BlockResetCutsCommand := by
  unfold Obligations.BlockResetCutsCommand
  intro i s g low rest next cycle
  have start : Awaits s { entered i s with loc := Local.none } := by
    cases i <;> exact ⟨rfl, rfl, rfl, rfl, List.suffix_refl _, le_refl _⟩
  have before : { entered i s with loc := Local.none }.env.now ≤ hostTime ⟨g, .blockReset low⟩ s := by
    cases i <;> exact le_max_left _ _
  have sat := (awaits_law next).command_sat i s (pass_awaits next start before 1)
  rw [exec_eq_runCommand, runCommand]
  generalize (openCommand (entered i s)).andThen _ = r at sat ⊢
  cases r with
  | ok a v =>
    obtain ⟨awaits, early⟩ := sat
    exact ⟨_, rfl, fun late => absurd late (not_lt.mpr early), fun _ => ⟨awaits.host, by simp⟩⟩
  | raise c d v =>
    obtain ⟨awaits, early⟩ := sat
    refine ⟨_, rfl, fun late => ?_, fun _ => ⟨?_, ?_⟩⟩
    · rw [tick_env_now, faultEntry_env] at late
      exact absurd late (not_lt.mpr early)
    · rw [tick_env_host, faultEntry_env]
      exact awaits.host
    · rw [tick_seq, faultEntry_state]
      decide
  | cut v =>
    refine ⟨v, rfl, fun _ => sat, fun early => ?_⟩
    obtain ⟨e, c, rfl, -, now, -⟩ := sat
    have : e.now ≤ cycle := early
    omega
  | stop x => exact sat.elim

/-! ### The poller in time -/

/-- R232's one cycle is the advance by one, while the timer has not reached the interval. -/
theorem cycle_eq_advance {c : Nat} {p : Poll} (h : p.state = .timing → p.timer < p.period.toNat * c) :
    Poll.cycle c p = p.advance c 1 := by
  obtain ⟨state, timer, relcnt, tphase, period, stop⟩ := p
  cases state
  case timing =>
    have below : timer < period.toNat * c := h rfl
    simp only [Poll.cycle, Poll.advance, if_true]
    by_cases reached : timer + 1 = period.toNat * c
    · rw [if_pos reached, if_pos (by omega), reached]
    · rw [if_neg reached, if_neg (by omega)]
  all_goals rfl

theorem advance_zero {c : Nat} {p : Poll} (h : p.state = .timing → p.timer < p.period.toNat * c) : p.advance c 0 = p := by
  obtain ⟨state, timer, relcnt, tphase, period, stop⟩ := p
  cases state
  case timing =>
    have below : timer < period.toNat * c := h rfl
    simp only [Poll.advance, Nat.add_zero]
    rw [if_neg (by omega)]
  all_goals rfl

/-- A poller in TIMING has not reached its interval. -/
theorem advance_timing {c n : Nat} {p : Poll} (h : p.state = .timing → p.timer < p.period.toNat * c)
    (timing : (p.advance c n).state = .timing) : (p.advance c n).timer < (p.advance c n).period.toNat * c := by
  obtain ⟨state, timer, relcnt, tphase, period, stop⟩ := p
  cases state
  case timing =>
    simp only [Poll.advance] at timing ⊢
    split at timing
    · cases timing
    · rename_i early
      rw [if_neg early]
      exact not_le.mp early
  all_goals cases timing

theorem advance_eq_iterate {c : Nat} (n : Nat) {p : Poll} (h : p.state = .timing → p.timer < p.period.toNat * c) :
    p.advance c n = Nat.iterate (Poll.cycle c) n p := by
  induction n with
  | zero => exact advance_zero h
  | succ n ih => rw [Function.iterate_succ_apply', ← ih, cycle_eq_advance (advance_timing h), advance_add]

/-- A poller in TIMING turns PENDING when the timer reaches the interval (R232). -/
theorem advance_state_of_timing {c n : Nat} {p : Poll} (timing : p.state = .timing) : (p.advance c n).state =
    if p.period.toNat * c ≤ p.timer + n then .pending else .timing := by
  unfold Poll.advance
  rw [timing]
  dsimp only
  split <;> rfl

theorem flush_csr_poll (s : State) : (flush s).csr = s.csr ∧ (flush s).poll = s.poll := by
  unfold flush
  dsimp only
  split <;> exact ⟨rfl, rfl⟩

/-- A write that clears TOUCH_EN while a poll is ACTIVE notes it for the poll's end (R234). -/
theorem writeCtrl_stops {v : Word} {s : State} (clears : v.getLsbD 0 = false) (enabled : s.csr.touchEn = true)
    (active : s.poll.state = .active) : (writeCtrl v s).csr.touchEn = false ∧ (writeCtrl v s).poll.state = .active ∧
      (writeCtrl v s).poll.stop = true := by
  have poll := touchStop_poll (ctrlStored v s)
  rw [if_pos (by exact active)] at poll
  have stopped : (touchStop (ctrlStored v s)).csr.touchEn = false ∧ (touchStop (ctrlStored v s)).poll.state = .active ∧
      (touchStop (ctrlStored v s)).poll.stop = true := by
    refine ⟨?_, ?_, ?_⟩
    · rw [touchStop_eq]; exact clears
    · rw [poll]; exact active
    · rw [poll]
  have write : writeCtrl v s = if v.getLsbD 8 then flush (touchStop (ctrlStored v s)) else touchStop (ctrlStored v s) := by
    rw [writeCtrl_eq, clears, enabled]
    rfl
  rw [write]
  split
  · rw [(flush_csr_poll _).1, (flush_csr_poll _).2]
    exact stopped
  · exact stopped

/-- A background poll during which `r`, a write that clears TOUCH_EN, is the host's only action: it has not come yet, or it
has stopped the poller. -/
inductive Stopping (r : HostReq) (s : State) (u : State) : Prop where
  | awaits (par : u.par = s.par) (host : u.env.host = [r]) (portFree : u.env.portFree = s.env.portFree)
      (active : u.poll.state = .active) (enabled : u.csr.touchEn = true)
  | stopped (host : u.env.host = []) (active : u.poll.state = .active) (disabled : u.csr.touchEn = false)
      (stop : u.poll.stop = true)

theorem Stopping.change {r : HostReq} {s u v : State} (h : Stopping r s u) (par : v.par = u.par)
    (host : v.env.host = u.env.host) (portFree : v.env.portFree = u.env.portFree)
    (active : v.poll.state = u.poll.state) (stop : v.poll.stop = u.poll.stop) (touchEn : v.csr.touchEn = u.csr.touchEn) :
    Stopping r s v := by
  cases h with
  | awaits p h f a e => exact .awaits (par.trans p) (host.trans h) (portFree.trans f) (active.trans a) (touchEn.trans e)
  | stopped h a d p => exact .stopped (host.trans h) (active.trans a) (touchEn.trans d) (stop.trans p)

theorem Stopping.active {r : HostReq} {s u : State} (h : Stopping r s u) : u.poll.state = .active := by
  cases h <;> assumption

theorem advance_of_active {c n : Nat} {p : Poll} (active : p.state = .active) : p.advance c n = p := by
  unfold Poll.advance
  rw [active]

theorem advance_of_off {c n : Nat} {p : Poll} (off : p.state = .off) : p.advance c n = p := by
  unfold Poll.advance
  rw [off]

/-- The write is taken and stops the poller. -/
theorem stopping_taken {g : Nat} {v : Word} {rest : List HostReq} {s u : State} {r : HostReq}
    (write : r = ⟨g, .write (s.par.rsqBase + 0x004) 4 v⟩) (clears : v.getLsbD 0 = false) (h : Stopping r s u)
    {r' : HostReq} (next : u.env.host = r' :: rest) :
    ∃ w, takeHost r' rest u = .done w ∧ Stopping r s w := by
  cases h with
  | stopped host => rw [host] at next; cases next
  | awaits par host portFree active enabled =>
    rw [host] at next
    cases next
    let u' : State := { u with env := { u.env with host := [], portFree := u.env.now + 1 } }
    have taken : takeHost r [] u = .done (writeCtrl v u') := by
      rw [write, ← par]
      exact hostOp_write_window u' v (by decide) (by decide)
    obtain ⟨disabled, stillActive, stop⟩ := writeCtrl_stops (s := u') clears enabled active
    exact ⟨_, taken, .stopped (by rw [show (writeCtrl v u').env = u'.env from writeEffect_env .ctrl v u']) stillActive
      disabled stop⟩

theorem stopping_law {g : Nat} {v : Word} {s : State} {r : HostReq}
    (write : r = ⟨g, .write (s.par.rsqBase + 0x004) 4 v⟩) (clears : v.getLsbD 0 = false) :
    BusLaw (fun _ => Stopping r s) (fun _ => False) False where
  time := fun _ n u _ h => by
    have same : (tick n u).poll = u.poll := advance_of_active h.active
    exact h.change rfl rfl rfl (by rw [same]) (by rw [same]) rfl
  host := fun _ _ _ _ _ h next taken => by
    obtain ⟨w, done, stopping⟩ := stopping_taken write clears h next
    rw [done] at taken
    cases taken
    exact stopping
  reset := fun _ _ _ _ _ h next taken => by
    obtain ⟨w, done, -⟩ := stopping_taken write clears h next
    rw [done] at taken
    cases taken
  stop := fun _ _ _ _ _ h next taken => by
    obtain ⟨w, done, -⟩ := stopping_taken write clears h next
    rw [done] at taken
    cases taken
  fall := fun _ h _ => h.change rfl rfl rfl rfl rfl rfl
  drive := fun _ _ _ _ _ h => h.change rfl rfl rfl rfl rfl rfl
  endFirst := fun _ _ u _ h =>
    have same := sameSurroundings_takeMiso u
    h.change rfl same.host same.portFree rfl rfl rfl
  endNext := fun _ _ u h =>
    have same := sameSurroundings_takeMiso u
    h.change rfl same.host same.portFree rfl rfl rfl
  rise := fun u h =>
    have same := sameSurroundings_csRise u
    h.change rfl same.host same.portFree rfl rfl rfl
  loc := fun _ _ _ h => h.change rfl rfl rfl rfl rfl rfl

/-- The end of a stopped poll (R234, R243). -/
theorem endPoll_of_stopped {u : State} (disabled : u.csr.touchEn = false) (stop : u.poll.stop = true) :
    (endPoll u).csr.touchEn = false ∧ (endPoll u).sample.touched = false ∧ (endPoll u).poll.relcnt = 0#8 ∧
      (endPoll u).poll.state = .off ∧ (endPoll u).poll.timer = 0 := by
  simp [endPoll, Poll.ended, disabled, stop]

/-- A background poll's fault entry ends the poll (R243). -/
theorem faultEntry_background_eq (c : ErrCode) (d : Half) (u : State) : ∃ w, faultEntry .background c d u = endPoll w ∧
    w.csr.touchEn = u.csr.touchEn ∧ w.poll.stop = u.poll.stop := by
  cases faulted : u.faulted <;> exact ⟨_, rfl, by simp [faulted, recordFault], by simp [faulted, recordFault]⟩

theorem Res.Sat.and {α : Type} {r : Res α} {P P' C C' : State → Prop} {S S' : Prop} (h : r.Sat P C S)
    (g : r.Sat P' C' S') : r.Sat (fun s => P s ∧ P' s) C S := by
  cases r with
  | ok a s => exact ⟨h, g⟩
  | raise c d s => exact ⟨h, g⟩
  | cut s => exact h
  | stop x => exact h

/-- What the end of the background poll leaves, if the write has come (R234). -/
theorem stopping_end {r : HostReq} {s u w : State} (h : Stopping r s u) (notDue : NotDue u)
    (later : s.env.now < hostTime r s) (touchEn : w.csr.touchEn = u.csr.touchEn) (stop : w.poll.stop = u.poll.stop)
    (come : hostTime r s < u.env.now + 1) : (endPoll w).csr.touchEn = false ∧ (endPoll w).sample.touched = false ∧
      (endPoll w).poll.relcnt = 0#8 ∧ (endPoll w).poll.state = .off ∧ (endPoll w).poll.timer = 0 := by
  cases h with
  | stopped host active disabled stopped => exact endPoll_of_stopped (touchEn.trans disabled) (stop.trans stopped)
  | awaits par host portFree =>
    have before := notDue r [] host
    rw [portFree] at before
    unfold hostTime at later come
    omega

/-- Settles O60: R232's cycles add up, and a write during the poll is taken before the poll's end, which it decides. -/
theorem pollerTimes : Obligations.PollerTimes := by
  unfold Obligations.PollerTimes
  refine ⟨fun c n p => advance_eq_iterate n, fun c n p timing _ => advance_state_of_timing timing, ?_⟩
  intro s g v r host clears enabled pending free later
  have notDue : hostDue s = none := by
    rw [hostDue, host]
    exact if_neg (by omega)
  have poll : step s = backgroundPoll s := by
    have starts : pollStarts s = true := by simp [pollStarts, pending, free]
    simp only [step, notDue, agentStep, starts, if_true]
  have law := stopping_law (s := s) (r := r) rfl clears
  have stopping : ((pass 1 (startPoll s)).andThen fun _ u => pollSequence s.csr.tcfg0 s.csr.tcfg1 u).Sat
      (Stopping r s) (fun _ => False) False :=
    law.pass_then (g := .gap) (s := startPoll s) (.awaits rfl host rfl rfl enabled) 1 fun u h _ => law.pollSequence_sat _ _
      (fun _ h => h.change rfl rfl rfl rfl rfl rfl) (fun _ _ _ h => h.change rfl rfl rfl rfl rfl rfl)
      (fun _ h => h.change rfl rfl rfl rfl rfl rfl) (fun _ h => h.change rfl rfl rfl rfl rfl rfl) h
  have late := (pass_notDue 1 (startPoll s)).then fun _ u h => notDue_law.pollSequence_sat s.csr.tcfg0 s.csr.tcfg1 h
  have both := stopping.and late
  rw [poll, backgroundPoll]
  generalize (pass 1 (startPoll s)).andThen _ = result at both ⊢
  cases result with
  | ok a u =>
    refine ⟨_, rfl, fun come => ?_⟩
    obtain ⟨touchEn, touched, relcnt, state, timer⟩ := stopping_end both.1 both.2 later rfl rfl come
    have off : (tick 1 { endPoll u with owner := .none, loc := Local.none }).poll = (endPoll u).poll :=
      advance_of_off state
    exact ⟨touchEn, touched, by rw [off]; exact relcnt, by rw [off]; exact state, by rw [off]; exact timer⟩
  | raise c d u =>
    refine ⟨_, rfl, fun come => ?_⟩
    rw [tick_env_now, faultEntry_env] at come
    obtain ⟨w, entry, same, stop⟩ := faultEntry_background_eq c d u
    obtain ⟨touchEn, touched, relcnt, state, timer⟩ := stopping_end both.1 both.2 later same stop come
    have off : (tick 1 (endPoll w)).poll = (endPoll w).poll := advance_of_off state
    rw [entry]
    exact ⟨touchEn, touched, by rw [off]; exact relcnt, by rw [off]; exact state, by rw [off]; exact timer⟩
  | cut u => exact both.elim
  | stop x => exact both.elim

end Sys2Proof.Machine
end


section
/-! Every command ends, and what each leaves alone (41_register_commands.md R150 to R157; 42_bulk_commands.md R181, R182;
43_system_commands.md R200, R201, R211; 60_exceptions.md R303). -/

namespace Sys2Proof.Machine

/-! ### Every command ends -/

/-- The running command of `s` still executes and owns the bus, and the host does nothing but reads and writes the port
takes. -/
structure StillRuns (s u : State) : Prop where
  benign : Benign u
  exec : u.seq.state = .exec
  cur : u.seq.cur = s.seq.cur
  owner : u.owner = .seq

theorem StillRuns.change {s u v : State} (h : StillRuns s u) (par : v.par = u.par) (host : v.env.host = u.env.host)
    (seq : v.seq = u.seq) (owner : v.owner = u.owner) : StillRuns s v where
  benign := h.benign.congr host par
  exec := by rw [seq]; exact h.exec
  cur := by rw [seq]; exact h.cur
  owner := owner.trans h.owner

/-- A read or write that the port takes leaves the command running (60_exceptions.md R312). -/
theorem stillRuns_taken {s u : State} {r : HostReq} {rest : List HostReq} (h : StillRuns s u)
    (next : u.env.host = r :: rest) : ∃ v, takeHost r rest u = .done v ∧ StillRuns s v := by
  obtain ⟨v, taken, host, -, later⟩ := takeHost_benign (rest := rest) (h.benign r (next ▸ List.mem_cons_self))
  obtain ⟨seq, owner, -⟩ := host.running h.exec
  refine ⟨v, taken, ?_, by rw [seq]; exact h.exec, by rw [seq]; exact h.cur, owner.trans h.owner⟩
  intro r' mem
  rw [host.par]
  exact h.benign r' (next ▸ List.mem_cons_of_mem _ (later ▸ mem))

theorem stillRuns_law (s : State) : BusLaw (fun _ => StillRuns s) (fun _ => False) False where
  time := fun _ _ _ _ h => h.change rfl rfl rfl rfl
  host := fun _ _ _ _ _ h next taken => by
    obtain ⟨v, done, runs⟩ := stillRuns_taken h next
    rw [done] at taken
    cases taken
    exact runs
  reset := fun _ _ _ _ _ h next taken => by
    obtain ⟨v, done, -⟩ := stillRuns_taken h next
    rw [done] at taken
    cases taken
  stop := fun _ _ _ _ _ h next taken => by
    obtain ⟨v, done, -⟩ := stillRuns_taken h next
    rw [done] at taken
    cases taken
  fall := fun _ h _ => h.change rfl rfl rfl rfl
  drive := fun _ _ _ _ _ h => h.change rfl rfl rfl rfl
  endFirst := fun _ _ u _ h => h.change rfl (takeMiso_other u.env).1 rfl rfl
  endNext := fun _ _ u h => h.change rfl (takeMiso_other u.env).1 rfl rfl
  rise := fun u h => h.change rfl (sameSurroundings_csRise u).host rfl rfl
  loc := fun _ _ _ h => h.change rfl rfl rfl rfl

theorem stillRuns_commandLaw (s : State) :
    CommandLaw (fun _ => StillRuns s) (StillRuns s) (fun _ => False) False where
  bus := stillRuns_law s
  low := (stillRuns_law s).timeLaw .gap
  fall := fun _ h => h.change rfl rfl rfl rfl
  rise := fun _ h => h.change rfl rfl rfl rfl
  locLow := fun _ _ h => h.change rfl rfl rfl rfl
  loc := fun _ _ h => h.change rfl rfl rfl rfl
  rdata := fun _ _ h => h.change rfl rfl rfl rfl
  initDone := fun _ _ h => h.change rfl rfl rfl rfl
  setLb := fun _ _ _ h => h.change rfl rfl rfl rfl

/-- A command runs until it ends or raises, whatever reads and writes the host makes. -/
theorem command_stillRuns {i : Instr} {s : State} (running : Running i s) (benign : Benign s) :
    ((openCommand (entered i s)).andThen fun _ u => commandBody i s u).Sat (StillRuns s) (fun _ => False) False := by
  have start : StillRuns s (entered i s) := by
    cases i <;> exact ⟨benign, running.1, rfl, running.2.2⟩
  by_cases noPoll : ∀ k, i ≠ .tpoll k
  · rw [entered_of_noPoll noPoll] at start ⊢
    exact (stillRuns_commandLaw s).command_sat noPoll start
  · simp only [not_forall, not_not] at noPoll
    obtain ⟨k, rfl⟩ := noPoll
    have law := stillRuns_law s
    refine law.pass_then (g := .gap) (start.change (v := { entered (.tpoll k) s with loc := Local.none }) rfl rfl rfl rfl) 1
      fun u h _ => Res.Sat.then (law.pollSequence_sat _ _ (fun _ h => h.change rfl rfl rfl rfl)
        (fun _ _ _ h => h.change rfl rfl rfl rfl) (fun _ h => h.change rfl rfl rfl rfl)
        (fun _ h => h.change rfl rfl rfl rfl) h) fun _ v h => ?_
    unfold restartInterval
    split
    · exact h.change rfl rfl rfl rfl
    · exact h

/-- The fault entry of a command, TPOLL among them (R303). -/
theorem faultEntry_of_command {who : Raiser} (command : who ≠ .background) {s : State} (running : s.seq.state = .exec)
    (code : ErrCode) (detail : Half) :
    let t := faultEntry who code detail s
    t.seq = { s.seq with state := .fault, chain := false } ∧ t.owner = .none ∧ t.loc = Local.none ∧
      t.csr.err = code ∧ t.csr.errcmd = s.seq.cur := by
  have unfaulted : s.faulted = false := by simp [State.faulted, running]
  cases who
  case background => exact absurd rfl command
  all_goals simp [faultEntry, unfaulted, recordFault]

theorem raiserOf_ne_background (i : Instr) : raiserOf i ≠ .background := by
  cases i <;> simp [raiserOf]

/-- Settles O26: the command still runs where its body ends or raises, so it completes or enters FAULT. -/
theorem everyCommandEnds : Obligations.EveryCommandEnds := by
  unfold Obligations.EveryCommandEnds
  intro i s running benign
  have sat := command_stillRuns running benign
  have codes := @command_raises i s
  rw [exec_eq_runCommand, runCommand]
  generalize (openCommand (entered i s)).andThen _ = r at sat codes ⊢
  cases r with
  | ok a v => exact ⟨_, rfl, rfl, .inl ⟨rfl, rfl, by rw [tick_owner, complete_owner, sat.owner]⟩⟩
  | raise c d v =>
    obtain ⟨seq, owner, loc, err, errcmd⟩ := faultEntry_of_command (raiserOf_ne_background i) sat.exec c d
    obtain ⟨notNone, notIllegal⟩ := codes rfl
    refine ⟨_, rfl, loc, .inr ⟨by rw [tick_seq, seq], by rw [tick_seq, seq], owner, ?_, ?_, ?_⟩⟩
    · rw [tick_csr, errcmd, sat.cur, running.2.1]
    · rw [tick_csr, err]; exact notNone
    · rw [tick_csr, err]; exact notIllegal
  | cut v => exact sat.elim
  | stop x => exact sat.elim

/-! ### What a quiet command leaves alone -/

/-- A quiet command but TPOLL ends with everything still but time, the poller's timer, the fault record, and what `W` says
of the registers and the line buffer. -/
theorem exec_still {i : Instr} {s t : State} {W : State → Prop} (noPoll : ∀ k, i ≠ .tpoll k) (quiet : Quiet s)
    (next : exec i s = .next t)
    (body : (commandBody i s (tick 1 { s with loc := Local.none })).Sat (StillOf W) (fun _ => False) False)
    (kept : ∀ w, W w → w.par = s.par ∧ w.q = s.q ∧ w.seq = s.seq ∧ w.env = s.env ∧ w.poll = s.poll ∧
      w.sample = s.sample) :
    ∃ w, W w ∧ OnlyTimePassed s t ∧ SameCsr w t ∧ t.sample = s.sample ∧ t.lb = w.lb ∧ t.csr.rdata = w.csr.rdata ∧
      t.csr.initDone = w.csr.initDone := by
  rw [exec_eq_runCommand, raiserOf_of_noPoll noPoll, entered_of_noPoll noPoll, runCommand_quiet quiet] at next
  exact closeCommand_still body next kept

theorem getLb_of_lb {s t : State} (lb : t.lb = s.lb) (j : Nat) : getLb j t = getLb j s := by simp only [getLb, lb]

/-- Settles O32: these commands' bodies are time and phases alone. -/
theorem plainCommandFrame : Obligations.PlainCommandFrame := by
  unfold Obligations.PlainCommandFrame
  intro i s t plain quiet next
  let w : State := { s with loc := Local.none }
  have law := still_law (s := w) quiet
  have start : StillOf (· = w) (tick 1 w) := ⟨w, rfl, Still.start w⟩
  have noPoll : ∀ k, i ≠ .tpoll k := by rintro k rfl; simp at plain
  have body : (commandBody i s (tick 1 w)).Sat (StillOf (· = w)) (fun _ => False) False := by
    unfold commandBody
    split
    · exact start
    · obtain ⟨k, rfl⟩ | ⟨k, a, v, rfl⟩ | ⟨k, a, d, rfl⟩ | ⟨k, ms, rfl⟩ | ⟨k, a, n, rfl⟩ := plain
      · exact start
      · exact law.writeReg_sat a v start
      · exact law.writePair_sat a d start
      · exact law.waitMs_sat start ms.toNat
      · exact law.streamWrite_sat a n.toNat start
  obtain ⟨w', rfl, passed, csr, sample, lb, -⟩ := exec_still noPoll quiet next body (by
    rintro _ rfl
    exact ⟨rfl, rfl, rfl, rfl, rfl, rfl⟩)
  exact ⟨passed, csr, sample, getLb_of_lb lb, lb⟩

/-- The same change of RDATA on both sides. -/
theorem Still.withRdata {s t : State} (h : Still s t) (r : Byte) : Still (setRdata r s) (setRdata r t) :=
  { h with csr := by simp only [setRdata, h.csr] }

theorem Still.withInitDone {s t : State} (h : Still s t) (b : Bool) : Still (setInitDone b s) (setInitDone b t) :=
  { h with csr := by simp only [setInitDone, h.csr] }

theorem Still.withLb {s t : State} (h : Still s t) (i : Nat) (v : Half) : Still (setLb i v s) (setLb i v t) :=
  { h with lb := by simp only [setLb, h.lb] }

/-- What SameCsr says of a state depends on its CSRs alone. -/
theorem SameCsr.congr {s s' t : State} (h : SameCsr s t) (csr : s'.csr = s.csr) : SameCsr s' t := by
  unfold SameCsr
  rw [csr]
  exact h

/-- `s` at a command's start, with any RDATA. -/
def AnyRdata (s w : State) : Prop := ∃ r, w = { s with loc := Local.none, csr := { s.csr with rdata := r } }

/-- `s` at a command's start, with any entry of the line buffer below `n`. -/
def AnyLbBelow (n : Nat) (s w : State) : Prop :=
  ∃ l : List Half, w = { s with loc := Local.none, lb := l } ∧ l.length = s.lb.length ∧ ∀ j, n ≤ j → l[j]? = s.lb[j]?

theorem anyRdata_law {s : State} (quiet : Quiet s) :
    BusLaw (fun _ => StillOf (AnyRdata s)) (fun _ => False) False :=
  stillOf_law (by rintro w ⟨r, rfl⟩; exact quiet)

theorem anyRdata_setRdata {s : State} (r : Byte) {u : State} (h : StillOf (AnyRdata s) u) :
    StillOf (AnyRdata s) (setRdata r u) := by
  obtain ⟨w, ⟨r', rfl⟩, still⟩ := h
  exact ⟨_, ⟨zext32 r, rfl⟩, still.withRdata r⟩

theorem anyLbBelow_law {n : Nat} {s : State} (quiet : Quiet s) :
    BusLaw (fun _ => StillOf (AnyLbBelow n s)) (fun _ => False) False :=
  stillOf_law (by rintro w ⟨l, rfl, -⟩; exact quiet)

theorem anyLbBelow_setLb {n : Nat} {s : State} {j : Nat} (below : j < n) (v : Half) {u : State}
    (h : StillOf (AnyLbBelow n s) u) : StillOf (AnyLbBelow n s) (setLb j v u) := by
  obtain ⟨w, ⟨l, rfl, length, above⟩, still⟩ := h
  refine ⟨_, ⟨l.set j v, rfl, (List.length_set ..).trans length, fun i hi => ?_⟩, still.withLb j v⟩
  rw [List.getElem?_set_ne (by omega)]
  exact above i hi

/-- Settles O33: reads store to RDATA or to the entries of the line buffer that they name. -/
theorem readCommandFrame : Obligations.ReadCommandFrame := by
  unfold Obligations.ReadCommandFrame
  intro i s t quiet next
  refine ⟨fun reads => ?_, fun k a n read => ?_⟩
  · have law := anyRdata_law quiet
    have start : StillOf (AnyRdata s) (tick 1 { s with loc := Local.none }) := ⟨_, ⟨s.csr.rdata, rfl⟩, Still.start _⟩
    have noPoll : ∀ k, i ≠ .tpoll k := by rintro k rfl; simp at reads
    have body : (commandBody i s (tick 1 { s with loc := Local.none })).Sat (StillOf (AnyRdata s)) (fun _ => False)
        False := by
      obtain ⟨k, a, rfl⟩ | ⟨k, a, m, rfl⟩ := reads
      · exact law.readToRdata_sat (fun r _ => anyRdata_setRdata r) a start
      · exact law.waitLoop_sat (fun r _ => anyRdata_setRdata r) a m _ _ start
    obtain ⟨w, ⟨r, rfl⟩, passed, csr, sample, lb, rdata, -⟩ := exec_still noPoll quiet next body (by
      rintro _ ⟨r, rfl⟩
      exact ⟨rfl, rfl, rfl, rfl, rfl, rfl⟩)
    exact ⟨passed, csr.congr (by rw [rdata]), sample, getLb_of_lb lb, lb⟩
  · subst read
    have law := anyLbBelow_law (n := n.toNat) quiet
    have start : StillOf (AnyLbBelow n.toNat s) (tick 1 { s with loc := Local.none }) :=
      ⟨_, ⟨s.lb, rfl, rfl, fun _ _ => rfl⟩, Still.start _⟩
    have body : (commandBody (.mread k a n) s (tick 1 { s with loc := Local.none })).Sat (StillOf (AnyLbBelow n.toNat s))
        (fun _ => False) False := by
      unfold commandBody
      split
      · exact start
      · exact law.streamRead_sat a n.toNat (fun j v _ below => anyLbBelow_setLb below v) start
    obtain ⟨w, ⟨l, rfl, length, above⟩, passed, csr, sample, lb, -⟩ :=
      exec_still (i := .mread k a n) (fun _ => nofun) quiet next body (by
      rintro _ ⟨l, rfl, -⟩
      exact ⟨rfl, rfl, rfl, rfl, rfl, rfl⟩)
    refine ⟨passed, csr, sample, fun j hj => ?_, by rw [lb]; exact length⟩
    simp only [getLb, List.getD_eq_getElem?_getD, lb, above j hj]

/-- `s` at a point of RESET or INIT, with an RDATA of `R` and any INIT_DONE and RST_N. -/
def AnyInit (R : Word → Prop) (s w : State) : Prop := ∃ r d n l, R r ∧
  w = { s with csr := { s.csr with rdata := r, initDone := d }, pins := { s.pins with rstN := n }, loc := l }

section AnyInit

variable {R : Word → Prop} {s u : State}

theorem anyInit_law (quiet : Quiet s) : BusLaw (fun _ => StillOf (AnyInit R s)) (fun _ => False) False :=
  stillOf_law (by rintro w ⟨r, d, n, l, -, rfl⟩; exact quiet)

theorem anyInit_rstLow (h : StillOf (AnyInit R s) u) : StillOf (AnyInit R s) (rstLow u) := by
  obtain ⟨w, ⟨r, d, n, l, hr, rfl⟩, still⟩ := h
  exact ⟨_, ⟨r, d, false, l, hr, rfl⟩, { still with rstN := rfl }⟩

theorem anyInit_rstHigh (h : StillOf (AnyInit R s) u) : StillOf (AnyInit R s) (rstHigh u) := by
  obtain ⟨w, ⟨r, d, n, l, hr, rfl⟩, still⟩ := h
  exact ⟨_, ⟨r, d, true, l, hr, rfl⟩, { still with rstN := rfl }⟩

theorem anyInit_loc (c : Local) (h : StillOf (AnyInit R s) u) : StillOf (AnyInit R s) { u with loc := c } := by
  obtain ⟨w, ⟨r, d, n, l, hr, rfl⟩, still⟩ := h
  exact ⟨_, ⟨r, d, n, c, hr, rfl⟩, { still with step := rfl }⟩

theorem anyInit_setInitDone (b : Bool) (h : StillOf (AnyInit R s) u) : StillOf (AnyInit R s) (setInitDone b u) := by
  obtain ⟨w, ⟨r, d, n, l, hr, rfl⟩, still⟩ := h
  exact ⟨_, ⟨r, b, n, l, hr, rfl⟩, still.withInitDone b⟩

theorem anyInit_setRdata (b : Byte) (h : StillOf (AnyInit (fun _ => True) s) u) :
    StillOf (AnyInit (fun _ => True) s) (setRdata b u) := by
  obtain ⟨w, ⟨r, d, n, l, -, rfl⟩, still⟩ := h
  exact ⟨_, ⟨zext32 b, d, n, l, trivial, rfl⟩, still.withRdata b⟩

theorem anyInit_resetPulse (quiet : Quiet s) (h : StillOf (AnyInit R s) u) :
    (resetPulse (setInitDone false u)).Sat (StillOf (AnyInit R s)) (fun _ => False) False :=
  (anyInit_law quiet).resetPulse_sat ((anyInit_law quiet).timeLaw .gap) (fun _ => anyInit_rstLow)
    (fun _ l _ => anyInit_loc l) (fun _ => anyInit_rstHigh) (anyInit_setInitDone false h)

theorem anyInit_initSequence (g : Nat) (quiet : Quiet s) (h : StillOf (AnyInit (fun _ => True) s) u) :
    (initSequence g u).Sat (StillOf (AnyInit (fun _ => True) s)) (fun _ => False) False :=
  (anyInit_resetPulse quiet h).then fun _ _ h => ((anyInit_law quiet).runTable_sat (fun r _ => anyInit_setRdata r)
    (fun l _ => anyInit_loc l) _ _ h).then fun _ _ h => anyInit_setInitDone true h

end AnyInit

/-- A RESET or INIT that ended leaves everything but INIT_DONE and an RDATA of `R`. -/
theorem systemCommand_frame {R : Word → Prop} {i : Instr} {s t : State} (noPoll : ∀ k, i ≠ .tpoll k) (quiet : Quiet s)
    (next : exec i s = .next t) (body : (commandBody i s (tick 1 { s with loc := Local.none })).Sat
      (StillOf (AnyInit R s)) (fun _ => False) False) :
    OnlyTimePassed s t ∧ SameCsr { s with csr := { s.csr with rdata := t.csr.rdata, initDone := t.csr.initDone } } t ∧
      R t.csr.rdata ∧ t.sample = s.sample ∧ t.lb = s.lb := by
  obtain ⟨w, ⟨r, d, n, l, hr, rfl⟩, passed, csr, sample, lb, rdata, initDone⟩ := exec_still noPoll quiet next body (by
    rintro _ ⟨r, d, n, l, -, rfl⟩
    exact ⟨rfl, rfl, rfl, rfl, rfl, rfl⟩)
  exact ⟨passed, csr.congr (by rw [rdata, initDone]), by rw [rdata]; exact hr, sample, lb⟩

/-- Settles O34: RESET's and INIT's own steps store to INIT_DONE, RST_N and RDATA alone, RESET's not to RDATA. -/
theorem systemCommandFrame : Obligations.SystemCommandFrame := by
  unfold Obligations.SystemCommandFrame
  rintro i s t (⟨k, rfl⟩ | ⟨k, g, rfl⟩) quiet next
  · have start : StillOf (AnyInit (· = s.csr.rdata) s) (tick 1 { s with loc := Local.none }) :=
      ⟨_, ⟨s.csr.rdata, s.csr.initDone, s.pins.rstN, Local.none, rfl, rfl⟩, Still.start _⟩
    obtain ⟨passed, csr, rdata, sample, lb⟩ :=
      systemCommand_frame (i := .reset k) (fun _ => nofun) quiet next (anyInit_resetPulse quiet start)
    exact ⟨passed, csr, fun _ => rdata, sample, getLb_of_lb lb, lb⟩
  · have start : StillOf (AnyInit (fun _ => True) s) (tick 1 { s with loc := Local.none }) :=
      ⟨_, ⟨s.csr.rdata, s.csr.initDone, s.pins.rstN, Local.none, trivial, rfl⟩, Still.start _⟩
    have body : (commandBody (.init k g) s (tick 1 { s with loc := Local.none })).Sat (StillOf (AnyInit (fun _ => True) s))
        (fun _ => False) False := by
      unfold commandBody
      split
      · exact start
      · exact anyInit_initSequence _ quiet start
    obtain ⟨passed, csr, -, sample, lb⟩ := systemCommand_frame (i := .init k g) (fun _ => nofun) quiet next body
    exact ⟨passed, csr, nofun, sample, getLb_of_lb lb, lb⟩

end Sys2Proof.Machine
end


section
/-! A poll while the host does nothing: TPOLL's and the background poll's flags, release count and interval
(44_touch_sampler.md R231 to R241; 43_system_commands.md R211). -/

namespace Sys2Proof.Machine

/-! ### What a quiet poll leaves alone -/

/-- A point of a poll that began in `s`: what no poll changes. -/
structure QuietPoll (s u : State) : Prop where
  quiet : Quiet u
  par : u.par = s.par
  csr : { u.csr with tpollAct := s.csr.tpollAct } = s.csr
  q : u.q = s.q
  lb : u.lb = s.lb
  seq : u.seq = s.seq
  owner : u.owner = s.owner
  reads : u.env.reads = s.env.reads
  rstN : u.pins.rstN = s.pins.rstN
  stop : u.poll.stop = s.poll.stop

theorem QuietPoll.csr_eq {s u : State} (h : QuietPoll s u) : u.csr = { s.csr with tpollAct := u.csr.tpollAct } := by
  rw [← h.csr]

/-- A point of a poll that began in `s`, before its end, with the release count `relcnt` and a sample that is `sample`. -/
structure InPoll (s : State) (relcnt : Byte) (sample : Sample → Prop) (u : State) : Prop extends QuietPoll s u where
  off : s.poll.state = .off → u.poll.state = .off
  relcnt : u.poll.relcnt = relcnt
  sample : sample u.sample

section InPoll

variable {s u v : State} {relcnt : Byte} {sample : Sample → Prop}

theorem InPoll.kept (h : InPoll s relcnt sample u) (kept : Kept u v) : InPoll s relcnt sample v where
  quiet := kept.host.trans h.quiet
  par := kept.par.trans h.par
  csr := by rw [kept.csr]; exact h.csr
  q := kept.q.trans h.q
  lb := kept.lb.trans h.lb
  seq := kept.seq.trans h.seq
  owner := kept.owner.trans h.owner
  reads := kept.reads.trans h.reads
  rstN := kept.rstN.trans h.rstN
  stop := kept.stop.trans h.stop
  off := fun off => kept.off (h.off off)
  relcnt := kept.relcnt.trans h.relcnt
  sample := by rw [kept.sample]; exact h.sample

theorem inPoll_law (s : State) (relcnt : Byte) (sample : Sample → Prop) :
    BusLaw (fun _ => InPoll s relcnt sample) (fun _ => False) False :=
  quiet_law (fun _ h => h.quiet) (fun _ _ h => h.kept)

theorem InPoll.enterTouched (h : InPoll s relcnt sample u) : InPoll s relcnt sample (enterTouched u) :=
  { h with off := h.off }

theorem InPoll.setTpollAct (h : InPoll s relcnt sample u) (b : Bool) : InPoll s relcnt sample (setTpollAct b u) :=
  { h with csr := h.csr }

/-- The sample after a commit with some coordinates, if the sample was that of `s` before (R238, R239). -/
def Committed (s : State) (a : Sample) : Prop :=
  a = { x := a.x, y := a.y, ready := true, touched := true, tovr := s.sample.tovr || s.sample.ready }

theorem InPoll.commitSample (h : InPoll s relcnt (· = s.sample) u) (x y : Coord) :
    InPoll s 0#8 (Committed s) (commitSample x y u) :=
  { h with
    off := h.off
    relcnt := rfl
    sample := by rw [commitSample_sample, h.sample]; rfl }

/-- The sample after a release step that leaves the count `n`, if the sample was that of `s` before (R241). -/
def Released (s : State) (n : Byte) (a : Sample) : Prop :=
  a = { s.sample with touched := s.sample.touched && decide (n.toNat < (releasePolls s.csr.tcfg1).toNat) }

theorem InPoll.releaseStep (h : InPoll s relcnt (· = s.sample) u) :
    InPoll s (nextRelcnt relcnt) (Released s (nextRelcnt relcnt)) (releaseStep u) :=
  { h with
    csr := h.csr
    off := h.off
    relcnt := by rw [← h.relcnt]; rfl
    sample := by
      have tcfg1 : u.csr.tcfg1 = s.csr.tcfg1 := (congrArg Csr.tcfg1 h.csr :)
      simp only [Machine.releaseStep, Released, h.relcnt, h.sample, tcfg1] }

end InPoll

/-- The release count saturates at 255 (R241). -/
theorem toNat_nextRelcnt (n : Byte) : (nextRelcnt n).toNat = min (n.toNat + 1) 255 := by
  have small := n.isLt
  unfold nextRelcnt
  split
  · rename_i full
    rw [full]
    rfl
  · rename_i notFull
    have := BitVec.toNat_ne.mp notFull
    rw [BitVec.toNat_add]
    simp only [BitVec.toNat_ofNat] at this ⊢
    omega

theorem Res.Yields.and_ends {α : Type} {r : Res α} {Q : α → State → Prop} {E R C : State → Prop} {S : Prop}
    (h : r.Yields Q) (g : r.Ends E R C S) : r.Yields fun a s => Q a s ∧ E s := by
  obtain ⟨a, s, rfl, q⟩ := h
  exact ⟨a, s, rfl, q, g⟩

/-- A quiet poll that finds the touch bit clear, on hardware without a bus-error input (R236, R241). -/
theorem poll_clear {s u : State} {relcnt : Byte} (c0 c1 : Word) (h : InPoll s relcnt (· = s.sample) u)
    (noBusErr : u.par.hasBusErr = false) (clear : touchSet (u.env.answer 3) (intMask c0) = false) :
    (pollSequence c0 c1 u).Yields fun _ v =>
      InPoll s (nextRelcnt relcnt) (Released s (nextRelcnt relcnt)) v ∧ v.csr.tpollAct = false ∧
        v.bus = u.bus ++ accessEvents (intAddr c0) [0x40#8, u.par.readFill] u.env ∧ v.poll.tphase = u.poll.tphase := by
  obtain ⟨r, v, read, ⟨rfl, access⟩, kept⟩ := (readReg_benign (intAddr c0) (h.quiet).benign noBusErr).and_sat
    ((inPoll_law s relcnt (· = s.sample)).readReg_sat (intAddr c0) (s := u) h)
  obtain ⟨new, ran, -⟩ := id access.did
  refine ⟨(), releaseStep v, by simp [pollSequence, read, clear], kept.releaseStep, rfl, ?_, ran.tphase⟩
  exact (bus_of_did access.did :)

/-- A quiet poll that finds the touch bit set, on hardware without a bus-error input (R236 to R240). -/
theorem poll_touched {s u : State} {relcnt : Byte} (c0 c1 : Word) (h : InPoll s relcnt (· = s.sample) u)
    (noBusErr : u.par.hasBusErr = false) (touched : touchSet (u.env.answer 3) (intMask c0) = true) :
    (pollSequence c0 c1 u).Yields fun _ v => InPoll s 0#8 (Committed s) v ∧ v.csr.tpollAct = false ∧
      v.bus = u.bus ++ touchedEvents c0 c1 u.par.readFill u.env ∧ v.poll.tphase = false ∧
      v.sample.x = coordOf (u.env.answer 7) (u.env.answer 15) (xlShift c1) ∧
      v.sample.y = coordOf (u.env.answer 11) (u.env.answer 15) (ylShift c1) := by
  have before := inPoll_law s relcnt (· = s.sample)
  have after := inPoll_law s 0#8 (Committed s)
  obtain ⟨r, w, read, ⟨rfl, -⟩, kept⟩ := (readReg_benign (intAddr c0) (h.quiet).benign noBusErr).and_sat
    (before.readReg_sat (intAddr c0) (s := u) h)
  have coords : (readCoords c0 c1 (enterTouched w)).Sat (InPoll s relcnt (· = s.sample)) (fun _ => False) False :=
    (before.readReg_sat _ kept.enterTouched).then fun _ _ h => (before.readReg_sat _ h).then fun _ _ h =>
      (before.readReg_sat _ h).then fun _ _ h => h
  have ends : (pollSequence c0 c1 u).Ends (InPoll s 0#8 (Committed s)) (fun _ => True) (fun _ => False) False := by
    simp only [pollSequence, read, Res.ok_andThen, touched, if_true]
    refine coords.ends (fun _ _ => trivial) fun xy v h => ?_
    refine (after.pass_sat (g := .gap) (h.commitSample xy.1 xy.2) 1).ends (fun _ _ => trivial) fun _ v h => ?_
    exact (after.writeReg_sat _ _ h).ends (fun _ _ => trivial) fun _ v h => h.setTpollAct false
  refine ((pollSequence_touched c0 c1 (h.quiet).benign noBusErr touched).and_ends ends).mono ?_
  rintro - v ⟨⟨did, -, -⟩, poll⟩
  obtain ⟨new, ran, -⟩ := id did
  exact ⟨poll, ran.tpollAct, (bus_of_did did :), ran.tphase, ran.x, ran.y⟩

/-! ### TPOLL -/

theorem sameCsr_of_eq {s t : State} (h : t.csr = s.csr) : SameCsr s t := ⟨by rw [h], fun _ => h⟩

/-- TPOLL's restart of the interval is no concern of what a poll leaves alone. -/
theorem QuietPoll.restartInterval {s u : State} (h : QuietPoll s u) : QuietPoll s (restartInterval u) := by
  unfold Machine.restartInterval
  split
  · exact { h with stop := h.stop }
  · exact h

/-- The fault entry of TPOLL is no concern of what a poll leaves alone but the fault record, SEQ and the bus owner. -/
theorem tpoll_faultEntry_frame (c : ErrCode) (d : Half) (u : State) :
    let t := faultEntry .tpoll c d u
    t.csr = { u.csr with tpollAct := t.csr.tpollAct, err := t.csr.err, errcmd := t.csr.errcmd, erraux := t.csr.erraux } ∧
      t.par = u.par ∧ t.q = u.q ∧ t.seq.cur = u.seq.cur ∧ t.pins = u.pins ∧ t.poll.stop = u.poll.stop ∧ t.lb = u.lb := by
  cases faulted : u.faulted <;> simp [faultEntry, faulted, recordFault]

/-- A quiet TPOLL runs to its end or a fault, and leaves alone what polls do. -/
theorem tpoll_quietPoll {k : Bool} {s : State} (quiet : Quiet s) :
    (commandBody (.tpoll k) s (tick 1 { setTpollAct true s with loc := Local.none })).Sat (QuietPoll s) (fun _ => False)
      False := by
  have law := quiet_law (W := fun u => ∃ relcnt, InPoll s relcnt (fun _ => True) u) (fun _ ⟨_, h⟩ => h.quiet)
    (fun _ _ ⟨relcnt, h⟩ kept => ⟨relcnt, h.kept kept⟩)
  have start : InPoll s s.poll.relcnt (fun _ => True) (tick 1 { setTpollAct true s with loc := Local.none }) := by
    obtain ⟨relcnt, -, stop, off⟩ := advance_kept s.par.clkPerMs 1 s.poll
    exact ⟨⟨quiet, rfl, rfl, rfl, rfl, rfl, rfl, rfl, rfl, stop⟩, off, relcnt, trivial⟩
  have poll := law.pollSequence_sat s.csr.tcfg0 s.csr.tcfg1 (fun _ ⟨r, h⟩ => ⟨r, h.enterTouched⟩)
    (fun _ _ _ ⟨_, h⟩ => ⟨0#8, { h with off := h.off, relcnt := rfl }⟩)
    (fun u ⟨r, h⟩ => ⟨(releaseStep u).poll.relcnt, { h with csr := h.csr, off := h.off, relcnt := rfl, sample := trivial }⟩)
    (fun _ ⟨r, h⟩ => ⟨r, h.setTpollAct false⟩) ⟨_, start⟩
  exact Res.Sat.then (poll.mono fun _ ⟨_, h⟩ => h.toQuietPoll) fun _ _ h => h.restartInterval

/-- Settles O35: no step of a poll stores to anything but the sample, the poller and TPOLL_ACT. -/
theorem tpollFrame : Obligations.TpollFrame := by
  unfold Obligations.TpollFrame
  intro k s t quiet next
  have sat := tpoll_quietPoll (k := k) quiet
  rw [exec_eq_runCommand, runCommand_quiet (s := entered (.tpoll k) s) quiet] at next
  change closeCommand _ _ (commandBody (.tpoll k) s (tick 1 { setTpollAct true s with loc := Local.none })) = _ at next
  generalize commandBody _ _ _ = r at sat next
  cases r with
  | ok a v =>
    cases next
    exact ⟨sameCsr_of_eq sat.csr_eq, sat.par, sat.q, (congrArg Seq.cur sat.seq :), sat.reads, sat.rstN,
      (advance_kept _ _ _).2.2.1.trans sat.stop, getLb_of_lb sat.lb, sat.lb⟩
  | raise c d v =>
    cases next
    obtain ⟨csr, par, q, cur, pins, stop, lb⟩ := tpoll_faultEntry_frame c d v
    rw [sat.csr_eq] at csr
    refine ⟨⟨csr, fun idle => ?_⟩, par.trans sat.par, q.trans sat.q, cur.trans (congrArg Seq.cur sat.seq), ?_, ?_,
      (advance_kept _ _ _).2.2.1.trans (stop.trans sat.stop), getLb_of_lb (lb.trans sat.lb), lb.trans sat.lb⟩
    · have fault := faultEntry_state .tpoll c d v
      rw [tick_seq] at idle
      exact absurd (fault.symm.trans idle) (by decide)
    · rw [tick_env_reads, raiserOf, faultEntry_env]
      exact sat.reads
    · rw [tick_pins, raiserOf, pins]
      exact sat.rstN
  | cut v => exact sat.elim
  | stop x => exact sat.elim

/-- An interval that began one cycle ago (R232). -/
theorem intervalRestarted {s t : State} {p : Poll} (poll : t.poll = p.advance s.par.clkPerMs 1) (timing : p.state = .timing)
    (timer : p.timer = 0) (period : p.period = s.csr.pollPeriod) : IntervalRestarted s t := by
  unfold IntervalRestarted
  intro due
  have reached : p.period.toNat * s.par.clkPerMs = due := by rw [period]
  rw [poll]
  unfold Poll.advance
  rw [timing]
  dsimp only
  rw [timer, reached, Nat.zero_add]
  split
  · rename_i short
    exact ⟨period, (Nat.min_eq_right short).symm, rfl⟩
  · rename_i long
    exact ⟨period, (Nat.min_eq_left (Nat.le_of_not_le long)).symm, rfl⟩

/-- What the end of a quiet TPOLL leaves (43_system_commands.md R211). -/
theorem tpoll_end {k : Bool} {s v : State} {relcnt : Byte} {sample : Sample → Prop} (h : InPoll s relcnt sample v)
    (act : v.csr.tpollAct = false) (rest : PollerAtRest s) :
    let t := tick 1 (complete k (restartInterval v))
    t.poll.relcnt = relcnt ∧ sample t.sample ∧ (s.csr.touchEn = false → t.poll.state = .off) ∧
      (s.csr.touchEn = true → IntervalRestarted s t) ∧ t.csr = { s.csr with tpollAct := false } := by
  have csr : v.csr = { s.csr with tpollAct := false } := by rw [h.csr_eq, act]
  cases enabled : s.csr.touchEn with
  | false =>
    have same : restartInterval v = v := if_neg (by rw [csr]; simp [enabled])
    have off : v.poll.state = .off := h.off (rest.off.mpr enabled)
    simp only [same, tick_poll, complete_poll, advance_of_off off]
    exact ⟨h.relcnt, h.sample, fun _ => off, nofun, csr⟩
  | true =>
    have restarted : restartInterval v =
        { v with poll := { v.poll with state := .timing, timer := 0, period := s.csr.pollPeriod } } := by
      have period : v.csr.pollPeriod = s.csr.pollPeriod := by rw [csr]
      rw [← period]
      exact if_pos (by rw [csr]; exact enabled)
    rw [restarted]
    refine ⟨(advance_kept _ _ _).1.trans h.relcnt, h.sample, nofun, fun _ => ?_, csr⟩
    exact intervalRestarted (p := { v.poll with state := .timing, timer := 0, period := s.csr.pollPeriod })
      (by rw [← h.par]; rfl) rfl rfl rfl

/-- A quiet TPOLL's poll after the pop's cycle. -/
theorem inPoll_tpoll {s : State} (quiet : Quiet s) :
    InPoll s s.poll.relcnt (· = s.sample) (tick 1 { setTpollAct true s with loc := Local.none }) := by
  obtain ⟨relcnt, -, stop, off⟩ := advance_kept s.par.clkPerMs 1 s.poll
  exact ⟨⟨quiet, rfl, rfl, rfl, rfl, rfl, rfl, rfl, rfl, stop⟩, off, relcnt, rfl⟩

/-- Settles O24: the poll's release or commit, then the restart of the interval. -/
theorem tpollFlags : Obligations.TpollFlags := by
  unfold Obligations.TpollFlags
  rintro k s - quiet noBusErr rest
  let u : State := tick 1 { setTpollAct true s with loc := Local.none }
  have start : InPoll s s.poll.relcnt (· = s.sample) u := inPoll_tpoll quiet
  have run : exec (.tpoll k) s = closeCommand .tpoll k
      ((pollSequence s.csr.tcfg0 s.csr.tcfg1 u).andThen fun _ u => .ok () (restartInterval u)) := by
    rw [exec_eq_runCommand, runCommand_quiet (s := entered (.tpoll k) s) quiet]
    rfl
  have answer : u.env.answer 3 = s.env.answer 3 := answer_congr 3 rfl rfl
  rw [run]
  cases touched : touchSet (s.env.answer 3) (intMask s.csr.tcfg0) with
  | true =>
    obtain ⟨a, v, poll, inPoll, act, -⟩ := poll_touched s.csr.tcfg0 s.csr.tcfg1 start noBusErr (by rw [answer]; exact touched)
    obtain ⟨relcnt, sample, off, restarted, csr⟩ := tpoll_end (k := k) inPoll act rest
    rw [poll]
    refine ⟨_, rfl, fun _ => ⟨?_, ?_, ?_, relcnt⟩, nofun, off, restarted, csr⟩ <;> rw [sample]
  | false =>
    obtain ⟨a, v, poll, inPoll, act, -⟩ := poll_clear s.csr.tcfg0 s.csr.tcfg1 start noBusErr (by rw [answer]; exact touched)
    obtain ⟨relcnt, sample, off, restarted, csr⟩ := tpoll_end (k := k) inPoll act rest
    rw [poll]
    refine ⟨_, rfl, nofun, fun _ => ⟨?_, ?_⟩, off, restarted, csr⟩
    · rw [relcnt, toNat_nextRelcnt]
    · rw [relcnt]
      exact sample

/-! ### The background poll -/

/-- A pending poll starts while the bus is free and no host action is due (R235). -/
theorem step_backgroundPoll {s : State} (noHost : hostDue s = none) (pending : s.poll.state = .pending)
    (free : s.owner = .none) : step s = backgroundPoll s := by
  have starts : pollStarts s = true := by simp [pollStarts, pending, free]
  simp only [step, noHost, agentStep, starts, if_true]

/-- A quiet background poll after its first cycle (R235). -/
theorem backgroundPoll_quiet {s : State} (quiet : Quiet s) : backgroundPoll s =
    closePoll (pollSequence s.csr.tcfg0 s.csr.tcfg1 (tick 1 (startPoll s))) := by
  have start : Quiet (startPoll s) := quiet
  rw [backgroundPoll, pass_quiet start, Res.ok_andThen]

theorem inPoll_start {s : State} (quiet : Quiet s) :
    InPoll (startPoll s) s.poll.relcnt (· = s.sample) (tick 1 (startPoll s)) := by
  obtain ⟨relcnt, -, stop, off⟩ := advance_kept s.par.clkPerMs 1 (startPoll s).poll
  exact ⟨⟨quiet, rfl, rfl, rfl, rfl, rfl, rfl, rfl, rfl, stop⟩, off, relcnt, rfl⟩

/-- What the end of a background poll leaves of the poller, the sample and the CSRs, where TOUCH_EN did not fall in it
(R231, R232). -/
theorem endPoll_inPoll {s v : State} {relcnt : Byte} {sample : Sample → Prop} (h : InPoll (startPoll s) relcnt sample v)
    (noStop : s.poll.stop = false) (t : State) (poll : t.poll = (endPoll v).poll.advance v.par.clkPerMs 1) :
    (endPoll v).sample = v.sample ∧ (endPoll v).csr = { s.csr with tpollAct := false } ∧ t.poll.relcnt = relcnt ∧
      t.poll.tphase = v.poll.tphase ∧ (s.csr.touchEn = true → IntervalRestarted s t) ∧
      (s.csr.touchEn = false → t.poll.state = .off ∧ t.poll.timer = 0) := by
  rw [show v.par = s.par from h.par] at poll
  have stop : v.poll.stop = false := h.stop.trans noStop
  have csr : { v.csr with tpollAct := false } = { s.csr with tpollAct := false } := by rw [h.csr_eq]; rfl
  have touchEn : v.csr.touchEn = s.csr.touchEn := by rw [h.csr_eq]; rfl
  have period : v.csr.pollPeriod = s.csr.pollPeriod := by rw [h.csr_eq]; rfl
  have ended : (endPoll v).poll.relcnt = relcnt := by simp [endPoll, Poll.ended, stop, h.relcnt]
  refine ⟨by simp [endPoll, stop], csr, ?_, ?_, fun enabled => ?_, fun disabled => ?_⟩
  · rw [poll, (advance_kept _ _ _).1, ended]
  · rw [poll, (advance_kept _ _ _).2.1]
    rfl
  · exact intervalRestarted poll (by simp [endPoll, Poll.ended, touchEn, enabled]) rfl
      (by simp [endPoll, Poll.ended, touchEn, enabled, period])
  · have off : (endPoll v).poll.state = .off := by simp [endPoll, Poll.ended, touchEn, disabled]
    rw [poll, advance_of_off off]
    exact ⟨off, rfl⟩

/-- Settles O11: a background poll that commits. -/
theorem backgroundPollTouched : Obligations.BackgroundPollTouched := by
  unfold Obligations.BackgroundPollTouched
  intro s quiet noBusErr pending free noStop touched
  have answers := fun n => answer_congr (e := (tick 1 (startPoll s)).env) (f := s.env) n rfl rfl
  have events := touchedEvents_congr s.csr.tcfg0 s.csr.tcfg1 s.par.readFill (e := (tick 1 (startPoll s)).env) (f := s.env)
    rfl rfl
  obtain ⟨a, v, poll, inPoll, -, bus, tphase, x, y⟩ := poll_touched s.csr.tcfg0 s.csr.tcfg1 (inPoll_start quiet) noBusErr
    (by rw [answers]; exact touched)
  obtain ⟨sample, csr, relcnt, tphase', restarted, off⟩ := endPoll_inPoll inPoll noStop
    (tick 1 { endPoll v with owner := .none, loc := Local.none }) rfl
  rw [step_backgroundPoll (hostDue_of_quiet quiet) pending free, backgroundPoll_quiet quiet, poll]
  rw [answers, answers] at x y
  refine ⟨_, rfl, bus.trans (by rw [← events]; rfl), sample.trans ?_, relcnt, tphase'.trans tphase, restarted, off, csr,
    inPoll.seq, rfl, inPoll.q, inPoll.lb⟩
  rw [inPoll.sample, x, y]
  rfl

/-- Settles O12: a background poll that releases. -/
theorem backgroundPollClear : Obligations.BackgroundPollClear := by
  unfold Obligations.BackgroundPollClear
  intro s quiet noBusErr pending free noStop clear
  have answer := answer_congr (e := (tick 1 (startPoll s)).env) (f := s.env) 3 rfl rfl
  have events := accessEvents_congr (intAddr s.csr.tcfg0) [0x40#8, s.par.readFill] (e := (tick 1 (startPoll s)).env)
    (f := s.env) rfl rfl
  obtain ⟨a, v, poll, inPoll, -, bus, -⟩ := poll_clear s.csr.tcfg0 s.csr.tcfg1 (inPoll_start quiet) noBusErr
    (by rw [answer]; exact clear)
  obtain ⟨sample, csr, relcnt, -, restarted, off⟩ := endPoll_inPoll inPoll noStop
    (tick 1 { endPoll v with owner := .none, loc := Local.none }) rfl
  rw [step_backgroundPoll (hostDue_of_quiet quiet) pending free, backgroundPoll_quiet quiet, poll]
  refine ⟨_, rfl, bus.trans (by rw [← events]; rfl), by rw [relcnt, toNat_nextRelcnt], sample.trans ?_, restarted, off, csr,
    inPoll.seq, rfl, inPoll.q, inPoll.lb⟩
  rw [relcnt]
  exact inPoll.sample

end Sys2Proof.Machine
end


section
/-! Runs of phases on hardware with or without a bus-error input: what the whole run leaves while no phase ends with a bus
error, and what the first one that does leaves (40_spi_framing.md R133, R143). -/

namespace Sys2Proof.Machine

/-! ### Lists of phases -/

/-- The byte slots of a run of phases. -/
def slots (phs : List Phase) : Nat := (phs.map fun ph => ph.bytes.length).sum

@[simp] theorem slots_nil : slots [] = 0 := rfl

@[simp] theorem slots_cons (ph : Phase) (rest : List Phase) : slots (ph :: rest) = ph.bytes.length + slots rest := by
  simp [slots]

@[simp] theorem slots_append (phs rest : List Phase) : slots (phs ++ rest) = slots phs + slots rest := by
  simp [slots]

/-- The events of a run of whole phases. -/
def runEvents : List Phase → Env → List BusEvent
  | [], _ => []
  | ph :: rest, e => phaseEvents ph.bytes e ++ runEvents rest (e.after ph.bytes.length)

theorem runEvents_append (phs rest : List Phase) (e : Env) :
    runEvents (phs ++ rest) e = runEvents phs e ++ runEvents rest (e.after (slots phs)) := by
  induction phs generalizing e with
  | nil => rfl
  | cons ph phs ih => simp [runEvents, ih, after_add]

theorem runEvents_congr (phs : List Phase) {e f : Env} (miso : e.miso = f.miso) (draws : e.freeDraws = f.freeDraws) :
    runEvents phs e = runEvents phs f := by
  induction phs generalizing e f with
  | nil => rfl
  | cons ph phs ih =>
    obtain ⟨miso', draws'⟩ := after_congr ph.bytes.length miso draws
    rw [runEvents, runEvents, phaseEvents_congr _ miso draws, ih miso' draws']

/-- A bus error in an early phase leaves the later phases out. -/
theorem cutEvents_append_left {phs : List Phase} (rest : List Phase) {p : Nat} (early : p < phs.length) (e : Env) :
    cutEvents (phs ++ rest) p e = cutEvents phs p e := by
  induction phs generalizing p e with
  | nil => simp at early
  | cons ph phs ih =>
    cases p with
    | zero => rfl
    | succ p => simp only [List.cons_append, cutEvents, ih (Nat.lt_of_succ_lt_succ early)]

/-- A bus error in a late phase comes after the whole of the earlier ones. -/
theorem cutEvents_append_right (phs rest : List Phase) (p : Nat) (e : Env) :
    cutEvents (phs ++ rest) (phs.length + p) e = runEvents phs e ++ cutEvents rest p (e.after (slots phs)) := by
  induction phs generalizing e with
  | nil => simp [runEvents, Env.after]
  | cons ph phs ih => simp [Nat.add_right_comm, cutEvents, runEvents, ih, after_add]

theorem cutEvents_congr (phs : List Phase) (p : Nat) {e f : Env} (miso : e.miso = f.miso)
    (draws : e.freeDraws = f.freeDraws) : cutEvents phs p e = cutEvents phs p f := by
  induction phs generalizing p e f with
  | nil => rfl
  | cons ph phs ih =>
    obtain ⟨miso', draws'⟩ := after_congr ph.bytes.length miso draws
    cases p with
    | zero => rw [cutEvents, cutEvents, slotEvents_congr _ miso draws]
    | succ p => rw [cutEvents, cutEvents, phaseEvents_congr _ miso draws, ih p miso' draws']

theorem rdataAfter_append (phs rest : List Phase) (e : Env) (v : Word) :
    rdataAfter (phs ++ rest) e v = rdataAfter rest (e.after (slots phs)) (rdataAfter phs e v) := by
  induction phs generalizing e v with
  | nil => rfl
  | cons ph phs ih => simp [rdataAfter, ih, after_add]

theorem rdataAfter_congr (phs : List Phase) (v : Word) {e f : Env} (miso : e.miso = f.miso)
    (draws : e.freeDraws = f.freeDraws) : rdataAfter phs e v = rdataAfter phs f v := by
  induction phs generalizing v e f with
  | nil => rfl
  | cons ph phs ih =>
    obtain ⟨miso', draws'⟩ := after_congr ph.bytes.length miso draws
    rw [rdataAfter, rdataAfter, answer_congr _ miso draws, ih _ miso' draws']

/-! ### What phases leave -/

/-- What `n` byte slots in `m` phases that add the events `evs` leave alone, and what they take from the surroundings. -/
structure Went (n : Nat) (evs : List BusEvent) (m : Nat) (s v : State) : Prop where
  par : v.par = s.par
  miso : v.env.miso = (s.env.after n).miso
  freeDraws : v.env.freeDraws = (s.env.after n).freeDraws
  busErr : s.par.hasBusErr = true → v.env.busErr = s.env.busErr.drop m
  bus : v.bus = s.bus ++ evs
  phase : v.loc.phase = s.loc.phase + m
  initDone : v.csr.initDone = s.csr.initDone
  running : s.seq.state = .exec → v.seq = s.seq ∧ v.owner = s.owner
  benign : Benign v

theorem Went.trans {n k m j : Nat} {es fs : List BusEvent} {s u v : State} (h : Went n es m s u) (g : Went k fs j u v) :
    Went (n + k) (es ++ fs) (m + j) s v where
  par := g.par.trans h.par
  miso := by rw [g.miso, (after_congr k h.miso h.freeDraws).1, after_add]
  freeDraws := by rw [g.freeDraws, (after_congr k h.miso h.freeDraws).2, after_add]
  busErr := fun has => by rw [g.busErr (by rw [h.par]; exact has), h.busErr has, List.drop_drop]
  bus := by rw [g.bus, h.bus, List.append_assoc]
  phase := by rw [g.phase, h.phase, Nat.add_assoc]
  initDone := g.initDone.trans h.initDone
  running := fun exec => by
    obtain ⟨seq, owner⟩ := h.running exec
    obtain ⟨seq', owner'⟩ := g.running (by rw [seq]; exact exec)
    exact ⟨seq'.trans seq, owner'.trans owner⟩
  benign := g.benign

/-- Time and the host's reads and writes. -/
theorem Went.of_hostOnly {s v : State} (h : HostOnly s v) (benign : Benign v) : Went 0 [] 0 s v where
  par := h.par
  miso := h.miso
  freeDraws := h.freeDraws
  busErr := fun _ => h.busErr
  bus := by simp [State.bus, h.trace]
  phase := by rw [h.loc]; rfl
  initDone := h.initDone
  running := fun exec => ⟨(h.running exec).1, (h.running exec).2.1⟩
  benign := benign

/-- A run of slots inside one phase. -/
theorem Went.of_ran {n : Nat} {new : List TraceEntry} {evs : List BusEvent} {l : List Half} {s v : State}
    (h : Ran n new { s with lb := l } v) (events : (new.map TraceEntry.event).reverse = evs) (loc : v.loc = s.loc) :
    Went n evs 0 s v where
  par := h.par
  miso := h.miso
  freeDraws := h.freeDraws
  busErr := fun _ => h.busErr
  bus := by simp [State.bus, h.trace, ← events]
  phase := by rw [loc]; rfl
  initDone := h.initDone
  running := fun exec => ⟨(h.running exec).1, (h.running exec).2.1⟩
  benign := h.benign

/-- No bus error comes in the next `n` phases. -/
def NoErrorFor (n : Nat) (s : State) : Prop :=
  s.par.hasBusErr = true → ∃ later, s.env.busErr = List.replicate n false ++ later

theorem NoErrorFor.left {m n : Nat} {s : State} (h : NoErrorFor (m + n) s) : NoErrorFor m s := fun has => by
  obtain ⟨later, samples⟩ := h has
  exact ⟨List.replicate n false ++ later, by rw [samples, List.replicate_add, List.append_assoc]⟩

theorem NoErrorFor.head {n : Nat} {s : State} (h : NoErrorFor (n + 1) s) :
    ∃ later, s.par.hasBusErr = true → s.env.busErr = false :: later := by
  cases has : s.par.hasBusErr with
  | false => exact ⟨[], nofun⟩
  | true =>
    obtain ⟨later, samples⟩ := h has
    exact ⟨List.replicate n false ++ later, fun _ => samples⟩

theorem ErrorAt.noErrorFor {m p : Nat} {s : State} (h : ErrorAt (m + p) s) : NoErrorFor m s := fun _ => by
  obtain ⟨later, samples⟩ := h
  exact ⟨List.replicate p false ++ true :: later, by rw [samples, List.replicate_add, List.append_assoc]⟩

theorem Went.noErrorFor {n m k : Nat} {evs : List BusEvent} {s v : State} (h : Went n evs m s v)
    (none : NoErrorFor (m + k) s) : NoErrorFor k v := fun has => by
  have has' : s.par.hasBusErr = true := by rw [← h.par]; exact has
  obtain ⟨later, samples⟩ := none has'
  refine ⟨later, ?_⟩
  rw [h.busErr has', samples, List.replicate_add, List.append_assoc, List.drop_left' (List.length_replicate ..)]

theorem Went.errorAt {n m p : Nat} {evs : List BusEvent} {s v : State} (h : Went n evs m s v)
    (has : s.par.hasBusErr = true) (error : ErrorAt (m + p) s) : ErrorAt p v := by
  obtain ⟨later, samples⟩ := error
  refine ⟨later, ?_⟩
  rw [h.busErr has, samples, List.replicate_add, List.append_assoc, List.drop_left' (List.length_replicate ..)]

/-- A run of whole phases. -/
structure Whole (phs : List Phase) (s v : State) : Prop where
  went : Went (slots phs) (runEvents phs s.env) phs.length s v
  rdata : v.csr.rdata = rdataAfter phs s.env s.csr.rdata

/-- A run of phases whose phase number `p` ended with a bus error. -/
structure Cut (phs : List Phase) (p : Nat) (s v : State) : Prop where
  went : ∃ n, Went n (cutEvents phs p s.env) (p + 1) s v
  rdata : v.csr.rdata = rdataAfter (phs.take p) s.env s.csr.rdata
  step : ∀ ph, phs[p]? = some ph → v.loc.step = ph.step

theorem Whole.trans {phs rest : List Phase} {s u v : State} (h : Whole phs s u) (g : Whole rest u v) :
    Whole (phs ++ rest) s v where
  went := by
    rw [slots_append, runEvents_append, List.length_append, ← runEvents_congr rest h.went.miso h.went.freeDraws]
    exact h.went.trans g.went
  rdata := by rw [g.rdata, h.rdata, rdataAfter_append, rdataAfter_congr _ _ h.went.miso h.went.freeDraws]

theorem Whole.cut {phs rest : List Phase} {p : Nat} {s u v : State} (h : Whole phs s u) (g : Cut rest p u v) :
    Cut (phs ++ rest) (phs.length + p) s v where
  went := by
    obtain ⟨n, went⟩ := g.went
    rw [cutEvents_append_right, ← cutEvents_congr rest p h.went.miso h.went.freeDraws]
    exact ⟨_, h.went.trans went⟩
  rdata := by
    rw [g.rdata, h.rdata, List.take_length_add_append, rdataAfter_append,
      rdataAfter_congr _ _ h.went.miso h.went.freeDraws]
  step := fun ph at_ => g.step ph (by rwa [List.getElem?_append_right (Nat.le_add_right ..), Nat.add_sub_cancel_left] at at_)

theorem Cut.append {phs : List Phase} {p : Nat} {s v : State} (h : Cut phs p s v) (early : p < phs.length)
    (rest : List Phase) : Cut (phs ++ rest) p s v where
  went := by rw [cutEvents_append_left rest early]; exact h.went
  rdata := by rw [List.take_append_of_le_length (Nat.le_of_lt early)]; exact h.rdata
  step := fun ph at_ => h.step ph (by rwa [List.getElem?_append_left early] at at_)

/-! ### What a piece of a command or poll does -/

/-- A run whose phases are `phs` while none ends with a bus error: it ends in a state and with a result of `Fin`. -/
def Passes {α : Type} (phs : List Phase) (s : State) (r : Res α) (Fin : State → Res α → Prop) : Prop :=
  NoErrorFor phs.length s → ∃ v, Whole phs s v ∧ Fin v r

/-- A run that a bus error in any of the phases `phs` stops, with the phase's index (40_spi_framing.md R143). -/
def Stops {α : Type} (phs : List Phase) (s : State) (r : Res α) : Prop :=
  ∀ p < phs.length, s.par.hasBusErr = true → ErrorAt p s →
    ∃ v, r = .raise .busFault (phaseDetail (s.loc.phase + p)) v ∧ Cut phs p s v

/-- A run with the phases `phs`, whether or not one of them ends with a bus error. -/
structure Walks {α : Type} (phs : List Phase) (s : State) (r : Res α) (Fin : State → Res α → Prop) : Prop where
  passes : Passes phs s r Fin
  stops : Stops phs s r

/-- A normal end with a value and a state of `P`. -/
def Gives {α : Type} (P : α → State → Prop) (v : State) (r : Res α) : Prop := ∃ a, r = .ok a v ∧ P a v

section Walks

variable {α β : Type} {phs rest : List Phase} {s : State} {r : Res α} {f : α → State → Res β} {P : α → State → Prop}

theorem Stops.nil : Stops [] s r := fun _ none => absurd none (Nat.not_lt_zero _)

/-- Nothing after a bus error runs (00_scope.md R14). -/
theorem Stops.andThen (h : Stops phs s r) (f : α → State → Res β) : Stops phs s (r.andThen f) := by
  intro p early has error
  obtain ⟨v, raised, cut⟩ := h p early has error
  exact ⟨v, by rw [raised, Res.raise_andThen], cut⟩

theorem Stops.append {F : State → Res α → Prop} {r' : Res β} (first : Stops phs s r') (whole : Passes phs s r F)
    (second : ∀ u, Whole phs s u → F u r → Stops rest u r') : Stops (phs ++ rest) s r' := by
  intro p inside has error
  by_cases early : p < phs.length
  · obtain ⟨v, raised, cut⟩ := first p early has error
    exact ⟨v, raised, cut.append early rest⟩
  · obtain ⟨q, rfl⟩ := Nat.exists_eq_add_of_le (Nat.le_of_not_lt early)
    obtain ⟨u, pass, fin⟩ := whole error.noErrorFor
    obtain ⟨v, raised, cut⟩ := second u pass fin q (by simpa using inside) (by rw [pass.went.par]; exact has)
      (pass.went.errorAt has error)
    exact ⟨v, by rw [raised, pass.went.phase, Nat.add_assoc], pass.cut cut⟩

theorem Passes.andThen {Fin : State → Res β → Prop} (h : Passes phs s r (Gives P))
    (g : ∀ a u, r = .ok a u → Whole phs s u → P a u → Passes rest u (f a u) Fin) :
    Passes (phs ++ rest) s (r.andThen f) Fin := by
  intro none
  rw [List.length_append] at none
  obtain ⟨u, pass, a, rfl, p⟩ := h none.left
  obtain ⟨v, pass', fin⟩ := g a u rfl pass p (pass.went.noErrorFor none)
  exact ⟨v, pass.trans pass', fin⟩

theorem Walks.andThen {Fin : State → Res β → Prop} (h : Walks phs s r (Gives P))
    (g : ∀ a u, r = .ok a u → Whole phs s u → P a u → Walks rest u (f a u) Fin) :
    Walks (phs ++ rest) s (r.andThen f) Fin where
  passes := h.passes.andThen fun a u e pass p => (g a u e pass p).passes
  stops := (h.stops.andThen f).append h.passes fun u pass ⟨a, e, p⟩ => by
    rw [e]
    exact (g a u e pass p).stops

theorem Walks.mono {F G : State → Res α → Prop} (h : Walks phs s r F) (imp : ∀ v, Whole phs s v → F v r → G v r) :
    Walks phs s r G where
  passes := fun none => by
    obtain ⟨v, pass, fin⟩ := h.passes none
    exact ⟨v, pass, imp v pass fin⟩
  stops := h.stops

/-- A step without a phase before a run. -/
theorem Walks.before {u : State} {F : State → Res α → Prop} (step : Whole [] s u) (h : Walks phs u r F) :
    Walks phs s r F where
  passes := fun none => by
    obtain ⟨v, pass, fin⟩ := h.passes (step.went.noErrorFor (m := 0) (by rwa [Nat.zero_add]))
    exact ⟨v, step.trans pass, fin⟩
  stops := fun p inside has error => by
    obtain ⟨v, raised, cut⟩ := h.stops p inside (by rw [step.went.par]; exact has)
      (step.went.errorAt (m := 0) has (by rwa [Nat.zero_add]))
    refine ⟨v, by rw [raised, step.went.phase]; rfl, ?_⟩
    simpa using step.cut cut

end Walks

/-- A run that ends at once. -/
theorem walks_nil {α : Type} {s v : State} {r : Res α} {F : State → Res α → Prop} (step : Whole [] s v) (fin : F v r) :
    Walks [] s r F where
  passes := fun _ => ⟨v, step, fin⟩
  stops := Stops.nil

/-! ### One phase -/

/-- The end of a phase: CS_N rises, and a bus error raises BUS_FAULT (R143). -/
theorem csHigh_ends {s : State} (benign : Benign s) : ∃ w, HostOnly s w ∧ Benign w ∧ csHigh s =
    if w.busError then .raise .busFault (phaseDetail s.loc.phase) (csRise w).1 else .ok () (csRise w).1 := by
  obtain ⟨_, w, passed, host, -, benign'⟩ := pass_benign benign (holdTime s.par)
  refine ⟨w, host, benign', ?_⟩
  rw [csHigh, passed, ← host.loc]
  cases error : w.busError <;> simp [csRise, error]

/-- The rise of CS_N, where the schedule of BUS_ERR says what it samples. -/
theorem went_csRise {s : State} (benign : Benign s) {b : Bool} {later : List Bool}
    (sample : s.par.hasBusErr = true → s.env.busErr = b :: later) :
    Went 0 [.csh s.busError] 1 s (csRise s).1 := by
  obtain ⟨-, host, -, -, -, trace⟩ := emitRise_env { s with
    pins := { s.pins with csN := true, cslOk := s.env.now + s.par.tCshMin }
    loc := { s.loc with phase := s.loc.phase + 1 } }
  have env : (csRise s).1.env.miso = s.env.miso ∧ (csRise s).1.env.freeDraws = s.env.freeDraws ∧
      (s.par.hasBusErr = true → (csRise s).1.env.busErr = later) := by
    cases has : s.par.hasBusErr with
    | false => simp [csRise, emitRise, has]
    | true => simp [csRise, emitRise, has, Env.takeBusErr, sample has]
  obtain ⟨miso, freeDraws, busErr⟩ := env
  exact {
    par := rfl
    miso := miso
    freeDraws := freeDraws
    busErr := fun has => by rw [busErr has, sample has]; rfl
    bus := by
      have trace' : (csRise s).1.env.trace = ⟨s.env.now, .csh s.busError⟩ :: s.env.trace := trace
      simp [State.bus, trace']
    phase := rfl
    initDone := rfl
    running := fun _ => ⟨rfl, rfl⟩
    benign := benign.congr host rfl }

/-- A phase up to its last slot, and the rise of CS_N that ends it (R133). -/
theorem phaseOf_slots {α : Type} {pre : Byte} {body : State → Res α} {bs : List Byte} {Q : α → List Half → Prop}
    {s : State} (benign : Benign s)
    (hbody : ∀ u new, Ran 1 new s u → u.pins.mosi = false → u.pins.sck = sckIdle u.par.spiMode →
      (body u).Yields fun a v => ∃ l, SlotRun bs l u v ∧ Q a l) :
    ∃ a l w, Q a l ∧ Went (bs.length + 1) (.csl :: slotEvents (pre :: bs) s.env) 0 s w ∧ w.loc = s.loc ∧
      w.csr.rdata = s.csr.rdata ∧ (s.seq.state = .exec → isBulkWord s.seq.cur = true → w.lb = l) ∧
      phaseOf pre body s =
        if w.busError then .raise .busFault (phaseDetail s.loc.phase) (csRise w).1 else .ok a (csRise w).1 := by
  obtain ⟨_, s1, low, r1, -, l1, -, -⟩ := csLow_benign benign
  obtain ⟨_, s2, first, -, r2, -, -, -, p3, p4, p5⟩ := xfer_benign pre r1.benign
  obtain ⟨_, s3, gap, k3, -, b3⟩ := pass_benign r2.benign (slotGap s2.par)
  have r13 := (r1.trans r2).trans (.of_hostOnly k3 b3)
  rw [List.nil_append] at r13
  obtain ⟨a, s4, slots, l, ⟨⟨new, r4, events⟩, -, -, -, -, -, l4⟩, q⟩ :=
    hbody s3 _ r13 (by rw [k3.pins, p3]) (by rw [k3.pins, p4, k3.par, r2.par])
  obtain ⟨w, k5, b5, high⟩ := csHigh_ends r4.benign
  have loc : s4.loc = s.loc := by rw [l4, k3.loc, p5, l1]
  have ran := ((r13.withLb l).trans r4).trans (.of_hostOnly k5 b5)
  refine ⟨a, l, w, q, ?_, by rw [k5.loc, loc], ran.rdata, ran.buffer, ?_⟩
  · rw [show bs.length + 1 = 0 + 1 + 0 + bs.length + 0 by omega]
    refine Went.of_ran ran ?_ (by rw [k5.loc, loc])
    have answer : s1.env.nextMiso = s.env.nextMiso := nextMiso_congr r1.miso r1.freeDraws
    have later : slotEvents bs s3.env = slotEvents bs s.env.takeMiso := slotEvents_congr bs r13.miso r13.freeDraws
    simp [events, answer, later, slotEvents]
  · rw [loc] at high
    simp only [phaseOf, low, first, gap, slots, Res.ok_andThen, high]
    split <;> rfl

/-- A phase, whether or not it ends with a bus error. -/
theorem phaseOf_walks {α : Type} {pre : Byte} {body : State → Res α} {bs : List Byte} {Q : α → List Half → Prop}
    {s : State} (benign : Benign s)
    (hbody : ∀ u new, Ran 1 new s u → u.pins.mosi = false → u.pins.sck = sckIdle u.par.spiMode →
      (body u).Yields fun a v => ∃ l, SlotRun bs l u v ∧ Q a l) :
    Walks [⟨s.loc.step, pre :: bs, false⟩] s (phaseOf pre body s) (Gives fun a v => v.loc.step = s.loc.step ∧
      ∃ l, Q a l ∧ (s.seq.state = .exec → isBulkWord s.seq.cur = true → v.lb = l)) := by
  obtain ⟨a, l, w, q, went, loc, rdata, lb, phase⟩ := phaseOf_slots benign hbody
  have rise : ∀ {b later}, (s.par.hasBusErr = true → s.env.busErr = b :: later) →
      Went (bs.length + 1) (.csl :: slotEvents (pre :: bs) s.env ++ [.csh w.busError]) 1 s (csRise w).1 ∧
        (s.par.hasBusErr = true → w.busError = b) := by
    intro b later sample
    have sample' : s.par.hasBusErr = true → w.env.busErr = b :: later := fun has => by
      rw [went.busErr has, sample has]; rfl
    rw [← went.par] at sample' ⊢
    have := went.trans (went_csRise went.benign sample')
    rw [Nat.zero_add] at this
    exact ⟨this, fun has => by simp [State.busError, has, Env.nextBusErr, sample' has]⟩
  constructor
  · intro none
    obtain ⟨later, samples⟩ := none.head
    obtain ⟨whole, noError⟩ := rise samples
    have noError : w.busError = false := by
      cases has : s.par.hasBusErr with
      | false => simp [State.busError, went.par, has]
      | true => exact noError has
    rw [noError] at whole
    refine ⟨(csRise w).1, ⟨by simpa [runEvents, phaseEvents] using whole, rdata⟩, a, ?_, ?_, l, q, lb⟩
    · rw [phase, if_neg (by simp [noError])]
    · exact (congrArg Local.step loc :)
  · rintro p inside has ⟨later, samples⟩
    obtain rfl : p = 0 := by simpa using inside
    obtain ⟨whole, error⟩ := rise fun _ => samples
    rw [error has] at whole
    refine ⟨(csRise w).1, by rw [phase, if_pos (error has)]; rfl, ⟨_, whole⟩, rdata, ?_⟩
    rintro ph ⟨⟩
    exact (congrArg Local.step loc :)

end Sys2Proof.Machine
end


section
/-! The phases of register accesses, waits, streams and tables (40_spi_framing.md R138 to R141;
41_register_commands.md R154 to R156; 43_system_commands.md R208). -/

namespace Sys2Proof.Machine

/-! ### Register accesses -/

/-- A run of the bus has not changed the line buffer of a running bulk command. -/
def LocksLb (s : State) (l : List Half) : Prop := s.seq.state = .exec → isBulkWord s.seq.cur = true → l = s.lb

theorem LocksLb.of_ran {n : Nat} {new : List TraceEntry} {s u : State} {l : List Half} (ran : Ran n new s u)
    (h : LocksLb u l) : LocksLb s l := fun exec bulk => by
  have seq := (ran.running exec).1
  rw [h (by rw [seq]; exact exec) (by rw [seq]; exact bulk), ran.buffer exec bulk]

theorem cmdPhase_walks {s : State} (a : Byte) (benign : Benign s) :
    Walks [⟨s.loc.step, [0x80#8, a], false⟩] s (cmdPhase a s)
      (Gives fun _ v => v.loc.step = s.loc.step ∧ LocksLb s v.lb) := by
  refine (phaseOf_walks (bs := [a]) (Q := fun _ => LocksLb s) benign fun u new ran _ _ =>
    (sendByte_run a ran.benign).mono fun _ v ⟨l, run, lock, _⟩ => ⟨l, run, LocksLb.of_ran ran lock⟩).mono ?_
  rintro v - ⟨x, ended, step, l, lock, lb⟩
  exact ⟨x, ended, step, fun exec bulk => (lb exec bulk).trans (lock exec bulk)⟩

theorem dataWrite_walks {s : State} (x : Byte) (benign : Benign s) :
    Walks [⟨s.loc.step, [0x00#8, x], false⟩] s (dataWrite x s) (Gives fun _ v => v.loc.step = s.loc.step) := by
  refine (phaseOf_walks (bs := [x]) (Q := fun _ _ => True) benign fun u new ran _ _ =>
    (sendByte_run x ran.benign).mono fun _ v ⟨l, run, _⟩ => ⟨l, run, trivial⟩).mono ?_
  rintro v - ⟨y, ended, step, -⟩
  exact ⟨y, ended, step⟩

theorem dataRead_walks {s : State} (benign : Benign s) :
    Walks [⟨s.loc.step, [0x40#8, s.par.readFill], false⟩] s (dataRead s)
      (Gives fun r v => r = s.env.answer 1 ∧ v.loc.step = s.loc.step) := by
  refine (phaseOf_walks (bs := [s.par.readFill]) (Q := fun r _ => r = s.env.answer 1) benign fun u new ran _ _ => ?_).mono ?_
  · rw [recvByte, ran.par]
    exact (xfer_run s.par.readFill ran.benign).mono fun r v ⟨answer, _, l, run, _⟩ =>
      ⟨l, run, answer.trans (nextMiso_congr ran.miso ran.freeDraws)⟩
  · rintro v - ⟨r, ended, step, l, answer, -⟩
    exact ⟨r, ended, answer, step⟩

theorem writeReg_walks {s : State} (a x : Byte) (benign : Benign s) :
    Walks (writePhases s.loc.step a x) s (writeReg a x s) (Gives fun _ v => v.loc.step = s.loc.step) := by
  refine (cmdPhase_walks a benign).andThen (rest := [⟨s.loc.step, [0x00#8, x], false⟩]) fun _ u _ whole ⟨step, _⟩ => ?_
  rw [← step]
  exact dataWrite_walks x whole.went.benign

theorem readReg_walks {s : State} (a : Byte) (benign : Benign s) :
    Walks (readPhases s.loc.step false s.par.readFill a) s (readReg a s)
      (Gives fun r v => r = s.env.answer 3 ∧ v.loc.step = s.loc.step) := by
  refine (cmdPhase_walks a benign).andThen (rest := [⟨s.loc.step, [0x40#8, s.par.readFill], false⟩])
    fun _ u _ whole ⟨step, _⟩ => ?_
  have answer : u.env.answer 1 = s.env.answer 3 := by
    rw [answer_congr 1 whole.went.miso whole.went.freeDraws, answer_after]
    rfl
  rw [← step, ← answer, ← whole.went.par]
  exact dataRead_walks whole.went.benign

theorem writePair_walks {s : State} (a : Byte) (d : Half) (benign : Benign s) :
    Walks (pairPhases s.loc.step a d) s (writePair a d s) (Gives fun _ v => v.loc.step = s.loc.step) := by
  refine (writeReg_walks a (loByte d) benign).andThen fun _ u _ whole step => ?_
  rw [← step]
  exact writeReg_walks (a + 1#8) (hiByte d) whole.went.benign

/-! ### Reads to RDATA -/

/-- A change of a state that stores a byte in RDATA and may count a poll. -/
def StoresRdata (store : Byte → State → State) : Prop :=
  ∀ r u, ∃ l, store r u = setRdata r { u with loc := l } ∧ l.step = u.loc.step ∧ l.phase = u.loc.phase

/-- A register read that goes to RDATA (R154, R156). -/
theorem readStore_walks {s : State} {store : Byte → State → State} (stores : StoresRdata store) (a : Byte)
    (benign : Benign s) : Walks (readPhases s.loc.step true s.par.readFill a) s
      ((readReg a s).andThen fun r u => .ok r (store r u))
      (Gives fun r v => r = s.env.answer 3 ∧ v.loc.step = s.loc.step) := by
  have read := readReg_walks a benign
  constructor
  · intro none
    obtain ⟨u, ⟨went, -⟩, _, ended, rfl, step⟩ := read.passes none
    obtain ⟨l, stored, step', phase⟩ := stores (s.env.answer 3) u
    refine ⟨store (s.env.answer 3) u, ⟨?_, ?_⟩, _, by rw [ended, Res.ok_andThen], rfl, ?_⟩ <;> rw [stored]
    · exact { went with phase := phase.trans went.phase }
    · exact congrArg zext32 (answer_after 2 1 s.env).symm
    · exact step'.trans step
  · intro p inside has error
    obtain ⟨v, raised, cut⟩ := read.stops p inside has error
    refine ⟨v, by rw [raised, Res.raise_andThen], ?_⟩
    obtain rfl | rfl : p = 0 ∨ p = 1 := by have : p < 2 := inside; omega
    · exact ⟨cut.went, cut.rdata, fun ph h => cut.step _ rfl |>.trans (by cases h; rfl)⟩
    · exact ⟨cut.went, cut.rdata, fun ph h => cut.step _ rfl |>.trans (by cases h; rfl)⟩

theorem readToRdata_walks {s : State} (a : Byte) (benign : Benign s) :
    Walks (readPhases s.loc.step true s.par.readFill a) s (readToRdata a s) (Gives fun _ v => v.loc.step = s.loc.step) := by
  have stores : StoresRdata setRdata := fun r u => ⟨u.loc, rfl, rfl, rfl⟩
  have read := (readStore_walks stores a benign).andThen (rest := []) (f := fun _ u => .ok () u)
    (Fin := Gives fun _ v => v.loc.step = s.loc.step) fun r u _ whole ⟨_, step⟩ =>
      walks_nil ⟨.of_hostOnly (.refl u) whole.went.benign, rfl⟩ ⟨(), rfl, step⟩
  rw [Res.andThen_assoc] at read
  exact read

/-! ### Waits -/

theorem waitMs_whole {s : State} (d : Nat) (benign : Benign s) :
    (waitMs d s).Yields fun _ v => Whole [] s v ∧ v.loc.step = s.loc.step := by
  obtain ⟨_, u, passed, host, -, benign'⟩ :=
    pass_benign (s := { s with loc := { s.loc with waitEnd := s.env.now + d * s.par.clkPerMs } }) benign
      (d * s.par.clkPerMs)
  rw [waitMs, passed]
  have went := Went.of_hostOnly host benign'
  refine Res.yields_ok ⟨⟨{ went with phase := went.phase }, host.rdata⟩, ?_⟩
  exact (congrArg Local.step host.loc :)

/-- How a wait with at most `n` reads ends in the state `v`, the device's answers being those of `e` (R156). -/
def waitResult (m : Byte) (n : Nat) (e : Env) (v : State) : Res Unit :=
  if readsUntilClear m n e = none ∧ n ≠ 0 then .raise .hwFault ((statusRead e (n - 1)).setWidth 16) v else .ok () v

theorem waitResult_congr (m : Byte) (n : Nat) {e f : Env} (miso : e.miso = f.miso) (draws : e.freeDraws = f.freeDraws)
    (v : State) : waitResult m n e v = waitResult m n f v := by
  rw [waitResult, waitResult, readsUntilClear_congr m n miso draws, statusRead_congr _ miso draws]

theorem waitPhases_congr (step limit : Nat) (fill a m : Byte) {e f : Env} (miso : e.miso = f.miso)
    (draws : e.freeDraws = f.freeDraws) : waitPhases step limit fill a m e = waitPhases step limit fill a m f := by
  rw [waitPhases, waitPhases, readsUntilClear_congr m limit miso draws]

/-- A wait reads once, and again where that read finds the mask set. -/
theorem waitPhases_succ (step n : Nat) (fill a m : Byte) (e : Env) : waitPhases step (n + 1) fill a m e =
    readPhases step true fill a ++ if isBusy (e.answer 3) m then waitPhases step n fill a m (e.after 4) else [] := by
  unfold waitPhases
  rw [readsUntilClear]
  cases isBusy (e.answer 3) m with
  | false => simp
  | true =>
    have count : ((readsUntilClear m n (e.after 4)).map (· + 1)).getD (n + 1) =
        (readsUntilClear m n (e.after 4)).getD n + 1 := by cases readsUntilClear m n (e.after 4) <;> rfl
    simp [count, List.replicate_succ]

theorem waitLoop_walks (a m : Byte) (i n : Nat) : ∀ {s : State}, Benign s →
    Walks (waitPhases s.loc.step n s.par.readFill a m s.env) s (waitLoop a m i n s)
      fun v r => r = waitResult m n s.env v ∧ v.loc.step = s.loc.step := by
  induction n with
  | zero =>
    intro s benign
    exact walks_nil ⟨.of_hostOnly (.refl s) benign, rfl⟩ ⟨by simp [waitResult, waitLoop], rfl⟩
  | succ n ih =>
    intro s benign
    have stores : StoresRdata fun r u => setRdata r { u with loc := { u.loc with polls := u.loc.polls + 1 } } :=
      fun r u => ⟨_, rfl, rfl, rfl⟩
    have loop : waitLoop a m i (n + 1) s = ((readReg a s).andThen fun r u =>
        .ok r (setRdata r { u with loc := { u.loc with polls := u.loc.polls + 1 } })).andThen fun r u =>
          if isBusy r m = false then .ok () u
          else if n = 0 then .raise .hwFault (r.setWidth 16) u
          else (waitMs i u).andThen fun _ u => waitLoop a m i n u := by
      rw [Res.andThen_assoc]
      rfl
    rw [waitPhases_succ, loop]
    refine (readStore_walks stores a benign).andThen fun r u _ whole ⟨answer, step⟩ => ?_
    have here : Whole [] u u := ⟨.of_hostOnly (.refl u) whole.went.benign, rfl⟩
    have status : statusRead s.env 0 = s.env.answer 3 := rfl
    rw [answer]
    cases busy : isBusy (s.env.answer 3) m with
    | false =>
      rw [if_neg Bool.false_ne_true, if_pos rfl]
      exact walks_nil here ⟨by simp [waitResult, readsUntilClear, busy], step⟩
    | true =>
      rw [if_pos rfl, if_neg (by decide)]
      cases n with
      | zero =>
        rw [if_pos rfl]
        exact walks_nil here ⟨by simp [waitResult, readsUntilClear, busy, status], step⟩
      | succ n =>
        rw [if_neg (Nat.succ_ne_zero n)]
        obtain ⟨_, w, waited, whole', step'⟩ := waitMs_whole i whole.went.benign
        obtain ⟨miso, draws⟩ : w.env.miso = (s.env.after 4).miso ∧ w.env.freeDraws = (s.env.after 4).freeDraws :=
          ⟨whole'.went.miso.trans whole.went.miso, whole'.went.freeDraws.trans whole.went.freeDraws⟩
        have later := ih whole'.went.benign
        rw [step', step, whole'.went.par, whole.went.par, waitPhases_congr _ _ _ _ _ miso draws] at later
        rw [waited, Res.ok_andThen]
        refine (later.before whole').mono fun v _ ⟨ended, stepped⟩ => ⟨?_, stepped⟩
        rw [ended, waitResult_congr _ _ miso draws]
        simp [waitResult, readsUntilClear, busy, statusRead_after]

/-! ### Streams -/

theorem streamWrite_walks {s : State} (a : Byte) (n : Nat) (benign : Benign s) (exec : s.seq.state = .exec)
    (bulk : isBulkWord s.seq.cur = true) :
    Walks [⟨s.loc.step, [0x80#8, a], false⟩, ⟨s.loc.step, 0x00#8 :: lbBytes s n, false⟩] s
      (streamWrite a (sendPixels 0 n) s) (Gives fun _ v => v.loc.step = s.loc.step) := by
  refine (cmdPhase_walks a benign).andThen (rest := [⟨s.loc.step, 0x00#8 :: lbBytes s n, false⟩])
    fun _ u _ whole ⟨step, lock⟩ => ?_
  have seq := (whole.went.running exec).1
  rw [← step]
  refine (phaseOf_walks (bs := lbBytes s n) (Q := fun _ _ => True) whole.went.benign fun w new ran m k => ?_).mono ?_
  · have seq' := (ran.running (by rw [seq]; exact exec)).1
    have lb : w.lb = s.lb := (ran.buffer (by rw [seq]; exact exec) (by rw [seq]; exact bulk)).trans (lock exec bulk)
    have bytes : ((List.range' 0 n).flatMap fun j => pixBytes w.par.pixMsbFirst (getLb j w)) = lbBytes s n := by
      simp only [lbBytes, List.range_eq_range', getLb, lb, ran.par, whole.went.par]
    refine (sendPixels_benign n 0 ran.benign m k (by rw [seq', seq]; exact exec) (by rw [seq', seq]; exact bulk)).mono
      fun _ v run => ⟨w.lb, ?_, trivial⟩
    rw [← bytes]
    exact run
  · rintro v - ⟨x, ended, stepped, -⟩
    exact ⟨x, ended, stepped⟩

theorem streamRead_walks {s : State} (a : Byte) (n : Nat) (benign : Benign s) (exec : s.seq.state = .exec)
    (bulk : isBulkWord s.seq.cur = true) :
    Walks [⟨s.loc.step, [0x80#8, a], false⟩,
        ⟨s.loc.step, 0x40#8 :: List.replicate (s.par.mreadDummy + 2 * n) s.par.readFill, false⟩] s
      (streamRead a (recvPixels 0 n) s) (Gives fun _ v => v.loc.step = s.loc.step) := by
  refine (cmdPhase_walks a benign).andThen
    (rest := [⟨s.loc.step, 0x40#8 :: List.replicate (s.par.mreadDummy + 2 * n) s.par.readFill, false⟩])
    fun _ u _ whole ⟨step, _⟩ => ?_
  have seq := (whole.went.running exec).1
  rw [← step, ← whole.went.par]
  refine (phaseOf_walks (bs := List.replicate (u.par.mreadDummy + 2 * n) u.par.readFill) (Q := fun _ _ => True)
    whole.went.benign fun w new ran m k => ?_).mono ?_
  · have seq' := (ran.running (by rw [seq]; exact exec)).1
    refine (recvDummies_benign w.par.mreadDummy ran.benign m k (by rw [seq', seq]; exact exec)
      (by rw [seq', seq]; exact bulk)).andThen fun _ x ⟨dummies, lb, seq''⟩ => ?_
    obtain ⟨-, -, -, -, mosi, sck, -⟩ := id dummies
    refine (recvPixels_benign n 0 dummies.benign mosi (by rw [sck, dummies.par]) (by rw [seq'', seq', seq]; exact exec)
      (by rw [seq'', seq', seq]; exact bulk)).mono fun _ v pixels =>
        ⟨storePixels w.par.pixMsbFirst 0 n x.env x.lb, ?_, trivial⟩
    rw [List.replicate_add, ← ran.par]
    rw [dummies.par] at pixels
    exact dummies.append (l' := x.lb) pixels
  · rintro v - ⟨x, ended, stepped, -⟩
    exact ⟨x, ended, stepped⟩

end Sys2Proof.Machine
end


section
/-! INIT: the reset pulse, the walk of the table while the host does nothing, and the wait entry or the bus error that ends
it (43_system_commands.md R201 to R208; 60_exceptions.md R303, R304). -/

namespace Sys2Proof.Machine

/-! ### The table -/

/-- The phases of one INIT_TABLE entry (R208). -/
def entryPhases (s : State) (step : Nat) (en : InitEntry) (e : Env) : List Phase :=
  match en.kind with
  | .wr => writePhases step en.a (loByte en.d)
  | .wr16 => pairPhases step en.a en.d
  | .wt => waitPhases step s.csr.waitLimit.toNat s.par.readFill en.a (loByte en.d) e
  | .dl => []

theorem tablePhases_cons (s : State) (step : Nat) (en : InitEntry) (rest : List InitEntry) (e : Env) :
    tablePhases s step (en :: rest) e = entryPhases s step en e ++
      (entryEvents s en e).elim [] fun q => tablePhases s (step + 1) rest q.2 := by
  rw [tablePhases]
  unfold entryPhases entryEvents
  cases en.kind with
  | wr => rfl
  | wr16 => rfl
  | wt => cases readsUntilClear (loByte en.d) s.csr.waitLimit.toNat e <;> rfl
  | dl => rfl

theorem runEvents_reads (step j : Nat) (b : Bool) (fill a : Byte) (e : Env) :
    runEvents (List.replicate j (readPhases step b fill a)).flatten e = readsEvents fill a j e := by
  induction j generalizing e with
  | zero => rfl
  | succ j ih =>
    rw [List.replicate_succ, List.flatten_cons, runEvents_append, ih]
    simp [readPhases, runEvents, readsEvents, accessEvents]

theorem slots_reads (step j : Nat) (b : Bool) (fill a : Byte) :
    slots (List.replicate j (readPhases step b fill a)).flatten = 4 * j := by
  induction j with
  | zero => rfl
  | succ j ih =>
    rw [List.replicate_succ, List.flatten_cons, slots_append, ih]
    simp [readPhases]
    omega

/-- RDATA after reads that go there is the last one's byte. -/
theorem rdataAfter_reads (step j : Nat) (fill a : Byte) (e : Env) (v : Word) :
    rdataAfter (List.replicate (j + 1) (readPhases step true fill a)).flatten e v = zext32 (statusRead e j) := by
  induction j generalizing e v with
  | zero => simp [readPhases, rdataAfter, statusRead, answer_after]
  | succ j ih =>
    rw [List.replicate_succ, List.flatten_cons, rdataAfter_append, ih, ← statusRead_after]
    rfl

/-- The events and the slots of an entry that ends are those of its phases. -/
theorem entryEvents_eq {s : State} {en : InitEntry} {e : Env} {q : List BusEvent × Env} (step : Nat)
    (ends : entryEvents s en e = some q) : q.1 = runEvents (entryPhases s step en e) e ∧
      q.2 = e.after (slots (entryPhases s step en e)) := by
  unfold entryEvents at ends
  unfold entryPhases
  cases kind : en.kind <;> simp only [kind] at ends ⊢
  case wt =>
    obtain ⟨k, reads, rfl⟩ := Option.map_eq_some_iff.mp ends
    simp only [waitPhases, reads, Option.getD_some, runEvents_reads, slots_reads, and_self]
  all_goals
    cases ends
    simp [writePhases, pairPhases, runEvents, accessEvents, loByte, hiByte, Env.after]

/-- How an entry ends in the state `v`. -/
def entryResult (s : State) (en : InitEntry) (e : Env) (v : State) : Res Unit :=
  if en.kind = .wt then waitResult (loByte en.d) s.csr.waitLimit.toNat e v else .ok () v

theorem entryResult_of_ends {s : State} {en : InitEntry} {e : Env} {q : List BusEvent × Env}
    (ends : entryEvents s en e = some q) (v : State) : entryResult s en e v = .ok () v := by
  unfold entryResult
  split
  · rename_i wait
    simp only [entryEvents, wait] at ends
    obtain ⟨k, reads, -⟩ := Option.map_eq_some_iff.mp ends
    simp [waitResult, reads]
  · rfl

/-- The host does nothing, and WAIT_LIMIT is `l`. -/
def QuietLimit (l : Half) (u : State) : Prop := Quiet u ∧ u.csr.waitLimit = l

theorem quietLimit_law (l : Half) : BusLaw (fun _ => QuietLimit l) (fun _ => False) False :=
  quiet_law (fun _ h => h.1) fun _ _ h kept => ⟨kept.host.trans h.1, by rw [kept.csr]; exact h.2⟩

/-- An entry of INIT, begun in `s`, starts in `u` with the surroundings `e`. -/
structure AtEntry (s : State) (e : Env) (u : State) : Prop where
  quiet : Quiet u
  par : u.par = s.par
  waitLimit : u.csr.waitLimit = s.csr.waitLimit
  miso : u.env.miso = e.miso
  freeDraws : u.env.freeDraws = e.freeDraws

/-- The entry index is set, and no poll of the entry has run (R204). -/
def enterEntry (step : Nat) (u : State) : State := { u with loc := { u.loc with step := step, polls := 0 } }

theorem enterEntry_whole {u : State} (benign : Benign u) (step : Nat) : Whole [] u (enterEntry step u) :=
  ⟨{ Went.of_hostOnly (.refl u) benign with phase := rfl }, rfl⟩

section Entry

variable {s u v : State} {e : Env}

theorem runEntry_walks (h : AtEntry s e u) (en : InitEntry) (step : Nat) :
    Walks (entryPhases s step en e) u (runEntry en (enterEntry step u))
      fun v r => r = entryResult s en e v ∧ v.loc.step = step := by
  obtain ⟨quiet, par, waitLimit, miso, draws⟩ := h
  have benign : Benign (enterEntry step u) := quiet.benign
  have miso : (enterEntry step u).env.miso = e.miso := miso
  have draws : (enterEntry step u).env.freeDraws = e.freeDraws := draws
  refine Walks.before (enterEntry_whole quiet.benign step) ?_
  unfold entryPhases entryResult runEntry
  cases en.kind with
  | wr =>
    refine (writeReg_walks en.a (loByte en.d) benign).mono ?_
    rintro v - ⟨_, ended, stepped⟩
    exact ⟨ended, stepped⟩
  | wr16 =>
    refine (writePair_walks en.a en.d benign).mono ?_
    rintro v - ⟨_, ended, stepped⟩
    exact ⟨ended, stepped⟩
  | wt =>
    have wait := waitLoop_walks en.a (loByte en.d) u.csr.waitInterval.toNat s.csr.waitLimit.toNat benign
    rw [waitPhases_congr _ _ _ _ _ miso draws, show (enterEntry step u).par = s.par from par] at wait
    dsimp only
    rw [show (enterEntry step u).csr.waitLimit = s.csr.waitLimit from waitLimit]
    refine wait.mono fun v _ ⟨ended, stepped⟩ => ⟨?_, stepped⟩
    rw [ended, waitResult_congr _ _ miso draws, if_pos rfl]
  | dl =>
    obtain ⟨_, v, waited, whole, stepped⟩ := waitMs_whole (s := enterEntry step u) en.d.toNat benign
    exact walks_nil whole ⟨waited, stepped⟩

/-- The walk goes on after an entry that ends. -/
theorem AtEntry.next {en : InitEntry} {step : Nat} {q : List BusEvent × Env} (h : AtEntry s e u)
    (ends : entryEvents s en e = some q) (whole : Whole (entryPhases s step en e) u v)
    (ended : runEntry en (enterEntry step u) = .ok () v) : AtEntry s q.2 v := by
  obtain ⟨miso, draws⟩ := after_congr (slots (entryPhases s step en e)) h.miso h.freeDraws
  have start : QuietLimit s.csr.waitLimit (enterEntry step u) := ⟨h.quiet, h.waitLimit⟩
  have kept := (quietLimit_law s.csr.waitLimit).runEntry_sat (fun _ _ h => h) en start
  rw [ended] at kept
  rw [(entryEvents_eq step ends).2]
  exact ⟨kept.1, whole.went.par.trans h.par, kept.2, whole.went.miso.trans miso, whole.went.freeDraws.trans draws⟩

end Entry

/-- A bus error in a phase of the table stops the walk (R143, R204). -/
theorem runTable_stops {s : State} (table : List InitEntry) (step : Nat) {e : Env} {u : State} (h : AtEntry s e u) :
    Stops (tablePhases s step table e) u (runTable table step u) := by
  induction table generalizing step e u with
  | nil => exact Stops.nil
  | cons en rest ih =>
    have entry := runEntry_walks h en step
    rw [tablePhases_cons]
    refine (entry.stops.andThen fun _ w => runTable rest (step + 1) w).append entry.passes fun v whole ⟨ended, _⟩ => ?_
    cases ends : entryEvents s en e with
    | none => exact Stops.nil
    | some q =>
      rw [entryResult_of_ends ends] at ended
      rw [ended]
      exact ih (step + 1) (h.next ends whole ended)

/-- The events and the slots of a table that ends are those of its phases. -/
theorem tableEvents_eq {s : State} (table : List InitEntry) (step : Nat) {e e' : Env} {evs : List BusEvent}
    (ends : tableEvents s table e = some (evs, e')) : evs = runEvents (tablePhases s step table e) e ∧
      e' = e.after (slots (tablePhases s step table e)) := by
  induction table generalizing step e evs with
  | nil => cases ends; exact ⟨rfl, rfl⟩
  | cons en rest ih =>
    simp only [tableEvents, Option.bind_eq_some_iff, Option.map_eq_some_iff] at ends
    obtain ⟨q, ends, r, ends', eq⟩ := ends
    cases eq
    obtain ⟨events, later⟩ := entryEvents_eq step ends
    obtain ⟨events', later'⟩ := ih (step + 1) ends'
    rw [tablePhases_cons, ends, runEvents_append, slots_append, ← after_add, ← events, ← later]
    exact ⟨congrArg _ events', later'⟩

/-- A table whose wait entries all read clear is walked to its end (R208). -/
theorem runTable_passes {s : State} (table : List InitEntry) (step : Nat) {e e' : Env} {evs : List BusEvent} {u : State}
    (h : AtEntry s e u) (ends : tableEvents s table e = some (evs, e')) :
    Passes (tablePhases s step table e) u (runTable table step u) (Gives fun _ v => AtEntry s e' v) := by
  induction table generalizing step e evs u with
  | nil =>
    cases ends
    exact fun _ => ⟨u, ⟨.of_hostOnly (.refl u) h.quiet.benign, rfl⟩, (), rfl, h⟩
  | cons en rest ih =>
    simp only [tableEvents, Option.bind_eq_some_iff, Option.map_eq_some_iff] at ends
    obtain ⟨q, ends, r, ends', eq⟩ := ends
    cases eq
    have entry : Walks (entryPhases s step en e) u (runEntry en (enterEntry step u)) (Gives fun _ _ => True) :=
      (runEntry_walks h en step).mono fun v _ ⟨ended, _⟩ => ⟨(), ended.trans (entryResult_of_ends ends v), trivial⟩
    rw [tablePhases_cons, ends]
    exact entry.passes.andThen fun _ v ended whole _ => ih (step + 1) (h.next ends whole ended) ends'

theorem runTable_append (before rest : List InitEntry) (step : Nat) (u : State) : runTable (before ++ rest) step u =
    (runTable before step u).andThen fun _ v => runTable rest (step + before.length) v := by
  induction before generalizing step u with
  | nil => rfl
  | cons en before ih =>
    simp only [List.cons_append, runTable, Res.andThen_assoc, ih, List.length_cons, Nat.add_assoc, Nat.add_comm 1]

/-- A wait entry that never reads clear ends the walk (R204, R205). -/
theorem runTable_waits {s : State} {en : InitEntry} (rest : List InitEntry) (step : Nat) {e : Env} {u : State}
    (h : AtEntry s e u) (kind : en.kind = .wt) (limit : s.csr.waitLimit ≠ 0#16)
    (busy : readsUntilClear (loByte en.d) s.csr.waitLimit.toNat e = none) :
    Passes (entryPhases s step en e) u (runTable (en :: rest) step u) fun v r =>
      r = .raise .hwFault ((statusRead e (s.csr.waitLimit.toNat - 1)).setWidth 16) v ∧ v.loc.step = step := by
  intro none
  obtain ⟨v, whole, ended, stepped⟩ := (runEntry_walks h en step).passes none
  have limit : s.csr.waitLimit.toNat ≠ 0 := fun zero => limit (BitVec.eq_of_toNat_eq zero)
  rw [entryResult, if_pos kind, waitResult, if_pos ⟨busy, limit⟩] at ended
  exact ⟨v, whole, by rw [runTable]; exact congrArg (Res.andThen · _) ended, stepped⟩

/-! ### The reset pulse and INIT_DONE -/

/-- The reset pulse's events, whatever RST_N was before (R200). -/
theorem resetPulse_went {s : State} (benign : Benign s) :
    (resetPulse s).Yields fun _ v => Went 0 [.rstl, .rsth] 0 s v ∧ v.csr.rdata = s.csr.rdata := by
  have here {u : State} (b : Benign u) := Went.of_hostOnly (.refl u) b
  have bus (ev : BusEvent) (u w : State) (trace : w.env.trace = ⟨u.env.now, ev⟩ :: u.env.trace) : w.bus = u.bus ++ [ev] := by
    simp [State.bus, trace]
  obtain ⟨_, u, waited, low, -⟩ := waitMs_whole (s := rstLow s) s.par.tRstLowMs benign
  obtain ⟨_, v, waited', high, -⟩ := waitMs_whole (s := rstHigh u) u.par.tRstWaitMs low.went.benign
  have fall : Went 0 [.rstl] 0 s (rstLow s) := { here benign with bus := bus _ _ _ rfl }
  have rise : Went 0 [.rsth] 0 u (rstHigh u) := { here low.went.benign with bus := bus _ _ _ rfl }
  refine ⟨(), v, by rw [resetPulse, waited]; exact waited', ?_, high.rdata.trans low.rdata⟩
  exact ((fall.trans low.went).trans rise).trans high.went

/-- INIT's walk of its table starts after the reset pulse (R201). -/
structure InitStart (s v : State) : Prop where
  atEntry : AtEntry s s.env v
  busErr : s.par.hasBusErr = true → v.env.busErr = s.env.busErr
  bus : v.bus = s.bus ++ [.rstl, .rsth]
  phase : v.loc.phase = 0
  seq : v.seq = s.seq
  owner : v.owner = s.owner
  initDone : v.csr.initDone = false
  rdata : v.csr.rdata = s.csr.rdata

theorem initStart {s : State} (quiet : Quiet s) (exec : s.seq.state = .exec) :
    (resetPulse (setInitDone false (tick 1 { s with loc := Local.none }))).Yields fun _ v => InitStart s v := by
  let u : State := setInitDone false (tick 1 { s with loc := Local.none })
  have benign : Benign u := quiet.benign
  have law := quietLimit_law s.csr.waitLimit
  have kept : (resetPulse u).Sat (QuietLimit s.csr.waitLimit) (fun _ => False) False :=
    law.resetPulse_sat (law.timeLaw .gap) (fun _ h => h) (fun _ _ _ h => h) (fun _ h => h) ⟨quiet, rfl⟩
  obtain ⟨_, v, pulse, went, rdata⟩ := resetPulse_went benign
  rw [pulse] at kept
  obtain ⟨seq, owner⟩ := went.running exec
  exact ⟨(), v, pulse, ⟨kept.1, went.par, kept.2, went.miso, went.freeDraws⟩, went.busErr, went.bus, went.phase, seq,
    owner, went.initDone, rdata⟩

end Sys2Proof.Machine
end


section
/-! How INIT ends while the host does nothing: with INIT_DONE, or at the first wait entry that never reads clear
(43_system_commands.md R201 to R208; 60_exceptions.md R303, R304). -/

namespace Sys2Proof.Machine

/-! ### The fault record of a command -/

/-- BG of ERRAUX (10_state.md R37). -/
theorem errauxOf_bg (bg : Bool) (step : BitVec 15) (detail : Half) : (errauxOf bg step detail).getLsbD 31 = bg := by
  cases bg <;> simp [errauxOf, place, flagBit]

/-- STEP of ERRAUX (R37). -/
theorem errauxOf_step (bg : Bool) (step : BitVec 15) (detail : Half) :
    (errauxOf bg step detail).extractLsb' 16 15 = step := by
  simp [errauxOf, BitVec.extractLsb'_or, extractLsb'_place_self, extractLsb'_place_disjoint]

/-- DETAIL of ERRAUX (R37). -/
theorem errauxOf_detail (bg : Bool) (step : BitVec 15) (detail : Half) :
    (errauxOf bg step detail).extractLsb' 0 16 = detail := by
  simp [errauxOf, BitVec.extractLsb'_or, extractLsb'_place_self, extractLsb'_place_disjoint]

/-- STEP holds every entry index that fits it. -/
theorem toNat_stepField (now : Nat) {step : Nat} (fits : step < 32768) : (stepField now step).toNat = step := by
  rw [stepField, if_pos fits, BitVec.toNat_ofNat]
  omega

/-- The fault entry of a command that ran in `s` and raised in `v` (60_exceptions.md R303). -/
theorem faulted_of_seq {who : Raiser} {s v : State} (command : who ≠ .background) (exec : s.seq.state = .exec)
    (seq : v.seq = s.seq) (code : ErrCode) (detail : Half) :
    Faulted code (errauxOf false (stepField v.env.now v.loc.step) detail) s (tick 1 (faultEntry who code detail v)) := by
  have exec' : v.seq.state = .exec := by rw [seq]; exact exec
  obtain ⟨seq', owner, loc, err, errcmd⟩ := faultEntry_of_command command exec' code detail
  rw [seq] at seq' errcmd
  have erraux : (faultEntry who code detail v).csr.erraux =
      errauxOf false (stepField v.env.now v.loc.step) detail := by
    cases who
    case background => exact absurd rfl command
    all_goals
      simp only [faultEntry, State.faulted, exec', recordFault]
      rfl
  exact ⟨seq', owner, loc, err, errcmd, erraux⟩

/-- Fault entry stores to neither RDATA nor INIT_DONE. -/
theorem faultEntry_rdata (who : Raiser) (code : ErrCode) (detail : Half) (v : State) :
    (faultEntry who code detail v).csr.rdata = v.csr.rdata ∧
      (faultEntry who code detail v).csr.initDone = v.csr.initDone := by
  cases who <;> cases faulted : v.faulted <;> simp [faultEntry, faulted, recordFault, endPoll]

/-- The cycle of a fault entry has no bus event. -/
theorem tick_faultEntry_bus (who : Raiser) (code : ErrCode) (detail : Half) (v : State) :
    (tick 1 (faultEntry who code detail v)).bus = v.bus := by
  simp only [State.bus, tick_env_trace, faultEntry_env]

/-! ### INIT -/

theorem exec_init {k : Bool} {g : Half} {s : State} (quiet : Quiet s) (legal : g = 0#16 ∨ g = 1#16) :
    exec (.init k g) s = closeCommand .command k (initSequence g.toNat (tick 1 { s with loc := Local.none })) := by
  have accepted : operandError s.par.linebufWords (.init k g) = none := if_pos legal
  rw [exec_eq_runCommand, runCommand_quiet (s := entered (.init k g) s) quiet, commandBody, accepted]
  rfl

/-- INIT up to the start of its table (R201). -/
theorem initSequence_starts {s : State} (g : Nat) (quiet : Quiet s) (exec : s.seq.state = .exec) :
    ∃ v, InitStart s v ∧ initSequence g (tick 1 { s with loc := Local.none }) =
      (runTable (s.par.initTable g) 1 v).andThen fun _ w => .ok () (setInitDone true w) := by
  obtain ⟨_, v, pulse, start⟩ := initStart quiet exec
  exact ⟨v, start, by rw [initSequence, pulse, Res.ok_andThen, start.atEntry.par]⟩

/-- On hardware without a bus-error input no phase ends with a bus error. -/
theorem noErrorFor_of_noInput {s : State} (noBusErr : s.par.hasBusErr = false) (n : Nat) : NoErrorFor n s := by
  intro has
  rw [noBusErr] at has
  cases has

/-- Settles O22: no phase of the table ends with a bus error, so the walk comes to its end. -/
theorem initCompletes : Obligations.InitCompletes := by
  unfold Obligations.InitCompletes
  rintro k g s evs e ⟨exec, -, owned⟩ quiet noBusErr - legal ends
  obtain ⟨v, start, init⟩ := initSequence_starts g.toNat quiet exec
  obtain ⟨w, ⟨went, rdata⟩, _, ended, -⟩ := runTable_passes (s.par.initTable g.toNat) 1 start.atEntry ends
    (noErrorFor_of_noInput (by rw [start.atEntry.par]; exact noBusErr) _)
  obtain ⟨seq, owner⟩ := went.running (by rw [start.seq]; exact exec)
  let t : State := tick 1 (complete k (setInitDone true w))
  have next : Machine.exec (.init k g) s = .next t := by
    rw [exec_init quiet legal, init, ended]
    rfl
  have completed : Completed k s t := by
    refine ⟨?_, ?_, rfl⟩
    · simp [t, seq, start.seq]
    · simp [t, owner, start.owner, owned]
  obtain ⟨⟨par, -, -, -, -, -, resets, -, poll⟩, ⟨-, same⟩, -, sample, -⟩ :=
    systemCommandFrame (.init k g) s t (.inr ⟨k, g, rfl⟩) quiet next
  have csr := same rfl
  refine ⟨t, next, ⟨completed, ?_⟩, ?_, rfl, ?_⟩
  · refine ⟨par, ?_, ?_, ?_, by rw [sample], by rw [sample], by rw [poll, advance_tphase], ?_, resets⟩ <;> rw [csr]
  · rw [(tableEvents_eq (s.par.initTable g.toNat) 1 ends).1, ← runEvents_congr _ start.atEntry.miso start.atEntry.freeDraws,
      ← start.bus]
    exact went.bus
  · rw [← rdataAfter_congr _ _ start.atEntry.miso start.atEntry.freeDraws, ← start.rdata]
    exact rdata

/-- Settles O30: the entries before it end, so the walk comes to the wait entry that never reads clear. -/
theorem initFaultNamesEntry : Obligations.InitFaultNamesEntry := by
  unfold Obligations.InitFaultNamesEntry
  rintro k g s before after en evs e ⟨exec, -, owned⟩ quiet noBusErr - limit legal table ends kind busy
  obtain ⟨v, start, init⟩ := initSequence_starts g.toNat quiet exec
  have walk : Passes (tablePhases s 1 before s.env ++ entryPhases s (1 + before.length) en e) v
      (runTable (before ++ en :: after) 1 v) fun w r =>
        r = .raise .hwFault ((statusRead e (s.csr.waitLimit.toNat - 1)).setWidth 16) w ∧ w.loc.step = 1 + before.length := by
    rw [runTable_append]
    exact (runTable_passes before 1 start.atEntry ends).andThen fun _ u _ _ here =>
      runTable_waits after (1 + before.length) here kind limit busy
  obtain ⟨w, ⟨went, rdata⟩, ended, step⟩ := walk (noErrorFor_of_noInput (by rw [start.atEntry.par]; exact noBusErr) _)
  have reads : entryPhases s (1 + before.length) en e = (List.replicate s.csr.waitLimit.toNat
      (readPhases (1 + before.length) true s.par.readFill en.a)).flatten := by
    rw [entryPhases, kind]
    simp only [waitPhases, busy, Option.getD_none]
  obtain ⟨events, later⟩ := tableEvents_eq before 1 ends
  have faulted := faulted_of_seq (who := .command) (by decide) exec
    ((went.running (by rw [start.seq]; exact exec)).1.trans start.seq) .hwFault
    ((statusRead e (s.csr.waitLimit.toNat - 1)).setWidth 16)
  obtain ⟨rdata', initDone⟩ := faultEntry_rdata .command .hwFault
    ((statusRead e (s.csr.waitLimit.toNat - 1)).setWidth 16) w
  refine ⟨_, _, by rw [exec_init quiet legal, init, table, ended]; rfl, faulted, errauxOf_detail .., errauxOf_bg .., ?_,
    initDone.trans (went.initDone.trans start.initDone), rdata'.trans ?_, ?_⟩
  · intro fits
    rw [errauxOf_step, step, toNat_stepField _ (by omega), Nat.add_comm]
  · obtain ⟨n, more⟩ := Nat.exists_eq_succ_of_ne_zero fun zero => limit (BitVec.eq_of_toNat_eq zero)
    rw [rdata, rdataAfter_congr _ _ start.atEntry.miso start.atEntry.freeDraws, rdataAfter_append, ← later, reads, more]
    exact rdataAfter_reads ..
  · rw [tick_faultEntry_bus, went.bus, runEvents_congr _ start.atEntry.miso start.atEntry.freeDraws, runEvents_append,
      ← later, ← events, reads, runEvents_reads, start.bus, List.append_assoc, List.append_assoc, List.append_assoc]

end Sys2Proof.Machine
end


section
/-! A bus error in any phase of a command or poll: BUS_FAULT with the phase's index, and nothing after it
(40_spi_framing.md R143; 60_exceptions.md R303, R306, R310; 44_touch_sampler.md R243). -/

namespace Sys2Proof.Machine

/-! ### Commands of registers and streams -/

section Command

variable {s u : State}

/-- A bus error in a phase of a command but INIT and TPOLL stops its body. -/
theorem commandBody_stops {i : Instr} (running : Running i s) (opened : Opened s u) (noInit : ∀ k g, i ≠ .init k g)
    (noPoll : ∀ k, i ≠ .tpoll k) : Stops (commandPhases s i) u (commandBody i s u) := by
  obtain ⟨exec, cur, -⟩ := running
  have step : u.loc.step = 0 := (congrArg Local.step opened.host.loc :)
  have seq := opened.running exec
  have exec' : u.seq.state = .exec := by rw [seq]; exact exec
  have bulk (bulkWord : isBulkWord (encode i) = true) : isBulkWord u.seq.cur = true := by rw [seq, cur]; exact bulkWord
  cases i with
  | nop k => exact Stops.nil
  | delay k ms => exact Stops.nil
  | reset k => exact Stops.nil
  | init k g => exact absurd rfl (noInit k g)
  | tpoll k => exact absurd rfl (noPoll k)
  | wreg k a v =>
    have access := (writeReg_walks a v opened.benign).stops
    rw [step] at access
    exact access
  | rreg k a =>
    have access := (readToRdata_walks a opened.benign).stops
    rw [step, opened.par] at access
    exact access
  | wait k a m =>
    have loop := (waitLoop_walks a m s.csr.waitInterval.toNat s.csr.waitLimit.toNat opened.benign).stops
    rw [step, opened.par, waitPhases_congr _ _ _ _ _ opened.miso opened.freeDraws] at loop
    exact loop
  | wreg16 k a d =>
    dsimp only [commandPhases]
    split
    · exact Stops.nil
    · rename_i legal
      have access := (writePair_walks a d opened.benign).stops
      rw [step] at access
      rw [commandBody, show operandError _ (.wreg16 k a d) = none from if_neg legal]
      exact access
  | mwrite k a n =>
    dsimp only [commandPhases]
    split
    · rename_i legal
      have lb : lbBytes u n.toNat = lbBytes s n.toNat := by
        simp only [lbBytes, getLb, opened.par, opened.host.buffer exec (by rw [cur]; exact isBulkWord_encode.1)]
      have stream := (streamWrite_walks a n.toNat opened.benign exec' (bulk isBulkWord_encode.1)).stops
      rw [step, lb] at stream
      rw [commandBody, (operandError_bulk legal.1 legal.2).1]
      exact stream
    · exact Stops.nil
  | mread k a n =>
    dsimp only [commandPhases]
    split
    · rename_i legal
      have stream := (streamRead_walks a n.toNat opened.benign exec' (bulk isBulkWord_encode.2)).stops
      rw [step, opened.par] at stream
      rw [commandBody, (operandError_bulk legal.1 legal.2).2]
      exact stream
    · exact Stops.nil

end Command

/-! ### Polls -/

/-- The coordinates of a touched poll that the device answers with the draws of `e` (44_touch_sampler.md R237). -/
def polledCoords (c1 : Word) (e : Env) : Coord × Coord :=
  (coordOf (e.answer 7) (e.answer 15) (xlShift c1), coordOf (e.answer 11) (e.answer 15) (ylShift c1))

/-- The sample after the commit of `xy` in a poll that begins in `s` (R238, R239). -/
def committedSample (xy : Coord × Coord) (s : State) : Sample :=
  { x := xy.1, y := xy.2, ready := true, touched := true, tovr := s.sample.tovr || s.sample.ready }

/-- A quiet poll that began in `s` stopped: with the old sample if `early`, after the commit of `xy` otherwise (R243). -/
structure PollCut (early : Prop) (xy : Coord × Coord) (s : State) (relcnt : Byte) (v : State) : Prop where
  before : early → InPoll s relcnt (· = s.sample) v
  after : ¬ early → InPoll s 0#8 (· = committedSample xy s) v

theorem polledCoords_congr (c1 : Word) {e f : Env} (miso : e.miso = f.miso) (draws : e.freeDraws = f.freeDraws) :
    polledCoords c1 e = polledCoords c1 f := by
  simp only [polledCoords, answer_congr _ miso draws]

/-- The sample of a stopped poll, in one term. -/
theorem PollCut.inPoll {s v : State} {relcnt : Byte} {xy : Coord × Coord} {p : Nat} (h : PollCut (p < 8) xy s relcnt v) :
    InPoll s (if p < 8 then relcnt else 0#8) (· = if p < 8 then s.sample else committedSample xy s) v := by
  by_cases early : p < 8
  · rw [if_pos early, if_pos early]
    exact h.before early
  · rw [if_neg early, if_neg early]
    exact h.after early

theorem pollPhases_congr (c0 c1 : Word) (fill : Byte) {e f : Env} (miso : e.miso = f.miso)
    (draws : e.freeDraws = f.freeDraws) : pollPhases c0 c1 fill e = pollPhases c0 c1 fill f := by
  rw [pollPhases, pollPhases, answer_congr 3 miso draws]

/-- A poll has at most ten phases, none of an INIT_TABLE entry. -/
theorem pollPhases_bounds (c0 c1 : Word) (fill : Byte) (e : Env) :
    (pollPhases c0 c1 fill e).length ≤ 10 ∧ ∀ ph ∈ pollPhases c0 c1 fill e, ph.step = 0 := by
  unfold pollPhases
  split <;> simp [readPhases, writePhases]

/-- The phases of a poll that finds the touch bit set, in the segments of R236. -/
theorem pollPhases_touched {c0 c1 : Word} {fill : Byte} {e : Env} (touched : touchSet (e.answer 3) (intMask c0) = true) :
    pollPhases c0 c1 fill e = readPhases 0 false fill (intAddr c0) ++
      ((readPhases 0 false fill (xhAddr c0) ++ (readPhases 0 false fill (yhAddr c0) ++
        readPhases 0 false fill (xylAddr c1))) ++ writePhases 0 (intAddr c0) (intMask c0)) := by
  rw [pollPhases, if_pos touched]
  simp only [List.append_assoc]

theorem readCoords_walks {u : State} (c0 c1 : Word) (benign : Benign u) (step : u.loc.step = 0) :
    Walks (readPhases 0 false u.par.readFill (xhAddr c0) ++
        (readPhases 0 false u.par.readFill (yhAddr c0) ++ readPhases 0 false u.par.readFill (xylAddr c1))) u
      (readCoords c0 c1 u) (Gives fun xy v => xy = (coordOf (u.env.answer 3) (u.env.answer 11) (xlShift c1),
        coordOf (u.env.answer 7) (u.env.answer 11) (ylShift c1)) ∧ v.loc.step = 0) := by
  have first := readReg_walks (xhAddr c0) benign
  rw [step] at first
  refine first.andThen fun xh v _ whole ⟨hx, step⟩ => ?_
  have second := readReg_walks (yhAddr c0) whole.went.benign
  rw [step, whole.went.par] at second
  refine second.andThen fun yh w _ whole' ⟨hy, step'⟩ => ?_
  have third := (readReg_walks (xylAddr c1) whole'.went.benign)
  rw [step', whole'.went.par, whole.went.par] at third
  have both := (whole.trans whole').went
  refine (third.andThen (rest := []) (Fin := _) fun xyl x _ whole'' ⟨hl, step''⟩ =>
    walks_nil ⟨.of_hostOnly (.refl x) whole''.went.benign, rfl⟩ ⟨_, rfl, ?_, step''⟩)
  rw [hl, hx, hy, answer_congr 3 whole.went.miso whole.went.freeDraws, answer_congr 3 both.miso both.freeDraws,
    answer_after, answer_after]
  rfl

/-- The end of a touched poll: the commit, and the clearing of the interrupt (R238, R240). -/
def commitAndClear (c0 : Word) (xy : Coord × Coord) (x : State) : Res Unit :=
  (pass 1 (commitSample xy.1 xy.2 x)).andThen fun _ y =>
  (writeReg (intAddr c0) (intMask c0) y).andThen fun _ y => .ok () (setTpollAct false y)

/-- What a poll does after it has found the touch bit set (R236). -/
def afterTouch (c0 c1 : Word) (w : State) : Res Unit :=
  (readCoords c0 c1 (enterTouched w)).andThen fun xy x => commitAndClear c0 xy x

/-- A bus error in the clearing of the interrupt comes after the commit. -/
theorem commitAndClear_stopped {x : State} (c0 : Word) (xy : Coord × Coord) (benign : Benign x) (step : x.loc.step = 0)
    (has : x.par.hasBusErr = true) {r : Nat} (inside : r < 2) (error : ErrorAt r x) :
    ∃ v, commitAndClear c0 xy x = .raise .busFault (phaseDetail (x.loc.phase + r)) v ∧
      Cut (writePhases 0 (intAddr c0) (intMask c0)) r x v ∧
      ∀ s relcnt, InPoll s relcnt (· = s.sample) x → InPoll s 0#8 (· = committedSample xy s) v := by
  obtain ⟨_, y, passed, host, -, benign'⟩ := pass_benign (s := commitSample xy.1 xy.2 x) benign 1
  have went := Went.of_hostOnly host benign'
  have commit : Whole [] x y := ⟨{ went with phase := went.phase }, host.rdata⟩
  have clear := (writeReg_walks (intAddr c0) (intMask c0) benign').before commit
  rw [(congrArg Local.step host.loc : y.loc.step = x.loc.step), step] at clear
  obtain ⟨v, raised, cut⟩ := clear.stops r inside has error
  refine ⟨v, by rw [commitAndClear, passed, Res.ok_andThen, raised, Res.raise_andThen], cut, fun s relcnt h => ?_⟩
  have committed : InPoll s 0#8 (· = committedSample xy s) (commitSample xy.1 xy.2 x) :=
    { h with
      off := h.off
      relcnt := rfl
      sample := by rw [commitSample_sample, h.sample]; rfl }
  have law := inPoll_law s 0#8 (· = committedSample xy s)
  have kept := law.pass_sat (g := .gap) committed 1
  rw [passed] at kept
  have kept' := law.writeReg_sat (intAddr c0) (intMask c0) kept
  rw [raised] at kept'
  exact kept'

/-- A bus error after the touch bit has been found set. -/
theorem afterTouch_stopped {w : State} (c0 c1 : Word) (benign : Benign w) (step : w.loc.step = 0)
    (has : w.par.hasBusErr = true) {q : Nat} (inside : q < 8) (error : ErrorAt q w) :
    ∃ v, afterTouch c0 c1 w = .raise .busFault (phaseDetail (w.loc.phase + q)) v ∧
      Cut ((readPhases 0 false w.par.readFill (xhAddr c0) ++ (readPhases 0 false w.par.readFill (yhAddr c0) ++
        readPhases 0 false w.par.readFill (xylAddr c1))) ++ writePhases 0 (intAddr c0) (intMask c0)) q w v ∧
      ∀ s relcnt, InPoll s relcnt (· = s.sample) w →
        PollCut (q < 6) (coordOf (w.env.answer 3) (w.env.answer 11) (xlShift c1),
          coordOf (w.env.answer 7) (w.env.answer 11) (ylShift c1)) s relcnt v := by
  have enter : Whole [] w (enterTouched w) := ⟨{ Went.of_hostOnly (.refl w) benign with phase := rfl }, rfl⟩
  have coords := (readCoords_walks c0 c1 (u := enterTouched w) benign step).before enter
  have before (s : State) (relcnt : Byte) (h : InPoll s relcnt (· = s.sample) w) :
      (readCoords c0 c1 (enterTouched w)).Sat (InPoll s relcnt (· = s.sample)) (fun _ => False) False := by
    have law := inPoll_law s relcnt (· = s.sample)
    exact (law.readReg_sat _ h.enterTouched).then fun _ _ h => (law.readReg_sat _ h).then fun _ _ h =>
      (law.readReg_sat _ h).then fun _ _ h => h
  by_cases first : q < 6
  · obtain ⟨v, raised, cut⟩ := coords.stops q first has error
    refine ⟨v, by rw [afterTouch, raised, Res.raise_andThen], cut.append first _,
      fun s relcnt h => ⟨fun _ => ?_, absurd first⟩⟩
    have kept := before s relcnt h
    rw [raised] at kept
    exact kept
  obtain ⟨r, rfl⟩ := Nat.exists_eq_add_of_le (Nat.le_of_not_lt first)
  obtain ⟨x, whole, xy, read, rfl, step'⟩ := coords.passes error.noErrorFor
  obtain ⟨v, raised, cut, after⟩ := commitAndClear_stopped c0 (coordOf (w.env.answer 3) (w.env.answer 11) (xlShift c1),
    coordOf (w.env.answer 7) (w.env.answer 11) (ylShift c1)) whole.went.benign step' (by rw [whole.went.par]; exact has)
    (by omega) (whole.went.errorAt has error)
  refine ⟨v, ?_, whole.cut cut, fun s relcnt h => ⟨fun early => absurd early first, fun _ => after s relcnt ?_⟩⟩
  · rw [afterTouch, read, Res.ok_andThen, ← Nat.add_assoc]
    exact raised.trans (by rw [whole.went.phase]; rfl)
  · have kept := before s relcnt h
    rw [read] at kept
    exact kept

/-- A bus error in phase `p` of a poll stops it there (R143, R236, R243). -/
theorem pollSequence_stopped {u : State} (c0 c1 : Word) (benign : Benign u) (step : u.loc.step = 0)
    (has : u.par.hasBusErr = true) {p : Nat} (inside : p < (pollPhases c0 c1 u.par.readFill u.env).length)
    (error : ErrorAt p u) :
    ∃ v, pollSequence c0 c1 u = .raise .busFault (phaseDetail (u.loc.phase + p)) v ∧
      Cut (pollPhases c0 c1 u.par.readFill u.env) p u v ∧
      ∀ s relcnt, InPoll s relcnt (· = s.sample) u → PollCut (p < 8) (polledCoords c1 u.env) s relcnt v := by
  have status := readReg_walks (intAddr c0) benign
  rw [step] at status
  have before (s : State) (relcnt : Byte) (h : InPoll s relcnt (· = s.sample) u) :=
    (inPoll_law s relcnt (· = s.sample)).readReg_sat (intAddr c0) (s := u) h
  by_cases first : p < 2
  · obtain ⟨v, raised, cut⟩ := status.stops p first has error
    refine ⟨v, by rw [pollSequence, raised, Res.raise_andThen], cut.append first _,
      fun s relcnt h => ⟨fun _ => ?_, fun late => ?_⟩⟩
    · have kept := before s relcnt h
      rw [raised] at kept
      exact kept
    · omega
  obtain ⟨q, rfl⟩ := Nat.exists_eq_add_of_le (Nat.le_of_not_lt first)
  have touched : touchSet (u.env.answer 3) (intMask c0) = true := by
    by_contra clear
    rw [pollPhases, if_neg clear, List.append_nil] at inside
    exact first inside
  obtain ⟨w, whole, _, read, rfl, step'⟩ := status.passes error.noErrorFor
  have late : q < 8 := by
    have few := (pollPhases_bounds c0 c1 u.par.readFill u.env).1
    omega
  obtain ⟨v, raised, cut, poll⟩ := afterTouch_stopped c0 c1 whole.went.benign step' (by rw [whole.went.par]; exact has) late
    (whole.went.errorAt has error)
  rw [whole.went.par] at cut
  rw [pollPhases_touched touched]
  refine ⟨v, ?_, whole.cut cut, fun s relcnt h => ?_⟩
  · rw [pollSequence, read, Res.ok_andThen, if_pos touched, ← Nat.add_assoc]
    exact raised.trans (by rw [whole.went.phase]; rfl)
  · have kept := before s relcnt h
    rw [read] at kept
    have later (n : Nat) : w.env.answer n = u.env.answer (4 + n) := by
      rw [← answer_after]
      exact answer_congr n whole.went.miso whole.went.freeDraws
    obtain ⟨early, after⟩ := poll s relcnt kept
    rw [later, later, later] at after
    exact ⟨fun h => early (by omega), fun h => after (by omega)⟩

/-! ### The fault entries -/

/-- ERRAUX of a BUS_FAULT (10_state.md R37): the phase's index in DETAIL. -/
theorem busFault_erraux (now p : Nat) {step step' : Nat} (same : step' = step) :
    (errauxOf false (stepField now step') (phaseDetail (0 + p))).extractLsb' 0 16 = BitVec.ofNat 16 (min p 0xFFFF) ∧
      (errauxOf false (stepField now step') (phaseDetail (0 + p))).getLsbD 31 = false ∧
      (step < 32768 → ((errauxOf false (stepField now step') (phaseDetail (0 + p))).extractLsb' 16 15).toNat = step) := by
  rw [errauxOf_detail, errauxOf_bg, errauxOf_step, same, Nat.zero_add]
  exact ⟨rfl, rfl, toNat_stepField now⟩

/-- The command `i`, begun in `s`, raised BUS_FAULT in `v` after the events `pulse` and phase `p`. -/
structure Stopped (i : Instr) (p : Nat) (pulse : List BusEvent) (s v : State) : Prop where
  next : exec i s = .next (tick 1 (faultEntry (raiserOf i) .busFault (phaseDetail (0 + p)) v))
  seq : v.seq = s.seq
  bus : v.bus = s.bus ++ pulse ++ cutEvents (commandPhases s i) p s.env
  rdata : v.csr.rdata = rdataAfter ((commandPhases s i).take p) s.env s.csr.rdata
  step : ∀ ph, (commandPhases s i)[p]? = some ph → v.loc.step = ph.step

section Stopped

variable {i : Instr} {p : Nat} {s : State}

/-- A command begun with the pop's cycle alone. -/
theorem stopped_of_opened {u v : State} (exec : s.seq.state = .exec) (opened : Opened (entered i s) u)
    (next : Machine.exec i s = .next (tick 1 (faultEntry (raiserOf i) .busFault (phaseDetail (0 + p)) v)))
    (cut : Cut (commandPhases s i) p u v) : Stopped i p [] s v := by
  obtain ⟨n, went⟩ := cut.went
  have same : (entered i s).seq = s.seq ∧ (entered i s).bus = s.bus ∧ (entered i s).csr.rdata = s.csr.rdata ∧
      (entered i s).env = s.env := by cases i <;> exact ⟨rfl, rfl, rfl, rfl⟩
  obtain ⟨seq, bus, rdata, env⟩ := same
  have start := Went.of_hostOnly opened.host opened.benign
  have seq' : u.seq = s.seq := (opened.running (by rw [seq]; exact exec)).trans seq
  have miso : u.env.miso = s.env.miso := opened.miso.trans (by rw [env])
  have draws : u.env.freeDraws = s.env.freeDraws := opened.freeDraws.trans (by rw [env])
  refine ⟨next, (went.running (by rw [seq']; exact exec)).1.trans seq', ?_, ?_, cut.step⟩
  · have bus' : u.bus = s.bus := (start.bus.trans (List.append_nil _)).trans bus
    rw [went.bus, bus', List.append_nil, cutEvents_congr _ _ miso draws]
  · rw [cut.rdata, rdataAfter_congr _ _ miso draws, opened.host.rdata]
    exact congrArg _ rdata

/-- A command but INIT and TPOLL that a bus error stops. -/
theorem command_stopped (running : Running i s) (benign : Benign s) (noInit : ∀ k g, i ≠ .init k g)
    (noPoll : ∀ k, i ≠ .tpoll k) (has : s.par.hasBusErr = true) (inside : p < (commandPhases s i).length)
    (error : ErrorAt p s) : ∃ v, Stopped i p [] s v := by
  obtain ⟨_, u, opening, ran, now, host⟩ := openCommand_benign benign
  have opened : Opened s u := ⟨ran, now, host⟩
  obtain ⟨later, samples⟩ := error
  obtain ⟨v, raised, cut⟩ := commandBody_stops running opened noInit noPoll p inside (by rw [opened.par]; exact has)
    ⟨later, host.busErr.trans samples⟩
  rw [(congrArg Local.phase host.loc : u.loc.phase = 0)] at raised
  refine ⟨v, stopped_of_opened running.1 (by rw [entered_of_noPoll noPoll]; exact opened) ?_ cut⟩
  rw [exec_eq_runCommand, runCommand, entered_of_noPoll noPoll, opening, Res.ok_andThen, raised]
  rfl

/-- TPOLL that a bus error stops. -/
theorem tpoll_stopped {k : Bool} (running : Running (.tpoll k) s) (benign : Benign s) (has : s.par.hasBusErr = true)
    (inside : p < (commandPhases s (.tpoll k)).length) (error : ErrorAt p s) :
    ∃ v, Stopped (.tpoll k) p [] s v ∧ (Quiet s → PollCut (p < 8) (polledCoords s.csr.tcfg1 s.env) s s.poll.relcnt v) := by
  obtain ⟨_, u, opening, ran, now, host⟩ := openCommand_benign (s := entered (.tpoll k) s) benign
  have opened : Opened (entered (.tpoll k) s) u := ⟨ran, now, host⟩
  obtain ⟨later, samples⟩ := error
  have phases : pollPhases s.csr.tcfg0 s.csr.tcfg1 u.par.readFill u.env = commandPhases s (.tpoll k) := by
    rw [pollPhases_congr _ _ _ opened.miso opened.freeDraws, opened.par]
    rfl
  obtain ⟨v, raised, cut, poll⟩ := pollSequence_stopped s.csr.tcfg0 s.csr.tcfg1 opened.benign
    (congrArg Local.step host.loc) (by rw [opened.par]; exact has) (by rw [phases]; exact inside)
    ⟨later, host.busErr.trans samples⟩
  rw [phases] at cut
  rw [(congrArg Local.phase host.loc : u.loc.phase = 0)] at raised
  refine ⟨v, stopped_of_opened running.1 opened ?_ cut, fun quiet => ?_⟩
  · rw [exec_eq_runCommand, runCommand, opening, Res.ok_andThen]
    change closeCommand _ _ ((pollSequence s.csr.tcfg0 s.csr.tcfg1 u).andThen _) = _
    rw [raised]
    rfl
  · obtain rfl : tick 1 { setTpollAct true s with loc := Local.none } = u :=
      Res.ok.inj ((pass_quiet (s := { setTpollAct true s with loc := Local.none }) quiet 1).symm.trans opening) |>.2
    rw [← polledCoords_congr s.csr.tcfg1 (e := (tick 1 { setTpollAct true s with loc := Local.none }).env)
      (f := s.env) rfl rfl]
    exact poll s _ (inPoll_tpoll quiet)

/-- INIT that a bus error stops in its table. -/
theorem init_stopped {k : Bool} {g : Half} (running : Running (.init k g) s) (quiet : Quiet s)
    (has : s.par.hasBusErr = true) (inside : p < (commandPhases s (.init k g)).length) (error : ErrorAt p s) :
    ∃ v, Stopped (.init k g) p [.rstl, .rsth] s v ∧ v.csr.initDone = false := by
  have legal : g = 0#16 ∨ g = 1#16 := by
    by_contra illegal
    have empty : s.par.initTable g.toNat = [] := by
      unfold Params.initTable
      split
      · exact absurd (.inl (BitVec.eq_of_toNat_eq ‹_›)) illegal
      · exact absurd (.inr (BitVec.eq_of_toNat_eq ‹_›)) illegal
      · rfl
    rw [commandPhases, empty] at inside
    exact absurd inside (Nat.not_lt_zero _)
  obtain ⟨u, start, init⟩ := initSequence_starts g.toNat quiet running.1
  obtain ⟨later, samples⟩ := error
  obtain ⟨v, raised, cut⟩ := runTable_stops (s.par.initTable g.toNat) 1 start.atEntry p inside
    (by rw [start.atEntry.par]; exact has) ⟨later, by rw [start.busErr has, samples]⟩
  obtain ⟨miso, draws⟩ := And.intro start.atEntry.miso start.atEntry.freeDraws
  obtain ⟨n, went⟩ := cut.went
  refine ⟨v, ⟨?_, (went.running (by rw [start.seq]; exact running.1)).1.trans start.seq, ?_, ?_, cut.step⟩,
    went.initDone.trans start.initDone⟩
  · rw [exec_init quiet legal, init, raised, start.phase]
    rfl
  · rw [went.bus, start.bus, cutEvents_congr _ _ miso draws]
    rfl
  · rw [cut.rdata, start.rdata, rdataAfter_congr _ _ miso draws]
    rfl

/-- The fault entry of a stopped command, which names the phase (R303, R306). -/
theorem Stopped.ends {pulse : List BusEvent} {ph : Phase} {v : State} (h : Stopped i p pulse s v) (running : Running i s)
    (at_ : (commandPhases s i)[p]? = some ph) : ∃ aux,
      let t := tick 1 (faultEntry (raiserOf i) .busFault (phaseDetail (0 + p)) v)
      exec i s = .next t ∧ Faulted .busFault aux s t ∧ aux.extractLsb' 0 16 = BitVec.ofNat 16 (min p 0xFFFF) ∧
        aux.getLsbD 31 = false ∧ (ph.step < 32768 → (aux.extractLsb' 16 15).toNat = ph.step) ∧
        t.bus = s.bus ++ pulse ++ cutEvents (commandPhases s i) p s.env ∧
        t.csr.rdata = rdataAfter ((commandPhases s i).take p) s.env s.csr.rdata := by
  obtain ⟨detail, bg, step⟩ := busFault_erraux v.env.now p (h.step ph at_)
  exact ⟨_, h.next, faulted_of_seq (raiserOf_ne_background i) running.1 h.seq .busFault _, detail, bg, step,
    (tick_faultEntry_bus ..).trans h.bus, (faultEntry_rdata ..).1.trans h.rdata⟩

end Stopped

/-! ### The background poll -/

/-- The fault entry of a background poll: the poll's end, and the record unless SEQ is in FAULT already (R303, R310). -/
theorem faultEntry_background_fields (code : ErrCode) (detail : Half) (v : State) :
    let t := faultEntry .background code detail v
    let w := endPoll { v with poll := { v.poll with tphase := false } }
    t.poll = w.poll ∧ t.sample = w.sample ∧ t.seq = { v.seq with state := .fault } ∧ t.owner = .none ∧ t.q = v.q ∧
      t.lb = v.lb ∧ t.par = v.par ∧ t.csr = if v.seq.state = .fault then w.csr else { w.csr with
        err := code
        errcmd := 0xA0000000#32
        erraux := errauxOf true (stepField v.env.now v.loc.step) detail } := by
  by_cases faulted : v.seq.state = .fault
  · rw [faultEntry_of_faulted faulted]
    have seq : { v.seq with state := .fault } = v.seq := by rw [← faulted]
    exact ⟨rfl, rfl, seq.symm, rfl, rfl, rfl, rfl, (if_pos faulted).symm⟩
  · have unfaulted : ¬ v.faulted = true := by simpa [State.faulted] using faulted
    rw [faultEntry, if_neg unfaulted]
    exact ⟨rfl, rfl, rfl, rfl, rfl, rfl, rfl, (if_neg faulted).symm⟩

/-- ERRAUX of a background poll's BUS_FAULT (R306; 10_state.md R37). -/
theorem background_erraux : ∀ p < 10, errauxOf true 0#15 (phaseDetail (0 + p)) = 0x80000000#32 ||| BitVec.ofNat 32 p := by
  decide

/-- A background poll that a bus error in phase `p` stops. -/
theorem backgroundPoll_stopped {s : State} {p : Nat} (quiet : Quiet s) (has : s.par.hasBusErr = true)
    (inside : p < (pollPhases s.csr.tcfg0 s.csr.tcfg1 s.par.readFill s.env).length) (error : ErrorAt p s) :
    ∃ v, backgroundPoll s = .next (tick 1 (faultEntry .background .busFault (phaseDetail (0 + p)) v)) ∧
      v.bus = s.bus ++ cutEvents (pollPhases s.csr.tcfg0 s.csr.tcfg1 s.par.readFill s.env) p s.env ∧ v.loc.step = 0 ∧
      PollCut (p < 8) (polledCoords s.csr.tcfg1 s.env) (startPoll s) s.poll.relcnt v := by
  let u : State := tick 1 (startPoll s)
  have phases : pollPhases s.csr.tcfg0 s.csr.tcfg1 u.par.readFill u.env =
      pollPhases s.csr.tcfg0 s.csr.tcfg1 s.par.readFill s.env := pollPhases_congr _ _ _ rfl rfl
  obtain ⟨v, raised, cut, poll⟩ := pollSequence_stopped s.csr.tcfg0 s.csr.tcfg1 (u := u) quiet.benign rfl has
    (by rw [phases]; exact inside) error
  obtain ⟨n, went⟩ := cut.went
  refine ⟨v, by rw [backgroundPoll_quiet quiet, raised]; rfl, ?_, ?_, ?_⟩
  · rw [went.bus, phases]
    exact congrArg (s.bus ++ ·) (cutEvents_congr _ _ rfl rfl)
  · have at_ := List.getElem?_eq_getElem (l := pollPhases s.csr.tcfg0 s.csr.tcfg1 u.par.readFill u.env)
      (by rw [phases]; exact inside)
    exact (cut.step _ at_).trans ((pollPhases_bounds ..).2 _ (List.getElem_mem _))
  · rw [← polledCoords_congr s.csr.tcfg1 (e := u.env) (f := s.env) rfl rfl]
    exact poll _ _ (inPoll_start quiet)

/-- Settles O31: the command, INIT and the polls stop where the phase ends, and their fault entry names it. -/
theorem busFaultNamesPhase : Obligations.BusFaultNamesPhase := by
  unfold Obligations.BusFaultNamesPhase
  refine ⟨fun i p ph s running benign quiet has at_ error => ?_, fun p s quiet has pending free noStop => ?_⟩
  · obtain ⟨inside, -⟩ := List.getElem?_eq_some_iff.mp at_
    by_cases init : ∃ k g, i = .init k g
    · obtain ⟨k, g, rfl⟩ := init
      obtain ⟨v, stopped, initDone⟩ := init_stopped running (quiet ⟨k, g, rfl⟩) has inside error
      obtain ⟨aux, next, faulted, detail, bg, step, bus, rdata⟩ := stopped.ends running at_
      exact ⟨_, aux, next, faulted, detail, bg, step, bus, rdata, fun _ => (faultEntry_rdata ..).2.trans initDone,
        fun ⟨_, h⟩ => nomatch h⟩
    by_cases poll : ∃ k, i = .tpoll k
    · obtain ⟨k, rfl⟩ := poll
      obtain ⟨v, stopped, cut⟩ := tpoll_stopped running benign has inside error
      obtain ⟨aux, next, faulted, detail, bg, step, bus, rdata⟩ := stopped.ends running at_
      have entry := faultEntry_tpoll_of_exec (by rw [stopped.seq]; exact running.1) .busFault (phaseDetail (0 + p))
      refine ⟨_, aux, next, faulted, detail, bg, step, bus, rdata, (fun ⟨_, _, h⟩ => nomatch h),
        fun _ => ⟨?_, ?_, fun quiet => ?_⟩⟩
      · rw [tick_poll, advance_tphase, raiserOf, entry]
      · rw [tick_csr, raiserOf, entry]
      · rw [tick_sample, raiserOf, entry, faultEntry_command_of_exec (by rw [stopped.seq]; exact running.1)]
        exact (cut quiet).inPoll.sample
    · simp only [not_exists] at init poll
      obtain ⟨v, stopped⟩ := command_stopped running benign init poll has inside error
      obtain ⟨aux, next, faulted, detail, bg, step, bus, rdata⟩ := stopped.ends running at_
      refine ⟨_, aux, next, faulted, detail, bg, step, ?_, rdata, fun ⟨k, g, h⟩ => absurd h (init k g),
        fun ⟨k, h⟩ => absurd h (poll k)⟩
      cases i
      case init k g => exact absurd rfl (init k g)
      all_goals exact bus
  · intro phases inside error
    obtain ⟨v, next, bus, step, cut⟩ := backgroundPoll_stopped quiet has inside error
    obtain ⟨poll, sample, seq, owner, q, lb, par, csr⟩ := faultEntry_background_fields .busFault (phaseDetail (0 + p)) v
    let t : State := tick 1 (faultEntry .background .busFault (phaseDetail (0 + p)) v)
    have inPoll : InPoll (startPoll s) (if p < 8 then s.poll.relcnt else 0#8)
        (· = if p < 8 then s.sample else touchedSample s) v := cut.inPoll
    have ended : InPoll (startPoll s) (if p < 8 then s.poll.relcnt else 0#8)
        (· = if p < 8 then s.sample else touchedSample s) { v with poll := { v.poll with tphase := false } } :=
      { inPoll with off := inPoll.off }
    obtain ⟨sample', csr', relcnt, tphase, restarted, off⟩ := endPoll_inPoll ended noStop t (by
      rw [tick_poll, poll, par])
    refine ⟨t, by rw [step_backgroundPoll (hostDue_of_quiet quiet) pending free, next], ?_, ?_, owner, tphase, relcnt, ?_,
      q.trans ended.q, lb.trans ended.lb, restarted, off, ?_⟩
    · exact (tick_faultEntry_bus ..).trans bus
    · exact seq.trans (by rw [inPoll.seq]; rfl)
    · exact sample.trans (sample'.trans (InPoll.sample ended))
    · have few : p < 10 := Nat.lt_of_lt_of_le inside (pollPhases_bounds ..).1
      rw [tick_csr, csr, csr', inPoll.seq, step, stepField_zero, background_erraux p few]
      rfl

end Sys2Proof.Machine
end
